-- ==== Sys2Proof/Word.lean ====
section
/-! DEFINITION. The widths the spec gives names to: bytes, CSR words and command words. -/

namespace Sys2Proof

/-- A byte of a stream or of the window (R114, R119). -/
abbrev Byte := BitVec 8

/-- A CSR (R103). -/
abbrev CsrWord := BitVec 32

/-- A command word (R300). -/
abbrev Word := BitVec 64

end Sys2Proof
end

