-- ==== Sys2Proof/Syntax.lean ====
section
/-! DEFINITION. The 42 commands of R303, one constructor a row, each operand at the width of its field (R302). -/

namespace Sys2Proof

/-- A command. Operand order is that of R370. -/
inductive Instr where
  | sysNop
  | sysSoftReset
  | sysClearErr
  | sysConfigure
  | rceReset
  | rceBit (pi : BitVec 24) (b : Bool)
  | rceDirect (v : BitVec 32) (n : BitVec 6)
  | rceFlush
  | rcePending
  | rcdInit
  | rcdBit (pi : BitVec 24)
  | rcdDirect (n : BitVec 6)
  | rcdIsFinished
  | probReset
  | probRead (pi : BitVec 24)
  | probWrite (pi : BitVec 24) (v : BitVec 12)
  | lzSetProps (x : BitVec 8)
  | lzResetState
  | lzReadState
  | lzReadRep (i : BitVec 16)
  | lzeLit
  | lzeMatch (d : BitVec 32) (l : BitVec 9)
  | lzeRep (r : BitVec 2) (l : BitVec 9)
  | lzeShortrep
  | lzeEos
  | lzdSymbol (n : BitVec 48)
  | lzdRun (n : BitVec 48)
  | winReset
  | winFeed (n : BitVec 48)
  | winPut (x : BitVec 8)
  | winGet (d : BitVec 32)
  | mfReset
  | mfFind
  | mfCand (i : BitVec 16)
  | mfSkip (n : BitVec 48)
  | l2Encode
  | l2Decode
  | l2EncSegment (n : BitVec 48)
  | l2EncEnd
  | l2DecChunk
  | lzmaEncode
  | lzmaDecode (n : BitVec 48)
  deriving DecidableEq, Repr

end Sys2Proof
end

