-- ==== Sys2Proof/WellFormed.lean ====
section
/-! DEFINITION. The operand ranges of R303 that the command word alone decides. (`PI < NPROB` depends on lane 0's
properties and `I < |list|` of MF.CAND on the last search: those two are checked where the command executes.) -/

namespace Sys2Proof

/-- The column "operand range checked" of R303, less what depends on the state. -/
def Instr.wf : Instr → Bool
  | .rceDirect v n => decide (1 ≤ n.toNat ∧ n.toNat ≤ 32 ∧ v.toNat < 2 ^ n.toNat)
  | .rcdDirect n => decide (1 ≤ n.toNat ∧ n.toNat ≤ 32)
  | .probWrite _ v => decide (1 ≤ v.toNat ∧ v.toNat ≤ 2047)
  | .lzSetProps x => decide (x.toNat ≤ 224)
  | .lzReadRep i => decide (i.toNat ≤ 3)
  | .lzeMatch d l => decide (1 ≤ d.toNat ∧ 2 ≤ l.toNat ∧ l.toNat ≤ 273)
  | .lzeRep _ l => decide (2 ≤ l.toNat ∧ l.toNat ≤ 273)
  | .l2EncSegment n => decide (1 ≤ n.toNat)
  | .sysNop | .sysSoftReset | .sysClearErr | .sysConfigure
  | .rceReset | .rceBit _ _ | .rceFlush | .rcePending
  | .rcdInit | .rcdBit _ | .rcdIsFinished
  | .probReset | .probRead _
  | .lzResetState | .lzReadState
  | .lzeLit | .lzeShortrep | .lzeEos
  | .lzdSymbol _ | .lzdRun _
  | .winReset | .winFeed _ | .winPut _ | .winGet _
  | .mfReset | .mfFind | .mfCand _ | .mfSkip _
  | .l2Encode | .l2Decode | .l2EncEnd | .l2DecChunk
  | .lzmaEncode | .lzmaDecode _ => true

end Sys2Proof
end

