-- ==== Sys2Proof/Decode.lean ====
section
/-! DEFINITION. The decoder of command words (R300–R305) and, after it, the encoder. -/

namespace Sys2Proof

/-- Why a word is no command (R304). -/
inductive DecodeError where
  /-- IllegalCommand 0x01. -/
  | undefinedOpcode
  /-- IllegalCommand 0x02. -/
  | reservedBits
  deriving DecidableEq, Repr

/-- `c[63:56]` (R300). -/
def opcodeField (c : Word) : Nat := c.toNat / 2 ^ 56

/-- `c[lo + w - 1 : lo]`, an unsigned number (R302). -/
def field (lo w : Nat) (c : Word) : Nat := c.toNat / 2 ^ lo % 2 ^ w

/-- A row whose format leaves the listed fields `(lo, width)` reserved (R302, R304). -/
def reserving (c : Word) (zero : List (Nat × Nat)) (i : Instr) : Except DecodeError Instr :=
  if zero.all (fun z => field z.1 z.2 c == 0) then .ok i else .error .reservedBits

/-- Format Z. -/
def formatZ (c : Word) (i : Instr) : Except DecodeError Instr := reserving c [(0, 56)] i

/-- Format PB: `PI = c[23:0]`, `B = c[24]`. -/
def formatPB (c : Word) (i : BitVec 24 → Bool → Instr) : Except DecodeError Instr :=
  reserving c [(25, 31)] (i (BitVec.ofNat 24 (field 0 24 c)) (field 24 1 c == 1))

/-- Format P: `PI = c[23:0]`. -/
def formatP (c : Word) (i : BitVec 24 → Instr) : Except DecodeError Instr :=
  reserving c [(24, 32)] (i (BitVec.ofNat 24 (field 0 24 c)))

/-- Format PV: `PI = c[23:0]`, `V = c[35:24]`. -/
def formatPV (c : Word) (i : BitVec 24 → BitVec 12 → Instr) : Except DecodeError Instr :=
  reserving c [(36, 20)] (i (BitVec.ofNat 24 (field 0 24 c)) (BitVec.ofNat 12 (field 24 12 c)))

/-- Format NV: `V = c[31:0]`, `N = c[37:32]`. -/
def formatNV (c : Word) (i : BitVec 32 → BitVec 6 → Instr) : Except DecodeError Instr :=
  reserving c [(38, 18)] (i (BitVec.ofNat 32 (field 0 32 c)) (BitVec.ofNat 6 (field 32 6 c)))

/-- Format N: `N = c[37:32]`. -/
def formatN (c : Word) (i : BitVec 6 → Instr) : Except DecodeError Instr :=
  reserving c [(0, 32), (38, 18)] (i (BitVec.ofNat 6 (field 32 6 c)))

/-- Format B8: `X = c[7:0]`. -/
def formatB8 (c : Word) (i : BitVec 8 → Instr) : Except DecodeError Instr :=
  reserving c [(8, 48)] (i (BitVec.ofNat 8 (field 0 8 c)))

/-- Format DL: `D = c[31:0]`, `L = c[40:32]`. -/
def formatDL (c : Word) (i : BitVec 32 → BitVec 9 → Instr) : Except DecodeError Instr :=
  reserving c [(41, 15)] (i (BitVec.ofNat 32 (field 0 32 c)) (BitVec.ofNat 9 (field 32 9 c)))

/-- Format RL: `R = c[1:0]`, `L = c[40:32]`. -/
def formatRL (c : Word) (i : BitVec 2 → BitVec 9 → Instr) : Except DecodeError Instr :=
  reserving c [(2, 30), (41, 15)] (i (BitVec.ofNat 2 (field 0 2 c)) (BitVec.ofNat 9 (field 32 9 c)))

/-- Format C48: `N = c[47:0]`. -/
def formatC48 (c : Word) (i : BitVec 48 → Instr) : Except DecodeError Instr :=
  reserving c [(48, 8)] (i (BitVec.ofNat 48 (field 0 48 c)))

/-- Format I: `I = c[15:0]`. -/
def formatI (c : Word) (i : BitVec 16 → Instr) : Except DecodeError Instr :=
  reserving c [(16, 40)] (i (BitVec.ofNat 16 (field 0 16 c)))

/-- Format D32: `D = c[31:0]`. -/
def formatD32 (c : Word) (i : BitVec 32 → Instr) : Except DecodeError Instr :=
  reserving c [(32, 24)] (i (BitVec.ofNat 32 (field 0 32 c)))

/-- The opcode map of R303. Every opcode it does not list is undefined (R304). -/
def decode (c : Word) : Except DecodeError Instr :=
  match opcodeField c with
  | 0x00 => formatZ c .sysNop
  | 0x01 => formatZ c .sysSoftReset
  | 0x02 => formatZ c .sysClearErr
  | 0x03 => formatZ c .sysConfigure
  | 0x10 => formatZ c .rceReset
  | 0x11 => formatPB c .rceBit
  | 0x12 => formatNV c .rceDirect
  | 0x13 => formatZ c .rceFlush
  | 0x14 => formatZ c .rcePending
  | 0x18 => formatZ c .rcdInit
  | 0x19 => formatP c .rcdBit
  | 0x1A => formatN c .rcdDirect
  | 0x1B => formatZ c .rcdIsFinished
  | 0x20 => formatZ c .probReset
  | 0x21 => formatP c .probRead
  | 0x22 => formatPV c .probWrite
  | 0x28 => formatB8 c .lzSetProps
  | 0x29 => formatZ c .lzResetState
  | 0x2A => formatZ c .lzReadState
  | 0x2B => formatI c .lzReadRep
  | 0x30 => formatZ c .lzeLit
  | 0x31 => formatDL c .lzeMatch
  | 0x32 => formatRL c .lzeRep
  | 0x33 => formatZ c .lzeShortrep
  | 0x34 => formatZ c .lzeEos
  | 0x38 => formatC48 c .lzdSymbol
  | 0x39 => formatC48 c .lzdRun
  | 0x40 => formatZ c .winReset
  | 0x41 => formatC48 c .winFeed
  | 0x42 => formatB8 c .winPut
  | 0x43 => formatD32 c .winGet
  | 0x48 => formatZ c .mfReset
  | 0x49 => formatZ c .mfFind
  | 0x4A => formatI c .mfCand
  | 0x4B => formatC48 c .mfSkip
  | 0x50 => formatZ c .l2Encode
  | 0x51 => formatZ c .l2Decode
  | 0x52 => formatC48 c .l2EncSegment
  | 0x53 => formatZ c .l2EncEnd
  | 0x54 => formatZ c .l2DecChunk
  | 0x58 => formatZ c .lzmaEncode
  | 0x59 => formatC48 c .lzmaDecode
  | _ => .error .undefinedOpcode

/-- The word with opcode `op` and operand bits `operands` (R300). -/
def word (op operands : Nat) : Word := BitVec.ofNat 64 (op * 2 ^ 56 + operands)

/-- The word of a command, from the formats of R302 and the map of R303. -/
def encode : Instr → Word
  | .sysNop => word 0x00 0
  | .sysSoftReset => word 0x01 0
  | .sysClearErr => word 0x02 0
  | .sysConfigure => word 0x03 0
  | .rceReset => word 0x10 0
  | .rceBit pi b => word 0x11 (b.toNat * 2 ^ 24 + pi.toNat)
  | .rceDirect v n => word 0x12 (n.toNat * 2 ^ 32 + v.toNat)
  | .rceFlush => word 0x13 0
  | .rcePending => word 0x14 0
  | .rcdInit => word 0x18 0
  | .rcdBit pi => word 0x19 pi.toNat
  | .rcdDirect n => word 0x1A (n.toNat * 2 ^ 32)
  | .rcdIsFinished => word 0x1B 0
  | .probReset => word 0x20 0
  | .probRead pi => word 0x21 pi.toNat
  | .probWrite pi v => word 0x22 (v.toNat * 2 ^ 24 + pi.toNat)
  | .lzSetProps x => word 0x28 x.toNat
  | .lzResetState => word 0x29 0
  | .lzReadState => word 0x2A 0
  | .lzReadRep i => word 0x2B i.toNat
  | .lzeLit => word 0x30 0
  | .lzeMatch d l => word 0x31 (l.toNat * 2 ^ 32 + d.toNat)
  | .lzeRep r l => word 0x32 (l.toNat * 2 ^ 32 + r.toNat)
  | .lzeShortrep => word 0x33 0
  | .lzeEos => word 0x34 0
  | .lzdSymbol n => word 0x38 n.toNat
  | .lzdRun n => word 0x39 n.toNat
  | .winReset => word 0x40 0
  | .winFeed n => word 0x41 n.toNat
  | .winPut x => word 0x42 x.toNat
  | .winGet d => word 0x43 d.toNat
  | .mfReset => word 0x48 0
  | .mfFind => word 0x49 0
  | .mfCand i => word 0x4A i.toNat
  | .mfSkip n => word 0x4B n.toNat
  | .l2Encode => word 0x50 0
  | .l2Decode => word 0x51 0
  | .l2EncSegment n => word 0x52 n.toNat
  | .l2EncEnd => word 0x53 0
  | .l2DecChunk => word 0x54 0
  | .lzmaEncode => word 0x58 0
  | .lzmaDecode n => word 0x59 n.toNat

/-- The instruction this decoder reads from a table row's bits (bit 0 the least significant, R12); every command is
one 64-bit word (R300, R305), so the bits above `nbits` are 0. -/
def decodeTableWord (nbits w : Nat) : Option Instr :=
  match decode (BitVec.ofNat 64 (w % 2 ^ nbits)) with
  | .ok i => some i
  | .error _ => none

end Sys2Proof
end

