-- ==== Sys2Proof/Config.lean ====
section
/-! DEFINITION. The parameters of R9 that have a value, `W` at reset, and the free values of the model. The parameters `BT_FINDER` and
`OPT_PARSER` stand in Machine/Open.lean. -/

namespace Sys2Proof.Config

/-- `W`, the number of lanes `State.reset` has (R9, D38: OPEN, "a model chooses it").
DESIGN CHOICE, log 1 (unsafe): 4. Every other definition takes the number of lanes from the state it is given. -/
def lanes : Nat := 4

/-- `ID_VALUE` (R9, R103). -/
def idValue : CsrWord := 0x4C5A4D32#32

/-- `DICT_MIN` (R9, D14). -/
def dictMin : Nat := 4096

/-- `DICT_MAX` (R9, D14). -/
def dictMax : Nat := 1610612736

/-- `MATCH_LEN_MAX` (R9). -/
def matchLenMax : Nat := 273

/-- `NICE_MIN` (R9, D15). -/
def niceMin : Nat := 8

/-- `NICE_MAX` (R9, D15). -/
def niceMax : Nat := 273

/-- `U_LIMIT`: the most uncompressed bytes of one LZMA chunk the encoder makes (R9, R810). -/
def uLimit : Nat := 2097152

/-- `C_SOFT`: the pending size at which the encoder closes a chunk (R9, R811). -/
def cSoft : Nat := 65510

/-- `RAW_MAX`: the most bytes of one uncompressed chunk (R9, R812). -/
def rawMax : Nat := 65536

/-- FREE VALUE, log 7: how many bytes of IN a failing multi-lane L2.DECODE consumed, before it is brought into the
range R932 states. The argument is the state's counter `free`. -/
opaque consumedOnError : Nat → Nat

/-- FREE VALUE, log 8: what a read of CMD_HI returns (R103 and R110 give the register no content).
The argument is the state's counter `free`. -/
opaque cmdHiRead : Nat → CsrWord

end Sys2Proof.Config
end

