-- ==== Sys2Proof/Machine/State.lean ====
section
/-! DEFINITION. Everything R100–R160 give the block, as plain data, the reasons a step can stop, and the state after
reset (R160, R1100). -/

namespace Sys2Proof.Machine

/-- An internal store reached by index: the cells that do not hold the default, by strictly rising index (log 15).
The default is an argument of the operations in Machine/Ops.lean. -/
abbrev Memory (α : Type) := List (Nat × α)

/-! ## Error causes -/

/-- The error causes of R1002–R1006; the constructor's docstring gives class and sub-cause. WorkerFailure (R1007) wraps one of
them and is a flag of `Raised`. -/
inductive Cause where
  /-- ConfigError 0x01, with the value. -/
  | dictSize (v : Nat)
  /-- ConfigError 0x02, with the value. -/
  | lcRange (v : Nat)
  /-- ConfigError 0x03, with the value. -/
  | lpRange (v : Nat)
  /-- ConfigError 0x04, with the value. -/
  | pbRange (v : Nat)
  /-- ConfigError 0x05, with `lc + 16·lp`. -/
  | lclpSum (v : Nat)
  /-- ConfigError 0x06, with the value. -/
  | threads (v : Nat)
  /-- ConfigError 0x07, with the value. -/
  | niceLen (v : Nat)
  /-- CorruptStream 0x01. -/
  | reservedControl
  /-- CorruptStream 0x02. -/
  | missingDictReset
  /-- CorruptStream 0x03. -/
  | missingProps
  /-- CorruptStream 0x04. -/
  | badProps
  /-- CorruptStream 0x05. -/
  | shortPayload
  /-- CorruptStream 0x06. -/
  | badFirstByte
  /-- CorruptStream 0x07. -/
  | payloadExhausted
  /-- CorruptStream 0x08. -/
  | uncleanEnd
  /-- CorruptStream 0x09. -/
  | overrun
  /-- CorruptStream 0x0A. -/
  | truncated
  /-- CorruptStream 0x0B. -/
  | markerUnclean
  /-- InvalidReference 0x01. -/
  | beyondHistory
  /-- InvalidReference 0x02. -/
  | markerNotPermitted
  /-- CapacityExceeded 0x01. -/
  | capacity
  /-- IllegalCommand 0x01. -/
  | undefinedOpcode
  /-- IllegalCommand 0x02. -/
  | reservedBits
  /-- IllegalCommand 0x03. -/
  | operandRange
  /-- IllegalCommand 0x04. -/
  | notConfigured
  /-- IllegalCommand 0x05. -/
  | precondition
  /-- IllegalCommand 0x06. -/
  | coderCondition
  deriving DecidableEq, Repr

/-- Where an LZMA2 decode error lies: the failing chunk's index and the offset, in IN bytes the command read, of its
control byte (R1008). -/
structure ChunkPlace where
  index : Nat
  offset : Nat
  deriving DecidableEq, Repr

/-- An error as raised: its cause, whether it is wrapped as WorkerFailure (R925), and the chunk it is attributed to. -/
structure Raised where
  cause : Cause
  wrapped : Bool
  place : Option ChunkPlace
  deriving DecidableEq, Repr

/-! ## The parameters of the build (R9) -/

/-- Which `BT_FINDER` and which `OPT_PARSER` the block is built with (R9, R760, R761): `none` is the spec's default, `some k` the substitute
`k` of Machine/Open.lean. The third OPEN parameter, `W`, is one more than the length of `State.workers` (logs 1, 2, 3). -/
structure Build where
  finder : Option Nat
  parser : Option Nat
  deriving DecidableEq, Repr

/-- The defaults of R9: the hash-chain finder, and GREEDY_LAZY. -/
def Build.default : Build where
  finder := none
  parser := none

/-! ## Lane state (R115–R131) -/

/-- R115. `low` is 33 bits, bit 32 the pending carry. -/
structure RangeEnc where
  range : BitVec 32
  low : BitVec 33
  cache : Byte
  cacheSize : Nat
  flushed : Bool
  cbuf : List Byte
  deriving DecidableEq, Repr

/-- R116. -/
structure RangeDec where
  range : BitVec 32
  code : BitVec 32
  inited : Bool
  initBad : Bool
  deriving DecidableEq, Repr

/-- R118. The repeat registers hold distance − 1 (R15). -/
structure Coder where
  state : Fin 12
  rep0 : BitVec 32
  rep1 : BitVec 32
  rep2 : BitVec 32
  rep3 : BitVec 32
  lc : BitVec 4
  lp : BitVec 3
  pb : BitVec 3
  deriving DecidableEq, Repr

/-- R119. `WIN.end` is the length of `bytes`. -/
structure Window where
  bytes : List Byte
  cur : Nat
  dictSize : BitVec 32
  deriving DecidableEq, Repr

/-- What a substitute of a `Build` remembers from one position to the next, the model's own field (logs 2, 3): the finder's memory, `none`
while no position has been given to it since a reset (R760 c); the parser's; and the candidate lists of the positions the parser has
searched and not passed. The defaults leave it as it is. -/
structure Substitutes where
  finder : Option (List Nat)
  parser : List Nat
  ahead : List (Nat × List (Nat × Nat))
  deriving DecidableEq, Repr

/-- R120. An entry is a position or `none` (NONE), `none` the default of every table; `cache` is empty or a position and its
candidate list of (length, distance). `H4` is a function of `Window.dictSize` (R711). `own` is no part of R120 (logs 2, 3). -/
structure MatchFinder where
  t2 : Memory (Option Nat)
  t3 : Memory (Option Nat)
  t4 : Memory (Option Nat)
  chain : Memory (Option Nat)
  next : Nat
  cache : Option (Nat × List (Nat × Nat))
  own : Substitutes
  deriving DecidableEq, Repr

/-- R130. `segEnd = none` is ∞. -/
structure EncSession where
  active : Bool
  needDict : Bool
  needProps : Bool
  needState : Bool
  segEnd : Option Nat
  deriving DecidableEq, Repr

/-- R131. -/
structure DecSession where
  active : Bool
  needDictReset : Bool
  needProps : Bool
  chunkIndex : BitVec 32
  outTotal : BitVec 64
  deriving DecidableEq, Repr

/-- One lane (R101, R115–R131). `prob` is `P`, its unlisted cells 1024; `pb` is the payload buffer `PB` (R232, log 11). -/
structure Lane where
  rce : RangeEnc
  rcd : RangeDec
  prob : Memory (BitVec 11)
  lz : Coder
  win : Window
  mf : MatchFinder
  l2e : EncSession
  l2d : DecSession
  pb : List Byte
  deriving DecidableEq, Repr

/-! ## Configuration (R103, R108, R109, R113) -/

/-- The CFG registers, each at its implemented bits (R108). -/
structure CfgRegs where
  dictSize : BitVec 32
  lclppb : BitVec 11
  mode : BitVec 3
  niceLen : BitVec 9
  depth : BitVec 32
  preset : BitVec 32
  threads : BitVec 32
  spanLo : BitVec 32
  spanHi : BitVec 16
  outCapLo : BitVec 32
  outCapHi : BitVec 32
  deriving DecidableEq, Repr

/-- The registers that the host writes and reads back: CTRL.IN_EOF and the CFG registers (R103, R105, R108). -/
structure HostRegs where
  inEof : Bool
  cfg : CfgRegs
  deriving DecidableEq, Repr

/-- R113, the widths those of R108. -/
structure Act where
  dictSize : BitVec 32
  lc : BitVec 4
  lp : BitVec 4
  pb : BitVec 3
  mode : Bool
  mf : Bool
  eos : Bool
  niceLen : BitVec 9
  depth : BitVec 32
  threadCount : BitVec 32
  span : BitVec 48
  outCap : BitVec 64
  deriving DecidableEq, Repr

/-! ## The coordinator (R140) -/

/-- A chunk read from IN: control byte, `U`, properties byte, and its `C` payload or `U` raw bytes (R350, R832, R921). -/
structure Chunk where
  ctl : Byte
  size : Nat
  props : Option Byte
  data : List Byte
  deriving DecidableEq, Repr

/-- A chunk as the coordinator records it (R921): with its place in the stream and the last properties byte seen at or before it. -/
structure ChunkRecord where
  place : ChunkPlace
  chunk : Chunk
  inForce : Option Byte
  deriving DecidableEq, Repr

/-- A unit's input: a span (R910) or a run of chunks (R922). -/
inductive UnitInput where
  | span (bytes : List Byte)
  | chunks (cs : List ChunkRecord)
  deriving DecidableEq, Repr

/-- A completed unit's outcome (R923): success with its final window, or its first failure. -/
inductive UnitOutcome where
  | ok (final : Window)
  | failed (e : Raised)
  deriving DecidableEq, Repr

/-- A unit of work (R140): `lane` is the lane it runs on now, `outcome` is none until it completes. -/
structure WorkUnit where
  input : UnitInput
  lane : Option Nat
  buffer : List Byte
  outcome : Option UnitOutcome
  deriving DecidableEq, Repr

/-- R140. A unit's index is its position in `units`. -/
structure Coordinator where
  units : List WorkUnit
  nextDispatch : Nat
  nextCommit : Nat
  busy : Nat
  earliest : Option Raised
  deriving DecidableEq, Repr

/-! ## The outside world (R246, R270, R1100; log 5) -/

/-- What the host may do (R270). A CSR access names its width in bits and its byte offset in the 128-byte window. -/
inductive HostAction where
  | csrRead (width : Nat) (offset : BitVec 7)
  | csrWrite (width : Nat) (offset : BitVec 7) (value : CsrWord)
  | push (b : Byte)
  | pop
  deriving DecidableEq, Repr

/-- Who moves next: the host, the reset input (R1100), or the block. -/
inductive Turn where
  | host (a : HostAction)
  | reset
  | block
  deriving DecidableEq, Repr

/-! ## The state -/

/-- Everything the spec gives the block, its `build` (R9), and the model's own fields `agenda`, `draws`, `free` and `readData`
(logs 5, 9, 7 and 8, 18). `holding` is the executing command's taken bytes while it waits for input (log 4); `seen` is what CTRL and
the CFG registers held when the previous command completed (R104); STATUS is composed from its homes (Machine/Flags.lean). The number
of lanes is one more than the length of `workers`. -/
structure State where
  cq : List Word
  inp : List Byte
  out : List Byte
  stage : List Byte
  holding : Option (List Byte)
  act : Option Act
  err : Bool
  inEof : Bool
  errCode : BitVec 32
  errInfo : BitVec 64
  errUnit : BitVec 32
  cfg : CfgRegs
  seen : HostRegs
  result : BitVec 64
  inCount : BitVec 64
  outCount : BitVec 64
  cmdLo : BitVec 32
  lane0 : Lane
  workers : List Lane
  build : Build
  coord : Coordinator
  agenda : List Turn
  draws : List Nat
  free : Nat
  readData : BitVec 32
  deriving DecidableEq, Repr

/-- Why the model stops. -/
inductive Fault where
  /-- Raised by LZD.RUN and LZMA.DECODE, in a state where their symbol loop runs for ever: a cell of `P` that is 0, which
  R117 excludes. L2.DECODE's chunk loop names it too and never reaches it, each turn taking a byte of IN. Safe: log 12. -/
  | noProgress
  deriving DecidableEq, Repr

/-- What the model gives no meaning. -/
inductive Refusal where
  /-- An instruction with no meaning yet. No arm of `exec` answers it. -/
  | notModelled (mnemonic : String)
  /-- Raised by a host turn whose CSR access is not 32 bits wide or not at a multiple of 4 (R246: "refused: the model
  gives it no meaning"). Safe: log 14. -/
  | csrAccess
  deriving DecidableEq, Repr

/-! ## Reset values (R103, R160) -/

/-- The lane values of R160. -/
def Lane.reset : Lane where
  rce := { range := 0xFFFFFFFF#32, low := 0#33, cache := 0#8, cacheSize := 1, flushed := false, cbuf := [] }
  rcd := { range := 0xFFFFFFFF#32, code := 0#32, inited := false, initBad := false }
  prob := []
  lz := { state := 0, rep0 := 0#32, rep1 := 0#32, rep2 := 0#32, rep3 := 0#32, lc := 3#4, lp := 0#3, pb := 2#3 }
  win := { bytes := [], cur := 0, dictSize := 0x00800000#32 }
  mf := { t2 := [], t3 := [], t4 := [], chain := [], next := 0, cache := none, own := { finder := none, parser := [], ahead := [] } }
  l2e := { active := false, needDict := true, needProps := true, needState := false, segEnd := none }
  l2d := { active := false, needDictReset := true, needProps := true, chunkIndex := 0#32, outTotal := 0#64 }
  pb := []

/-- The reset column of R103 for the CFG registers, with `w` lanes. -/
def CfgRegs.reset (w : Nat) : CfgRegs where
  dictSize := 0x00800000#32
  lclppb := 0x203#11
  mode := 3#3
  niceLen := 64#9
  depth := 0#32
  preset := 6#32
  threads := BitVec.ofNat 32 w
  spanLo := 0#32
  spanHi := 0#16
  outCapLo := 0xFFFFFFFF#32
  outCapHi := 0xFFFFFFFF#32

/-- R160: "no units". -/
def Coordinator.idle : Coordinator where
  units := []
  nextDispatch := 0
  nextCommit := 0
  busy := 0
  earliest := none

/-- The state after reset of a block with `n` lanes beside lane 0, built as `b` says (R9, R160, R1100). -/
def State.resetWith (n : Nat) (b : Build) : State where
  cq := []
  inp := []
  out := []
  stage := []
  holding := none
  act := none
  err := false
  inEof := false
  errCode := 0#32
  errInfo := 0#64
  errUnit := 0#32
  cfg := CfgRegs.reset (n + 1)
  seen := { inEof := false, cfg := CfgRegs.reset (n + 1) }
  result := 0#64
  inCount := 0#64
  outCount := 0#64
  cmdLo := 0#32
  lane0 := Lane.reset
  workers := List.replicate n Lane.reset
  build := b
  coord := Coordinator.idle
  agenda := []
  draws := []
  free := 0
  readData := 0#32

/-- The state after reset, with `W = Config.lanes` lanes (log 1) and the defaults of R9 for the other two OPEN parameters (logs 2, 3). -/
def State.reset : State := State.resetWith (Config.lanes - 1) Build.default

end Sys2Proof.Machine
end

