-- ==== Sys2Proof/Machine/Flags.lean ====
section
/-! DEFINITION. The STATUS flags (R104) and the error words (R106, R1001–R1008). -/

namespace Sys2Proof.Machine

/-- STATUS.BUSY (R104): CQ is not empty, or a command is executing (it stays at the head of CQ until it completes, R331). -/
def State.busy (s : State) : Bool := !s.cq.isEmpty

/-- STATUS.CONFIGURED (R104, R113). -/
def State.configured (s : State) : Bool := s.act.isSome

/-- STATUS.IN_WAIT (R104, R231). -/
def State.inWait (s : State) : Bool := s.holding.isSome

/-- STATUS (R104). -/
def State.status (s : State) : CsrWord :=
  BitVec.ofNat 32 (s.busy.toNat + s.err.toNat * 2 + s.configured.toNat * 4 + s.inWait.toNat * 8 +
    s.lane0.l2e.active.toNat * 16 + s.lane0.l2d.active.toNat * 32)

/-- A session is open (R801). -/
def State.sessionOpen (s : State) : Bool := s.lane0.l2e.active || s.lane0.l2d.active

/-- The error classes of R1001 that a cause can have. -/
inductive ErrClass where
  | config
  | corrupt
  | reference
  | capacity
  | illegal
  deriving DecidableEq, Repr

/-- ERR_CODE.CLASS (R1001). -/
def ErrClass.code : ErrClass → Nat
  | .config => 1
  | .corrupt => 2
  | .reference => 3
  | .capacity => 4
  | .illegal => 6

/-- The class code of WorkerFailure and its one sub-cause (R1001, R1007). -/
def workerClass : Nat := 5

/-- R1007. -/
def workerSub : Nat := 1

/-- R1001. -/
def Cause.cls : Cause → ErrClass
  | .dictSize _ | .lcRange _ | .lpRange _ | .pbRange _ | .lclpSum _ | .threads _ | .niceLen _ => .config
  | .reservedControl | .missingDictReset | .missingProps | .badProps | .shortPayload | .badFirstByte
  | .payloadExhausted | .uncleanEnd | .overrun | .truncated | .markerUnclean => .corrupt
  | .beyondHistory | .markerNotPermitted => .reference
  | .capacity => .capacity
  | .undefinedOpcode | .reservedBits | .operandRange | .notConfigured | .precondition | .coderCondition => .illegal

/-- ERR_CODE.SUB (R1002–R1006). -/
def Cause.sub : Cause → Nat
  | .dictSize _ => 0x01
  | .lcRange _ => 0x02
  | .lpRange _ => 0x03
  | .pbRange _ => 0x04
  | .lclpSum _ => 0x05
  | .threads _ => 0x06
  | .niceLen _ => 0x07
  | .reservedControl => 0x01
  | .missingDictReset => 0x02
  | .missingProps => 0x03
  | .badProps => 0x04
  | .shortPayload => 0x05
  | .badFirstByte => 0x06
  | .payloadExhausted => 0x07
  | .uncleanEnd => 0x08
  | .overrun => 0x09
  | .truncated => 0x0A
  | .markerUnclean => 0x0B
  | .beyondHistory => 0x01
  | .markerNotPermitted => 0x02
  | .capacity => 0x01
  | .undefinedOpcode => 0x01
  | .reservedBits => 0x02
  | .operandRange => 0x03
  | .notConfigured => 0x04
  | .precondition => 0x05
  | .coderCondition => 0x06

/-- The value ERR_INFO holds for a ConfigError (R1002). -/
def Cause.value : Cause → Nat
  | .dictSize v | .lcRange v | .lpRange v | .pbRange v | .lclpSum v | .threads v | .niceLen v => v
  | _ => 0

/-- ERR_CODE = {ORIG_SUB, ORIG_CLASS, SUB, CLASS} (R106, R1010 d). -/
def Raised.errCode (e : Raised) : BitVec 32 :=
  if e.wrapped then
    BitVec.ofNat 32 (e.cause.sub * 2 ^ 24 + e.cause.cls.code * 2 ^ 16 + workerSub * 2 ^ 8 + workerClass)
  else BitVec.ofNat 32 (e.cause.sub * 2 ^ 8 + e.cause.cls.code)

/-- ERR_INFO (R1008): the command word, the configuration value, the failing chunk's offset, or the bytes the command had
taken from IN. -/
def Raised.errInfo (e : Raised) (command : Word) (took : Nat) : BitVec 64 :=
  match e.cause.cls with
  | .illegal => command
  | .config => BitVec.ofNat 64 e.cause.value
  | _ =>
    match e.place with
    | some p => BitVec.ofNat 64 p.offset
    | none => BitVec.ofNat 64 took

/-- ERR_UNIT (R107, R1008): the chunk index, saturating, for the errors of the LZMA2 decode commands; 0 for others. -/
def Raised.errUnit (e : Raised) : BitVec 32 :=
  match e.place with
  | some p => BitVec.ofNat 32 (min p.index (2 ^ 32 - 1))
  | none => 0#32

end Sys2Proof.Machine
end

