-- ==== Sys2Proof/Machine/Ops.lean ====
section
/-! DEFINITION. The named operations the meanings share: the sparse stores, the lanes and LaneInit (R1102), the byte streams
(R230–R236), the window (R240–R242, R702), completion (R331), the error completion (R1010) and its return (R1043). -/

namespace Sys2Proof.Machine

/-! ## Results of a computation -/

/-- Why a command's computation stops before its last line. -/
inductive Stop where
  /-- Its byte source has no byte left: the action is the caller's (R231, R232). -/
  | dry
  /-- IN is empty before IN_EOF: the command holds (R231). -/
  | hold
  /-- Its loop never ends (`Fault.noProgress`). -/
  | noProgress
  /-- It raises an error (R1000). -/
  | raise (e : Raised)
  deriving DecidableEq, Repr

/-- The result of a computation over the working state `σ`. -/
inductive Res (σ α : Type) where
  | ok (a : α) (s : σ)
  | stop (e : Stop) (s : σ)
  deriving DecidableEq, Repr

/-- Sequencing: a stop ends the computation. -/
def Res.bind {σ α β : Type} (r : Res σ α) (f : α → σ → Res σ β) : Res σ β :=
  match r with
  | .ok a s => f a s
  | .stop e s => .stop e s

/-- `raise` of an error that no chunk is named for (R13). -/
def Stop.of (c : Cause) : Stop := .raise { cause := c, wrapped := false, place := none }

/-- `require b, else raise c`. -/
def require {σ α : Type} (b : Bool) (c : Cause) (s : σ) (k : Res σ α) : Res σ α :=
  if b then k else .stop (.of c) s

/-! ## Sparse stores (log 15) -/

namespace Memory

/-- The value of cell `a`; an unlisted cell holds `d`. -/
def read {α : Type} (d : α) : Memory α → Nat → α
  | [], _ => d
  | (k, v) :: rest, a => if a < k then d else if a = k then v else read d rest a

/-- Sets cell `a` to `v`, keeping the canonical form. -/
def write {α : Type} [DecidableEq α] (d : α) : Memory α → Nat → α → Memory α
  | [], a, v => if v = d then [] else [(a, v)]
  | (k, w) :: rest, a, v =>
    if a < k then (if v = d then (k, w) :: rest else (a, v) :: (k, w) :: rest)
    else if a = k then (if v = d then rest else (a, v) :: rest)
    else (k, w) :: write d rest a v

/-- Every index is at least `lo`, the indices rise strictly, and no entry holds the default. -/
def wfFrom {α : Type} [DecidableEq α] (d : α) : Nat → Memory α → Bool
  | _, [] => true
  | lo, (k, v) :: rest => decide (lo ≤ k) && decide (v ≠ d) && wfFrom d (k + 1) rest

/-- The canonical form. -/
def wf {α : Type} [DecidableEq α] (d : α) (m : Memory α) : Bool := wfFrom d 0 m

end Memory

/-- The midpoint, the value of every cell of `P` that is not listed (R501). -/
def probMid : BitVec 11 := 1024#11

/-- `P[i]` (R13). -/
def Lane.cell (l : Lane) (i : Nat) : BitVec 11 := Memory.read probMid l.prob i

/-- `P[i] <- v` (R13). -/
def Lane.setCell (l : Lane) (i : Nat) (v : BitVec 11) : Lane := { l with prob := Memory.write probMid l.prob i v }

/-! ## Lanes -/

/-- `W` (R9, R103): the number of lanes. -/
def State.laneCount (s : State) : Nat := s.workers.length + 1

/-- Lane `i` (R101). -/
def State.lane (s : State) (i : Nat) : Lane :=
  match i with
  | 0 => s.lane0
  | n + 1 => s.workers.getD n s.lane0

/-- Replaces lane `i`. -/
def State.setLane (s : State) (i : Nat) (l : Lane) : State :=
  match i with
  | 0 => { s with lane0 := l }
  | n + 1 => { s with workers := s.workers.set n l }

/-- Replaces lane 0. -/
def State.withLane0 (s : State) (l : Lane) : State := { s with lane0 := l }

/-- RCE.RESET's values (R410). -/
def RangeEnc.fresh : RangeEnc where
  range := 0xFFFFFFFF#32
  low := 0#33
  cache := 0#8
  cacheSize := 1
  flushed := false
  cbuf := []

/-- The decoder part of LaneInit (R1102). -/
def RangeDec.fresh : RangeDec where
  range := 0xFFFFFFFF#32
  code := 0#32
  inited := false
  initBad := false

/-- The match-finder part of LaneInit (R1102), and MFReset (R754) with `next` at 0. -/
def MatchFinder.fresh : MatchFinder where
  t2 := []
  t3 := []
  t4 := []
  chain := []
  next := 0
  cache := none
  own := { finder := none, parser := [], ahead := [] }

/-- A session's opening flags (R1102, R130). -/
def EncSession.fresh : EncSession where
  active := false
  needDict := true
  needProps := true
  needState := false
  segEnd := none

/-- A session's opening flags (R1102, R131). -/
def DecSession.fresh : DecSession where
  active := false
  needDictReset := true
  needProps := true
  chunkIndex := 0#32
  outTotal := 0#64

/-- `LaneInit` (R1102). It sets every item of a lane, so it does not depend on the lane. -/
def laneInit : Option Act → Lane
  | none => Lane.reset
  | some a =>
    { rce := RangeEnc.fresh
      rcd := RangeDec.fresh
      prob := []
      lz := { state := 0, rep0 := 0#32, rep1 := 0#32, rep2 := 0#32, rep3 := 0#32
              lc := a.lc, lp := a.lp.setWidth 3, pb := a.pb }
      win := { bytes := [], cur := 0, dictSize := a.dictSize }
      mf := MatchFinder.fresh
      l2e := EncSession.fresh
      l2d := DecSession.fresh
      pb := [] }

/-- `LaneInit(0)`. -/
def State.initLane0 (s : State) : State := { s with lane0 := laneInit s.act }

/-- `LaneInit(l)` for every lane. -/
def State.initLanes (s : State) : State :=
  { s with lane0 := laneInit s.act, workers := s.workers.map (fun _ => laneInit s.act) }

/-- A state reset (R671, R833): every cell 1024, state 0, reps 0. -/
def Lane.stateReset (l : Lane) : Lane :=
  { l with prob := [], lz := { l.lz with state := 0, rep0 := 0#32, rep1 := 0#32, rep2 := 0#32, rep3 := 0#32 } }

/-- `props_decode` (R360), for `PR ≤ 224`. -/
def propsDecode (pr : Byte) : BitVec 4 × BitVec 3 × BitVec 3 :=
  (BitVec.ofNat 4 (pr.toNat % 45 % 9), BitVec.ofNat 3 (pr.toNat % 45 / 9), BitVec.ofNat 3 (pr.toNat / 45))

/-- `PR = (pb · 5 + lp) · 9 + lc` (R360). -/
def propsEncode (lc : BitVec 4) (lp pb : BitVec 3) : Byte :=
  BitVec.ofNat 8 ((pb.toNat * 5 + lp.toNat) * 9 + lc.toNat)

/-- New properties rebuild the store with every cell 1024 (R212), and reset the coder state (R670, R833). -/
def Lane.setProps (l : Lane) (pr : Byte) : Lane :=
  { l with
    prob := []
    lz := { state := 0, rep0 := 0#32, rep1 := 0#32, rep2 := 0#32, rep3 := 0#32
            lc := (propsDecode pr).1, lp := (propsDecode pr).2.1, pb := (propsDecode pr).2.2 } }

/-! ## The window (R240–R242, R700–R703) -/

/-- `WIN.end` (R119). -/
def Window.endPos (w : Window) : Nat := w.bytes.length

/-- `WIN.bytes[p]`. No rule reads at or beyond `WIN.end` (R240, R241); there the model has 0 (log 16). -/
def Window.byteAt (w : Window) (p : Nat) : Byte := w.bytes.getD p 0#8

/-- `hist = min(WIN.cur, WIN.dict_size)` (R702). -/
def Window.hist (w : Window) : Nat := min w.cur w.dictSize.toNat

/-- `Win(d)` (R240). -/
def Window.back (w : Window) (d : Nat) : Byte := w.byteAt (w.cur - d)

/-- `Look(k)` (R241). -/
def Window.look (w : Window) (k : Nat) : Byte := w.byteAt (w.cur + k)

/-- `prev` (R242). -/
def Window.prev (w : Window) : Byte := if w.cur = 0 then 0#8 else w.back 1

/-- The window's part of `Put` for a run of bytes (R630, R836): they are appended and the coding position passes them. -/
def Window.append (w : Window) (bs : List Byte) : Window :=
  { w with bytes := w.bytes ++ bs, cur := w.cur + bs.length }

/-- Lookahead bytes are appended (R751, R660). -/
def Window.feed (w : Window) (bs : List Byte) : Window := { w with bytes := w.bytes ++ bs }

/-- A window reset (R750, R833) to dictionary size `d`. -/
def Window.empty (d : BitVec 32) : Window where
  bytes := []
  cur := 0
  dictSize := d

/-! ## Byte streams (R230–R236) -/

/-- The action where IN has no byte: hold before IN_EOF, else CorruptStream 0x0A (R231). -/
def State.inDry (s : State) : Stop := if s.inEof then .of .truncated else .hold

/-- `InByte()` on IN (R231). -/
def inByte (s : State) : Res State Byte :=
  match s.inp with
  | b :: rest => .ok b { s with inp := rest }
  | [] => .stop s.inDry s

/-- `n` times `InByte()` on IN. -/
def inBytes (n : Nat) (s : State) : Res State (List Byte) :=
  if n ≤ s.inp.length then .ok (s.inp.take n) { s with inp := s.inp.drop n }
  else .stop s.inDry { s with inp := [] }

/-- `InByte()` at most `n` times, `[EXHAUSTED_IN: exit loop]` (R751, R852). -/
def inUpTo (n : Nat) (s : State) : Res State (List Byte) :=
  if n ≤ s.inp.length then .ok (s.inp.take n) { s with inp := s.inp.drop n }
  else if s.inEof then .ok s.inp { s with inp := [] }
  else .stop .hold { s with inp := [] }

/-- `loop: InByte() [EXHAUSTED_IN: exit loop]` (R660, R850). -/
def inAll (s : State) : Res State (List Byte) :=
  if s.inEof then .ok s.inp { s with inp := [] } else .stop .hold { s with inp := [] }

/-- `OutByte` for each of `bs` (R234). -/
def State.outBytes (s : State) (bs : List Byte) : State := { s with stage := s.stage ++ bs }

/-- Adds to a 64-bit counter that saturates (R112). -/
def satAdd64 (a : BitVec 64) (n : Nat) : BitVec 64 := BitVec.ofNat 64 (min (a.toNat + n) (2 ^ 64 - 1))

/-- Adds 1 to a 32-bit counter that saturates (R131). -/
def satInc32 (a : BitVec 32) : BitVec 32 := BitVec.ofNat 32 (min (a.toNat + 1) (2 ^ 32 - 1))

/-! ## Completion (R331), the error completion (R1010) and its return (R1043) -/

/-- The bytes the command at the head of CQ can read: those it took before it held, then IN (log 4). -/
def State.input (s : State) : List Byte := s.holding.getD [] ++ s.inp

/-- A command starts: its whole input before it, an empty STAGE (R234). -/
def State.begin (s : State) : State := { s with inp := s.input, holding := none, stage := [] }

/-- CTRL and the CFG registers as they stand. -/
def State.hostRegs (s : State) : HostRegs := { inEof := s.inEof, cfg := s.cfg }

/-- CTRL and the CFG registers as a read shows them (R104, R252): while a command executes, as they stood when the previous one
completed (log 24). -/
def State.shownRegs (s : State) : HostRegs := if s.inWait then s.seen else s.hostRegs

/-- Completion without error: STAGE goes to OUT (R234), RESULT is written (R111), the counters are updated (R112), the command leaves
CQ (R331), and the host's registers are kept as they stand (R104). `took` is the number of bytes it took from IN. -/
def complete (took : Nat) (v : BitVec 64) (t : State) : State :=
  { t with
    out := t.out ++ t.stage
    stage := []
    result := v
    inCount := satAdd64 t.inCount took
    outCount := satAdd64 t.outCount t.stage.length
    seen := t.hostRegs
    cq := t.cq.tail }

/-- The command holds (R231): the bytes it took stay taken, nothing else of it shows (R252). -/
def suspend (s : State) : State := { s with holding := some s.input, inp := [] }

/-- The error completion (R1010): STAGE discarded, IN bytes kept taken and counted, RESULT unchanged, STATUS.ERR and the ERR
registers written, the command removed, the host's registers kept as they stand (R104), and, unless the class is
IllegalCommand, every lane initialised and the coordinator's units discarded. -/
def takeError (command : Word) (took : Nat) (e : Raised) (t : State) : State :=
  let u : State :=
    { t with
      stage := []
      err := true
      errCode := e.errCode
      errInfo := e.errInfo command took
      errUnit := e.errUnit
      inCount := satAdd64 t.inCount took
      seen := t.hostRegs
      cq := t.cq.tail }
  match e.cause.cls with
  | .illegal => u
  | _ => { u with coord := Coordinator.idle }.initLanes

/-- The return from an error (R1011, R1043): STATUS.ERR and the ERR registers become 0. -/
def clearError (s : State) : State :=
  { s with err := false, errCode := 0#32, errInfo := 0#64, errUnit := 0#32 }

/-- While STATUS.ERR = 1 the sequencer removes a command unexecuted (R1011). -/
def discard (s : State) : State := { s with cq := s.cq.tail }

end Sys2Proof.Machine
end

