-- ==== Sys2Proof/Machine/Csr.lean ====
section
/-! DEFINITION. The CSR window (R103–R112, R246, R247, R870) and the host's actions (R270), with the reset input (R1100). -/

namespace Sys2Proof.Machine

/-- The low and the high half of a 64-bit register (R245). -/
def lowHalf (v : BitVec 64) : CsrWord := BitVec.ofNat 32 v.toNat

/-- R245. -/
def highHalf (v : BitVec 64) : CsrWord := BitVec.ofNat 32 (v.toNat / 2 ^ 32)

/-- The value of an aligned 32-bit read (the table of R103): an offset that is not in the table, and the write-only CMD_LO, read 0. What
CMD_HI reads is a free value (log 8). While a command executes, only BUSY and IN_WAIT are live (R104, R252): CTRL and the CFG registers
are read from `shownRegs`, and no other register changes before the command completes. -/
def csrValue (s : State) (offset : BitVec 7) : CsrWord :=
  let r := s.shownRegs
  match offset.toNat with
  | 0x00 => Config.idValue
  | 0x04 => s.status
  | 0x08 => BitVec.ofNat 32 r.inEof.toNat
  | 0x0C => s.errCode
  | 0x10 => lowHalf s.errInfo
  | 0x14 => highHalf s.errInfo
  | 0x18 => s.errUnit
  | 0x1C => BitVec.ofNat 32 s.laneCount
  | 0x20 => r.cfg.dictSize
  | 0x24 => r.cfg.lclppb.setWidth 32
  | 0x28 => r.cfg.mode.setWidth 32
  | 0x2C => r.cfg.niceLen.setWidth 32
  | 0x30 => r.cfg.depth
  | 0x34 => r.cfg.preset
  | 0x38 => r.cfg.threads
  | 0x3C => r.cfg.spanLo
  | 0x40 => r.cfg.spanHi.setWidth 32
  | 0x44 => r.cfg.outCapLo
  | 0x48 => r.cfg.outCapHi
  | 0x50 => lowHalf s.result
  | 0x54 => highHalf s.result
  | 0x58 => lowHalf s.inCount
  | 0x5C => highHalf s.inCount
  | 0x60 => lowHalf s.outCount
  | 0x64 => highHalf s.outCount
  | 0x74 => Config.cmdHiRead s.free
  | _ => 0#32

/-- A row of the preset table (R870): CFG_DICT_SIZE, CFG_MODE[1:0], CFG_NICE_LEN and CFG_DEPTH. -/
structure Preset where
  dictSize : Nat
  modeMf : Nat
  niceLen : Nat
  depth : Nat
  deriving DecidableEq, Repr

/-- The preset table (R870), for a level of at most 9. -/
def presetOf : Nat → Preset
  | 0 => { dictSize := 262144, modeMf := 0, niceLen := 128, depth := 4 }
  | 1 => { dictSize := 1048576, modeMf := 0, niceLen := 128, depth := 8 }
  | 2 => { dictSize := 2097152, modeMf := 0, niceLen := 273, depth := 24 }
  | 3 => { dictSize := 4194304, modeMf := 0, niceLen := 273, depth := 48 }
  | 4 => { dictSize := 4194304, modeMf := 3, niceLen := 16, depth := 0 }
  | 5 => { dictSize := 8388608, modeMf := 3, niceLen := 32, depth := 0 }
  | 6 => { dictSize := 8388608, modeMf := 3, niceLen := 64, depth := 0 }
  | 7 => { dictSize := 16777216, modeMf := 3, niceLen := 64, depth := 0 }
  | 8 => { dictSize := 33554432, modeMf := 3, niceLen := 64, depth := 0 }
  | _ => { dictSize := 67108864, modeMf := 3, niceLen := 64, depth := 0 }

/-- A write of CFG_PRESET (R109): a value above 9 is ignored; bit 2 of CFG_MODE is kept. -/
def writePreset (v : CsrWord) (c : CfgRegs) : CfgRegs :=
  if v.toNat ≤ 9 then
    let p := presetOf v.toNat
    { c with
      dictSize := BitVec.ofNat 32 p.dictSize
      lclppb := 0x203#11
      mode := BitVec.ofNat 3 (c.mode.toNat / 4 * 4 + p.modeMf)
      niceLen := BitVec.ofNat 9 p.niceLen
      depth := BitVec.ofNat 32 p.depth
      preset := v }
  else c

/-- The state after an aligned 32-bit write (R103, R105, R108–R110). Reserved bits, read-only registers and offsets that are not
in the table ignore it. -/
def csrStore (offset : BitVec 7) (v : CsrWord) (s : State) : State :=
  match offset.toNat with
  | 0x08 => { s with inEof := v.toNat.testBit 0 }
  | 0x20 => { s with cfg := { s.cfg with dictSize := v } }
  | 0x24 => { s with cfg := { s.cfg with lclppb := v.setWidth 11 } }
  | 0x28 => { s with cfg := { s.cfg with mode := v.setWidth 3 } }
  | 0x2C => { s with cfg := { s.cfg with niceLen := v.setWidth 9 } }
  | 0x30 => { s with cfg := { s.cfg with depth := v } }
  | 0x34 => { s with cfg := writePreset v s.cfg }
  | 0x38 => { s with cfg := { s.cfg with threads := v } }
  | 0x3C => { s with cfg := { s.cfg with spanLo := v } }
  | 0x40 => { s with cfg := { s.cfg with spanHi := v.setWidth 16 } }
  | 0x44 => { s with cfg := { s.cfg with outCapLo := v } }
  | 0x48 => { s with cfg := { s.cfg with outCapHi := v } }
  | 0x70 => { s with cmdLo := v }
  | 0x74 => { s with cq := s.cq ++ [BitVec.ofNat 64 (v.toNat * 2 ^ 32 + s.cmdLo.toNat)] }
  | _ => s

/-- An access the model gives a meaning: 32 bits wide, at a multiple of 4 (R246). -/
def alignedAccess (width : Nat) (offset : BitVec 7) : Bool := width == 32 && offset.toNat % 4 == 0

/-- One host action (R270). A CSR read leaves its value in `readData` (log 18) and has no other effect (R247); the counter of the free
values moves on, so that two reads of CMD_HI need not agree. DESIGN CHOICE, log 23: a pop while OUT is empty, of which no rule speaks,
changes nothing. -/
def hostAct (h : HostAction) (s : State) : Host.Outcome State Fault Refusal :=
  match h with
  | .csrRead width offset =>
    if alignedAccess width offset then .next { s with readData := csrValue s offset, free := s.free + 1 }
    else .refused .csrAccess
  | .csrWrite width offset v =>
    if alignedAccess width offset then .next (csrStore offset v s) else .refused .csrAccess
  | .push b => .next { s with inp := s.inp ++ [b] }
  | .pop => .next { s with out := s.out.tail }

/-- The reset input (R1100): every item of the block takes its reset value. The build is fixed (R9), and the model's own fields are
the outside world's (log 5). -/
def hardReset (s : State) : State :=
  { State.resetWith s.workers.length s.build with
    agenda := s.agenda
    draws := s.draws
    free := s.free
    readData := s.readData }

end Sys2Proof.Machine
end

