-- ==== Sys2Proof/Machine/Open.lean ====
section
/-! DEFINITION. The substitutes for the OPEN parameters `BT_FINDER` and `OPT_PARSER` (R9, R760, R761), as constants without a body: a
statement about a state whose `build` names one holds for every finder and every parser the two rules admit. -/

namespace Sys2Proof.Machine

/-- A symbol a parser chooses (R730). -/
inductive Choice where
  | lit
  | shortrep
  | rep (i len : Nat)
  | mtch (d len : Nat)
  deriving DecidableEq, Repr

/-- The symbol's length in bytes. -/
def Choice.len : Choice → Nat
  | .lit | .shortrep => 1
  | .rep _ n => n
  | .mtch _ n => n

end Sys2Proof.Machine

namespace Sys2Proof.Config

/-- PARAMETER `BT_FINDER` (R9, R760; log 2): what the substitute `which` answers at position `p` of the window, `rem` bytes from which it may
use, before its answer is brought into R760's contract: candidates (length, distance), and its memory after. `memory` is what it
remembers, `search` is false where the position is skipped; `nice` and `depth` are ACT's. -/
opaque btFinder (which : Nat) (memory : Option (List Nat)) (nice depth : Nat) (w : Machine.Window) (p rem : Nat)
    (search : Bool) : List (Nat × Nat) × List Nat

/-- PARAMETER `OPT_PARSER` (R9, R761; log 3): what the substitute `which` answers at the coding position of `l`, `most` and `segEnd` as in
R730, before its answer is brought into R734's contract: the next symbol, or `none` to have one more position searched, and its memory
after. It sees the lane, with its own memory and the candidates searched so far; `nice` and `depth` are ACT's. -/
opaque optParser (which nice depth : Nat) (l : Machine.Lane) (most segEnd : Nat) : Option Machine.Choice × List Nat

end Sys2Proof.Config
end

