-- ==== Sys2Proof/Machine/Operands.lean ====
section
/-! DEFINITION. What the sequencer checks of a command before its own rule: R1020 items 4 to 6. -/

namespace Sys2Proof.Machine

/-- `NPROB = 1846 + 0x300 · 2^(lc+lp)` (R117, R210). -/
def nprob (z : Coder) : Nat := 1846 + 0x300 * 2 ^ (z.lc.toNat + z.lp.toNat)

/-- The cell index names a cell of lane 0's store (R303, R1020 item 5). -/
def State.cellExists (s : State) (pi : BitVec 24) : Bool := decide (pi.toNat < nprob s.lane0.lz)

/-- The operand ranges of R303 (R1020 item 5). -/
def operandsOk (i : Instr) (s : State) : Bool :=
  match i with
  | .rceBit pi _ => s.cellExists pi
  | .rcdBit pi => s.cellExists pi
  | .probRead pi => s.cellExists pi
  | .probWrite pi v => s.cellExists pi && Instr.wf (.probWrite pi v)
  | j => j.wf

/-- The command is of group SYS (R301). -/
def isSys : Instr → Bool
  | .sysNop | .sysSoftReset | .sysClearErr | .sysConfigure => true
  | _ => false

/-- The commands that execute while STATUS.ERR = 1 (R1011). -/
def runsUnderError : Instr → Bool
  | .sysNop | .sysSoftReset | .sysClearErr => true
  | _ => false

/-- Which open sessions refuse a command (the table of R802). -/
inductive Lock where
  | never
  | either
  | encoder
  | decoder
  deriving DecidableEq, Repr

/-- The table of R802. -/
def lockOf : Instr → Lock
  | .rceReset | .rceBit _ _ | .rceDirect _ _ | .rceFlush
  | .rcdInit | .rcdBit _ | .rcdDirect _
  | .probReset | .probWrite _ _
  | .lzSetProps _ | .lzResetState
  | .lzeLit | .lzeMatch _ _ | .lzeRep _ _ | .lzeShortrep | .lzeEos
  | .lzdSymbol _ | .lzdRun _
  | .winReset | .winFeed _ | .winPut _
  | .mfReset | .mfFind | .mfSkip _
  | .lzmaEncode | .lzmaDecode _ | .l2Encode | .l2Decode => .either
  | .l2DecChunk => .encoder
  | .l2EncSegment _ | .l2EncEnd => .decoder
  | .rcePending | .rcdIsFinished | .probRead _ | .lzReadState | .lzReadRep _ | .winGet _ | .mfCand _
  | .sysNop | .sysSoftReset | .sysClearErr | .sysConfigure => .never

/-- The session lock lets the command pass (R802, R1020 item 6). -/
def lockOk (i : Instr) (s : State) : Bool :=
  match lockOf i with
  | .never => true
  | .either => !s.sessionOpen
  | .encoder => !s.lane0.l2e.active
  | .decoder => !s.lane0.l2d.active

/-- R1020 items 4, 5 and 6, in that order: the first that fails. -/
def precheck (i : Instr) (s : State) : Option Cause :=
  if !isSys i && !s.configured then some .notConfigured
  else if !operandsOk i s then some .operandRange
  else if !lockOk i s then some .precondition
  else none

/-- A command's own rule as a computation: it ends with the value of RESULT (R111). -/
abbrev Body := State → Res State (BitVec 64)

/-- A command's outcome from what its computation gave. -/
def finish (i : Instr) (s : State) : Res State (BitVec 64) → Host.Outcome State Fault Refusal
  | .ok v t => .next (complete (s.input.length - t.inp.length) v t)
  | .stop (.raise e) t => .next (takeError (encode i) (s.input.length - t.inp.length) e t)
  | .stop .hold _ => .next (suspend s)
  | .stop .dry _ => .next (suspend s)
  | .stop .noProgress _ => .fault .noProgress

/-- One command, from the head of CQ to its completion or hold (R330, R331): the checks of R1020 items 4 to 6, then
its own rule. -/
def runCommand (i : Instr) (body : Body) (s : State) : Host.Outcome State Fault Refusal :=
  match precheck i s with
  | some c => finish i s (.stop (.of c) s.begin)
  | none => finish i s (body s.begin)

/-- The rule of a command that reads one number from the state and changes nothing. -/
def answer (v : Nat) (s : State) : Res State (BitVec 64) := .ok (BitVec.ofNat 64 v) s

/-- The active configuration a coding command reads (R113). Every such command has passed R1020 item 4, so the other case
is never met; it raises that item's cause. -/
def withAct (s : State) (k : Act → Res State (BitVec 64)) : Res State (BitVec 64) :=
  match s.act with
  | some a => k a
  | none => .stop (.of .notConfigured) s

end Sys2Proof.Machine
end

