-- ==== Sys2Proof/Machine/RangeCoder.lean ====
section
/-! DEFINITION. The range coder's arithmetic (R401–R408, R420–R424), on a lane; the coders and commands above it call these.
Values are computed as naturals (R12) and narrowed to the register's width where they are stored. -/

namespace Sys2Proof.Machine

/-! ## The probability estimate -/

/-- `Update` (R403), on the cell's value. -/
def probUpdate (b : Bool) (p : BitVec 11) : BitVec 11 :=
  if b then BitVec.ofNat 11 (p.toNat - p.toNat / 2 ^ 5)
  else BitVec.ofNat 11 (p.toNat + (2048 - p.toNat) / 2 ^ 5)

/-- The split point `bound = (range >> 11) · P[i]` (R402). -/
def splitPoint (range : BitVec 32) (p : BitVec 11) : Nat := range.toNat / 2 ^ 11 * p.toNat

/-! ## The encoder -/

/-- The bytes `ShiftLow` emits: the cache and the run of 0xFF bytes held back, each with the carry added (R405). -/
def heldBytes (cache : Byte) (cacheSize carry : Nat) : List Byte :=
  match cacheSize with
  | 0 => []
  | n + 1 => BitVec.ofNat 8 (cache.toNat + carry) :: List.replicate n (BitVec.ofNat 8 (0xFF + carry))

/-- `ShiftLow` (R405). -/
def shiftLow (e : RangeEnc) : RangeEnc :=
  let low' : BitVec 33 := BitVec.ofNat 33 (e.low.toNat % 2 ^ 24 * 2 ^ 8)
  if e.low.toNat < 0xFF000000 ∨ 2 ^ 32 ≤ e.low.toNat then
    { e with
      cbuf := e.cbuf ++ heldBytes e.cache e.cacheSize (e.low.toNat / 2 ^ 32)
      cacheSize := 1
      cache := BitVec.ofNat 8 (e.low.toNat / 2 ^ 24)
      low := low' }
  else { e with cacheSize := e.cacheSize + 1, low := low' }

/-- The loop of `EncNorm`, at most `n` times. -/
def encNormLoop : Nat → RangeEnc → RangeEnc
  | 0, e => e
  | n + 1, e =>
    if e.range.toNat < 2 ^ 24 then
      encNormLoop n (shiftLow { e with range := BitVec.ofNat 32 (e.range.toNat * 2 ^ 8) })
    else e

/-- `EncNorm` (R404). Three turns bring every non-zero range to 2^24 or more; for a range of 0, which R401 excludes, the spec's
loop never ends and the model's ends after 4 (log 12). -/
def encNorm (e : RangeEnc) : RangeEnc := encNormLoop 4 e

/-- The interval step of `EncBit` (R406), for split point `bnd`. -/
def encSplit (bnd : Nat) (b : Bool) (e : RangeEnc) : RangeEnc :=
  if b then
    { e with low := BitVec.ofNat 33 (e.low.toNat + bnd), range := BitVec.ofNat 32 (e.range.toNat - bnd) }
  else { e with range := BitVec.ofNat 32 bnd }

/-- `EncBit(i, b)` (R406). -/
def encBit (i : Nat) (b : Bool) (l : Lane) : Lane :=
  let p := l.cell i
  { l.setCell i (probUpdate b p) with rce := encNorm (encSplit (splitPoint l.rce.range p) b l.rce) }

/-- One direct bit (R407). -/
def encDirectBit (b : Bool) (e : RangeEnc) : RangeEnc :=
  let r := e.range.toNat / 2
  encNorm { e with
    range := BitVec.ofNat 32 r
    low := if b then BitVec.ofNat 33 (e.low.toNat + r) else e.low }

/-- `EncDirect(v, n)` (R407): the `n` low bits of `v`, most significant first. -/
def encDirectBits (v : Nat) : Nat → RangeEnc → RangeEnc
  | 0, e => e
  | n + 1, e => encDirectBits v n (encDirectBit (v.testBit n) e)

/-- `EncDirect(v, n)` on a lane. -/
def encDirect (v n : Nat) (l : Lane) : Lane := { l with rce := encDirectBits v n l.rce }

/-- `EncFlush` (R408). -/
def encFlush (e : RangeEnc) : RangeEnc := shiftLow (shiftLow (shiftLow (shiftLow (shiftLow e))))

/-- `PendingSize` (R411). -/
def pendingSize (e : RangeEnc) : Nat := e.cbuf.length + e.cacheSize + 4

/-! ## The decoder -/

/-- What a decoding computation works on: the acting lane, its byte source (IN or the payload buffer, R233), and the staging
output it writes. -/
structure DecCtx where
  lane : Lane
  src : List Byte
  out : List Byte
  deriving DecidableEq, Repr

/-- `InByte()` on the computation's source. -/
def takeByte (c : DecCtx) : Res DecCtx Byte :=
  match c.src with
  | b :: rest => .ok b { c with src := rest }
  | [] => .stop .dry c

/-- The decoder takes in one byte (R424). -/
def decShift (d : RangeDec) (b : Byte) : RangeDec :=
  { d with
    range := BitVec.ofNat 32 (d.range.toNat * 2 ^ 8)
    code := BitVec.ofNat 32 (d.code.toNat * 2 ^ 8 + b.toNat) }

/-- `DecNorm` (R424) over the bytes of the source; `none` where it runs out. -/
def decNormOn : RangeDec → List Byte → Option (RangeDec × List Byte)
  | d, [] => if d.range.toNat < 2 ^ 24 then none else some (d, [])
  | d, b :: rest => if d.range.toNat < 2 ^ 24 then decNormOn (decShift d b) rest else some (d, b :: rest)

/-- `DecNorm` (R424). -/
def decNorm (c : DecCtx) : Res DecCtx Unit :=
  match decNormOn c.lane.rcd c.src with
  | some (d, rest) => .ok () { c with lane := { c.lane with rcd := d }, src := rest }
  | none => .stop .dry { c with src := [] }

/-- The decision of `DecBit` (R422): true for a 1. -/
def decChoice (bnd : Nat) (d : RangeDec) : Bool := decide (bnd ≤ d.code.toNat)

/-- The interval step of `DecBit` (R422). -/
def decSplit (bnd : Nat) (d : RangeDec) : RangeDec :=
  if decChoice bnd d then
    { d with range := BitVec.ofNat 32 (d.range.toNat - bnd), code := BitVec.ofNat 32 (d.code.toNat - bnd) }
  else { d with range := BitVec.ofNat 32 bnd }

/-- `DecBit(i)` (R422). -/
def decBit (i : Nat) (c : DecCtx) : Res DecCtx Bool :=
  let p := c.lane.cell i
  let bnd := splitPoint c.lane.rcd.range p
  let b := decChoice bnd c.lane.rcd
  let lane := { c.lane.setCell i (probUpdate b p) with rcd := decSplit bnd c.lane.rcd }
  (decNorm { c with lane := lane }).bind fun _ c => .ok b c

/-- One direct bit of `DecDirect` (R423). -/
def decDirectBit (c : DecCtx) : Res DecCtx Bool :=
  let d := c.lane.rcd
  let r := d.range.toNat / 2
  let b := decide (r ≤ d.code.toNat)
  let d' : RangeDec :=
    { d with
      range := BitVec.ofNat 32 r
      code := if b then BitVec.ofNat 32 (d.code.toNat - r) else d.code }
  (decNorm { c with lane := { c.lane with rcd := d' } }).bind fun _ c => .ok b c

/-- The loop of `DecDirect` (R423), `r` the bits so far. -/
def decDirectFrom : Nat → Nat → DecCtx → Res DecCtx Nat
  | 0, r, c => .ok r c
  | n + 1, r, c => (decDirectBit c).bind fun b c => decDirectFrom n (2 * r + b.toNat) c

/-- `DecDirect(n)` (R423). -/
def decDirect (n : Nat) (c : DecCtx) : Res DecCtx Nat := decDirectFrom n 0 c

/-- The four code bytes of `DecInit` (R421). -/
def decInitCode : Nat → BitVec 32 → DecCtx → Res DecCtx (BitVec 32)
  | 0, code, c => .ok code c
  | n + 1, code, c =>
    (takeByte c).bind fun b c => decInitCode n (BitVec.ofNat 32 (code.toNat * 2 ^ 8 + b.toNat)) c

/-- `DecInit` (R421). -/
def decInit (c : DecCtx) : Res DecCtx Unit :=
  (takeByte c).bind fun b0 c =>
  (decInitCode 4 0#32 c).bind fun code c =>
  .ok () { c with
    lane := { c.lane with rcd := { range := 0xFFFFFFFF#32, code := code, inited := true, initBad := b0 != 0#8 } } }

/-! ## Running a decoding computation on lane 0 -/

/-- Runs a decoding computation on lane 0 with IN as its source (R233); where IN runs out, R231's action. -/
def onIn {α : Type} (f : DecCtx → Res DecCtx α) (s : State) : Res State α :=
  match f { lane := s.lane0, src := s.inp, out := s.stage } with
  | .ok a c => .ok a { s with lane0 := c.lane, inp := c.src, stage := c.out }
  | .stop .dry c => .stop s.inDry { s with lane0 := c.lane, inp := c.src, stage := c.out }
  | .stop e c => .stop e { s with lane0 := c.lane, inp := c.src, stage := c.out }

/-- A computation whose source is a payload buffer: where it runs out, CorruptStream 0x07 (R232). -/
def orExhausted {α : Type} : Res DecCtx α → Res DecCtx α
  | .stop .dry c => .stop (.of .payloadExhausted) c
  | r => r

end Sys2Proof.Machine
end

