-- ==== Sys2Proof/Machine/Contexts.lean ====
section
/-! DEFINITION. The coders built on the probability store: bit trees (R520, R521), lengths (R530), distances (R540–R545) and
literals (R550–R552), and the contexts of R502. -/

namespace Sys2Proof.Machine

/-! ## Bit trees -/

/-- `TreeEnc` (R520) from node `m`, the `n` low bits of `v` still to code. -/
def treeEncFrom (base v : Nat) : Nat → Nat → Lane → Lane
  | 0, _, l => l
  | n + 1, m, l => treeEncFrom base v n (2 * m + (v.testBit n).toNat) (encBit (base + m) (v.testBit n) l)

/-- `TreeEnc(base, n, v)` (R520). -/
def treeEnc (base n v : Nat) (l : Lane) : Lane := treeEncFrom base v n 1 l

/-- `TreeDec` (R520) from node `m`; the result is the last node. -/
def treeDecFrom (base : Nat) : Nat → Nat → DecCtx → Res DecCtx Nat
  | 0, m, c => .ok m c
  | n + 1, m, c => (decBit (base + m) c).bind fun b c => treeDecFrom base n (2 * m + b.toNat) c

/-- `TreeDec(base, n)` (R520). -/
def treeDec (base n : Nat) (c : DecCtx) : Res DecCtx Nat :=
  (treeDecFrom base n 1 c).bind fun m c => .ok (m - 2 ^ n) c

/-- `RTreeEnc` (R521) from bit `k` and node `m`, `n` bits still to code. -/
def rtreeEncFrom (base v : Nat) : Nat → Nat → Nat → Lane → Lane
  | 0, _, _, l => l
  | n + 1, k, m, l =>
    rtreeEncFrom base v n (k + 1) (2 * m + (v.testBit k).toNat) (encBit (base + m) (v.testBit k) l)

/-- `RTreeEnc(base, n, v)` (R521). -/
def rtreeEnc (base n v : Nat) (l : Lane) : Lane := rtreeEncFrom base v n 0 1 l

/-- `RTreeDec` (R521) from bit `k`, node `m` and value `r`, `n` bits still to decode. -/
def rtreeDecFrom (base : Nat) : Nat → Nat → Nat → Nat → DecCtx → Res DecCtx Nat
  | 0, _, _, r, c => .ok r c
  | n + 1, k, m, r, c =>
    (decBit (base + m) c).bind fun b c => rtreeDecFrom base n (k + 1) (2 * m + b.toNat) (r + b.toNat * 2 ^ k) c

/-- `RTreeDec(base, n)` (R521). -/
def rtreeDec (base n : Nat) (c : DecCtx) : Res DecCtx Nat := rtreeDecFrom base n 0 1 0 c

/-! ## The length coder (R530) -/

/-- MATCH_LEN (R210). -/
def matchLenBase : Nat := 818

/-- REP_LEN (R210). -/
def repLenBase : Nat := 1332

/-- `LenEnc(L, len, ps)` (R530). -/
def lenEnc (base len ps : Nat) (l : Lane) : Lane :=
  let v := len - 2
  if v < 8 then treeEnc (base + 2 + ps * 8) 3 v (encBit base false l)
  else if v < 16 then treeEnc (base + 130 + ps * 8) 3 (v - 8) (encBit (base + 1) false (encBit base true l))
  else treeEnc (base + 258) 8 (v - 16) (encBit (base + 1) true (encBit base true l))

/-- `LenDec(L, ps)` (R530). -/
def lenDec (base ps : Nat) (c : DecCtx) : Res DecCtx Nat :=
  (decBit base c).bind fun choice c =>
  if choice then
    (decBit (base + 1) c).bind fun choice2 c =>
    if choice2 then (treeDec (base + 258) 8 c).bind fun v c => .ok (18 + v) c
    else (treeDec (base + 130 + ps * 8) 3 c).bind fun v c => .ok (10 + v) c
  else (treeDec (base + 2 + ps * 8) 3 c).bind fun v c => .ok (2 + v) c

/-! ## The distance coder (R540–R545) -/

/-- `lenState` (R502). -/
def lenState (len : Nat) : Nat := min (len - 2) 3

/-- `slot(d0)` (R540). -/
def slotOf (d0 : Nat) : Nat := if d0 < 4 then d0 else 2 * Nat.log2 d0 + (d0.testBit (Nat.log2 d0 - 1)).toNat

/-- `footer_bits(s)`, for `s ≥ 4` (R540). -/
def footerBits (s : Nat) : Nat := s / 2 - 1

/-- `base(s)`, for `s ≥ 4` (R540). -/
def slotBase (s : Nat) : Nat := (2 + s % 2) * 2 ^ footerBits s

/-- DIST_SLOT, for length `len` (R210, R540). -/
def distSlotBase (len : Nat) : Nat := 432 + lenState len * 64

/-- The base of the reverse tree of slots 4 to 13 (R541). -/
def distSpecialBase (s : Nat) : Nat := 688 + slotBase s - s - 1

/-- DIST_ALIGN (R210). -/
def distAlignBase : Nat := 802

/-- `DistEnc(d0, len)` (R543). -/
def distEnc (d0 len : Nat) (l : Lane) : Lane :=
  let s := slotOf d0
  let l1 := treeEnc (distSlotBase len) 6 s l
  if s < 4 then l1
  else
    let r := d0 - slotBase s
    if s < 14 then rtreeEnc (distSpecialBase s) (footerBits s) r l1
    else rtreeEnc distAlignBase 4 (r % 16) (encDirect (r / 16) (footerBits s - 4) l1)

/-- `DistDec(len)` (R544). -/
def distDec (len : Nat) (c : DecCtx) : Res DecCtx Nat :=
  (treeDec (distSlotBase len) 6 c).bind fun s c =>
  if s < 4 then .ok s c
  else if s < 14 then
    (rtreeDec (distSpecialBase s) (footerBits s) c).bind fun r c => .ok (slotBase s + r) c
  else
    (decDirect (footerBits s - 4) c).bind fun hi c =>
    (rtreeDec distAlignBase 4 c).bind fun lo c => .ok (slotBase s + hi * 16 + lo) c

/-! ## The literal coder (R550–R552) -/

/-- `base = 1846 + 0x300 · sub` (R550). -/
def literalBase (l : Lane) : Nat :=
  1846 + 0x300 *
    (l.win.cur % 2 ^ l.lz.lp.toNat * 2 ^ l.lz.lc.toNat + l.win.prev.toNat / 2 ^ (8 - l.lz.lc.toNat))

/-- The cell of one bit of a matched literal (R552): `base + off + (off & (mb[k] << 8)) + m`. -/
def matchedCell (base off m : Nat) (mbk : Bool) : Nat := base + off + (if mbk then off else 0) + m

/-- `LitEncMatched` (R552), bits `k-1 … 0` still to code, `off` 0x100 or 0. -/
def litEncMatchedFrom (base b mb : Nat) : Nat → Nat → Nat → Lane → Lane
  | 0, _, _, l => l
  | k + 1, off, m, l =>
    litEncMatchedFrom base b mb k (if b.testBit k = mb.testBit k then off else 0) (2 * m + (b.testBit k).toNat)
      (encBit (matchedCell base off m (mb.testBit k)) (b.testBit k) l)

/-- `LitEncMatched(base, b, mb)` (R552). -/
def litEncMatched (base : Nat) (b mb : Byte) (l : Lane) : Lane :=
  litEncMatchedFrom base b.toNat mb.toNat 8 0x100 1 l

/-- `LitEnc(base, b)` (R551). -/
def litEnc (base : Nat) (b : Byte) (l : Lane) : Lane := treeEnc base 8 b.toNat l

/-- `LitDecMatched` (R552); the result is the last node. -/
def litDecMatchedFrom (base mb : Nat) : Nat → Nat → Nat → DecCtx → Res DecCtx Nat
  | 0, _, m, c => .ok m c
  | k + 1, off, m, c =>
    (decBit (matchedCell base off m (mb.testBit k)) c).bind fun bit c =>
    litDecMatchedFrom base mb k (if bit = mb.testBit k then off else 0) (2 * m + bit.toNat) c

/-- `LitDecMatched(base, mb)` (R552). -/
def litDecMatched (base : Nat) (mb : Byte) (c : DecCtx) : Res DecCtx Byte :=
  (litDecMatchedFrom base mb.toNat 8 0x100 1 c).bind fun m c => .ok (BitVec.ofNat 8 (m - 256)) c

/-- `LitDec(base)` (R551). -/
def litDec (base : Nat) (c : DecCtx) : Res DecCtx Byte :=
  (treeDec base 8 c).bind fun v c => .ok (BitVec.ofNat 8 v) c

end Sys2Proof.Machine
end

