-- ==== Sys2Proof/Machine/Symbols.lean ====
section
/-! DEFINITION. The symbol state machine (R600–R603), the coding of one symbol (R610, R611) and its decoding (R630, R631). -/

namespace Sys2Proof.Machine

/-! ## States and repeat distances -/

/-- Column LIT of R601. -/
def nextLit (s : Fin 12) : Fin 12 :=
  match s.val with
  | 4 => 1
  | 5 => 2
  | 6 => 3
  | 7 | 10 => 4
  | 8 | 11 => 5
  | 9 => 6
  | _ => 0

/-- Column MATCH (and EOS) of R601. -/
def nextMatch (s : Fin 12) : Fin 12 := if s.val < 7 then 7 else 10

/-- Column LONGREP of R601. -/
def nextLongrep (s : Fin 12) : Fin 12 := if s.val < 7 then 8 else 11

/-- Column SHORTREP of R601. -/
def nextShortrep (s : Fin 12) : Fin 12 := if s.val < 7 then 9 else 11

/-- `LZ.rep[i]` (R118). -/
def Coder.rep (z : Coder) : Nat → BitVec 32
  | 0 => z.rep0
  | 1 => z.rep1
  | 2 => z.rep2
  | _ => z.rep3

/-- The distance `LZ.rep[i] + 1` (R15). -/
def Coder.dist (z : Coder) (i : Nat) : Nat := (z.rep i).toNat + 1

/-- The MATCH row of R602: a new distance, coded as `d0`, in front. -/
def Coder.pushRep (z : Coder) (d0 : BitVec 32) : Coder :=
  { z with rep0 := d0, rep1 := z.rep0, rep2 := z.rep1, rep3 := z.rep2 }

/-- The REP rows of R602: `rep[r]` moves to the front. -/
def Coder.promote (z : Coder) : Nat → Coder
  | 0 => z
  | 1 => { z with rep0 := z.rep1, rep1 := z.rep0 }
  | 2 => { z with rep0 := z.rep2, rep1 := z.rep0, rep2 := z.rep1 }
  | _ => { z with rep0 := z.rep3, rep1 := z.rep0, rep2 := z.rep1, rep3 := z.rep2 }

/-- `posState` (R502). -/
def Lane.posState (l : Lane) : Nat := l.win.cur % 2 ^ l.lz.pb.toNat

/-! ## The cells of the prefix decisions (R610) -/

/-- IS_MATCH. -/
def isMatchCell (s : Fin 12) (ps : Nat) : Nat := s.val * 16 + ps

/-- IS_REP. -/
def isRepCell (s : Fin 12) : Nat := 192 + s.val

/-- IS_REP0. -/
def isRep0Cell (s : Fin 12) : Nat := 204 + s.val

/-- IS_REP1. -/
def isRep1Cell (s : Fin 12) : Nat := 216 + s.val

/-- IS_REP2. -/
def isRep2Cell (s : Fin 12) : Nat := 228 + s.val

/-- IS_REP0_LONG. -/
def isRep0LongCell (s : Fin 12) (ps : Nat) : Nat := 240 + s.val * 16 + ps

/-! ## The encoder (R611) -/

/-- After a symbol of `len` bytes the state machine is `z` and the coding position has moved past it. -/
def Lane.afterSymbol (l : Lane) (z : Coder) (len : Nat) : Lane :=
  { l with lz := z, win := { l.win with cur := l.win.cur + len } }

/-- `EncLit` (R611). -/
def encLit (l : Lane) : Lane :=
  let s := l.lz.state
  let b := l.win.look 0
  let base := literalBase l
  let l1 := encBit (isMatchCell s l.posState) false l
  let l2 := if s.val < 7 then litEnc base b l1 else litEncMatched base b (l.win.back (l.lz.dist 0)) l1
  l2.afterSymbol { l.lz with state := nextLit s } 1

/-- The bits of a MATCH symbol with coded distance `d0` (R340, R611). -/
def encMatchBits (d0 len : Nat) (l : Lane) : Lane :=
  let s := l.lz.state
  distEnc d0 len
    (lenEnc matchLenBase len l.posState (encBit (isRepCell s) false (encBit (isMatchCell s l.posState) true l)))

/-- `EncMatch(d, len)` (R611). -/
def encMatch (d len : Nat) (l : Lane) : Lane :=
  (encMatchBits (d - 1) len l).afterSymbol
    { l.lz.pushRep (BitVec.ofNat 32 (d - 1)) with state := nextMatch l.lz.state } len

/-- The prefix of a rep symbol after IS_REP (R340, R611). -/
def encRepChoice (r : Nat) (long : Bool) (s : Fin 12) (ps : Nat) (l : Lane) : Lane :=
  if r = 0 then encBit (isRep0LongCell s ps) long (encBit (isRep0Cell s) false l)
  else if r = 1 then encBit (isRep1Cell s) false (encBit (isRep0Cell s) true l)
  else encBit (isRep2Cell s) (r == 3) (encBit (isRep1Cell s) true (encBit (isRep0Cell s) true l))

/-- `EncRep(r, len)` (R611); `len = 1` only with `r = 0`. -/
def encRep (r len : Nat) (l : Lane) : Lane :=
  let s := l.lz.state
  let ps := l.posState
  let l1 := encBit (isRepCell s) true (encBit (isMatchCell s ps) true l)
  let l2 := encRepChoice r (len != 1) s ps l1
  if len = 1 then l2.afterSymbol { l.lz.promote r with state := nextShortrep s } len
  else (lenEnc repLenBase len ps l2).afterSymbol { l.lz.promote r with state := nextLongrep s } len

/-- The coded distance of the end marker (R640). -/
def markerDist : Nat := 0xFFFFFFFF

/-- `EncEOS` (R611). -/
def encEos (l : Lane) : Lane :=
  (encMatchBits markerDist 2 l).afterSymbol
    { l.lz.pushRep (BitVec.ofNat 32 markerDist) with state := nextMatch l.lz.state } 0

/-! ## The decoder (R630) -/

/-- The symbol kinds `DecSymbol` returns. -/
inductive SymKind where
  | lit
  | mtch
  | shortrep
  | rep0
  | rep1
  | rep2
  | rep3
  | eos
  deriving DecidableEq, Repr

/-- `code(kind)` (R632). -/
def SymKind.code : SymKind → Nat
  | .lit => 0
  | .mtch => 1
  | .shortrep => 2
  | .rep0 => 3
  | .rep1 => 4
  | .rep2 => 5
  | .rep3 => 6
  | .eos => 7

/-- What `DecSymbol` returns: the kind, the length, and the byte or distance. -/
structure Symbol where
  kind : SymKind
  len : Nat
  x : Nat
  deriving DecidableEq, Repr

/-- Limits of `DecSymbol` (R630): the most bytes the symbol may produce (`none`: no limit), whether the end marker is
permitted, and the error of a longer symbol. -/
structure SymLimits where
  limit : Option Nat
  eosOk : Bool
  tooLong : Cause
  deriving DecidableEq, Repr

/-- A symbol of `len` bytes exceeds the limit. -/
def SymLimits.exceeded (q : SymLimits) (len : Nat) : Bool :=
  match q.limit with
  | some m => decide (m < len)
  | none => false

/-- `Put` for a run of bytes (R630, R836). -/
def putBytes (bs : List Byte) (c : DecCtx) : DecCtx :=
  { c with lane := { c.lane with win := c.lane.win.append bs }, out := c.out ++ bs }

/-- `repeat len times: Put(Win(d))` (R630), byte by byte. -/
def copyMatch (d : Nat) : Nat → DecCtx → DecCtx
  | 0, c => c
  | n + 1, c => copyMatch d n (putBytes [c.lane.win.back d] c)

/-- Replaces the symbol state machine's registers. -/
def DecCtx.withLz (c : DecCtx) (z : Coder) : DecCtx := { c with lane := { c.lane with lz := z } }

/-- The literal branch of `DecSymbol`, after IS_MATCH (R630, R631 a and d). -/
def decLiteral (q : SymLimits) (s : Fin 12) (c : DecCtx) : Res DecCtx Symbol :=
  if 7 ≤ s.val ∧ c.lane.win.hist < c.lane.lz.dist 0 then .stop (.of .beyondHistory) c
  else if q.exceeded 1 then .stop (.of q.tooLong) c
  else
    (if s.val < 7 then litDec (literalBase c.lane) c
      else litDecMatched (literalBase c.lane) (c.lane.win.back (c.lane.lz.dist 0)) c).bind fun b c =>
    .ok { kind := .lit, len := 1, x := b.toNat }
      ((putBytes [b] c).withLz { c.lane.lz with state := nextLit s })

/-- The last lines of `DecSymbol`: the distance and length checks, then the copy (R630, R631 c and d). -/
def decCopy (q : SymLimits) (kind : SymKind) (len : Nat) (c : DecCtx) : Res DecCtx Symbol :=
  let d := c.lane.lz.dist 0
  if c.lane.win.hist < d then .stop (.of .beyondHistory) c
  else if q.exceeded len then .stop (.of q.tooLong) c
  else .ok { kind := kind, len := len, x := d } (copyMatch d len c)

/-- The match branch of `DecSymbol`, after IS_REP (R630, R631 b). -/
def decMatch (q : SymLimits) (s : Fin 12) (ps : Nat) (c : DecCtx) : Res DecCtx Symbol :=
  (lenDec matchLenBase ps c).bind fun len c =>
  (distDec len c).bind fun d0 c =>
  let c1 := c.withLz { c.lane.lz.pushRep (BitVec.ofNat 32 d0) with state := nextMatch s }
  if d0 = markerDist then
    if q.eosOk then .ok { kind := .eos, len := 0, x := 0 } c1 else .stop (.of .markerNotPermitted) c1
  else decCopy q .mtch len c1

/-- The rest of a long rep's `DecSymbol` branch: `rep[r]` to the front, the length, the copy (R630). -/
def decLongrep (q : SymLimits) (kind : SymKind) (r : Nat) (s : Fin 12) (ps : Nat) (c : DecCtx) : Res DecCtx Symbol :=
  let c1 := c.withLz (c.lane.lz.promote r)
  (lenDec repLenBase ps c1).bind fun len c =>
  decCopy q kind len (c.withLz { c.lane.lz with state := nextLongrep s })

/-- The rep branch of `DecSymbol`, after IS_REP (R630). -/
def decRep (q : SymLimits) (s : Fin 12) (ps : Nat) (c : DecCtx) : Res DecCtx Symbol :=
  (decBit (isRep0Cell s) c).bind fun b0 c =>
  if b0 then
    (decBit (isRep1Cell s) c).bind fun b1 c =>
    if b1 then
      (decBit (isRep2Cell s) c).bind fun b2 c =>
      if b2 then decLongrep q .rep3 3 s ps c else decLongrep q .rep2 2 s ps c
    else decLongrep q .rep1 1 s ps c
  else
    (decBit (isRep0LongCell s ps) c).bind fun long c =>
    if long then decLongrep q .rep0 0 s ps c
    else decCopy q .shortrep 1 (c.withLz { c.lane.lz with state := nextShortrep s })

/-- `DecSymbol(limit, eos_ok, over)` (R630). -/
def decSymbol (q : SymLimits) (c : DecCtx) : Res DecCtx Symbol :=
  let s := c.lane.lz.state
  let ps := c.lane.posState
  (decBit (isMatchCell s ps) c).bind fun isMatch c =>
  if isMatch then
    (decBit (isRepCell s) c).bind fun isRep c =>
    if isRep then decRep q s ps c else decMatch q s ps c
  else decLiteral q s c

/-- `while produced < n` of R633, R661 and R830: symbols until `n` bytes, the end marker not permitted, an overrun
CorruptStream 0x09. Each symbol produces a byte or more, so `n` turns are enough. -/
def decExactly : Nat → Nat → DecCtx → Res DecCtx Unit
  | 0, _, c => .ok () c
  | fuel + 1, n, c =>
    if n = 0 then .ok () c
    else
      (decSymbol { limit := some n, eosOk := false, tooLong := .overrun } c).bind fun sym c =>
      decExactly fuel (n - sym.len) c

/-- The loop until the end marker of R633 and R661: `limitOf` gives a symbol's limit from the coding position. A decision
takes from the range or takes a byte of the source, so the turns of `decUntilMarker` are enough in every state whose
cells are not 0 (R1126); in any other the loop may never end (log 12). -/
def decMarkerLoop (q : Nat → SymLimits) : Nat → Nat → DecCtx → Res DecCtx Nat
  | 0, _, c => .stop .noProgress c
  | fuel + 1, produced, c =>
    (decSymbol (q c.lane.win.cur) c).bind fun sym c =>
    if sym.kind = .eos then .ok produced c else decMarkerLoop q fuel (produced + sym.len) c

/-- Symbols until the end marker; the result is the number of bytes. -/
def decUntilMarker (q : Nat → SymLimits) (c : DecCtx) : Res DecCtx Nat :=
  decMarkerLoop q ((c.src.length + 1) * 2 ^ 32) 0 c

end Sys2Proof.Machine
end

