-- ==== Sys2Proof/Machine/MatchFinder.lean ====
section
/-! DEFINITION. The hash-chain match finder (R710–R720), and the OPEN binary-tree finder (R760): its default, or a substitute held to
the contract. A candidate is (length, distance). -/

namespace Sys2Proof.Machine

/-- One turn of the table's computation (R710). -/
def crcTurn (r : Nat) : Nat := if r % 2 = 1 then r / 2 ^^^ 0xEDB88320 else r / 2

/-- `CRC[i]` (R710). -/
def crc (i : Nat) : Nat :=
  crcTurn (crcTurn (crcTurn (crcTurn (crcTurn (crcTurn (crcTurn (crcTurn i)))))))

/-- `H4` (R711). -/
def h4Size (ds : Nat) : Nat :=
  let h := ds - 1
  let h := h ||| h / 2
  let h := h ||| h / 2 ^ 2
  let h := h ||| h / 2 ^ 4
  let h := h ||| h / 2 ^ 8
  let h := h ||| h / 2 ^ 16
  let h := h / 2 ||| 0xFFFF
  let h := if 2 ^ 24 < h then h / 2 else h
  h + 1

/-- The hashes `h2`, `h3`, `h4` of a position (R710). -/
structure Hashes where
  h2 : Nat
  h3 : Nat
  h4 : Nat
  deriving DecidableEq, Repr

/-- R710, for the four bytes at position `p`. -/
def hashesAt (w : Window) (p : Nat) : Hashes :=
  let t2 := crc (w.byteAt p).toNat ^^^ (w.byteAt (p + 1)).toNat
  let t3 := t2 ^^^ (w.byteAt (p + 2)).toNat * 2 ^ 8
  let t4 := t3 ^^^ crc (w.byteAt (p + 3)).toNat * 2 ^ 5 % 2 ^ 32
  { h2 := t2 &&& 0x3FF, h3 := t3 &&& 0xFFFF, h4 := t4 &&& (h4Size w.dictSize.toNat - 1) }

/-- An entry of a table, NONE where it has none (R120). -/
def entry (t : Memory (Option Nat)) (i : Nat) : Option Nat := Memory.read none t i

/-- Sets an entry of a table. -/
def setEntry (t : Memory (Option Nat)) (i : Nat) (q : Option Nat) : Memory (Option Nat) := Memory.write none t i q

/-- `Insert(p)` (R712) with the hashes of `p`. -/
def insertAt (m : MatchFinder) (h : Hashes) (p : Nat) : MatchFinder :=
  { m with
    chain := setEntry m.chain p (entry m.t4 h.h4)
    t2 := setEntry m.t2 h.h2 (some p)
    t3 := setEntry m.t3 h.h3 (some p)
    t4 := setEntry m.t4 h.h4 (some p) }

/-- `while len < m and bytes[p + len - d] = bytes[p + len]: len <- len + 1`, with `m - len` turns left. -/
def extendMatch (w : Window) (p d : Nat) : Nat → Nat → Nat
  | 0, len => len
  | n + 1, len => if w.byteAt (p + len - d) = w.byteAt (p + len) then extendMatch w p d n (len + 1) else len

/-- The length of the match at `p` and distance `d`, from `len` up to `m`. -/
def matchLength (w : Window) (p d len m : Nat) : Nat := extendMatch w p d (m - len) len

/-- The distance of a table's entry at `p`, if it is one `Find` may use: in the dictionary, with the first byte equal (R713). -/
def probe (w : Window) (p : Nat) (q : Option Nat) : Option Nat :=
  match q with
  | none => none
  | some q =>
    let d := p - q
    if d ≤ w.dictSize.toNat ∧ w.byteAt (p - d) = w.byteAt p then some d else none

/-- The candidates of the 2- and 3-byte tables, before the last one's length is extended (R713). -/
def shortCandidates (w : Window) (p : Nat) (q2 q3 : Option Nat) : List (Nat × Nat) :=
  let two := match probe w p q2 with
    | some d => [(2, d)]
    | none => []
  let three := match q3 with
    | none => []
    | some q => if q2 = some q then [] else
      match probe w p (some q) with
      | some d => [(3, d)]
      | none => []
  two ++ three

/-- The chain walk of `Find` (R713): at most `depth` steps from `q`, `best` the longest length so far. -/
def walkChain (w : Window) (chain : Memory (Option Nat)) (p mll nl : Nat) :
    Nat → Option Nat → Nat → List (Nat × Nat) → List (Nat × Nat)
  | 0, _, _, found => found
  | depth + 1, q, best, found =>
    match q with
    | none => found
    | some q =>
      let d := p - q
      if w.dictSize.toNat < d then found
      else
        let next := entry chain q
        if w.byteAt (p + best - d) = w.byteAt (p + best) ∧ w.byteAt (p - d) = w.byteAt p then
          let len := matchLength w p d 1 mll
          if best < len then
            if nl ≤ len then found ++ [(len, d)]
            else walkChain w chain p mll nl depth next len (found ++ [(len, d)])
          else walkChain w chain p mll nl depth next best found
        else walkChain w chain p mll nl depth next best found

/-- `DEPTH` (R720). -/
def chainDepth (a : Act) : Nat := if a.depth = 0#32 then 4 + a.niceLen.toNat / 4 else a.depth.toNat

/-- The search of `Find` (R713) at `p`, `rem ≥ 4`, over the tables as they were before `p` is inserted. -/
def searchAt (a : Act) (w : Window) (m : MatchFinder) (h : Hashes) (p rem : Nat) : List (Nat × Nat) :=
  let mll := min 273 rem
  let nl := min a.niceLen.toNat mll
  let q4 := entry m.t4 h.h4
  let chain := setEntry m.chain p q4
  let short := shortCandidates w p (entry m.t2 h.h2) (entry m.t3 h.h3)
  match short.getLast? with
  | none => walkChain w chain p mll nl (chainDepth a) q4 3 []
  | some (len, d) =>
    let best := matchLength w p d len mll
    let found := short.dropLast ++ [(best, d)]
    if nl ≤ best then found else walkChain w chain p mll nl (chainDepth a) q4 (max best 3) found

/-- `Find(p, rem)` of the hash-chain finder (R713): the candidates, and the finder with `p` inserted. -/
def hashChainFind (a : Act) (w : Window) (m : MatchFinder) (p rem : Nat) : List (Nat × Nat) × MatchFinder :=
  if rem < 4 then ([], m)
  else
    let h := hashesAt w p
    (searchAt a w m h p rem, insertAt m h p)

/-- `Skip(p, rem)` of the hash-chain finder (R714). -/
def skipAt (w : Window) (m : MatchFinder) (p rem : Nat) : MatchFinder :=
  if 4 ≤ rem then insertAt m (hashesAt w p) p else m

/-- A candidate R760 (b) admits at `p`: a true match, its distance in the history and its length in what the finder may use. -/
def candidateOk (w : Window) (p rem : Nat) (c : Nat × Nat) : Bool :=
  decide (2 ≤ c.1 ∧ c.1 ≤ min 273 rem ∧ 1 ≤ c.2 ∧ c.2 ≤ min p w.dictSize.toNat ∧ matchLength w p c.2 0 c.1 = c.1)

/-- The candidates R760 (a) and (b) admit, in order: each longer than the one before, `best` the last length. A list that meets the
contract is kept whole. -/
def keepCandidates (w : Window) (p rem : Nat) : Nat → List (Nat × Nat) → List (Nat × Nat)
  | _, [] => []
  | best, c :: rest =>
    if best < c.1 ∧ candidateOk w p rem c then c :: keepCandidates w p rem c.1 rest else keepCandidates w p rem best rest

/-- A substitute `BT_FINDER` is given position `p` (R760): it answers nothing at the first position after a reset (c), and files every
position with `rem ≥ 4` (d) by R712's Insert (DEDUCED, log 29). -/
def substituteFind (which : Nat) (a : Act) (w : Window) (m : MatchFinder) (p rem : Nat) (search : Bool) :
    List (Nat × Nat) × MatchFinder :=
  let r := Config.btFinder which m.own.finder a.niceLen.toNat a.depth.toNat w p rem search
  (if search && m.own.finder.isSome then keepCandidates w p rem 0 r.1 else [],
    { skipAt w m p rem with own := { m.own with finder := some r.2 } })

/-- `Find(p, rem)` of `BT_FINDER` (R760): by default the hash-chain finder's. -/
def binaryTreeFind (b : Build) (a : Act) (w : Window) (m : MatchFinder) (p rem : Nat) : List (Nat × Nat) × MatchFinder :=
  match b.finder with
  | none => hashChainFind a w m p rem
  | some which => substituteFind which a w m p rem true

/-- `Skip(p, rem)` of `BT_FINDER` (R714, R760). -/
def binaryTreeSkip (b : Build) (a : Act) (w : Window) (m : MatchFinder) (p rem : Nat) : MatchFinder :=
  match b.finder with
  | none => skipAt w m p rem
  | some which => (substituteFind which a w m p rem false).2

/-- `Find(p, rem)` of the selected finder (R108 `mf`, R760). -/
def find (b : Build) (a : Act) (w : Window) (m : MatchFinder) (p rem : Nat) : List (Nat × Nat) × MatchFinder :=
  if a.mf then binaryTreeFind b a w m p rem else hashChainFind a w m p rem

/-- `Skip(p, rem)` of the selected finder (R714, R760). -/
def skip (b : Build) (a : Act) (w : Window) (m : MatchFinder) (p rem : Nat) : MatchFinder :=
  if a.mf then binaryTreeSkip b a w m p rem else skipAt w m p rem

/-- `n` times `Skip(MF.next, stop - MF.next); MF.next <- MF.next + 1` (R731, R757). -/
def skipMany (b : Build) (a : Act) (w : Window) (stop : Nat) : Nat → MatchFinder → MatchFinder
  | 0, m => m
  | n + 1, m => skipMany b a w stop n { skip b a w m m.next (stop - m.next) with next := m.next + 1 }

/-- `list <- Find(p, rem); MF.next <- p + 1; MF.cache <- (p, list)` (R733, R755). -/
def searchAndCache (b : Build) (a : Act) (w : Window) (m : MatchFinder) (p rem : Nat) : List (Nat × Nat) × MatchFinder :=
  let r := find b a w m p rem
  (r.1, { r.2 with next := p + 1, cache := some (p, r.1) })

/-- `MFReset()` (R754). -/
def mfReset (w : Window) : MatchFinder := { MatchFinder.fresh with next := w.cur }

end Sys2Proof.Machine
end

