-- ==== Sys2Proof/Machine/Parser.lean ====
section
/-! DEFINITION. The default parser GREEDY_LAZY (R730–R733), and the OPEN optimal parser (R761): its default, or a substitute held
to the contract of R734. -/

namespace Sys2Proof.Machine

/-- `Cands(p, seg_end)` (R733). -/
def cands (b : Build) (a : Act) (segEnd p : Nat) (l : Lane) : List (Nat × Nat) × Lane :=
  match l.mf.cache with
  | some (q, list) =>
    if q = p then (list, l)
    else
      let r := searchAndCache b a l.win l.mf p (segEnd - p)
      (r.1, { l with mf := r.2 })
  | none =>
    let r := searchAndCache b a l.win l.mf p (segEnd - p)
    (r.1, { l with mf := r.2 })

/-- The match length of `rep[i]` at the coding position, at most `most`; 0 where the distance is not in the history (R730). -/
def repLength (l : Lane) (most i : Nat) : Nat :=
  if l.lz.dist i ≤ l.win.hist then matchLength l.win l.win.cur (l.lz.dist i) 0 most else 0

/-- `(br, bi)` of `Choose` (R730): the longest rep, the lowest index among equals. -/
def bestRep (l : Lane) (most : Nat) : Nat × Nat :=
  [0, 1, 2, 3].foldl (fun best i =>
    let n := repLength l most i
    if best.1 < n then (n, i) else best) (0, 0)

/-- `LitOrShort()` (R730). -/
def litOrShort (l : Lane) : Choice :=
  if l.lz.dist 0 ≤ l.win.hist ∧ l.win.look 0 = l.win.back (l.lz.dist 0) then .shortrep else .lit

/-- The last candidate, (0, 0) where there is none (R730). -/
def longest (list : List (Nat × Nat)) : Nat × Nat := list.getLast?.getD (0, 0)

/-- `Choose(A, seg_end)` of GREEDY_LAZY (R730). -/
def greedyLazy (b : Build) (a : Act) (most segEnd : Nat) (l : Lane) : Choice × Lane :=
  let p := l.win.cur
  let (cp, l1) := cands b a segEnd p l
  if most < 2 then (litOrShort l, l1)
  else
    let (br, bi) := bestRep l most
    let ml := min (longest cp).1 most
    if 2 ≤ br ∧ ml ≤ br then (.rep bi br, l1)
    else if ml < 2 then (litOrShort l, l1)
    else if ml < a.niceLen.toNat ∧ p + 1 < segEnd then
      let (cn, l2) := cands b a segEnd (p + 1) l1
      if ml < min (longest cn).1 (most - 1) then (litOrShort l, l2) else (.mtch (longest cp).2 ml, l2)
    else (.mtch (longest cp).2 ml, l1)

/-- The candidates of the coding position, where a substitute parser has had it searched. -/
def candidatesHere (l : Lane) : List (Nat × Nat) := (l.mf.own.ahead.lookup l.win.cur).getD []

/-- The symbol may be coded at the coding position (R734): its distance is in the history, its length at most `most`, its bytes those the
decoder will produce; and a match is a candidate of the selected finder, or the beginning of one (R761; DEDUCED, log 30). -/
def Choice.allowed (l : Lane) (most : Nat) : Choice → Bool
  | .lit => true
  | .shortrep => decide (1 ≤ repLength l 1 0)
  | .rep i n => decide (i ≤ 3 ∧ 2 ≤ n ∧ n ≤ most ∧ n ≤ repLength l most i)
  | .mtch d n =>
    decide (1 ≤ d ∧ d ≤ l.win.hist ∧ 2 ≤ n ∧ n ≤ most ∧ matchLength l.win l.win.cur d 0 n = n) &&
      (candidatesHere l).any fun c => c.2 == d && decide (n ≤ c.1)

/-- One more position is searched for a substitute parser, the first not yet given to the finder (R733, R761). -/
def searchAhead (b : Build) (a : Act) (segEnd : Nat) (l : Lane) : Lane :=
  let p := max l.mf.next l.win.cur
  let r := searchAndCache b a l.win l.mf p (segEnd - p)
  let kept := l.mf.own.ahead.filter fun x => decide (l.win.cur ≤ x.1)
  { l with mf := { r.2 with own := { r.2.own with ahead := kept ++ [(p, r.1)] } } }

/-- A substitute `OPT_PARSER` is asked for the next symbol (R761), each time with one more position searched, up to `seg_end`. An answer
R734 does not admit is taken as LIT, which it always admits; log 3. -/
def askParser (which : Nat) (b : Build) (a : Act) (most segEnd : Nat) : Nat → Lane → Choice × Lane
  | 0, l => (.lit, l)
  | turns + 1, l =>
    let r := Config.optParser which a.niceLen.toNat a.depth.toNat l most segEnd
    let l1 := { l with mf := { l.mf with own := { l.mf.own with parser := r.2 } } }
    match r.1 with
    | some c => (if c.allowed l1 most then c else .lit, l1)
    | none =>
      if max l1.mf.next l1.win.cur < segEnd then askParser which b a most segEnd turns (searchAhead b a segEnd l1)
      else (.lit, l1)

/-- `Choose` of `OPT_PARSER` (R761): by default GREEDY_LAZY's. -/
def optimalParser (b : Build) (a : Act) (most segEnd : Nat) (l : Lane) : Choice × Lane :=
  match b.parser with
  | none => greedyLazy b a most segEnd l
  | some which => askParser which b a most segEnd (segEnd - l.win.cur + 1) l

/-- `Choose` of the selected parser (R108 `mode`, R761). -/
def choose (b : Build) (a : Act) (most segEnd : Nat) (l : Lane) : Choice × Lane :=
  if a.mode then optimalParser b a most segEnd l else greedyLazy b a most segEnd l

/-- `EncSym` (R732). -/
def encSym : Choice → Lane → Lane
  | .lit, l => encLit l
  | .shortrep, l => encRep 0 1 l
  | .rep i n, l => encRep i n l
  | .mtch d n, l => encMatch d n l

/-- `Advance(seg_end)` (R731). -/
def advance (b : Build) (a : Act) (segEnd : Nat) (l : Lane) : Lane :=
  { l with mf := skipMany b a l.win segEnd (l.win.cur - l.mf.next) l.mf }

/-- One symbol of at most `most` bytes: `Choose`, `EncSym`, `Advance` (R660, R810); with its length. -/
def codeSymbol (b : Build) (a : Act) (most segEnd : Nat) (l : Lane) : Nat × Lane :=
  let (sym, l1) := choose b a most segEnd l
  (sym.len, advance b a segEnd (encSym sym l1))

/-- `while WIN.cur < seg_end` of LZMA.ENCODE (R660); a symbol codes a byte or more, so `seg_end - WIN.cur` turns are enough. -/
def codeAll (b : Build) (a : Act) (segEnd : Nat) : Nat → Lane → Lane
  | 0, l => l
  | fuel + 1, l =>
    if l.win.cur < segEnd then
      codeAll b a segEnd fuel (codeSymbol b a (min Config.matchLenMax (segEnd - l.win.cur)) segEnd l).2
    else l

end Sys2Proof.Machine
end

