-- ==== Sys2Proof/Machine/Chunks.lean ====
section
/-! DEFINITION. The LZMA2 chunk layer (R800–R836): the encoder's chunks, the reading of a chunk from IN, the resets it declares and
the decoding of its data. -/

namespace Sys2Proof.Machine

/-! ## The encoder (R810–R814) -/

/-- The symbols of one chunk (the inner loop of R810, R811): with the number of bytes coded. A symbol codes a byte or
more, so `seg_end - WIN.cur` turns are enough. -/
def codeChunk (b : Build) (a : Act) (segEnd : Nat) : Nat → Nat → Lane → Nat × Lane
  | 0, cu, l => (cu, l)
  | fuel + 1, cu, l =>
    if l.win.cur < segEnd ∧ cu < Config.uLimit ∧ pendingSize l.rce < Config.cSoft then
      let most := min Config.matchLenMax (min (Config.uLimit - cu) (segEnd - l.win.cur))
      let (len, l1) := codeSymbol b a most segEnd l
      codeChunk b a segEnd fuel (cu + len) l1
    else (cu, l)

/-- Consecutive pieces of `n` bytes, the last of which may be shorter (R812, R814); `fuel` at least the length. -/
def pieces (n : Nat) : Nat → List Byte → List (List Byte)
  | 0, _ => []
  | fuel + 1, bs => if bs.isEmpty then [] else bs.take n :: pieces n fuel (bs.drop n)

/-- The two bytes of a 16-bit size field, big-endian (R245, R350). -/
def be16 (n : Nat) : List Byte := [BitVec.ofNat 8 (n / 2 ^ 8), BitVec.ofNat 8 n]

/-- The control byte of an LZMA chunk less its size bits (R812). -/
def lzmaControl (e : EncSession) : Nat :=
  if e.needProps then (if e.needDict then 0xE0 else 0xC0) else (if e.needState then 0xA0 else 0x80)

/-- The header of an LZMA chunk of `cu` bytes coded in `cs` (R350, R812). -/
def lzmaHeader (l : Lane) (cu cs : Nat) : List Byte :=
  let ctl := lzmaControl l.l2e
  BitVec.ofNat 8 (ctl ||| (cu - 1) / 2 ^ 16) :: be16 (cu - 1) ++ be16 (cs - 1) ++
    (if 0xC0 ≤ ctl then [propsEncode l.lz.lc l.lz.lp l.lz.pb] else [])

/-- One uncompressed chunk (R350, R812). -/
def rawChunk (needDict : Bool) (piece : List Byte) : List Byte :=
  (if needDict then 0x01#8 else 0x02#8) :: be16 (piece.length - 1) ++ piece

/-- The uncompressed chunks of R812: only the first can declare a dictionary reset. -/
def rawChunks (needDict : Bool) : List (List Byte) → List Byte
  | [] => []
  | piece :: rest => rawChunk needDict piece ++ rawChunks false rest

/-- `EmitChunk(start, cu, cs)` (R812), `cbuf` holding the `cs` payload bytes: what it writes, and the lane after it. -/
def emitChunk (start cu : Nat) (l : Lane) : List Byte × Lane :=
  let cs := l.rce.cbuf.length
  if cs + 2 < cu ∧ cs ≤ 65536 then
    (lzmaHeader l cu cs ++ l.rce.cbuf,
      { l with
        rce := { l.rce with cbuf := [] }
        l2e := { l.l2e with needDict := false, needProps := false, needState := false } })
  else
    let raw := (l.win.bytes.drop start).take cu
    (rawChunks l.l2e.needDict (pieces Config.rawMax cu raw),
      { l.stateReset with
        rce := { l.rce with cbuf := [] }
        l2e := { l.l2e with needDict := l.l2e.needDict && raw.isEmpty, needState := true } })

/-- One turn of `EncodeSegment`'s outer loop (R810): a fresh range encoder, the symbols, the flush, the chunk. -/
def encodeChunk (b : Build) (a : Act) (segEnd : Nat) (l : Lane) : List Byte × Lane :=
  let start := l.win.cur
  let (cu, l1) := codeChunk b a segEnd (segEnd - start) 0 { l with rce := RangeEnc.fresh }
  emitChunk start cu { l1 with rce := encFlush l1.rce }

/-- `EncodeSegment(seg_end)` (R810): what it writes to STAGE, and the lane after it. A chunk codes a byte or more, so
`seg_end - WIN.cur` turns are enough. -/
def encodeSegmentLoop (b : Build) (a : Act) (segEnd : Nat) : Nat → Lane → List Byte × Lane
  | 0, l => ([], l)
  | fuel + 1, l =>
    if l.win.cur < segEnd then
      let (bs, l1) := encodeChunk b a segEnd l
      let (rest, l2) := encodeSegmentLoop b a segEnd fuel l1
      (bs ++ rest, l2)
    else ([], l)

/-- `EncodeSegment(seg_end)` (R810). -/
def encodeSegment (b : Build) (a : Act) (segEnd : Nat) (l : Lane) : List Byte × Lane :=
  encodeSegmentLoop b a segEnd (segEnd - l.win.cur) l

/-- `Spans(X)` (R814). -/
def spans (span : Nat) (x : List Byte) : List (List Byte) :=
  if x.isEmpty then [] else if span = 0 then [x] else pieces span x.length x

/-- A span coded as an independent session (R814, R850, R910): what it writes, and the lane after it. -/
def encodeSpan (b : Build) (a : Act) (bs : List Byte) : List Byte × Lane :=
  let l := laneInit (some a)
  encodeSegment b a bs.length { l with win := l.win.feed bs }

/-! ## Reading a chunk (R830–R832, R834, R921) -/

/-- `PropsOK(PR)` (R834). -/
def propsOk (pr : Byte) : Bool :=
  decide (pr.toNat ≤ 224 ∧ (propsDecode pr).1.toNat + (propsDecode pr).2.1.toNat ≤ 4)

/-- The sequencing flags of R830, and the running total of the declared `U`. -/
structure SeqFlags where
  needDictReset : Bool
  needProps : Bool
  total : Nat
  deriving DecidableEq, Repr

/-- A chunk that resets the dictionary (R830). -/
def resetsDict (ctl : Byte) : Bool := decide (0xE0 ≤ ctl.toNat ∨ ctl.toNat = 0x01)

/-- An LZMA chunk (R350). -/
def isLzmaChunk (ctl : Byte) : Bool := decide (0x80 ≤ ctl.toNat)

/-- A chunk that carries a properties byte (R350). -/
def hasProps (ctl : Byte) : Bool := decide (0xC0 ≤ ctl.toNat)

/-- A chunk that resets the state (R352). -/
def resetsState (ctl : Byte) : Bool := decide (0xA0 ≤ ctl.toNat)

/-- The data of a chunk: the capacity check, then its payload or raw bytes from IN (R830, R832). -/
def readData (cap : Nat) (f : SeqFlags) (ctl : Byte) (size count : Nat) (props : Option Byte) (s : State) :
    Res State (Chunk × SeqFlags) :=
  if cap < f.total + size then .stop (.of .capacity) s
  else
    (inBytes count s).bind fun data s =>
    .ok ({ ctl := ctl, size := size, props := props, data := data }, { f with total := f.total + size }) s

/-- The rest of an LZMA chunk of `ctl`: sizes, properties byte, and the checks in R830's order. -/
def readLzma (cap : Nat) (f : SeqFlags) (ctl : Byte) (s : State) : Res State (Chunk × SeqFlags) :=
  (inByte s).bind fun u1 s =>
  (inByte s).bind fun u0 s =>
  (inByte s).bind fun c1 s =>
  (inByte s).bind fun c0 s =>
  let size := ctl.toNat % 2 ^ 5 * 2 ^ 16 + u1.toNat * 2 ^ 8 + u0.toNat + 1
  let count := c1.toNat * 2 ^ 8 + c0.toNat + 1
  let data (f : SeqFlags) (props : Option Byte) (s : State) : Res State (Chunk × SeqFlags) :=
    if count < 5 then .stop (.of .shortPayload) s else readData cap f ctl size count props s
  if hasProps ctl then
    (inByte s).bind fun pr s =>
    if propsOk pr then data { f with needProps := false } (some pr) s else .stop (.of .badProps) s
  else if f.needProps then .stop (.of .missingProps) s
  else data f none s

/-- The rest of a chunk that is no LZMA chunk (R830). -/
def readRaw (cap : Nat) (f : SeqFlags) (ctl : Byte) (s : State) : Res State (Chunk × SeqFlags) :=
  if 0x02 < ctl.toNat then .stop (.of .reservedControl) s
  else
    (inByte s).bind fun u1 s =>
    (inByte s).bind fun u0 s =>
    let size := u1.toNat * 2 ^ 8 + u0.toNat + 1
    readData cap f ctl size size none s

/-- The header part of `DecodeChunk` and the bytes of the chunk (R830, R921), or `none` at the end marker (R831). The checks are in
R830's order; the resets R830 writes among them touch nothing a check reads, and are applied after (R833). -/
def readChunk (cap : Nat) (f : SeqFlags) (s : State) : Res State (Option (Chunk × SeqFlags)) :=
  (inByte s).bind fun ctl s =>
  if ctl = 0#8 then .ok none s
  else
    let f1 := if resetsDict ctl then { f with needProps := true, needDictReset := false } else f
    if f1.needDictReset then .stop (.of .missingDictReset) s
    else (if isLzmaChunk ctl then readLzma cap f1 ctl s else readRaw cap f1 ctl s).bind fun r s => .ok (some r) s

/-! ## Decoding a chunk (R833–R836) -/

/-- The resets a chunk declares (R833): window, then properties or state. -/
def applyResets (a : Act) (k : Chunk) (l : Lane) : Lane :=
  let l1 := if resetsDict k.ctl then { l with win := Window.empty a.dictSize } else l
  match k.props with
  | some pr => l1.setProps pr
  | none => if resetsState k.ctl then l1.stateReset else l1

/-- `U` bytes from the payload, the first-byte check and the finish check (R651, R830, R835). -/
def decodePayload (size : Nat) (c : DecCtx) : Res DecCtx Unit :=
  (decInit c).bind fun _ c =>
  if c.lane.rcd.initBad then .stop (.of .badFirstByte) c
  else
    (decExactly size size c).bind fun _ c =>
    if c.src.isEmpty && c.lane.rcd.code == 0#32 then .ok () c else .stop (.of .uncleanEnd) c

/-- The data of a chunk on a lane whose resets are applied (R830, R835, R836), its output appended to `out`. An LZMA chunk's
payload goes to the lane's payload buffer `PB` and is decoded from there (R232, R832). -/
def decodeData (k : Chunk) (l : Lane) (out : List Byte) : Res DecCtx Unit :=
  if isLzmaChunk k.ctl then
    let l1 := { l with pb := k.data }
    (orExhausted (decodePayload k.size { lane := l1, src := l1.pb, out := out })).bind fun _ c =>
    .ok () { c with lane := { c.lane with pb := c.src } }
  else .ok () (putBytes k.data { lane := l, src := [], out := out })

/-- `DecodeChunk()` on lane 0 (R830): the chunk, or `none` at the end marker. -/
def decodeChunk (a : Act) (s : State) : Res State (Option Chunk) :=
  let d := s.lane0.l2d
  (readChunk a.outCap.toNat
    { needDictReset := d.needDictReset, needProps := d.needProps, total := d.outTotal.toNat } s).bind fun r s =>
  match r with
  | none => .ok none s
  | some (k, f) =>
    match decodeData k (applyResets a k s.lane0) s.stage with
    | .stop e _ => .stop e s
    | .ok _ c =>
      .ok (some k) { s with
        lane0 := { c.lane with
          l2d := { c.lane.l2d with
            needDictReset := f.needDictReset
            needProps := f.needProps
            outTotal := BitVec.ofNat 64 f.total
            chunkIndex := satInc32 c.lane.l2d.chunkIndex } }
        stage := c.out }

/-- An error of an LZMA2 decode command is attributed to a chunk (R1008). -/
def atChunk {σ α : Type} (p : ChunkPlace) : Res σ α → Res σ α
  | .stop (.raise e) s => .stop (.raise { e with place := some p }) s
  | r => r

/-- The loop of single-lane L2.DECODE (R851); `read` is the number of bytes IN held at the command's start, from which a
chunk's offset is counted. Every chunk takes a byte or more, so one turn more than IN's length is enough. DEDUCED, log 19: where IN
ends before a control byte, the error is given the place of the chunk that would have come next. -/
def decodeStream (a : Act) (read : Nat) : Nat → State → Res State Unit
  | 0, s => .stop .noProgress s
  | fuel + 1, s =>
    (atChunk { index := s.lane0.l2d.chunkIndex.toNat, offset := read - s.inp.length } (decodeChunk a s)).bind fun r s =>
    match r with
    | none => .ok () s
    | some _ => decodeStream a read fuel s

end Sys2Proof.Machine
end

