-- ==== Sys2Proof/Machine/Scheduler.lean ====
section
/-! DEFINITION. The multi-lane scheduler (R900–R935): the coordinator's reading of a stream, its units, and the actions by which it
dispatches them to lanes, completes them and commits them. The two choices R903 leaves open are taken from the state's
`draws` (log 9). -/

namespace Sys2Proof.Machine

/-! ## Units (R910, R921, R922) -/

/-- The coordinator's reading of the chunk stream (R921), `done` the chunks so far: the chunks up to the end marker or
the first header error, with that error. It holds where IN runs out (R933). DEDUCED, log 19: where IN ends before a control byte, the
error is given the place of the chunk that would have come next. -/
def parseStream (cap read : Nat) : Nat → SeqFlags → Option Byte → List ChunkRecord → State →
    Res State (List ChunkRecord × Option Raised)
  | 0, _, _, _, s => .stop .noProgress s
  | fuel + 1, f, inForce, done, s =>
    let place : ChunkPlace := { index := done.length, offset := read - s.inp.length }
    match readChunk cap f s with
    | .ok none t => .ok (done, none) t
    | .ok (some (k, f')) t =>
      let pr := k.props <|> inForce
      parseStream cap read fuel f' pr (done ++ [{ place := place, chunk := k, inForce := pr }]) t
    | .stop (.raise e) t => .ok (done, some { e with place := some place }) t
    | .stop e t => .stop e t

/-- A chunk that starts a unit, wherever it stands (R922). -/
def startsUnit (ctl : Byte) : Bool := resetsState ctl || ctl == 0x01#8

/-- The grouping of R922: chunk 0 and every chunk that `startsUnit` starts a unit, every other joins the current one. -/
def groupUnits : List ChunkRecord → List (List ChunkRecord)
  | [] => []
  | r :: rest =>
    match groupUnits rest with
    | (r' :: g) :: gs => if startsUnit r'.chunk.ctl then [r] :: (r' :: g) :: gs else (r :: r' :: g) :: gs
    | gs => [r] :: gs

/-- A unit that nothing has run yet. -/
def newUnit (input : UnitInput) : WorkUnit where
  input := input
  lane := none
  buffer := []
  outcome := none

/-- The dependency edge to the unit just before (R922): the first chunk resets the state and keeps the dictionary. -/
def WorkUnit.dependent (u : WorkUnit) : Bool :=
  match u.input with
  | .span _ => false
  | .chunks [] => false
  | .chunks (r :: _) => resetsState r.chunk.ctl && !resetsDict r.chunk.ctl

/-! ## A unit on a lane (R910, R923) -/

/-- The chunks of a unit in order (R923): the lane, the unit buffer, and the first failure, wrapped (R925). A chunk's data stops
only by an error (R232), so the last case is never met. -/
def runChunks (a : Act) : List ChunkRecord → Lane → List Byte → Lane × List Byte × Option Raised
  | [], l, out => (l, out, none)
  | r :: rest, l, out =>
    match decodeData r.chunk (applyResets a r.chunk l) out with
    | .ok _ c => runChunks a rest c.lane c.out
    | .stop (.raise e) c => (c.lane, out, some { e with wrapped := true, place := some r.place })
    | .stop _ c => (c.lane, out, none)

/-- The lane a unit of chunks starts from (R923): LaneInit, the predecessor's final window for a dependent unit, the properties in
force at its first chunk. -/
def unitLane (a : Act) (u : WorkUnit) (previous : Option Window) : Lane :=
  let l := laneInit (some a)
  let l1 := if u.dependent then { l with win := previous.getD l.win } else l
  match u.input with
  | .chunks (r :: _) =>
    match r.inForce with
    | some pr => l1.setProps pr
    | none => l1
  | _ => l1

/-- Runs a unit (R910, R923): the lane after it, its buffer and its outcome. -/
def runUnit (b : Build) (a : Act) (u : WorkUnit) (previous : Option Window) : Lane × List Byte × UnitOutcome :=
  match u.input with
  | .span bs =>
    let (out, l) := encodeSpan b a bs
    (l, out, .ok l.win)
  | .chunks cs =>
    let (l, out, e) := runChunks a cs (unitLane a u previous) []
    match e with
    | none => (l, out, .ok l.win)
    | some e => (l, out, .failed e)

/-! ## The coordinator's actions (R902, R930, R931) -/

/-- The final window of unit `i - 1`, if it has completed without error. -/
def Coordinator.previousWindow (c : Coordinator) (i : Nat) : Option Window :=
  match i with
  | 0 => none
  | j + 1 =>
    match c.units[j]? with
    | some { outcome := some (.ok w), .. } => some w
    | _ => none

/-- The unit holds a chunk before the earliest error known, or none is known (R931). DESIGN CHOICE, log 27: a unit that R931 lets the
coordinator leave undispatched or abandon is never dispatched once the error is known, and one that is on a lane by then runs to its end. -/
def Coordinator.wanted (c : Coordinator) (u : WorkUnit) : Bool :=
  match c.earliest with
  | some { place := some p, .. } =>
    match u.input with
    | .chunks (r :: _) => decide (r.place.index < p.index)
    | _ => true
  | _ => true

/-- Unit `i` may be given to a lane (R902, R922, R931). -/
def Coordinator.ready (c : Coordinator) (i : Nat) : Bool :=
  match c.units[i]? with
  | some u =>
    u.lane.isNone && u.outcome.isNone && c.wanted u && (!u.dependent || (c.previousWindow i).isSome)
  | none => false

/-- "The next unit to dispatch" (R140): the lowest index among the ready units (R902). -/
def Coordinator.refresh (c : Coordinator) : Coordinator :=
  { c with nextDispatch := ((List.range c.units.length).find? c.ready).getD c.units.length }

/-- The lanes below `n` that run no unit (R902). -/
def Coordinator.idleLanes (c : Coordinator) (n : Nat) : List Nat :=
  (List.range n).filter fun l => !c.units.any fun u => u.lane == some l

/-- The units that are on a lane. -/
def Coordinator.running (c : Coordinator) : List Nat :=
  (List.range c.units.length).filter fun i => ((c.units[i]?).bind WorkUnit.lane).isSome

/-- The error of the lower chunk index (R931). -/
def earlier (x y : Option Raised) : Option Raised :=
  match x, y with
  | some { place := some p, .. }, some { place := some q, .. } => if q.index < p.index then y else x
  | none, y => y
  | x, _ => x

/-- One choice among `options` (R903), from `draws`; the first where no draw is left. -/
def choice (options : List Nat) (s : State) : Nat × State :=
  match s.draws with
  | [] => (options.headD 0, s)
  | d :: rest => (options.getD (d % options.length) 0, { s with draws := rest })

/-- Unit `i` goes to an idle lane (R902). -/
def dispatchUnit (threads i : Nat) (s : State) : State :=
  let (lane, t) := choice (s.coord.idleLanes threads) s
  let c := t.coord
  { t with
    coord := { c with
      units := c.units.modify i fun u => { u with lane := some lane }
      busy := c.busy + 1 }.refresh }

/-- One of the running units completes (R923): its lane has run it, and is idle. -/
def completeUnit (a : Act) (s : State) : State :=
  let (i, t) := choice s.coord.running s
  let c := t.coord
  match c.units[i]? with
  | none => t
  | some u =>
    let (l, out, r) := runUnit t.build a u (c.previousWindow i)
    let e := match r with
      | .ok _ => none
      | .failed e => some e
    { t.setLane (u.lane.getD 0) l with
      coord := { c with
        units := c.units.set i { u with lane := none, buffer := out, outcome := some r }
        busy := c.busy - 1
        earliest := earlier c.earliest e }.refresh }

/-- The next unit in index order has completed, and its buffer goes to STAGE (R930). -/
def commitUnit (u : WorkUnit) (s : State) : State :=
  { s with
    stage := s.stage ++ u.buffer
    coord := { s.coord with nextCommit := s.coord.nextCommit + 1 } }

/-- The unit whose buffer is to be appended to STAGE next, if it has completed without error (R930). -/
def Coordinator.committable (c : Coordinator) : Option WorkUnit :=
  match c.units[c.nextCommit]? with
  | some u =>
    match u.outcome with
    | some (.ok _) => some u
    | _ => none
  | none => none

/-- The coordinator's next action, or `none` when nothing is left to do: commit, else dispatch, else let a lane complete. -/
def coordinatorAction (a : Act) (s : State) : Option State :=
  match s.coord.committable with
  | some u => some (commitUnit u s)
  | none =>
    if s.coord.nextDispatch < s.coord.units.length ∧ s.coord.busy < a.threadCount.toNat then
      some (dispatchUnit a.threadCount.toNat s.coord.nextDispatch s)
    else if s.coord.running.isEmpty then none
    else some (completeUnit a s)

/-- The coordinator until nothing is left to do. -/
def coordinatorLoop (a : Act) : Nat → State → State
  | 0, s => s
  | fuel + 1, s =>
    match coordinatorAction a s with
    | none => s
    | some t => coordinatorLoop a fuel t

/-- The coordinator over a unit list (R902, R930, R931): a unit is dispatched, completed and committed at most once. `header` is the
error its reading of IN ended with. -/
def runUnits (a : Act) (inputs : List UnitInput) (header : Option Raised) (s : State) : State :=
  let c : Coordinator :=
    { units := inputs.map newUnit, nextDispatch := 0, nextCommit := 0, busy := 0, earliest := header }
  coordinatorLoop a (3 * inputs.length) { s with coord := c.refresh }

/-- `ParallelEncode(spans)` (R910). -/
def parallelEncode (a : Act) (xs : List (List Byte)) (s : State) : State :=
  { runUnits a (xs.map .span) none s with coord := Coordinator.idle }

/-- The length of a chunk's header, from its control byte (R350). DESIGN CHOICE, log 25: a reserved control byte 0x03 to 0x7F, for which
R350 gives no header, is a header of 1 byte. -/
def headerLength (ctl : Byte) : Nat :=
  if hasProps ctl then 6 else if isLzmaChunk ctl then 5 else if ctl.toNat ≤ 2 then 3 else 1

/-- The IN bytes a failing multi-lane L2.DECODE has consumed (R932): a free value between the end of the failing chunk's header and the
end of IN, and not fewer than the `held` bytes taken in a hold, which cannot come back (R230); log 7. -/
def consumedOnError (input : List Byte) (held free : Nat) (p : ChunkPlace) : Nat :=
  let lo := max held (min input.length (p.offset + headerLength (input.getD p.offset 0#8)))
  lo + Config.consumedOnError free % (input.length - lo + 1)

/-- `ParallelDecode()` (R920): the units' output goes to STAGE, or the error of the lowest chunk index is raised (R931). `held` is the
number of bytes the command had taken when it last held. DESIGN CHOICE, log 28: no unit is dispatched before the coordinator has read the
stream to its end marker or its header error, so no lane runs while the command holds. -/
def parallelDecode (a : Act) (held : Nat) (s : State) : Res State Unit :=
  (parseStream a.outCap.toNat s.inp.length (s.inp.length + 1)
    { needDictReset := true, needProps := true, total := 0 } none [] s).bind fun r t =>
  let u := runUnits a ((groupUnits r.1).map .chunks) r.2 t
  match u.coord.earliest with
  | none => .ok () { u with coord := Coordinator.idle }
  | some e =>
    let n := consumedOnError s.inp held s.free (e.place.getD { index := 0, offset := 0 })
    .stop (.raise e) { u with inp := s.inp.drop n, free := s.free + 1 }

end Sys2Proof.Machine
end

