-- ==== Sys2Proof/Machine/L2.lean ====
section
/-! DEFINITION. The LZMA2 commands (R850–R854). -/

namespace Sys2Proof.Machine

/-- `require ACT.lc + ACT.lp <= 4`, else ConfigError 0x05 with `lc + 16·lp` (R815, R1002). -/
def requireLclp (a : Act) (t : State) (k : Res State (BitVec 64)) : Res State (BitVec 64) :=
  require (decide (a.lc.toNat + a.lp.toNat ≤ 4)) (.lclpSum (a.lc.toNat + 16 * a.lp.toNat)) t k

/-- The spans of single-lane L2.ENCODE in order on lane 0 (R850). -/
def encodeSpans (a : Act) : List (List Byte) → State → State
  | [], t => t
  | x :: rest, t =>
    let (bs, l) := encodeSpan t.build a x
    encodeSpans a rest ((t.outBytes bs).withLane0 l)

/-- L2.ENCODE (R850). -/
def execL2Encode (s : State) : Host.Outcome State Fault Refusal :=
  runCommand .l2Encode (fun t => withAct t fun a =>
    requireLclp a t <|
    (inAll t).bind fun x t =>
    let xs := spans a.span.toNat x
    let t1 := if a.threadCount = 1#32 then encodeSpans a xs t else parallelEncode a xs t
    let t2 := t1.outBytes [0x00#8]
    answer t2.stage.length t2.initLanes) s

/-- L2.DECODE's rule (R851); `held` is the number of bytes it had taken when it last held. -/
def l2DecodeBody (held : Nat) (t : State) : Res State (BitVec 64) :=
  withAct t fun a =>
    (if a.threadCount = 1#32 then decodeStream a t.inp.length (t.inp.length + 1) t.initLane0
      else parallelDecode a held t).bind fun _ t =>
    answer t.stage.length t.initLanes

/-- L2.DECODE (R851). -/
def execL2Decode (s : State) : Host.Outcome State Fault Refusal :=
  runCommand .l2Decode (l2DecodeBody (s.holding.getD []).length) s

/-- Opens an encoder session (R801, R852). -/
def openEncoder (t : State) : State :=
  if t.lane0.l2e.active then t
  else
    let u := t.initLane0
    u.withLane0 { u.lane0 with l2e := { u.lane0.l2e with active := true } }

/-- Opens a decoder session (R801, R854). -/
def openDecoder (t : State) : State :=
  if t.lane0.l2d.active then t
  else
    let u := t.initLane0
    u.withLane0 { u.lane0 with l2d := { u.lane0.l2d with active := true } }

/-- L2.ENC_SEGMENT (R852). -/
def execL2EncSegment (n : BitVec 48) (s : State) : Host.Outcome State Fault Refusal :=
  runCommand (.l2EncSegment n) (fun t => withAct t fun a =>
    requireLclp a t <|
    (inUpTo n.toNat (openEncoder t)).bind fun bs t =>
    let w := t.lane0.win.feed bs
    let (out, l) := encodeSegment t.build a w.endPos
      { t.lane0 with win := w, l2e := { t.lane0.l2e with segEnd := some w.endPos } }
    answer out.length ((t.outBytes out).withLane0 { l with l2e := { l.l2e with segEnd := none } })) s

/-- L2.ENC_END (R853). -/
def execL2EncEnd (s : State) : Host.Outcome State Fault Refusal :=
  runCommand .l2EncEnd (fun t =>
    let u := t.outBytes [0x00#8]
    answer 1 (if t.lane0.l2e.active then u.initLane0 else u)) s

/-- L2.DEC_CHUNK (R854). -/
def execL2DecChunk (s : State) : Host.Outcome State Fault Refusal :=
  runCommand .l2DecChunk (fun t => withAct t fun a =>
    let u := openDecoder t
    (atChunk { index := u.lane0.l2d.chunkIndex.toNat, offset := 0 } (decodeChunk a u)).bind fun r t =>
    match r with
    | none => answer 0 t.initLane0
    | some k => answer (k.ctl.toNat + k.size * 2 ^ 8) t) s

end Sys2Proof.Machine
end

