-- ==== Sys2Proof/Machine/Lz.lean ====
section
/-! DEFINITION. The commands of the symbol state machine: LZ (R670–R673), LZE (R620–R625) and LZD (R632, R633). -/

namespace Sys2Proof.Machine

/-- LZ.SET_PROPS (R670). -/
def execLzSetProps (x : BitVec 8) (s : State) : Host.Outcome State Fault Refusal :=
  runCommand (.lzSetProps x) (fun t => .ok 0#64 (t.withLane0 (t.lane0.setProps x))) s

/-- LZ.RESET_STATE (R671). -/
def execLzResetState (s : State) : Host.Outcome State Fault Refusal :=
  runCommand .lzResetState (fun t => .ok 0#64 (t.withLane0 t.lane0.stateReset)) s

/-- RESULT of LZ.READ_STATE (R672). -/
def stateWord (z : Coder) : Nat :=
  z.state.val + z.lc.toNat * 2 ^ 8 + z.lp.toNat * 2 ^ 12 + z.pb.toNat * 2 ^ 16

/-- LZ.READ_STATE (R672). -/
def execLzReadState (s : State) : Host.Outcome State Fault Refusal :=
  runCommand .lzReadState (fun t => answer (stateWord t.lane0.lz) t) s

/-- LZ.READ_REP (R673). -/
def execLzReadRep (i : BitVec 16) (s : State) : Host.Outcome State Fault Refusal :=
  runCommand (.lzReadRep i) (fun t => answer (t.lane0.lz.rep i.toNat).toNat t) s

/-- The lookahead repeats the bytes at distance `d` for `len` bytes: the data preconditions of R622 to R624. -/
def repeatsAt (w : Window) (d len : Nat) : Bool :=
  decide (d ≤ w.hist ∧ w.cur + len ≤ w.endPos) && matchLength w w.cur d 0 len == len

/-- An LZE command that codes with `f` where its data precondition holds (R620 items 3 and 4). -/
def encodeOne (pre : Bool) (f : Lane → Lane) (t : State) : Res State (BitVec 64) :=
  require (!t.lane0.rce.flushed) .coderCondition t <|
  require pre .precondition t <|
  .ok 0#64 (t.withLane0 (f t.lane0))

/-- LZE.LIT (R621). -/
def execLzeLit (s : State) : Host.Outcome State Fault Refusal :=
  runCommand .lzeLit (fun t =>
    let w := t.lane0.win
    let z := t.lane0.lz
    encodeOne (decide (w.cur < w.endPos ∧ (z.state.val < 7 ∨ z.dist 0 ≤ w.hist))) encLit t) s

/-- LZE.MATCH (R622). -/
def execLzeMatch (d : BitVec 32) (l : BitVec 9) (s : State) : Host.Outcome State Fault Refusal :=
  runCommand (.lzeMatch d l) (fun t =>
    encodeOne (repeatsAt t.lane0.win d.toNat l.toNat) (encMatch d.toNat l.toNat) t) s

/-- LZE.REP (R623). -/
def execLzeRep (r : BitVec 2) (l : BitVec 9) (s : State) : Host.Outcome State Fault Refusal :=
  runCommand (.lzeRep r l) (fun t =>
    encodeOne (repeatsAt t.lane0.win (t.lane0.lz.dist r.toNat) l.toNat) (encRep r.toNat l.toNat) t) s

/-- LZE.SHORTREP (R624). -/
def execLzeShortrep (s : State) : Host.Outcome State Fault Refusal :=
  runCommand .lzeShortrep (fun t =>
    encodeOne (repeatsAt t.lane0.win (t.lane0.lz.dist 0) 1) (encRep 0 1) t) s

/-- LZE.EOS (R625). -/
def execLzeEos (s : State) : Host.Outcome State Fault Refusal :=
  runCommand .lzeEos (fun t => encodeOne true encEos t) s

/-- The preconditions of the LZD commands (R632, R633). -/
def decoderReady (t : State) (k : Res State (BitVec 64)) : Res State (BitVec 64) :=
  require t.lane0.rcd.inited .coderCondition t <|
  require (decide (t.lane0.win.endPos = t.lane0.win.cur)) .precondition t k

/-- RESULT of LZD.SYMBOL (R632): `x` of an end marker is 0xFFFFFFFF. -/
def symbolWord (y : Symbol) : Nat :=
  y.kind.code + y.len * 2 ^ 16 + (if y.kind = .eos then markerDist else y.x) * 2 ^ 32

/-- The limits of LZD.SYMBOL: `N` of 0 means no limit (R632). -/
def symbolLimits (n : Nat) : SymLimits where
  limit := if n = 0 then none else some n
  eosOk := true
  tooLong := .overrun

/-- LZD.SYMBOL (R632). -/
def execLzdSymbol (n : BitVec 48) (s : State) : Host.Outcome State Fault Refusal :=
  runCommand (.lzdSymbol n) (fun t =>
    decoderReady t <|
    (onIn (decSymbol (symbolLimits n.toNat)) t).bind fun y t => answer (symbolWord y) t) s

/-- LZD.RUN (R633). -/
def execLzdRun (n : BitVec 48) (s : State) : Host.Outcome State Fault Refusal :=
  runCommand (.lzdRun n) (fun t =>
    decoderReady t <|
    if n = 0#48 then (onIn (decUntilMarker fun _ => symbolLimits 0) t).bind fun k t => answer k t
    else (onIn (decExactly n.toNat n.toNat) t).bind fun _ t => answer n.toNat t) s

end Sys2Proof.Machine
end

