-- ==== Sys2Proof/Machine/Lzma.lean ====
section
/-! DEFINITION. The raw LZMA stream commands (R650–R661). -/

namespace Sys2Proof.Machine

/-- The lane of LZMA.ENCODE after the input `x` is coded and flushed (R660): its `cbuf` is the payload. -/
def encodeRaw (b : Build) (a : Act) (x : List Byte) : Lane :=
  let l := laneInit (some a)
  let l1 := codeAll b a x.length x.length { l with win := l.win.feed x }
  let l2 := if a.eos then encEos l1 else l1
  { l2 with rce := encFlush l2.rce }

/-- LZMA.ENCODE (R660). -/
def execLzmaEncode (s : State) : Host.Outcome State Fault Refusal :=
  runCommand .lzmaEncode (fun t => withAct t fun a =>
    (inAll t).bind fun x t =>
    let payload := (encodeRaw t.build a x).rce.cbuf
    answer payload.length (t.outBytes payload).initLane0) s

/-- `N = 2^48 − 1` means that the size is unknown (R661). -/
def unknownSize : BitVec 48 := BitVec.allOnes 48

/-- A symbol's limits in a stream of unknown size, at coding position `cur` (R661). -/
def unknownSizeLimits (cap cur : Nat) : SymLimits where
  limit := some (cap - cur)
  eosOk := true
  tooLong := .capacity

/-- The symbols of LZMA.DECODE with a known size (R661). -/
def decodeKnown (n cap : Nat) (c : DecCtx) : Res DecCtx Unit :=
  if cap < n then .stop (.of .capacity) c else decExactly n n c

/-- The symbols of LZMA.DECODE with an unknown size (R661). -/
def decodeUnknown (cap : Nat) (c : DecCtx) : Res DecCtx Unit :=
  (decUntilMarker (unknownSizeLimits cap) c).bind fun _ c =>
  if c.lane.rcd.code = 0#32 then .ok () c else .stop (.of .markerUnclean) c

/-- The decoding of LZMA.DECODE on an initialised lane (R651, R661). -/
def decodeRaw (n : BitVec 48) (cap : Nat) (c : DecCtx) : Res DecCtx Unit :=
  (decInit c).bind fun _ c =>
  if c.lane.rcd.initBad then .stop (.of .badFirstByte) c
  else if n = unknownSize then decodeUnknown cap c
  else decodeKnown n.toNat cap c

/-- LZMA.DECODE (R661). -/
def execLzmaDecode (n : BitVec 48) (s : State) : Host.Outcome State Fault Refusal :=
  runCommand (.lzmaDecode n) (fun t => withAct t fun a =>
    (onIn (decodeRaw n a.outCap.toNat) t.initLane0).bind fun _ t =>
    answer t.lane0.win.cur t.initLane0) s

end Sys2Proof.Machine
end

