-- ==== Sys2Proof/Machine/Prob.lean ====
section
/-! DEFINITION. The probability store's commands (R570–R572). -/

namespace Sys2Proof.Machine

/-- PROB.RESET (R570). -/
def execProbReset (s : State) : Host.Outcome State Fault Refusal :=
  runCommand .probReset (fun t => .ok 0#64 (t.withLane0 { t.lane0 with prob := [] })) s

/-- PROB.READ (R571). -/
def execProbRead (pi : BitVec 24) (s : State) : Host.Outcome State Fault Refusal :=
  runCommand (.probRead pi) (fun t => answer (t.lane0.cell pi.toNat).toNat t) s

/-- PROB.WRITE (R572). -/
def execProbWrite (pi : BitVec 24) (v : BitVec 12) (s : State) : Host.Outcome State Fault Refusal :=
  runCommand (.probWrite pi v) (fun t =>
    .ok 0#64 (t.withLane0 (t.lane0.setCell pi.toNat (BitVec.ofNat 11 v.toNat)))) s

end Sys2Proof.Machine
end

