-- ==== Sys2Proof/Machine/Rcd.lean ====
section
/-! DEFINITION. The range decoder's commands (R421–R425). -/

namespace Sys2Proof.Machine

/-- RCD.INIT (R421). -/
def execRcdInit (s : State) : Host.Outcome State Fault Refusal :=
  runCommand .rcdInit (fun t => (onIn decInit t).bind fun _ t => .ok 0#64 t) s

/-- RCD.BIT (R422). -/
def execRcdBit (pi : BitVec 24) (s : State) : Host.Outcome State Fault Refusal :=
  runCommand (.rcdBit pi) (fun t =>
    require t.lane0.rcd.inited .coderCondition t <|
    (onIn (decBit pi.toNat) t).bind fun b t => answer b.toNat t) s

/-- RCD.DIRECT (R423). -/
def execRcdDirect (n : BitVec 6) (s : State) : Host.Outcome State Fault Refusal :=
  runCommand (.rcdDirect n) (fun t =>
    require t.lane0.rcd.inited .coderCondition t <|
    (onIn (decDirect n.toNat) t).bind fun r t => answer r t) s

/-- RCD.IS_FINISHED (R425). -/
def execRcdIsFinished (s : State) : Host.Outcome State Fault Refusal :=
  runCommand .rcdIsFinished (fun t =>
    require t.lane0.rcd.inited .coderCondition t <|
    answer ((t.lane0.rcd.code == 0#32).toNat + t.lane0.rcd.initBad.toNat * 2) t) s

end Sys2Proof.Machine
end

