-- ==== Sys2Proof/Machine/Rce.lean ====
section
/-! DEFINITION. The range encoder's commands (R410–R415). -/

namespace Sys2Proof.Machine

/-- RCE.RESET (R410). -/
def execRceReset (s : State) : Host.Outcome State Fault Refusal :=
  runCommand .rceReset (fun t => .ok 0#64 (t.withLane0 { t.lane0 with rce := RangeEnc.fresh })) s

/-- RCE.BIT (R412). -/
def execRceBit (pi : BitVec 24) (b : Bool) (s : State) : Host.Outcome State Fault Refusal :=
  runCommand (.rceBit pi b) (fun t =>
    require (!t.lane0.rce.flushed) .coderCondition t <|
    .ok 0#64 (t.withLane0 (encBit pi.toNat b t.lane0))) s

/-- RCE.DIRECT (R414). -/
def execRceDirect (v : BitVec 32) (n : BitVec 6) (s : State) : Host.Outcome State Fault Refusal :=
  runCommand (.rceDirect v n) (fun t =>
    require (!t.lane0.rce.flushed) .coderCondition t <|
    .ok 0#64 (t.withLane0 (encDirect v.toNat n.toNat t.lane0))) s

/-- RCE.FLUSH (R413). -/
def execRceFlush (s : State) : Host.Outcome State Fault Refusal :=
  runCommand .rceFlush (fun t =>
    require (!t.lane0.rce.flushed) .coderCondition t <|
    let e := encFlush t.lane0.rce
    .ok (BitVec.ofNat 64 e.cbuf.length)
      ((t.outBytes e.cbuf).withLane0 { t.lane0 with rce := { e with cbuf := [], flushed := true } })) s

/-- RCE.PENDING (R415). -/
def execRcePending (s : State) : Host.Outcome State Fault Refusal :=
  runCommand .rcePending (fun t =>
    require (!t.lane0.rce.flushed) .coderCondition t <|
    answer (pendingSize t.lane0.rce) t) s

end Sys2Proof.Machine
end

