-- ==== Sys2Proof/Machine/Sys.lean ====
section
/-! DEFINITION. The SYS commands (R1040–R1043). -/

namespace Sys2Proof.Machine

/-- The fields SYS.CONFIGURE reads (R108, R1040). -/
def CfgRegs.toAct (c : CfgRegs) : Act where
  dictSize := c.dictSize
  lc := BitVec.ofNat 4 c.lclppb.toNat
  lp := BitVec.ofNat 4 (c.lclppb.toNat / 2 ^ 4)
  pb := BitVec.ofNat 3 (c.lclppb.toNat / 2 ^ 8)
  mode := c.mode.toNat.testBit 0
  mf := c.mode.toNat.testBit 1
  eos := c.mode.toNat.testBit 2
  niceLen := c.niceLen
  depth := c.depth
  threadCount := c.threads
  span := BitVec.ofNat 48 (c.spanHi.toNat * 2 ^ 32 + c.spanLo.toNat)
  outCap := BitVec.ofNat 64 (c.outCapHi.toNat * 2 ^ 32 + c.outCapLo.toNat)

/-- The checks of SYS.CONFIGURE in their order (R1002, R1040), with `w` lanes. -/
def configFault (w : Nat) (v : Act) : Option Cause :=
  if ¬ (Config.dictMin ≤ v.dictSize.toNat ∧ v.dictSize.toNat ≤ Config.dictMax) then some (.dictSize v.dictSize.toNat)
  else if 8 < v.lc.toNat then some (.lcRange v.lc.toNat)
  else if 4 < v.lp.toNat then some (.lpRange v.lp.toNat)
  else if 4 < v.pb.toNat then some (.pbRange v.pb.toNat)
  else if ¬ (1 ≤ v.threadCount.toNat ∧ v.threadCount.toNat ≤ w) then some (.threads v.threadCount.toNat)
  else if ¬ (Config.niceMin ≤ v.niceLen.toNat ∧ v.niceLen.toNat ≤ Config.niceMax) then some (.niceLen v.niceLen.toNat)
  else none

/-- SYS.CONFIGURE's rule (R1040). A failure leaves ACT without a value before it raises. -/
def configureBody (s : State) : Res State (BitVec 64) :=
  let v := s.cfg.toAct
  match configFault s.laneCount v with
  | some c => .stop (.of c) { s with act := none }
  | none => .ok 0#64 { s with act := some v }.initLanes

/-- What SYS.SOFT_RESET leaves (R1042, R1103): the reset values, but for CQ, the contents of IN and OUT, and their counters. The build
is fixed (R9), and the model's own fields are the outside world's (log 5). -/
def softReset (s : State) : State :=
  { State.resetWith s.workers.length s.build with
    cq := s.cq
    inp := s.inp
    out := s.out
    inCount := s.inCount
    outCount := s.outCount
    agenda := s.agenda
    draws := s.draws
    free := s.free
    readData := s.readData }

/-- SYS.NOP (R1041). -/
def execSysNop (s : State) : Host.Outcome State Fault Refusal := runCommand .sysNop (answer 0) s

/-- SYS.SOFT_RESET (R1042). -/
def execSysSoftReset (s : State) : Host.Outcome State Fault Refusal :=
  runCommand .sysSoftReset (fun t => .ok 0#64 (softReset t)) s

/-- SYS.CLEAR_ERR (R1043). -/
def execSysClearErr (s : State) : Host.Outcome State Fault Refusal :=
  runCommand .sysClearErr (fun t => .ok 0#64 (clearError t)) s

/-- SYS.CONFIGURE (R1040). -/
def execSysConfigure (s : State) : Host.Outcome State Fault Refusal := runCommand .sysConfigure configureBody s

end Sys2Proof.Machine
end

