-- ==== Sys2Proof/Machine/Win.lean ====
section
/-! DEFINITION. The window's commands (R750–R753) and the match finder's (R754–R757). -/

namespace Sys2Proof.Machine

/-- WIN.RESET (R750). -/
def execWinReset (s : State) : Host.Outcome State Fault Refusal :=
  runCommand .winReset (fun t => withAct t fun a =>
    let w := Window.empty a.dictSize
    .ok 0#64 (t.withLane0 { t.lane0 with win := w, mf := mfReset w })) s

/-- WIN.FEED (R751). -/
def execWinFeed (n : BitVec 48) (s : State) : Host.Outcome State Fault Refusal :=
  runCommand (.winFeed n) (fun t =>
    (inUpTo n.toNat t).bind fun bs t =>
    answer bs.length (t.withLane0 { t.lane0 with win := t.lane0.win.feed bs })) s

/-- WIN.PUT (R752). -/
def execWinPut (x : BitVec 8) (s : State) : Host.Outcome State Fault Refusal :=
  runCommand (.winPut x) (fun t =>
    require (decide (t.lane0.win.endPos = t.lane0.win.cur)) .precondition t <|
    .ok 0#64 (t.withLane0 { t.lane0 with win := t.lane0.win.append [x] })) s

/-- WIN.GET (R753). -/
def execWinGet (d : BitVec 32) (s : State) : Host.Outcome State Fault Refusal :=
  runCommand (.winGet d) (fun t =>
    let w := t.lane0.win
    if d = 0#32 then require (decide (w.cur < w.endPos)) .precondition t <| answer (w.look 0).toNat t
    else require (decide (d.toNat ≤ w.hist)) .precondition t <| answer (w.back d.toNat).toNat t) s

/-- MF.RESET (R754). -/
def execMfReset (s : State) : Host.Outcome State Fault Refusal :=
  runCommand .mfReset (fun t => .ok 0#64 (t.withLane0 { t.lane0 with mf := mfReset t.lane0.win })) s

/-- MF.FIND (R755). -/
def execMfFind (s : State) : Host.Outcome State Fault Refusal :=
  runCommand .mfFind (fun t => withAct t fun a =>
    let l := t.lane0
    let p := l.mf.next
    require (decide (p < l.win.endPos)) .precondition t <|
    let r := searchAndCache t.build a l.win l.mf p (l.win.endPos - p)
    answer r.1.length (t.withLane0 { l with mf := r.2 })) s

/-- The candidates of the last search; an empty cache is the empty list (R756). -/
def MatchFinder.candidates (m : MatchFinder) : List (Nat × Nat) :=
  match m.cache with
  | some (_, list) => list
  | none => []

/-- MF.CAND (R756). -/
def execMfCand (i : BitVec 16) (s : State) : Host.Outcome State Fault Refusal :=
  runCommand (.mfCand i) (fun t =>
    match t.lane0.mf.candidates[i.toNat]? with
    | some (len, d) => answer (len * 2 ^ 32 + d) t
    | none => .stop (.of .operandRange) t) s

/-- MF.SKIP (R757). -/
def execMfSkip (n : BitVec 48) (s : State) : Host.Outcome State Fault Refusal :=
  runCommand (.mfSkip n) (fun t => withAct t fun a =>
    let l := t.lane0
    require (decide (l.mf.next + n.toNat ≤ l.win.endPos)) .precondition t <|
    .ok 0#64 (t.withLane0 { l with
      mf := { skipMany t.build a l.win l.win.endPos n.toNat l.mf with cache := none } })) s

end Sys2Proof.Machine
end

