-- ==== Sys2Proof/Machine/Dispatch.lean ====
section
/-! DEFINITION. The meaning of each command: R1020 items 4 to 7 and its completion or hold. -/

namespace Sys2Proof.Machine

def exec (k : Instr) (s : State) : Host.Outcome State Fault Refusal :=
  match k with
  | .sysNop => Sys2Proof.Machine.execSysNop s
  | .sysSoftReset => Sys2Proof.Machine.execSysSoftReset s
  | .sysClearErr => Sys2Proof.Machine.execSysClearErr s
  | .sysConfigure => Sys2Proof.Machine.execSysConfigure s
  | .rceReset => Sys2Proof.Machine.execRceReset s
  | .rceBit pi b => Sys2Proof.Machine.execRceBit pi b s
  | .rceDirect v n => Sys2Proof.Machine.execRceDirect v n s
  | .rceFlush => Sys2Proof.Machine.execRceFlush s
  | .rcePending => Sys2Proof.Machine.execRcePending s
  | .rcdInit => Sys2Proof.Machine.execRcdInit s
  | .rcdBit pi => Sys2Proof.Machine.execRcdBit pi s
  | .rcdDirect n => Sys2Proof.Machine.execRcdDirect n s
  | .rcdIsFinished => Sys2Proof.Machine.execRcdIsFinished s
  | .probReset => Sys2Proof.Machine.execProbReset s
  | .probRead pi => Sys2Proof.Machine.execProbRead pi s
  | .probWrite pi v => Sys2Proof.Machine.execProbWrite pi v s
  | .lzSetProps x => Sys2Proof.Machine.execLzSetProps x s
  | .lzResetState => Sys2Proof.Machine.execLzResetState s
  | .lzReadState => Sys2Proof.Machine.execLzReadState s
  | .lzReadRep i => Sys2Proof.Machine.execLzReadRep i s
  | .lzeLit => Sys2Proof.Machine.execLzeLit s
  | .lzeMatch d l => Sys2Proof.Machine.execLzeMatch d l s
  | .lzeRep r l => Sys2Proof.Machine.execLzeRep r l s
  | .lzeShortrep => Sys2Proof.Machine.execLzeShortrep s
  | .lzeEos => Sys2Proof.Machine.execLzeEos s
  | .lzdSymbol n => Sys2Proof.Machine.execLzdSymbol n s
  | .lzdRun n => Sys2Proof.Machine.execLzdRun n s
  | .winReset => Sys2Proof.Machine.execWinReset s
  | .winFeed n => Sys2Proof.Machine.execWinFeed n s
  | .winPut x => Sys2Proof.Machine.execWinPut x s
  | .winGet d => Sys2Proof.Machine.execWinGet d s
  | .mfReset => Sys2Proof.Machine.execMfReset s
  | .mfFind => Sys2Proof.Machine.execMfFind s
  | .mfCand i => Sys2Proof.Machine.execMfCand i s
  | .mfSkip n => Sys2Proof.Machine.execMfSkip n s
  | .l2Encode => Sys2Proof.Machine.execL2Encode s
  | .l2Decode => Sys2Proof.Machine.execL2Decode s
  | .l2EncSegment n => Sys2Proof.Machine.execL2EncSegment n s
  | .l2EncEnd => Sys2Proof.Machine.execL2EncEnd s
  | .l2DecChunk => Sys2Proof.Machine.execL2DecChunk s
  | .lzmaEncode => Sys2Proof.Machine.execLzmaEncode s
  | .lzmaDecode n => Sys2Proof.Machine.execLzmaDecode n s

end Sys2Proof.Machine
end

