-- ==== Sys2Proof/Machine/Sequencer.lean ====
section
/-! DEFINITION. The sequencer (R330, R1020), who moves next, and the placing of a command word. Step.lean only calls these. -/

namespace Sys2Proof.Machine

/-- A word that is no command, with STATUS.ERR = 0: IllegalCommand 0x01 or 0x02 (R304, R1020 items 2 and 3). -/
def rejectWord (c : Word) (e : DecodeError) (s : State) : State :=
  let cause : Cause := match e with
    | .undefinedOpcode => .undefinedOpcode
    | .reservedBits => .reservedBits
  takeError c 0 { cause := cause, wrapped := false, place := none } s.begin

/-- The sequencer on the word at the head of CQ (R1020): discard it under a sticky error (item 1, R1011), reject it (items 2 and
3), or run it. DESIGN CHOICE, log 26: under a sticky error a word with the opcode of SYS.NOP, SYS.SOFT_RESET or SYS.CLEAR_ERR and a
reserved bit set is none of these commands, and is discarded. -/
def runWord (c : Word) (s : State) : Host.Outcome State Fault Refusal :=
  match decode c with
  | .ok i => if s.err && !runsUnderError i then .next (discard s) else exec i s
  | .error e => if s.err then .next (discard s) else .next (rejectWord c e s)

/-- The block's move (R330): the head of CQ; with CQ empty it waits, and nothing changes (log 13). -/
def blockStep (s : State) : Host.Outcome State Fault Refusal :=
  match s.cq with
  | [] => .next s
  | c :: _ => runWord c s

/-- The next move (log 5): the first turn of the agenda, or the block's where the agenda is empty. -/
def moveNext (s : State) : Host.Outcome State Fault Refusal :=
  match s.agenda with
  | [] => blockStep s
  | .block :: rest => blockStep { s with agenda := rest }
  | .host h :: rest => hostAct h { s with agenda := rest }
  | .reset :: rest => .next (hardReset { s with agenda := rest })

/-- The word `w` at the head of CQ, no command in progress, and the block to move next (log 6). -/
def placeWord (w : Word) (s : State) : State :=
  { s with cq := w :: s.cq.tail, holding := none, agenda := [] }

end Sys2Proof.Machine
end

