-- ==== Sys2Proof/Machine/Step.lean ====
section
/-! DEFINITION. One step of the machine, and the placing of an instruction where the next step takes it. -/

namespace Sys2Proof.Machine

/-- One step: one command of the block, one host action, or a reset (Machine/Sequencer.lean). -/
def step (s : State) : Host.Outcome State Fault Refusal := moveNext s

/-- `s` with the command word `w` (its low `nbits` bits) at the head of CQ and the block to move next (log 6). -/
def State.withFetchWord (s : State) (nbits w : Nat) : State := placeWord (BitVec.ofNat 64 (w % 2 ^ nbits)) s

end Sys2Proof.Machine
end

