-- ==== Sys2Proof/Safety.lean ====
section
/-! DEFINITION. What counts as a safe run, in the terms the statements use: the invariant of the machine, the three ways a
command ends, and the spec's own descriptions of what is coded (decisions, bit trees, intervals). A run is safe when every
state of it meets `Inv`; the block's errors (R1000) are ordinary next states and do not make a run unsafe. -/

namespace Sys2Proof.Machine

/-! ## The three ways a command ends (R331, R1010, R231) -/

/-- Completion without error (R331): the command took `took` bytes, appends `bs` to OUT, writes `v` to RESULT (R111), leaves lane 0 as
`l`, and leaves the queue. The two counters saturate (R112). What CTRL and the CFG registers hold is what their reads show while the next
command executes (R104). Everything that is not named keeps its value. -/
def State.completed (s : State) (took : Nat) (bs : List Byte) (v : Nat) (l : Lane) : State :=
  { s with
    cq := s.cq.tail
    inp := s.input.drop took
    out := s.out ++ bs
    stage := []
    holding := none
    result := BitVec.ofNat 64 v
    inCount := BitVec.ofNat 64 (min (s.inCount.toNat + took) (2 ^ 64 - 1))
    outCount := BitVec.ofNat 64 (min (s.outCount.toNat + bs.length) (2 ^ 64 - 1))
    seen := { inEof := s.inEof, cfg := s.cfg }
    lane0 := l }

/-- The completion of a command that raised IllegalCommand with sub-cause `sub` (R1008, R1010): ERR and the ERR registers are
written, the command leaves the queue, and it has had no other effect. -/
def State.refusedBy (s : State) (i : Instr) (sub : Nat) : State :=
  { s with
    cq := s.cq.tail
    inp := s.input
    stage := []
    holding := none
    err := true
    errCode := BitVec.ofNat 32 (sub * 2 ^ 8 + 6)
    errInfo := encode i
    errUnit := 0#32
    seen := { inEof := s.inEof, cfg := s.cfg } }

/-- The completion of a command that raised any other error (R1010), with ERR_CODE `code`, ERR_INFO `info` and ERR_UNIT `unit`: the bytes
it took stay taken, and every lane is initialised. -/
def State.failedWith (s : State) (took code info unit : Nat) : State :=
  { s with
    cq := s.cq.tail
    inp := s.input.drop took
    stage := []
    holding := none
    err := true
    errCode := BitVec.ofNat 32 code
    errInfo := BitVec.ofNat 64 info
    errUnit := BitVec.ofNat 32 unit
    inCount := BitVec.ofNat 64 (min (s.inCount.toNat + took) (2 ^ 64 - 1))
    seen := { inEof := s.inEof, cfg := s.cfg }
    coord := Coordinator.idle
    lane0 := laneInit s.act
    workers := s.workers.map fun _ => laneInit s.act }

/-- The command holds for input (R231): every byte of IN is taken, and nothing else of the command shows (R252). -/
def State.held (s : State) : State := { s with holding := some s.input, inp := [] }

/-- A coding command may run: the block is configured and no session is open (R1006, R802). -/
abbrev State.unitsFree (s : State) : Prop :=
  s.act.isSome = true ∧ s.lane0.l2e.active = false ∧ s.lane0.l2d.active = false

/-- The block is configured (R1006), with or without a session. -/
abbrev State.ready (s : State) : Prop := s.act.isSome = true

/-! ## The checks before a command's rule (R1020 items 4 to 6) -/

/-- The column "operand range checked" of R303; `PI < NPROB` uses lane 0's current properties. -/
def InRange (i : Instr) (s : State) : Prop :=
  let n := 1846 + 0x300 * 2 ^ (s.lane0.lz.lc.toNat + s.lane0.lz.lp.toNat)
  match i with
  | .rceBit pi _ => pi.toNat < n
  | .rceDirect v n => 1 ≤ n.toNat ∧ n.toNat ≤ 32 ∧ v.toNat < 2 ^ n.toNat
  | .rcdBit pi => pi.toNat < n
  | .rcdDirect n => 1 ≤ n.toNat ∧ n.toNat ≤ 32
  | .probRead pi => pi.toNat < n
  | .probWrite pi v => pi.toNat < n ∧ 1 ≤ v.toNat ∧ v.toNat ≤ 2047
  | .lzSetProps x => x.toNat ≤ 224
  | .lzReadRep i => i.toNat ≤ 3
  | .lzeMatch d l => 1 ≤ d.toNat ∧ 2 ≤ l.toNat ∧ l.toNat ≤ 273
  | .lzeRep _ l => 2 ≤ l.toNat ∧ l.toNat ≤ 273
  | .l2EncSegment n => 1 ≤ n.toNat
  | _ => True

/-- The SYS group (R301). -/
def InSys : Instr → Prop
  | .sysNop | .sysSoftReset | .sysClearErr | .sysConfigure => True
  | _ => False

/-- The commands that an open session does not refuse whichever it is: the read commands and the SYS commands (R802). -/
def AlwaysAllowed : Instr → Prop
  | .rcePending | .rcdIsFinished | .probRead _ | .lzReadState | .lzReadRep _ | .winGet _ | .mfCand _ => True
  | .sysNop | .sysSoftReset | .sysClearErr | .sysConfigure => True
  | _ => False

/-- An open session refuses the command (the table of R802). -/
def RefusedBySession (i : Instr) (s : State) : Prop :=
  match i with
  | .l2DecChunk => s.lane0.l2e.active = true
  | .l2EncSegment _ | .l2EncEnd => s.lane0.l2d.active = true
  | i => ¬ AlwaysAllowed i ∧ (s.lane0.l2e.active = true ∨ s.lane0.l2d.active = true)

/-! ## The invariant -/

/-- R401 for the encoder, with `cache_size ≥ 1` (R115) and the bound that lets a carry always be absorbed by the cache byte. -/
abbrev RangeEnc.Ok (e : RangeEnc) : Prop :=
  2 ^ 24 ≤ e.range.toNat ∧ e.low.toNat + e.range.toNat < 2 ^ 33 ∧ 1 ≤ e.cacheSize ∧
    (e.cache = 0xFF#8 → e.low.toNat + e.range.toNat ≤ 2 ^ 32)

/-- R401 for the decoder. -/
abbrev RangeDec.Ok (d : RangeDec) : Prop := 2 ^ 24 ≤ d.range.toNat

/-- R117: every cell lies in [1, 2047], the store being in its canonical form (log 15). -/
abbrev CellsOk (p : Memory (BitVec 11)) : Prop :=
  Memory.wf probMid p = true ∧ ∀ x ∈ p, 1 ≤ x.2.toNat

/-- R118: the properties are in the ranges a properties byte can give (R360). -/
abbrev Coder.Ok (z : Coder) : Prop := z.lc.toNat ≤ 8 ∧ z.lp.toNat ≤ 4 ∧ z.pb.toNat ≤ 4

/-- The match finder's tables are in canonical form (log 15). -/
abbrev MatchFinder.Ok (m : MatchFinder) : Prop :=
  Memory.wf none m.t2 = true ∧ Memory.wf none m.t3 = true ∧ Memory.wf none m.t4 = true ∧
    Memory.wf none m.chain = true

/-- What holds of a session between its commands: every byte of the window is coded or decoded (R701, R852), the encoder has no dictionary
to declare without properties (R812), and its properties fit LZMA2 (R813, R815). -/
abbrev Lane.SessionOk (l : Lane) : Prop :=
  (l.l2e.active = true ∨ l.l2d.active = true → l.win.cur = l.win.endPos) ∧
    (l.l2e.needDict = true → l.l2e.needProps = true) ∧
    (l.l2e.active = true → l.lz.lc.toNat + l.lz.lp.toNat ≤ 4)

/-- What holds of a lane between commands. -/
abbrev Lane.Ok (l : Lane) : Prop :=
  l.rce.Ok ∧ l.rcd.Ok ∧ CellsOk l.prob ∧ l.lz.Ok ∧ l.win.cur ≤ l.win.endPos ∧ l.mf.Ok ∧
    l.l2e.segEnd = none ∧ l.pb = [] ∧ l.SessionOk

/-- The ranges SYS.CONFIGURE lets through (R1040), with `w` lanes. -/
abbrev Act.Ok (w : Nat) (a : Act) : Prop :=
  Config.dictMin ≤ a.dictSize.toNat ∧ a.dictSize.toNat ≤ Config.dictMax ∧
    a.lc.toNat ≤ 8 ∧ a.lp.toNat ≤ 4 ∧ a.pb.toNat ≤ 4 ∧
    1 ≤ a.threadCount.toNat ∧ a.threadCount.toNat ≤ w ∧
    Config.niceMin ≤ a.niceLen.toNat ∧ a.niceLen.toNat ≤ Config.niceMax

/-- The error registers agree with the sticky flag (R106, R1010 d, R1043). -/
abbrev State.ErrOk (s : State) : Prop :=
  (s.err = false → s.errCode = 0#32 ∧ s.errInfo = 0#64 ∧ s.errUnit = 0#32) ∧ (s.err = true → s.errCode ≠ 0#32)

/-- The invariant every step keeps: lane 0 is sound (R401, R117, R118, R119, R701, R813); every other lane is at its initial values (R1130);
ACT has passed CONFIGURE's checks (R1040); before it has a value lane 0 is at its reset values (R1102); STAGE is empty (R234) and
the coordinator has no units (R140) between commands; at most one session is open (R801); the ERR registers agree with the flag;
and a command that holds is at the head of CQ, with no error pending (R231, R330). -/
abbrev State.Inv (s : State) : Prop :=
  s.lane0.Ok ∧
  (∀ l ∈ s.workers, l = laneInit s.act) ∧
  (∀ a ∈ s.act, a.Ok s.laneCount) ∧
  (s.act = none → s.lane0 = Lane.reset) ∧
  s.stage = [] ∧
  s.coord = Coordinator.idle ∧
  (s.lane0.l2e.active && s.lane0.l2d.active) = false ∧
  s.ErrOk ∧
  (s.holding.isSome = true → s.cq ≠ [] ∧ s.err = false)

/-- Every cell the store lists exists: its index is below NPROB (R117, R210). -/
abbrev Lane.CellsExist (l : Lane) : Prop := ∀ x ∈ l.prob, x.1 < nprob l.lz

/-- The finder's tables speak of positions before `p`, a chain link leads backwards, and an entry of the 2- and 3-byte tables is
a position whose first bytes have that hash (R712). -/
def MatchFinder.Sound (w : Window) (m : MatchFinder) (p : Nat) : Prop :=
  (∀ h q, entry m.t2 h = some q → q < p ∧ q + 4 ≤ w.endPos ∧ (hashesAt w q).h2 = h) ∧
  (∀ h q, entry m.t3 h = some q → q < p ∧ q + 4 ≤ w.endPos ∧ (hashesAt w q).h3 = h) ∧
  (∀ h q, entry m.t4 h = some q → q < p) ∧
  (∀ x q, entry m.chain x = some q → q < x)

/-- The finder of lane 0 is sound, and the position whose candidates it caches has been searched (R733); between the
commands of an encoder session it is not ahead of the parser, which searches ahead only inside a segment (R730, R733, R761); in
a decoder session, whose chunks can empty the window, it is as LaneInit left it (R854, R802). -/
def Lane.FinderOk (l : Lane) : Prop :=
  l.mf.Sound l.win l.mf.next ∧
  (∀ q list, l.mf.cache = some (q, list) → q < l.mf.next) ∧
  (l.l2e.active = true → l.mf.next ≤ l.win.cur) ∧
  (l.l2d.active = true →
    l.mf = { t2 := [], t3 := [], t4 := [], chain := [], next := 0, cache := none,
             own := { finder := none, parser := [], ahead := [] } })

/-- The last position from `lo` up to `hi` that is filed under hash `h` of the table that `f` names: a position is filed where four
bytes of the window are there (R712, R714). -/
def lastFiled (w : Window) (f : Hashes → Nat) (h lo hi : Nat) : Option Nat :=
  (List.range' lo (hi - lo)).reverse.find? fun q => decide (q + 4 ≤ w.endPos) && f (hashesAt w q) == h

/-- The finder goes from `m` to `m'` by filing every position from `lo` up to `hi`, in order (R712, R714): each table's entry is the last
position filed under it, and a position's chain link is the 4-byte table's entry before it was filed. -/
def MatchFinder.Filed (w : Window) (m m' : MatchFinder) (lo hi : Nat) : Prop :=
  (∀ h, entry m'.t2 h = (lastFiled w Hashes.h2 h lo hi).or (entry m.t2 h)) ∧
  (∀ h, entry m'.t3 h = (lastFiled w Hashes.h3 h lo hi).or (entry m.t3 h)) ∧
  (∀ h, entry m'.t4 h = (lastFiled w Hashes.h4 h lo hi).or (entry m.t4 h)) ∧
  (∀ p, entry m'.chain p =
    if lo ≤ p ∧ p < hi ∧ p + 4 ≤ w.endPos then
      (lastFiled w Hashes.h4 (hashesAt w p).h4 lo p).or (entry m.t4 (hashesAt w p).h4)
    else entry m.chain p)

/-- Two positions of the window carry the same `len` bytes (R713: a true match of the bytes at `p` and distance `d`). -/
abbrev Window.Repeats (w : Window) (p d len : Nat) : Prop := ∀ k < len, w.byteAt (p + k) = w.byteAt (p + k - d)

/-! ## The arithmetic value of a coder (R405, R420) -/

/-- A byte string read as a number, first byte most significant (R245). -/
def bytesValue (bs : List Byte) : Nat := bs.foldl (fun n b => n * 2 ^ 8 + b.toNat) 0

/-- The bytes an encoder has shifted out: those written, the cache, and the run of 0xFF held back (R115). -/
def RangeEnc.digits (e : RangeEnc) : List Byte := e.cbuf ++ e.cache :: List.replicate (e.cacheSize - 1) 0xFF#8

/-- The encoder's arithmetic value: the bytes shifted out, then the 32 bits of `low` and its carry (R405). -/
def RangeEnc.value (e : RangeEnc) : Nat := bytesValue e.digits * 2 ^ 32 + e.low.toNat

/-- `k` bytes are what normalising a range of `r` shifts: the fewest that bring it to 2^24 (R404, R424). -/
abbrev Normalises (r k : Nat) : Prop := 2 ^ 24 ≤ r * 2 ^ (8 * k) ∧ (k = 0 ∨ r * 2 ^ (8 * (k - 1)) < 2 ^ 24)

/-- The encoder goes from `e` to `e'` by taking the sub-interval of width `r` at `add` above `low`, and normalising (R404–R407). -/
def RangeEnc.Takes (e e' : RangeEnc) (add r : Nat) : Prop :=
  ∃ k, Normalises r k ∧
    e'.range.toNat = r * 2 ^ (8 * k) ∧
    e'.value = (e.value + add) * 2 ^ (8 * k) ∧
    e'.digits.length = e.digits.length + k ∧
    (∃ more, e'.cbuf = e.cbuf ++ more) ∧
    e'.flushed = e.flushed ∧ e'.Ok

/-- The decoder goes from `d` to `d'` with range `r` and code `c`, normalising with `k` bytes of `src` (R424). -/
def RangeDec.Takes (d d' : RangeDec) (r c k : Nat) (src : List Byte) : Prop :=
  d' = { d with
    range := BitVec.ofNat 32 (r * 2 ^ (8 * k))
    code := BitVec.ofNat 32 (c * 2 ^ (8 * k) + bytesValue (src.take k)) }

/-- Direct bits coded one after another, most significant first (R407): from `e` to `e'`, the `n` low bits of `v`. -/
def DirectCoded (v : Nat) : Nat → RangeEnc → RangeEnc → Prop
  | 0, e, e' => e' = e
  | n + 1, e, e' =>
    ∃ m, e.Takes m (if v.testBit n then e.range.toNat / 2 else 0) (e.range.toNat / 2) ∧ DirectCoded v n m e'

/-- Direct bits decoded one after another, most significant first (R423): `n` bits from `d` and `src` give `v`, `d'` and `src'`. -/
def DirectDecoded : Nat → RangeDec → List Byte → Nat → RangeDec → List Byte → Prop
  | 0, d, src, v, d', src' => v = 0 ∧ d' = d ∧ src' = src
  | n + 1, d, src, v, d', src' =>
    ∃ k m u, Normalises (d.range.toNat / 2) k ∧ k ≤ src.length ∧
      d.Takes m (d.range.toNat / 2)
        (if d.range.toNat / 2 ≤ d.code.toNat then d.code.toNat - d.range.toNat / 2 else d.code.toNat) k src ∧
      v = (if d.range.toNat / 2 ≤ d.code.toNat then 2 ^ n else 0) + u ∧
      DirectDecoded n m (src.drop k) u d' src'

/-- The bytes that decoding `n` direct bits from a range of `r` takes: after each halving a byte where the range is below 2^24 (R423,
R424). -/
def directBytes : Nat → Nat → Nat
  | 0, _ => 0
  | n + 1, r => if r / 2 < 2 ^ 24 then 1 + directBytes n (r / 2 * 2 ^ 8) else directBytes n (r / 2)

/-- A payload that continues the encoder's: its value lies in the encoder's interval (R405, R408). -/
def RangeEnc.Reaches (e : RangeEnc) (payload : List Byte) : Prop :=
  ∃ k, payload.length = e.digits.length + 4 + k ∧
    e.value * 2 ^ (8 * k) ≤ bytesValue payload ∧ bytesValue payload < (e.value + e.range.toNat) * 2 ^ (8 * k)

/-- A decoder that reads `payload` stands where the encoder `e` stood: the same range, `code` the offset of the payload's value from
the encoder's, and `src` what it has not read (R420, R424). -/
def RangeDec.Follows (d : RangeDec) (e : RangeEnc) (payload src : List Byte) : Prop :=
  d.range = e.range ∧ src = payload.drop (e.digits.length + 4) ∧ e.digits.length + 4 ≤ payload.length ∧
    bytesValue (payload.take (e.digits.length + 4)) = e.value + d.code.toNat

/-! ## Decisions (R340, R520–R552, R610) -/

/-- One step of the coded stream: a bit with a cell, or a direct bit (R340). -/
inductive Decision where
  | cell (i : Nat) (b : Bool)
  | direct (b : Bool)
  deriving DecidableEq, Repr

/-- The decision's bit. -/
def Decision.bit : Decision → Bool
  | .cell _ b => b
  | .direct b => b

/-- Coding one decision (R406, R407). -/
def Decision.code : Decision → Lane → Lane
  | .cell i b, l => encBit i b l
  | .direct b, l => { l with rce := encDirectBit b l.rce }

/-- Coding decisions in order. -/
def codeDecisions (ds : List Decision) (l : Lane) : Lane := ds.foldl (fun l d => d.code l) l

/-- Decoding one decision: the cell is given, the bit is read (R422, R423). -/
def Decision.read : Decision → DecCtx → Res DecCtx Bool
  | .cell i _, c => decBit i c
  | .direct _, c => decDirectBit c

/-- Decoding decisions in order: their bits. -/
def readDecisions : List Decision → DecCtx → Res DecCtx (List Bool)
  | [], c => .ok [] c
  | d :: ds, c => (d.read c).bind fun b c => (readDecisions ds c).bind fun bs c => .ok (b :: bs) c

/-- A forward tree (R520): bit `n − 1 − j` of `v` at node `2^j + v[n−1 : n−j]`, the bits coded so far after a leading 1. -/
def treeDecisions (base n v : Nat) : List Decision :=
  (List.range n).map fun j => .cell (base + 2 ^ j + v % 2 ^ n / 2 ^ (n - j)) (v.testBit (n - 1 - j))

/-- The node of a reverse tree after the `j` low bits of `v` (R521). -/
def reverseNode (v j : Nat) : Nat := (List.range j).foldl (fun m k => 2 * m + (v.testBit k).toNat) 1

/-- A reverse tree (R521): bit `j` of `v` at `reverseNode v j`. -/
def reverseDecisions (base n v : Nat) : List Decision :=
  (List.range n).map fun j => .cell (base + reverseNode v j) (v.testBit j)

/-- Direct bits (R407). -/
def directDecisions (v n : Nat) : List Decision := (List.range n).map fun j => .direct (v.testBit (n - 1 - j))

/-- A length (R341, R530). -/
def lengthDecisions (base len ps : Nat) : List Decision :=
  if len ≤ 9 then .cell base false :: treeDecisions (base + 2 + ps * 8) 3 (len - 2)
  else if len ≤ 17 then .cell base true :: .cell (base + 1) false :: treeDecisions (base + 130 + ps * 8) 3 (len - 10)
  else .cell base true :: .cell (base + 1) true :: treeDecisions (base + 258) 8 (len - 18)

/-- A distance, coded as `d0` (R342, R540–R543). -/
def distanceDecisions (d0 len : Nat) : List Decision :=
  let s := slotOf d0
  let fb := s / 2 - 1
  let b := (2 + s % 2) * 2 ^ fb
  treeDecisions (432 + min (len - 2) 3 * 64) 6 s ++
    if s < 4 then []
    else if s < 14 then reverseDecisions (688 + b - s - 1) fb (d0 - b)
    else directDecisions ((d0 - b) / 2 ^ 4) (fb - 4) ++ reverseDecisions 802 4 ((d0 - b) % 2 ^ 4)

/-- The literal sub-coder's base (R550). -/
def literalCells (l : Lane) : Nat :=
  1846 + 0x300 * (l.win.cur % 2 ^ l.lz.lp.toNat * 2 ^ l.lz.lc.toNat + l.win.prev.toNat / 2 ^ (8 - l.lz.lc.toNat))

/-- A matched literal `b` beside match byte `mb` (R552): while the bits above agree the cell is offset by 0x100, or by 0x200 where the
match byte's bit is 1. -/
def matchedDecisions (base b mb : Nat) : List Decision :=
  (List.range 8).map fun j =>
    .cell
      (base + (if b / 2 ^ (8 - j) = mb / 2 ^ (8 - j) then (if mb.testBit (7 - j) then 0x200 else 0x100) else 0) + 2 ^ j +
        b / 2 ^ (8 - j))
      (b.testBit (7 - j))

/-- A symbol, as R16 names them. -/
inductive Sym where
  | lit
  | mtch (d len : Nat)
  | shortrep
  | rep (r len : Nat)
  | eos
  deriving DecidableEq, Repr

/-- Its length in bytes. -/
def Sym.len : Sym → Nat
  | .lit | .shortrep => 1
  | .mtch _ n | .rep _ n => n
  | .eos => 0

/-- The rows of R340 with the cells of R610. -/
def Sym.decisions (y : Sym) (l : Lane) : List Decision :=
  let s := l.lz.state.val
  let ps := l.win.cur % 2 ^ l.lz.pb.toNat
  match y with
  | .lit =>
    .cell (s * 16 + ps) false ::
      if s < 7 then treeDecisions (literalCells l) 8 (l.win.look 0).toNat
      else matchedDecisions (literalCells l) (l.win.look 0).toNat (l.win.back (l.lz.rep0.toNat + 1)).toNat
  | .mtch d len =>
    .cell (s * 16 + ps) true :: .cell (192 + s) false :: (lengthDecisions 818 len ps ++ distanceDecisions (d - 1) len)
  | .shortrep =>
    [.cell (s * 16 + ps) true, .cell (192 + s) true, .cell (204 + s) false, .cell (240 + s * 16 + ps) false]
  | .rep r len =>
    [.cell (s * 16 + ps) true, .cell (192 + s) true] ++
    (match r with
      | 0 => [.cell (204 + s) false, .cell (240 + s * 16 + ps) true]
      | 1 => [.cell (204 + s) true, .cell (216 + s) false]
      | 2 => [.cell (204 + s) true, .cell (216 + s) true, .cell (228 + s) false]
      | _ => [.cell (204 + s) true, .cell (216 + s) true, .cell (228 + s) true]) ++
    lengthDecisions 1332 len ps
  | .eos =>
    .cell (s * 16 + ps) true :: .cell (192 + s) false :: (lengthDecisions 818 2 ps ++ distanceDecisions 0xFFFFFFFF 2)

/-- The state after a symbol: the table of R601, one row a state, columns LIT, MATCH, LONGREP, SHORTREP. -/
def transitions : List (List (Fin 12)) :=
  [[0, 7, 8, 9], [0, 7, 8, 9], [0, 7, 8, 9], [0, 7, 8, 9], [1, 7, 8, 9], [2, 7, 8, 9], [3, 7, 8, 9],
    [4, 10, 11, 11], [5, 10, 11, 11], [6, 10, 11, 11], [4, 10, 11, 11], [5, 10, 11, 11]]

/-- The column of a symbol in R601; the end marker moves as MATCH does. -/
def Sym.column : Sym → Nat
  | .lit => 0
  | .mtch _ _ | .eos => 1
  | .rep _ _ => 2
  | .shortrep => 3

/-- The repeat distances after a symbol (R602). -/
def Sym.reps (y : Sym) (z : Coder) : List (BitVec 32) :=
  match y with
  | .lit | .shortrep => [z.rep0, z.rep1, z.rep2, z.rep3]
  | .mtch d _ => [BitVec.ofNat 32 (d - 1), z.rep0, z.rep1, z.rep2]
  | .eos => [0xFFFFFFFF#32, z.rep0, z.rep1, z.rep2]
  | .rep 0 _ => [z.rep0, z.rep1, z.rep2, z.rep3]
  | .rep 1 _ => [z.rep1, z.rep0, z.rep2, z.rep3]
  | .rep 2 _ => [z.rep2, z.rep0, z.rep1, z.rep3]
  | .rep _ _ => [z.rep3, z.rep0, z.rep1, z.rep2]

/-- The symbol state machine after a symbol (R601, R602). -/
def Sym.after (y : Sym) (z : Coder) : Coder :=
  { z with
    state := (transitions.getD z.state.val []).getD y.column 0
    rep0 := (y.reps z).getD 0 0#32
    rep1 := (y.reps z).getD 1 0#32
    rep2 := (y.reps z).getD 2 0#32
    rep3 := (y.reps z).getD 3 0#32 }

/-- Lane 0 after the encoder has coded a symbol (R611). -/
def Sym.coded (y : Sym) (l : Lane) : Lane :=
  { codeDecisions (y.decisions l) l with lz := y.after l.lz, win := { l.win with cur := l.win.cur + y.len } }

/-- What a symbol needs of the window to be coded (R621–R625). -/
def Sym.Codable (y : Sym) (l : Lane) : Prop :=
  match y with
  | .lit => l.win.cur < l.win.endPos ∧ (l.lz.state.val < 7 ∨ l.lz.rep0.toNat + 1 ≤ l.win.hist)
  | .mtch d len => 1 ≤ d ∧ 2 ≤ len ∧ len ≤ 273 ∧
      d ≤ l.win.hist ∧ l.win.cur + len ≤ l.win.endPos ∧ l.win.Repeats l.win.cur d len
  | .shortrep => l.lz.rep0.toNat + 1 ≤ l.win.hist ∧ l.win.cur < l.win.endPos ∧
      l.win.byteAt l.win.cur = l.win.byteAt (l.win.cur - (l.lz.rep0.toNat + 1))
  | .rep r len => r ≤ 3 ∧ 2 ≤ len ∧ len ≤ 273 ∧
      (l.lz.rep r).toNat + 1 ≤ l.win.hist ∧ l.win.cur + len ≤ l.win.endPos ∧
      l.win.Repeats l.win.cur ((l.lz.rep r).toNat + 1) len
  | .eos => True

/-- `kind | len << 16 | x << 32` of a decoded symbol (R632), the symbol being coded at lane `l`. -/
def Sym.word (y : Sym) (l : Lane) : Nat :=
  match y with
  | .lit => 0 + 1 * 2 ^ 16 + (l.win.look 0).toNat * 2 ^ 32
  | .mtch d len => 1 + len * 2 ^ 16 + d * 2 ^ 32
  | .shortrep => 2 + 1 * 2 ^ 16 + (l.lz.rep0.toNat + 1) * 2 ^ 32
  | .rep r len => (3 + r) + len * 2 ^ 16 + ((l.lz.rep r).toNat + 1) * 2 ^ 32
  | .eos => 7 + 0xFFFFFFFF * 2 ^ 32

/-- Symbols coded one after another. -/
def codedAll : List Sym → Lane → Lane
  | [], l => l
  | y :: ys, l => codedAll ys (y.coded l)

/-- Each symbol can be coded where the ones before it leave off; none is the end marker. -/
def CodableAll : List Sym → Lane → Prop
  | [], _ => True
  | y :: ys, l => y ≠ .eos ∧ y.Codable l ∧ CodableAll ys (y.coded l)

/-- Their length in bytes. -/
def Sym.total (ys : List Sym) : Nat := (ys.map Sym.len).sum

/-! ## What the decoder cannot decode (R631) -/

/-- The symbol's operands are ones its bits can spell (R340–R342); the distance of the end marker is not a match's (R640). -/
def Sym.Spelled : Sym → Prop
  | .mtch d len => 1 ≤ d ∧ d < 2 ^ 32 ∧ 2 ≤ len ∧ len ≤ 273
  | .rep r len => r ≤ 3 ∧ 2 ≤ len ∧ len ≤ 273
  | .lit | .shortrep | .eos => True

/-- The distance a symbol reads the history at, 0 where it does not (R630): a literal reads it in states 7 to 11. -/
def Sym.reach (y : Sym) (l : Lane) : Nat :=
  match y with
  | .lit => if 7 ≤ l.lz.state.val then l.lz.rep0.toNat + 1 else 0
  | .mtch d _ => d
  | .shortrep => l.lz.rep0.toNat + 1
  | .rep r _ => (l.lz.rep r).toNat + 1
  | .eos => 0

/-- The ERR_CODE the decoder raises on a symbol at lane `l`, in R631's order, or `none` where it decodes it: InvalidReference 0x01 for a
distance beyond the history, InvalidReference 0x02 for an end marker that is not permitted, `tooLong` for a symbol longer than the limit. -/
def Sym.errorCode (y : Sym) (l : Lane) (limit : Option Nat) (eosOk : Bool) (tooLong : Nat) : Option Nat :=
  if min l.win.cur l.win.dictSize.toNat < y.reach l then some 0x0103
  else if y = .eos then (if eosOk then none else some 0x0203)
  else if limit.any fun m => decide (m < y.len) then some tooLong
  else none

/-- The decisions read when the decoder is done with the symbol (R630): all of them, but for a literal that raises, whose checks come
after its first. -/
def Sym.decisionsRead (y : Sym) (l : Lane) (err : Option Nat) : List Decision :=
  if y = .lit ∧ err.isSome then (y.decisions l).take 1 else y.decisions l

/-- The lane after the decisions read of the symbol that follows `ys`, with the error raised on it. -/
def codedToError (ys : List Sym) (y : Sym) (err : Option Nat) (l : Lane) : Lane :=
  codeDecisions (y.decisionsRead (codedAll ys l) err) (codedAll ys l)

/-! ## Chunks (R350, R830–R836) -/

/-- The header of an LZMA chunk: its reset level, its properties byte (read at levels 2 and 3), `U` and `C` (R350). -/
structure LzmaHead where
  level : Fin 4
  pr : Byte
  size : Nat
  count : Nat
  deriving DecidableEq, Repr

/-- The control byte (R350). -/
def LzmaHead.control (h : LzmaHead) : Byte := BitVec.ofNat 8 (0x80 + h.level.val * 2 ^ 5 + (h.size - 1) / 2 ^ 16)

/-- The header as it stands in the stream (R350). -/
def LzmaHead.bytes (h : LzmaHead) : List Byte :=
  [h.control, BitVec.ofNat 8 ((h.size - 1) / 2 ^ 8), BitVec.ofNat 8 (h.size - 1), BitVec.ofNat 8 ((h.count - 1) / 2 ^ 8),
    BitVec.ofNat 8 (h.count - 1)] ++ if 2 ≤ h.level.val then [h.pr] else []

/-- `U` and `C` fit their fields (R350). -/
abbrev LzmaHead.InRange (h : LzmaHead) : Prop :=
  1 ≤ h.size ∧ h.size ≤ 2 ^ 21 ∧ 1 ≤ h.count ∧ h.count ≤ 2 ^ 16

/-- `lc`, `lp` and `pb` of a properties byte (R360). -/
def propsOf (pr : Byte) : Nat × Nat × Nat := (pr.toNat % 45 % 9, pr.toNat % 45 / 9, pr.toNat / 45)

/-- The chunk stands where it may: the dictionary has been reset, and the properties given, or it does it itself (R830, R837). -/
abbrev LzmaHead.InSequence (h : LzmaHead) (d : DecSession) : Prop :=
  (h.level = 3 ∨ d.needDictReset = false) ∧ (2 ≤ h.level.val ∨ d.needProps = false)

/-- The properties byte, where the chunk has one, is one LZMA2 admits (R834). -/
abbrev LzmaHead.PropsOk (h : LzmaHead) : Prop :=
  2 ≤ h.level.val → h.pr.toNat ≤ 224 ∧ (propsOf h.pr).1 + (propsOf h.pr).2.1 ≤ 4

/-- The lane after the resets of the chunk's level (R352, R833). -/
def LzmaHead.start (h : LzmaHead) (a : Act) (l : Lane) : Lane :=
  { l with
    prob := if 1 ≤ h.level.val then [] else l.prob
    lz :=
      if h.level = 0 then l.lz
      else
        { state := 0, rep0 := 0#32, rep1 := 0#32, rep2 := 0#32, rep3 := 0#32
          lc := if 2 ≤ h.level.val then BitVec.ofNat 4 (propsOf h.pr).1 else l.lz.lc
          lp := if 2 ≤ h.level.val then BitVec.ofNat 3 (propsOf h.pr).2.1 else l.lz.lp
          pb := if 2 ≤ h.level.val then BitVec.ofNat 3 (propsOf h.pr).2.2 else l.lz.pb }
    win := if h.level = 3 then { bytes := [], cur := 0, dictSize := a.dictSize } else l.win }

/-- The lane of an encoder that codes the chunk's bytes `x` (R810): its resets made, a fresh range encoder, `x` the lookahead. -/
def LzmaHead.encoder (h : LzmaHead) (a : Act) (x : List Byte) (l : Lane) : Lane :=
  let m := h.start a l
  { m with
    rce := { range := 0xFFFFFFFF#32, low := 0#33, cache := 0#8, cacheSize := 1, flushed := false, cbuf := [] }
    win := { m.win with bytes := m.win.bytes ++ x } }

/-- The payload is exactly the encoder's: nothing is left over, and the decoder's code ends at 0 (R425, R835). -/
abbrev RangeEnc.EndsAt (e : RangeEnc) (payload : List Byte) : Prop :=
  payload.length = e.digits.length + 4 ∧ bytesValue payload = e.value

/-- A chunk as an encoder makes it: raw bytes, with a dictionary reset or without, or bytes `x` coded as the symbols `ys` in a payload. -/
inductive CodedChunk where
  | raw (reset : Bool) (x : List Byte)
  | lzma (level : Fin 4) (pr : Byte) (ys : List Sym) (x payload : List Byte)
  deriving DecidableEq, Repr

/-- An LZMA chunk's header. -/
abbrev CodedChunk.head (level : Fin 4) (pr : Byte) (x payload : List Byte) : LzmaHead :=
  { level := level, pr := pr, size := x.length, count := payload.length }

/-- The bytes the chunk stands for. -/
def CodedChunk.bytes : CodedChunk → List Byte
  | .raw _ x => x
  | .lzma _ _ _ x _ => x

/-- The control byte (R350). -/
def CodedChunk.control : CodedChunk → Byte
  | .raw reset _ => if reset then 0x01#8 else 0x02#8
  | .lzma level pr _ x payload => (head level pr x payload).control

/-- The chunk as it stands in the stream (R350). -/
def CodedChunk.wire : CodedChunk → List Byte
  | .raw reset x =>
    (if reset then 0x01#8 else 0x02#8) :: BitVec.ofNat 8 ((x.length - 1) / 2 ^ 8) :: BitVec.ofNat 8 (x.length - 1) :: x
  | .lzma level pr _ x payload => (head level pr x payload).bytes ++ payload

/-- The chunk resets the dictionary (R350). -/
def CodedChunk.resetsDictionary : CodedChunk → Bool
  | .raw reset _ => reset
  | .lzma level _ _ _ _ => level = 3

/-- The chunk carries a properties byte (R350). -/
def CodedChunk.givesProps : CodedChunk → Bool
  | .raw _ _ => false
  | .lzma level _ _ _ _ => 2 ≤ level.val

/-- The chunk may stand where the decoder's lane is `l`, and decodes to its bytes (R350, R830, R834, R835). -/
def CodedChunk.Legal (k : CodedChunk) (a : Act) (l : Lane) : Prop :=
  match k with
  | .raw reset x => (reset = true ∨ l.l2d.needDictReset = false) ∧ 1 ≤ x.length ∧ x.length ≤ 65536
  | .lzma level pr ys x payload =>
    let h := head level pr x payload
    h.InRange ∧ h.InSequence l.l2d ∧ h.PropsOk ∧ CodableAll ys (h.encoder a x l) ∧ Sym.total ys = x.length ∧
      (codedAll ys (h.encoder a x l)).rce.EndsAt payload

/-- The decoder's lane after the chunk (R830, R833, R836): resets, window, coder and flags. -/
def CodedChunk.after (k : CodedChunk) (a : Act) (l : Lane) : Lane :=
  let m :=
    match k with
    | .raw reset x =>
      { l with
        win := if reset then { bytes := x, cur := x.length, dictSize := a.dictSize }
          else { l.win with bytes := l.win.bytes ++ x, cur := l.win.cur + x.length } }
    | .lzma level pr ys x payload =>
      let h := head level pr x payload
      let e := codedAll ys (h.encoder a x l)
      { h.start a l with
        prob := e.prob
        lz := e.lz
        win := e.win
        rcd := { range := e.rce.range, code := 0#32, inited := true, initBad := false }
        pb := [] }
  { m with
    l2d := { l.l2d with
      needDictReset := l.l2d.needDictReset && !k.resetsDictionary
      needProps := (l.l2d.needProps || k.resetsDictionary) && !k.givesProps
      chunkIndex := BitVec.ofNat 32 (min (l.l2d.chunkIndex.toNat + 1) (2 ^ 32 - 1))
      outTotal := BitVec.ofNat 64 (l.l2d.outTotal.toNat + k.bytes.length) } }

/-- Chunks in a row, each legal where the ones before it leave the lane. -/
def CodedChunk.AllLegal (a : Act) : List CodedChunk → Lane → Prop
  | [], _ => True
  | k :: ks, l => k.Legal a l ∧ AllLegal a ks (k.after a l)

/-- The lane after chunks in a row. -/
def CodedChunk.afterAll (a : Act) (ks : List CodedChunk) (l : Lane) : Lane := ks.foldl (fun l k => k.after a l) l

/-- Chunks in a row as they stand in the stream. -/
def CodedChunk.wires (ks : List CodedChunk) : List Byte := (ks.map CodedChunk.wire).flatten

/-- The bytes chunks in a row stand for. -/
def CodedChunk.allBytes (ks : List CodedChunk) : List Byte := (ks.map CodedChunk.bytes).flatten

/-- The errors a lane finds, as ERR_CODE (R925): CorruptStream 0x06 to 0x09 and InvalidReference 0x01 and 0x02. -/
def laneErrors : List (BitVec 32) := [0x0602, 0x0702, 0x0802, 0x0902, 0x0103, 0x0203]

/-! ## The commands of R233 and R235 -/

/-- The commands that read a byte source (R233). -/
def ReadsIn : Instr → Prop
  | .rcdInit | .rcdBit _ | .rcdDirect _ | .lzdSymbol _ | .lzdRun _ | .winFeed _ => True
  | .lzmaEncode | .l2Encode | .l2EncSegment _ | .lzmaDecode _ | .l2Decode | .l2DecChunk => True
  | _ => False

/-- The commands that write to OUT (R235, R413, R630, R660, R812, R836, R850, R853). -/
def WritesOut : Instr → Prop
  | .rceFlush | .lzdSymbol _ | .lzdRun _ => True
  | .lzmaEncode | .l2Encode | .l2EncSegment _ | .l2EncEnd | .lzmaDecode _ | .l2Decode | .l2DecChunk => True
  | _ => False

end Sys2Proof.Machine
end

