-- ==== Sys2Proof/Certificates/Slice0/Obligations.lean ====
section
/-! DEFINITION. The statements for the provers. Each docstring names the rules it formalises; what a statement says of a next state is
written with `State.completed`, `refusedBy`, `failedWith` and `held` (Safety.lean), record updates that name every field they
change, so each is a frame too: every field they do not name keeps its value. -/

open Sys2Proof Sys2Proof.Machine

/-! ## Words and the sequencer -/

/-- R300–R303: every command's word decodes to the command, with every operand at every value its field holds. -/
def Obligations.DecodeOfEncodeIsTheCommand : Prop := ∀ i : Instr, decode (encode i) = .ok i

/-- R300–R303: a word that decodes is the word of the command it decodes to: no bit of it is dropped. -/
def Obligations.EncodeOfDecodeIsTheWord : Prop := ∀ (c : Word) (i : Instr), decode c = .ok i → encode i = c

/-- Words the spec writes out beside a command: in R370, and in the vectors and programs of spec/95. -/
def Obligations.ListedWordsDecode : Prop :=
  decode 0x0000000000000000#64 = .ok .sysNop ∧
  decode 0x0300000000000000#64 = .ok .sysConfigure ∧
  decode 0x1100000001000001#64 = .ok (.rceBit 1 true) ∧
  decode 0x1800000000000000#64 = .ok .rcdInit ∧
  decode 0x22000007D0000001#64 = .ok (.probWrite 1 2000) ∧
  decode 0x2A00000000000000#64 = .ok .lzReadState ∧
  decode 0x3100000300000001#64 = .ok (.lzeMatch 1 3) ∧
  decode 0x3800000000000000#64 = .ok (.lzdSymbol 0) ∧
  decode 0x4100000000000001#64 = .ok (.winFeed 1) ∧
  decode 0x4300000000000001#64 = .ok (.winGet 1) ∧
  decode 0x5100000000000000#64 = .ok .l2Decode ∧
  decode 0x5900000000000004#64 = .ok (.lzmaDecode 4)

/-- The reserved bits of each opcode of R303, from the column `reserved` of R302; an opcode that is not listed is undefined. -/
def reservedBitsOf : List (Nat × Nat) :=
  let z := 2 ^ 56 - 1
  [(0x00, z), (0x01, z), (0x02, z), (0x03, z)] ++
  [(0x10, z), (0x11, 2 ^ 56 - 2 ^ 25), (0x12, 2 ^ 56 - 2 ^ 38), (0x13, z), (0x14, z)] ++
  [(0x18, z), (0x19, 2 ^ 56 - 2 ^ 24), (0x1A, 2 ^ 56 - 2 ^ 38 + (2 ^ 32 - 1)), (0x1B, z)] ++
  [(0x20, z), (0x21, 2 ^ 56 - 2 ^ 24), (0x22, 2 ^ 56 - 2 ^ 36)] ++
  [(0x28, 2 ^ 56 - 2 ^ 8), (0x29, z), (0x2A, z), (0x2B, 2 ^ 56 - 2 ^ 16)] ++
  [(0x30, z), (0x31, 2 ^ 56 - 2 ^ 41), (0x32, 2 ^ 56 - 2 ^ 41 + (2 ^ 32 - 2 ^ 2)), (0x33, z), (0x34, z)] ++
  [(0x38, 2 ^ 56 - 2 ^ 48), (0x39, 2 ^ 56 - 2 ^ 48)] ++
  [(0x40, z), (0x41, 2 ^ 56 - 2 ^ 48), (0x42, 2 ^ 56 - 2 ^ 8), (0x43, 2 ^ 56 - 2 ^ 32)] ++
  [(0x48, z), (0x49, z), (0x4A, 2 ^ 56 - 2 ^ 16), (0x4B, 2 ^ 56 - 2 ^ 48)] ++
  [(0x50, z), (0x51, z), (0x52, 2 ^ 56 - 2 ^ 48), (0x53, z), (0x54, z)] ++
  [(0x58, z), (0x59, 2 ^ 56 - 2 ^ 48)]

/-- R302, R304: a word is undefined exactly where its opcode is not listed, has a reserved bit exactly where a reserved bit of its
format is 1, and is a command otherwise. -/
def Obligations.EveryWordIsACommandOrRejected : Prop :=
  ∀ c : Word,
    match reservedBitsOf.lookup (c.toNat / 2 ^ 56) with
    | none => decode c = .error .undefinedOpcode
    | some m => if c.toNat &&& m = 0 then ∃ i, decode c = .ok i else decode c = .error .reservedBits

/-- R330, R1020: with the block to move, a word at the head of CQ that decodes to `i` is executed: the step is `exec i`. -/
def Obligations.StepRunsTheDecodedCommand : Prop :=
  ∀ (s : State) (c : Word) (rest : List Word) (i : Instr),
    s.cq = c :: rest → decode c = .ok i →
    (s.err = false ∨ i = .sysNop ∨ i = .sysSoftReset ∨ i = .sysClearErr) →
    (s.agenda = [] → step s = exec i s) ∧
    (∀ turns, s.agenda = .block :: turns → step s = exec i { s with agenda := turns })

/-- R1011: while STATUS.ERR is 1 every word but those of SYS.NOP, SYS.SOFT_RESET and SYS.CLEAR_ERR leaves CQ and has no other effect,
and the two that clear the flag clear it. A word of one of their opcodes with a reserved bit set is none of the three: the model's choice
(log 26). -/
def Obligations.StickyErrorDiscardsCommands : Prop :=
  (∀ (s : State) (c : Word) (rest : List Word),
    s.agenda = [] → s.err = true → s.cq = c :: rest →
    c ≠ 0x0000000000000000#64 → c ≠ 0x0100000000000000#64 → c ≠ 0x0200000000000000#64 →
    step s = .next { s with cq := rest }) ∧
  (∀ (s : State) (i : Instr), i = .sysSoftReset ∨ i = .sysClearErr →
    ∃ t, exec i s = .next t ∧ t.err = false ∧ t.errCode = 0#32 ∧ t.errInfo = 0#64 ∧ t.errUnit = 0#32)

/-- R304, R1008, R1010, R1020 items 2 and 3: a word that is no command raises IllegalCommand 0x01 or 0x02 and does nothing else. -/
def Obligations.RejectedWordsRaiseIllegalCommand : Prop :=
  ∀ (s : State) (c : Word) (rest : List Word) (e : DecodeError),
    s.agenda = [] → s.err = false → s.cq = c :: rest → decode c = .error e →
    step s = .next { s with
      cq := rest
      inp := s.input
      stage := []
      holding := none
      err := true
      errCode := if e = .undefinedOpcode then 0x00000106#32 else 0x00000206#32
      errInfo := c
      errUnit := 0#32
      seen := { inEof := s.inEof, cfg := s.cfg } }

/-- R1020 items 4 to 6, in their order: not configured 0x04, then the operand range of R303 0x03, then the session lock of
R802 0x05; each with no other effect. -/
def Obligations.ChecksComeInOrder : Prop :=
  ∀ (i : Instr) (s : State),
    (¬ InSys i → s.act = none → exec i s = .next (s.refusedBy i 0x04)) ∧
    (s.act.isSome = true → ¬ InRange i s → exec i s = .next (s.refusedBy i 0x03)) ∧
    (s.act.isSome = true → InRange i s → RefusedBySession i s → exec i s = .next (s.refusedBy i 0x05))

/-- R1010 g: a command refused with IllegalCommand has had no effect but the error's. -/
def Obligations.IllegalCommandHasNoEffect : Prop :=
  ∀ (i : Instr) (s t : State),
    s.err = false → exec i s = .next t → t.err = true → t.errCode.toNat % 2 ^ 8 = 6 →
    t = s.refusedBy i (t.errCode.toNat / 2 ^ 8)

/-- R1010 a to f: any other error discards STAGE, keeps the bytes taken, leaves RESULT and OUT, and initialises every lane; ACT is
kept but for CONFIGURE (R1040). The model's own fields `draws` and `free` may move on (logs 7, 9). -/
def Obligations.ErrorsInitialiseEveryLane : Prop :=
  ∀ (i : Instr) (s t : State),
    s.err = false → exec i s = .next t → t.err = true → t.errCode.toNat % 2 ^ 8 ≠ 6 →
    1 ≤ t.errCode.toNat % 2 ^ 8 ∧ t.errCode.toNat % 2 ^ 8 ≤ 5 ∧
    ∃ took, took ≤ s.input.length ∧
      t = { (if i = .sysConfigure then { s with act := none } else s).failedWith took t.errCode.toNat t.errInfo.toNat
              t.errUnit.toNat with
            draws := t.draws, free := t.free }

/-- R331, R233, R234, R111, R112, R1010, R231, R104: a command that answers a next state holds, or ends with an error, or ends without one;
and what each way can change. Only the commands of R233 take bytes from IN, and only those that stage bytes write OUT. What CTRL and the
CFG registers hold at a completion is what they show while the next command executes. The build is fixed (R9). -/
def Obligations.EveryCommandEndsOneOfThreeWays : Prop :=
  ∀ (i : Instr) (s t : State), exec i s = .next t →
    (t = s.held ∧ s.inEof = false ∧ ReadsIn i) ∨
    (∃ took, took ≤ s.input.length ∧ (ReadsIn i ∨ took = 0) ∧
      t.cq = s.cq.tail ∧ t.inp = s.input.drop took ∧ t.holding = none ∧ t.stage = [] ∧
      t.inCount.toNat = min (s.inCount.toNat + took) (2 ^ 64 - 1) ∧
      t.err = true ∧ t.errCode ≠ 0#32 ∧
      t.out = s.out ∧ t.outCount = s.outCount ∧ t.result = s.result ∧
      t.cfg = s.cfg ∧ t.inEof = s.inEof ∧ t.seen = { inEof := s.inEof, cfg := s.cfg } ∧
      t.cmdLo = s.cmdLo ∧ (i = .sysConfigure ∨ t.act = s.act) ∧ t.agenda = s.agenda ∧ t.build = s.build) ∨
    (∃ took bs, took ≤ s.input.length ∧ (ReadsIn i ∨ took = 0) ∧ (WritesOut i ∨ bs = []) ∧
      t.cq = s.cq.tail ∧ t.inp = s.input.drop took ∧ t.holding = none ∧ t.stage = [] ∧
      t.inCount.toNat = min (s.inCount.toNat + took) (2 ^ 64 - 1) ∧
      t.out = s.out ++ bs ∧ t.outCount.toNat = min (s.outCount.toNat + bs.length) (2 ^ 64 - 1) ∧
      (i = .sysSoftReset ∨ t.cfg = s.cfg ∧ t.inEof = s.inEof ∧ t.cmdLo = s.cmdLo) ∧
      t.seen = { inEof := t.inEof, cfg := t.cfg } ∧
      (i = .sysSoftReset ∨ i = .sysConfigure ∨ t.act = s.act) ∧
      (i = .sysSoftReset ∨ i = .sysClearErr ∨
        t.err = s.err ∧ t.errCode = s.errCode ∧ t.errInfo = s.errInfo ∧ t.errUnit = s.errUnit) ∧
      (i = .sysSoftReset ∨ i = .sysConfigure ∨ i = .l2Encode ∨ i = .l2Decode ∨ t.workers = s.workers) ∧
      t.agenda = s.agenda ∧ t.build = s.build)

/-- R231, R252: a hold is a state with no step of the block: executing the command again leaves it as it is. And a command that has held
and then gets bytes ends as if the bytes had been there before. (L2.DECODE is left out of the second clause for one reason: how much of IN
it consumes on an error is a free value, R932.) -/
def Obligations.HeldCommandWaitsAndResumes : Prop :=
  (∀ (i : Instr) (s : State), exec i s = .next s.held → exec i s.held = .next s.held) ∧
  (∀ (i : Instr) (s : State) (bs : List Byte), i ≠ .l2Decode →
    exec i { s.held with inp := bs } = exec i { s with inp := s.inp ++ bs })

/-! ## System commands, reset and the register window -/

/-- R1041, R1042, R1043, R1103: SYS.NOP, SYS.SOFT_RESET and SYS.CLEAR_ERR complete in every state. -/
def Obligations.SysCommandsComplete : Prop :=
  ∀ s : State,
    exec .sysNop s = .next (s.completed 0 [] 0 s.lane0) ∧
    exec .sysClearErr s = .next { s.completed 0 [] 0 s.lane0 with
      err := false, errCode := 0#32, errInfo := 0#64, errUnit := 0#32 } ∧
    exec .sysSoftReset s = .next { State.resetWith s.workers.length s.build with
      cq := s.cq.tail
      inp := s.input
      out := s.out
      inCount := s.inCount
      outCount := s.outCount
      agenda := s.agenda
      draws := s.draws
      free := s.free
      readData := s.readData }

/-- The configuration the CFG registers give (R108, R1040). -/
def cfgFields (c : CfgRegs) : Act where
  dictSize := c.dictSize
  lc := c.lclppb.extractLsb' 0 4
  lp := c.lclppb.extractLsb' 4 4
  pb := c.lclppb.extractLsb' 8 3
  mode := c.mode.getLsbD 0
  mf := c.mode.getLsbD 1
  eos := c.mode.getLsbD 2
  niceLen := c.niceLen
  depth := c.depth
  threadCount := c.threads
  span := c.spanHi ++ c.spanLo
  outCap := c.outCapHi ++ c.outCapLo

/-- R1040, R1102: where every field is legal CONFIGURE makes them active and initialises every lane, closing any session. -/
def Obligations.ConfigureSucceeds : Prop :=
  ∀ (s : State) (v : Act), v = cfgFields s.cfg →
    4096 ≤ v.dictSize.toNat → v.dictSize.toNat ≤ 1610612736 →
    v.lc.toNat ≤ 8 → v.lp.toNat ≤ 4 → v.pb.toNat ≤ 4 →
    1 ≤ v.threadCount.toNat → v.threadCount.toNat ≤ s.laneCount →
    8 ≤ v.niceLen.toNat → v.niceLen.toNat ≤ 273 →
    exec .sysConfigure s = .next { s.completed 0 [] 0 (laneInit (some v)) with
      act := some v
      workers := s.workers.map fun _ => laneInit (some v) }

/-- R1002, R1040: CONFIGURE raises the ConfigError of the first illegal field, with its value; ACT has no value then and every lane
takes its reset values. -/
def Obligations.ConfigureFails : Prop :=
  ∀ (s : State) (v : Act), v = cfgFields s.cfg →
    let fails (sub value : Nat) : Prop :=
      exec .sysConfigure s = .next (({ s with act := none } : State).failedWith 0 (sub * 2 ^ 8 + 1) value 0)
    let dictOk := 4096 ≤ v.dictSize.toNat ∧ v.dictSize.toNat ≤ 1610612736
    let threadsOk := 1 ≤ v.threadCount.toNat ∧ v.threadCount.toNat ≤ s.laneCount
    let niceOk := 8 ≤ v.niceLen.toNat ∧ v.niceLen.toNat ≤ 273
    (¬ dictOk → fails 0x01 v.dictSize.toNat) ∧
    (dictOk → 8 < v.lc.toNat → fails 0x02 v.lc.toNat) ∧
    (dictOk → v.lc.toNat ≤ 8 → 4 < v.lp.toNat → fails 0x03 v.lp.toNat) ∧
    (dictOk → v.lc.toNat ≤ 8 → v.lp.toNat ≤ 4 → 4 < v.pb.toNat → fails 0x04 v.pb.toNat) ∧
    (dictOk → v.lc.toNat ≤ 8 → v.lp.toNat ≤ 4 → v.pb.toNat ≤ 4 → ¬ threadsOk → fails 0x06 v.threadCount.toNat) ∧
    (dictOk → v.lc.toNat ≤ 8 → v.lp.toNat ≤ 4 → v.pb.toNat ≤ 4 → threadsOk → ¬ niceOk → fails 0x07 v.niceLen.toNat)

/-- The lane values of R160; a cell that is not listed is 1024 (log 15), and the payload buffer is empty (log 11). -/
def laneAtReset : Lane where
  rce := { range := 0xFFFFFFFF#32, low := 0#33, cache := 0x00#8, cacheSize := 1, flushed := false, cbuf := [] }
  rcd := { range := 0xFFFFFFFF#32, code := 0#32, inited := false, initBad := false }
  prob := []
  lz := { state := 0, rep0 := 0#32, rep1 := 0#32, rep2 := 0#32, rep3 := 0#32, lc := 3#4, lp := 0#3, pb := 2#3 }
  win := { bytes := [], cur := 0, dictSize := 0x00800000#32 }
  mf := { t2 := [], t3 := [], t4 := [], chain := [], next := 0, cache := none,
          own := { finder := none, parser := [], ahead := [] } }
  l2e := { active := false, needDict := true, needProps := true, needState := false, segEnd := none }
  l2d := { active := false, needDictReset := true, needProps := true, chunkIndex := 0#32, outTotal := 0#64 }
  pb := []

/-- R103, R160, R1100, R1102: the reset input gives every item its reset value whatever the state before (the model's own fields `agenda`,
`draws`, `free` and `readData` stay, log 5; the payload buffer's value is the model's, log 11); the reset column of R103 as the registers
read; and LaneInit gives a configured lane its values. -/
def Obligations.ResetAndLaneInitValues : Prop :=
  (∀ s : State, ∃ t : State,
    (∀ turns, s.agenda = .reset :: turns → step s = .next { t with agenda := turns }) ∧
    t = {
      cq := [], inp := [], out := [], stage := [], holding := none
      act := none, err := false, inEof := false
      errCode := 0#32, errInfo := 0#64, errUnit := 0#32
      cfg := {
        dictSize := 0x00800000#32, lclppb := 0x203#11, mode := 3#3, niceLen := 64#9, depth := 0#32, preset := 6#32
        threads := BitVec.ofNat 32 s.laneCount
        spanLo := 0#32, spanHi := 0#16, outCapLo := 0xFFFFFFFF#32, outCapHi := 0xFFFFFFFF#32 }
      seen := { inEof := t.inEof, cfg := t.cfg }
      result := 0#64, inCount := 0#64, outCount := 0#64, cmdLo := 0#32
      lane0 := laneAtReset
      workers := s.workers.map fun _ => laneAtReset
      build := s.build
      coord := { units := [], nextDispatch := 0, nextCommit := 0, busy := 0, earliest := none }
      agenda := s.agenda, draws := s.draws, free := s.free, readData := s.readData } ∧
    t = { State.resetWith s.workers.length s.build with
      agenda := s.agenda, draws := s.draws, free := s.free, readData := s.readData } ∧
    t.laneCount = s.laneCount ∧ csrValue t 0x04 = 0#32) ∧
  State.reset = State.resetWith (Config.lanes - 1) { finder := none, parser := none } ∧
  Lane.reset = laneAtReset ∧ (∀ i, laneAtReset.cell i = 1024#11) ∧ laneInit none = laneAtReset ∧
  ((List.range 29).map fun k => (csrValue State.reset (BitVec.ofNat 7 (4 * k))).toNat) =
    [0x4C5A4D32, 0, 0, 0, 0, 0, 0, Config.lanes, 0x00800000, 0x203, 3, 64, 0, 6, Config.lanes, 0, 0, 0xFFFFFFFF, 0xFFFFFFFF,
      0, 0, 0, 0, 0, 0, 0, 0, 0, 0] ∧
  (∀ a : Act, a.lp.toNat ≤ 4 →
    let l := laneInit (some a)
    l.rce = { range := 0xFFFFFFFF#32, low := 0#33, cache := 0#8, cacheSize := 1, flushed := false, cbuf := [] } ∧
    l.rcd = { range := 0xFFFFFFFF#32, code := 0#32, inited := false, initBad := false } ∧
    (∀ i, l.cell i = 1024#11) ∧
    l.lz.lc = a.lc ∧ l.lz.lp.toNat = a.lp.toNat ∧ l.lz.pb = a.pb ∧
    l.lz.state = 0 ∧ (∀ i, l.lz.rep i = 0#32) ∧
    l.win = { bytes := [], cur := 0, dictSize := a.dictSize } ∧
    l.mf = { t2 := [], t3 := [], t4 := [], chain := [], next := 0, cache := none,
             own := { finder := none, parser := [], ahead := [] } } ∧
    l.l2e = { active := false, needDict := true, needProps := true, needState := false, segEnd := none } ∧
    l.l2d = { active := false, needDictReset := true, needProps := true, chunkIndex := 0#32, outTotal := 0#64 })

/-- The plain configuration registers and the bits each implements (R103, R108). -/
def cfgMasks : List (BitVec 7 × CsrWord) :=
  [(0x20, 0xFFFFFFFF), (0x24, 0x7FF), (0x28, 0x7), (0x2C, 0x1FF), (0x30, 0xFFFFFFFF), (0x38, 0xFFFFFFFF), (0x3C, 0xFFFFFFFF),
    (0x40, 0xFFFF), (0x44, 0xFFFFFFFF), (0x48, 0xFFFFFFFF)]

/-- R103, R104, R105, R108, R250, R252: a configuration register stores the implemented bits written, and reads them back; every other
register, and everything but the configuration, is as it was. CTRL keeps bit 0 alone. While a command holds, a write shows in no read: CTRL
and the CFG registers read as they stood when the previous command completed (log 24). -/
def Obligations.ConfigurationRegistersReadBack : Prop :=
  (∀ (s : State) (v : CsrWord), ∀ p ∈ cfgMasks, ∃ t,
    hostAct (.csrWrite 32 p.1 v) s = .next t ∧
    csrValue { t with holding := none } p.1 = v &&& p.2 ∧
    (∀ o, o ≠ p.1 ∨ s.holding.isSome = true → csrValue t o = csrValue s o) ∧
    t = { s with cfg := t.cfg }) ∧
  (∀ (s : State) (v : CsrWord),
    hostAct (.csrWrite 32 0x08 v) s = .next { s with inEof := v.getLsbD 0 } ∧
    (s.holding = none → csrValue { s with inEof := v.getLsbD 0 } 0x08 = v &&& 1)) ∧
  (∀ (s : State) (o : BitVec 7), s.holding.isSome = true → o ≠ 0x04 →
    csrValue s o = csrValue { s with holding := none, inEof := s.seen.inEof, cfg := s.seen.cfg } o) ∧
  (∀ (s : State) (r : HostRegs) (o : BitVec 7), s.holding = none → csrValue { s with seen := r } o = csrValue s o)

/-- The offsets a write of which has an effect (R103). -/
def writableOffsets : List (BitVec 7) :=
  [0x08, 0x20, 0x24, 0x28, 0x2C, 0x30, 0x34, 0x38, 0x3C, 0x40, 0x44, 0x48, 0x70, 0x74]

/-- R103, R246, R247: a write of a read-only or reserved offset is ignored; a reserved offset and CMD_LO read 0; a read changes nothing
the block has; any other access than an aligned 32-bit one is refused. -/
def Obligations.OtherRegisterAccesses : Prop :=
  (∀ (s : State) (o : BitVec 7) (v : CsrWord), o.toNat % 4 = 0 → o ∉ writableOffsets →
    hostAct (.csrWrite 32 o v) s = .next s) ∧
  (∀ (s : State), ∀ o ∈ ([0x4C, 0x68, 0x6C, 0x70, 0x78, 0x7C] : List (BitVec 7)), csrValue s o = 0#32) ∧
  (∀ (s : State) (o : BitVec 7), o.toNat % 4 = 0 →
    hostAct (.csrRead 32 o) s = .next { s with readData := csrValue s o, free := s.free + 1 }) ∧
  (∀ (s : State) (w : Nat) (o : BitVec 7) (v : CsrWord), w ≠ 32 ∨ o.toNat % 4 ≠ 0 →
    hostAct (.csrRead w o) s = .refused .csrAccess ∧ hostAct (.csrWrite w o v) s = .refused .csrAccess)

/-- R110: CMD_LO is a latch that a read does not show; a write of `h` to CMD_HI appends `{h, CMD_LO}` to CQ, whatever CQ holds, and
keeps the latch. And (R270) the host pushes at IN's tail and pops OUT's head. -/
def Obligations.HostPushesCommandsAndBytes : Prop :=
  ∀ (s : State) (h lo : CsrWord) (b : Byte),
    hostAct (.csrWrite 32 0x70 lo) s = .next { s with cmdLo := lo } ∧
    csrValue s 0x70 = 0#32 ∧
    hostAct (.csrWrite 32 0x74 h) s = .next { s with cq := s.cq ++ [h ++ s.cmdLo] } ∧
    hostAct (.push b) s = .next { s with inp := s.inp ++ [b] } ∧
    (∀ x rest, s.out = x :: rest → hostAct .pop s = .next { s with out := rest })

/-- The table of R870: CFG_DICT_SIZE, CFG_MODE[1:0], CFG_NICE_LEN, CFG_DEPTH. -/
def presetTable : List (Nat × Nat × Nat × Nat) :=
  [(262144, 0, 128, 4), (1048576, 0, 128, 8), (2097152, 0, 273, 24), (4194304, 0, 273, 48), (4194304, 3, 16, 0),
    (8388608, 3, 32, 0), (8388608, 3, 64, 0), (16777216, 3, 64, 0), (33554432, 3, 64, 0), (67108864, 3, 64, 0)]

/-- R109, R870: a preset write of a level up to 9 loads the row, keeps `eos` and stores the level, which a read returns (outside a hold,
R104); any other value is ignored; and a later write of a loaded register does not change CFG_PRESET. -/
def Obligations.PresetLoadsItsRow : Prop :=
  ∀ (s : State) (v : CsrWord),
    (9 < v.toNat → hostAct (.csrWrite 32 0x34 v) s = .next s) ∧
    (∀ row, presetTable[v.toNat]? = some row →
      ∃ t, hostAct (.csrWrite 32 0x34 v) s = .next t ∧
        t = { s with cfg := { s.cfg with
          dictSize := t.cfg.dictSize
          lclppb := 0x203#11
          mode := t.cfg.mode
          niceLen := t.cfg.niceLen
          depth := t.cfg.depth
          preset := v } } ∧
        t.cfg.dictSize.toNat = row.1 ∧ t.cfg.mode.toNat % 4 = row.2.1 ∧ t.cfg.mode.getLsbD 2 = s.cfg.mode.getLsbD 2 ∧
        t.cfg.niceLen.toNat = row.2.2.1 ∧ t.cfg.depth.toNat = row.2.2.2 ∧ csrValue { t with holding := none } 0x34 = v) ∧
    (∀ o ∈ ([0x20, 0x24, 0x28, 0x2C, 0x30] : List (BitVec 7)),
      ∃ t, hostAct (.csrWrite 32 o v) s = .next t ∧ csrValue t 0x34 = csrValue s 0x34)

/-- R104: the fields of STATUS; bits 31:6 read 0. -/
def Obligations.StatusFields : Prop :=
  ∀ s : State,
    let v := csrValue s 0x04
    v.toNat < 2 ^ 6 ∧
    (v.getLsbD 0 = true ↔ s.cq ≠ []) ∧
    v.getLsbD 1 = s.err ∧
    (v.getLsbD 2 = true ↔ s.act ≠ none) ∧
    (v.getLsbD 3 = true ↔ s.holding ≠ none) ∧
    v.getLsbD 4 = s.lane0.l2e.active ∧
    v.getLsbD 5 = s.lane0.l2d.active

/-! ## The range coder and the probability store -/

/-- R403: the update, that it maps [1, 2047] into itself, that from [31, 2017] it stays there, and its two fixed points. -/
def Obligations.ProbabilityUpdateBounds : Prop :=
  ∀ p : BitVec 11, 1 ≤ p.toNat →
    (probUpdate false p).toNat = p.toNat + (2048 - p.toNat) / 32 ∧
    (probUpdate true p).toNat = p.toNat - p.toNat / 32 ∧
    (∀ b, 1 ≤ (probUpdate b p).toNat) ∧
    (31 ≤ p.toNat → p.toNat ≤ 2017 → ∀ b, 31 ≤ (probUpdate b p).toNat ∧ (probUpdate b p).toNat ≤ 2017) ∧
    probUpdate false 2017#11 = 2017#11 ∧ probUpdate true 31#11 = 31#11

/-- R402–R406, R412: RCE.BIT takes the lower or upper part of the interval split at `(range >> 11) · P[PI]`, and updates the cell. -/
def Obligations.RceBitTakesASubInterval : Prop :=
  ∀ (s : State) (pi : BitVec 24) (b : Bool), s.unitsFree → InRange (.rceBit pi b) s →
    let e := s.lane0.rce
    let p := (s.lane0.cell pi.toNat).toNat
    let bound := e.range.toNat / 2 ^ 11 * p
    e.Ok → 1 ≤ p →
    (e.flushed = false → ∃ e',
      e.Takes e' (if b then bound else 0) (if b then e.range.toNat - bound else bound) ∧
      exec (.rceBit pi b) s = .next (s.completed 0 [] 0 { s.lane0 with
        rce := e'
        prob := Memory.write probMid s.lane0.prob pi.toNat
          (BitVec.ofNat 11 (if b then p - p / 2 ^ 5 else p + (2048 - p) / 2 ^ 5)) })) ∧
    (e.flushed = true → exec (.rceBit pi b) s = .next (s.refusedBy (.rceBit pi b) 0x06))

/-- R404, R405, R407, R414: RCE.DIRECT codes its bits one by one, most significant first, each with half the range. -/
def Obligations.RceDirectHalvesTheInterval : Prop :=
  ∀ (s : State) (v : BitVec 32) (n : BitVec 6), s.unitsFree → InRange (.rceDirect v n) s → s.lane0.rce.Ok →
    (s.lane0.rce.flushed = false → ∃ e',
      DirectCoded v.toNat n.toNat s.lane0.rce e' ∧
      exec (.rceDirect v n) s = .next (s.completed 0 [] 0 { s.lane0 with rce := e' })) ∧
    (s.lane0.rce.flushed = true → exec (.rceDirect v n) s = .next (s.refusedBy (.rceDirect v n) 0x06))

/-- R408, R410, R411, R413, R415: RCE.RESET and RCE.PENDING; and RCE.FLUSH writes the encoder's value, most significant byte first, in
exactly the pending size's bytes, and leaves the encoder flushed. -/
def Obligations.RceResetPendingFlush : Prop :=
  (∀ s : State, s.unitsFree →
    exec .rceReset s = .next (s.completed 0 [] 0 { s.lane0 with
      rce := { range := 0xFFFFFFFF#32, low := 0#33, cache := 0#8, cacheSize := 1, flushed := false, cbuf := [] } })) ∧
  (∀ s : State, s.ready → s.lane0.rce.flushed = false →
    exec .rcePending s =
      .next (s.completed 0 [] (s.lane0.rce.cbuf.length + s.lane0.rce.cacheSize + 4) s.lane0)) ∧
  (∀ s : State, s.ready → s.lane0.rce.flushed = true → exec .rcePending s = .next (s.refusedBy .rcePending 0x06)) ∧
  (∀ s : State, s.unitsFree →
    let e := s.lane0.rce
    e.Ok →
    (e.flushed = false → ∃ bs,
      bs.length = e.cbuf.length + e.cacheSize + 4 ∧ bytesValue bs = e.value ∧ (∃ more, bs = e.cbuf ++ more) ∧
      exec .rceFlush s = .next (s.completed 0 bs bs.length { s.lane0 with
        rce := { range := e.range, low := 0#33, cache := 0#8, cacheSize := 1, flushed := true, cbuf := [] } })) ∧
    (e.flushed = true → exec .rceFlush s = .next (s.refusedBy .rceFlush 0x06)))

/-- R421, R231: RCD.INIT takes five bytes; short of them it holds before IN_EOF and raises CorruptStream 0x0A after. -/
def Obligations.RcdInitTakesFiveBytes : Prop :=
  ∀ s : State, s.unitsFree →
    (5 ≤ s.input.length →
      exec .rcdInit s = .next (s.completed 5 [] 0 { s.lane0 with
        rcd := { range := 0xFFFFFFFF#32, code := BitVec.ofNat 32 (bytesValue ((s.input.drop 1).take 4)), inited := true,
                 initBad := s.input.getD 0 0#8 != 0#8 } })) ∧
    (s.input.length < 5 → s.inEof = false → exec .rcdInit s = .next s.held) ∧
    (s.input.length < 5 → s.inEof = true →
      exec .rcdInit s = .next (s.failedWith s.input.length 0x0A02 s.input.length 0))

/-- R422, R424, R403, R231: RCD.BIT compares `code` with the split point, updates the cell and normalises with as many bytes of IN as
it takes; short of them it holds before IN_EOF and raises CorruptStream 0x0A after. -/
def Obligations.RcdBitDecidesByTheSplitPoint : Prop :=
  ∀ (s : State) (pi : BitVec 24) (k : Nat), s.unitsFree → InRange (.rcdBit pi) s →
    let d := s.lane0.rcd
    let p := (s.lane0.cell pi.toNat).toNat
    let bound := d.range.toNat / 2 ^ 11 * p
    let b := decide (bound ≤ d.code.toNat)
    let r := if b then d.range.toNat - bound else bound
    let c := if b then d.code.toNat - bound else d.code.toNat
    d.Ok → 1 ≤ p → Normalises r k →
    (d.inited = true → k ≤ s.input.length → ∃ d',
      d.Takes d' r c k s.input ∧
      exec (.rcdBit pi) s = .next (s.completed k [] b.toNat { s.lane0 with
        rcd := d'
        prob := Memory.write probMid s.lane0.prob pi.toNat
          (BitVec.ofNat 11 (if b then p - p / 2 ^ 5 else p + (2048 - p) / 2 ^ 5)) })) ∧
    (d.inited = true → s.input.length < k → s.inEof = false → exec (.rcdBit pi) s = .next s.held) ∧
    (d.inited = true → s.input.length < k → s.inEof = true →
      exec (.rcdBit pi) s = .next (s.failedWith s.input.length 0x0A02 s.input.length 0)) ∧
    (d.inited = false → exec (.rcdBit pi) s = .next (s.refusedBy (.rcdBit pi) 0x06))

/-- R231, R423, R424, R425: RCD.DIRECT decodes `N` bits, most significant first, with a byte of IN for eight bits at most; short of its
bytes it holds before IN_EOF and raises CorruptStream 0x0A after. And RCD.IS_FINISHED reads the two end-state flags. -/
def Obligations.RcdDirectAndIsFinished : Prop :=
  (∀ (s : State) (n : BitVec 6), s.unitsFree → InRange (.rcdDirect n) s → s.lane0.rcd.Ok →
    let k := directBytes n.toNat s.lane0.rcd.range.toNat
    k ≤ (n.toNat + 7) / 8 ∧
    (s.lane0.rcd.inited = true → k ≤ s.input.length → ∃ v d',
      DirectDecoded n.toNat s.lane0.rcd s.input v d' (s.input.drop k) ∧ v < 2 ^ n.toNat ∧
      exec (.rcdDirect n) s = .next (s.completed k [] v { s.lane0 with rcd := d' })) ∧
    (s.lane0.rcd.inited = true → s.input.length < k → s.inEof = false → exec (.rcdDirect n) s = .next s.held) ∧
    (s.lane0.rcd.inited = true → s.input.length < k → s.inEof = true →
      exec (.rcdDirect n) s = .next (s.failedWith s.input.length 0x0A02 s.input.length 0)) ∧
    (s.lane0.rcd.inited = false → exec (.rcdDirect n) s = .next (s.refusedBy (.rcdDirect n) 0x06))) ∧
  (∀ s : State, s.ready →
    (s.lane0.rcd.inited = true →
      exec .rcdIsFinished s = .next (s.completed 0 []
        ((if s.lane0.rcd.code = 0#32 then 1 else 0) + (if s.lane0.rcd.initBad then 2 else 0)) s.lane0)) ∧
    (s.lane0.rcd.inited = false → exec .rcdIsFinished s = .next (s.refusedBy .rcdIsFinished 0x06)))

/-- R570, R571, R572: PROB.RESET, PROB.READ and PROB.WRITE; what each leaves in every cell. -/
def Obligations.ProbCommands : Prop :=
  (∀ s : State, s.unitsFree → ∃ l : Lane,
    exec .probReset s = .next (s.completed 0 [] 0 l) ∧ l = { s.lane0 with prob := l.prob } ∧ (∀ j, l.cell j = 1024#11)) ∧
  (∀ (s : State) (pi : BitVec 24), s.ready → InRange (.probRead pi) s →
    exec (.probRead pi) s = .next (s.completed 0 [] (s.lane0.cell pi.toNat).toNat s.lane0)) ∧
  (∀ (s : State) (pi : BitVec 24) (v : BitVec 12), s.unitsFree → InRange (.probWrite pi v) s → CellsOk s.lane0.prob →
    ∃ l : Lane, exec (.probWrite pi v) s = .next (s.completed 0 [] 0 l) ∧ l = { s.lane0 with prob := l.prob } ∧
      (l.cell pi.toNat).toNat = v.toNat ∧ (∀ j, j ≠ pi.toNat → l.cell j = s.lane0.cell j) ∧ CellsOk l.prob)

/-- R400, R408, R425, R343: the decoder that starts from the encoder's cells reads back every decision and direct bit coded from a
fresh encoder and flushed, takes every byte, ends with `code = 0`, and leaves the cells the encoder left. -/
def Obligations.RangeCoderRoundTrip : Prop :=
  ∀ (l m : Lane) (ds : List Decision) (out : List Byte),
    l.rce = { range := 0xFFFFFFFF#32, low := 0#33, cache := 0#8, cacheSize := 1, flushed := false, cbuf := [] } →
    CellsOk l.prob → m.prob = l.prob →
    let e := codeDecisions ds l
    let payload := (encFlush e.rce).cbuf
    ∃ c : DecCtx,
      ((decInit { lane := m, src := payload, out := out }).bind fun _ c => readDecisions ds c) =
        .ok (ds.map Decision.bit) c ∧
      c.src = [] ∧ c.out = out ∧
      c.lane = { m with
        prob := e.prob
        rcd := { range := e.rce.range, code := 0#32, inited := true, initBad := false } }

/-! ## The symbol state machine -/

/-- R670–R673, R360: LZ.SET_PROPS, LZ.RESET_STATE, LZ.READ_STATE and LZ.READ_REP. -/
def Obligations.LzCommands : Prop :=
  (∀ (s : State) (x : BitVec 8), s.unitsFree → x.toNat ≤ 224 →
    ∃ l : Lane, exec (.lzSetProps x) s = .next (s.completed 0 [] 0 l) ∧
      l = { s.lane0 with prob := l.prob, lz := l.lz } ∧ (∀ j, l.cell j = 1024#11) ∧
      l.lz.state = 0 ∧ (∀ i, l.lz.rep i = 0#32) ∧
      l.lz.pb.toNat = x.toNat / 45 ∧ l.lz.lp.toNat = (x.toNat - 45 * (x.toNat / 45)) / 9 ∧
      l.lz.lc.toNat = x.toNat - 45 * (x.toNat / 45) - 9 * ((x.toNat - 45 * (x.toNat / 45)) / 9)) ∧
  (∀ s : State, s.unitsFree →
    ∃ l : Lane, exec .lzResetState s = .next (s.completed 0 [] 0 l) ∧
      l = { s.lane0 with
        prob := l.prob, lz := { s.lane0.lz with state := 0, rep0 := 0#32, rep1 := 0#32, rep2 := 0#32, rep3 := 0#32 } } ∧
      (∀ j, l.cell j = 1024#11)) ∧
  (∀ s : State, s.ready →
    exec .lzReadState s = .next (s.completed 0 []
      (s.lane0.lz.state.val ||| s.lane0.lz.lc.toNat <<< 8 ||| s.lane0.lz.lp.toNat <<< 12 ||| s.lane0.lz.pb.toNat <<< 16)
      s.lane0)) ∧
  (∀ (s : State) (i : BitVec 16), s.ready → i.toNat ≤ 3 →
    exec (.lzReadRep i) s = .next (s.completed 0 []
      (([s.lane0.lz.rep0, s.lane0.lz.rep1, s.lane0.lz.rep2, s.lane0.lz.rep3].getD i.toNat 0#32).toNat) s.lane0))

/-- R540, R545: the slot of a coded distance is a 6-bit value whose range holds the distance, so the footer fits its bits. -/
def Obligations.DistanceSlotsCoverTheirRange : Prop :=
  ∀ d0 : Nat, d0 < 2 ^ 32 →
    let s := slotOf d0
    s < 64 ∧
    (s < 4 → d0 = s) ∧
    (4 ≤ s → (2 + s % 2) * 2 ^ (s / 2 - 1) ≤ d0 ∧ d0 < (2 + s % 2) * 2 ^ (s / 2 - 1) + 2 ^ (s / 2 - 1))

/-- R340, R601, R602, R610, R611, R621–R625: each LZE command whose preconditions hold codes the decisions of its row, moves the state
and the repeat distances by their tables, and moves the coding position by the symbol's length. -/
def Obligations.LzeCommandsCodeTheirSymbol : Prop :=
  ∀ s : State, s.unitsFree → s.lane0.rce.flushed = false →
    (Sym.lit.Codable s.lane0 → exec .lzeLit s = .next (s.completed 0 [] 0 (Sym.lit.coded s.lane0))) ∧
    (∀ (d : BitVec 32) (n : BitVec 9), (Sym.mtch d.toNat n.toNat).Codable s.lane0 →
      exec (.lzeMatch d n) s = .next (s.completed 0 [] 0 ((Sym.mtch d.toNat n.toNat).coded s.lane0))) ∧
    (∀ (r : BitVec 2) (n : BitVec 9), (Sym.rep r.toNat n.toNat).Codable s.lane0 →
      exec (.lzeRep r n) s = .next (s.completed 0 [] 0 ((Sym.rep r.toNat n.toNat).coded s.lane0))) ∧
    (Sym.shortrep.Codable s.lane0 → exec .lzeShortrep s = .next (s.completed 0 [] 0 (Sym.shortrep.coded s.lane0))) ∧
    exec .lzeEos s = .next (s.completed 0 [] 0 (Sym.eos.coded s.lane0))

/-- R620–R625: an LZE command raises IllegalCommand 0x06 after a flush, and 0x05 where its symbol could not be decoded back. -/
def Obligations.LzeCommandsRefuseBadSymbols : Prop :=
  ∀ s : State, s.unitsFree →
    (s.lane0.rce.flushed = true →
      exec .lzeLit s = .next (s.refusedBy .lzeLit 0x06) ∧
      (∀ d n, InRange (.lzeMatch d n) s → exec (.lzeMatch d n) s = .next (s.refusedBy (.lzeMatch d n) 0x06)) ∧
      (∀ r n, InRange (.lzeRep r n) s → exec (.lzeRep r n) s = .next (s.refusedBy (.lzeRep r n) 0x06)) ∧
      exec .lzeShortrep s = .next (s.refusedBy .lzeShortrep 0x06) ∧
      exec .lzeEos s = .next (s.refusedBy .lzeEos 0x06)) ∧
    (s.lane0.rce.flushed = false →
      (¬ Sym.lit.Codable s.lane0 → exec .lzeLit s = .next (s.refusedBy .lzeLit 0x05)) ∧
      (∀ d n, InRange (.lzeMatch d n) s → ¬ (Sym.mtch d.toNat n.toNat).Codable s.lane0 →
        exec (.lzeMatch d n) s = .next (s.refusedBy (.lzeMatch d n) 0x05)) ∧
      (∀ r n, InRange (.lzeRep r n) s → ¬ (Sym.rep r.toNat n.toNat).Codable s.lane0 →
        exec (.lzeRep r n) s = .next (s.refusedBy (.lzeRep r n) 0x05)) ∧
      (¬ Sym.shortrep.Codable s.lane0 → exec .lzeShortrep s = .next (s.refusedBy .lzeShortrep 0x05)))

/-- Lane 0 stands, as a decoder, where the encoder lane `l` stood: the same cells, state machine and history. -/
def Mirrors (m l : Lane) : Prop :=
  m.prob = l.prob ∧ m.lz = l.lz ∧
    m.win = { bytes := l.win.bytes.take l.win.cur, cur := l.win.cur, dictSize := l.win.dictSize } ∧
    m.win.endPos = m.win.cur

/-- R400, R420, R630, R632, R640: LZD.SYMBOL decodes the symbol that was coded: from a decoder that stands where the encoder stood, on any
payload that continues after the symbol, it answers the symbol's kind, length and byte or distance, writes its bytes to OUT and to the
window, and stands where the encoder stands after it. Every symbol kind. -/
def Obligations.LzdSymbolDecodesWhatWasCoded : Prop :=
  ∀ (s : State) (n : BitVec 48) (l : Lane) (y : Sym) (payload src rest : List Byte),
    s.unitsFree → s.lane0.rcd.inited = true →
    l.rce.Ok → CellsOk l.prob → y.Codable l → (n.toNat = 0 ∨ y.len ≤ n.toNat) →
    Mirrors s.lane0 l → s.lane0.rcd.Follows l.rce payload src → s.input = src ++ rest →
    (y.coded l).rce.Reaches payload →
    ∃ d' src',
      d'.Follows (y.coded l).rce payload src' ∧ d'.inited = true ∧
      exec (.lzdSymbol n) s = .next (s.completed (src.length - src'.length) ((l.win.bytes.drop l.win.cur).take y.len) (y.word l)
        { s.lane0 with
          prob := (y.coded l).prob
          lz := y.after l.lz
          win := { bytes := l.win.bytes.take (l.win.cur + y.len), cur := l.win.cur + y.len, dictSize := l.win.dictSize }
          rcd := d' })

/-- R633, R640: LZD.RUN decodes a run of symbols as coded: with `N` their length, exactly `N` bytes and no marker; with `N = 0`, up to
and with the end marker. -/
def Obligations.LzdRunDecodesWhatWasCoded : Prop :=
  ∀ (s : State) (n : BitVec 48) (l : Lane) (ys : List Sym) (payload src rest : List Byte),
    s.unitsFree → s.lane0.rcd.inited = true →
    l.rce.Ok → CellsOk l.prob → CodableAll ys l →
    Mirrors s.lane0 l → s.lane0.rcd.Follows l.rce payload src → s.input = src ++ rest →
    let e := if n = 0#48 then Sym.eos.coded (codedAll ys l) else codedAll ys l
    e.rce.Reaches payload → (n = 0#48 ∨ n.toNat = Sym.total ys) →
    ∃ d' src',
      d'.Follows e.rce payload src' ∧ d'.inited = true ∧
      exec (.lzdRun n) s = .next (s.completed (src.length - src'.length)
        ((l.win.bytes.drop l.win.cur).take (Sym.total ys)) (Sym.total ys)
        { s.lane0 with
          prob := e.prob
          lz := e.lz
          win := { bytes := l.win.bytes.take (l.win.cur + Sym.total ys), cur := l.win.cur + Sym.total ys,
                   dictSize := l.win.dictSize }
          rcd := d' })

/-- R630–R632, R702: whatever its input, an LZD.SYMBOL that completes has copied only from the history: a distance is within `hist`, every
byte of a match is the byte at that distance, the bytes go to OUT and to the window alike, and the limit holds. -/
def Obligations.LzdSymbolStaysInsideTheHistory : Prop :=
  ∀ (s t : State) (n : BitVec 48),
    s.err = false → exec (.lzdSymbol n) s = .next t → t.err = false → t.holding = none →
    ∃ kind len x bs,
      t.result.toNat = kind + len * 2 ^ 16 + x * 2 ^ 32 ∧ kind ≤ 7 ∧ len ≤ 273 ∧ x < 2 ^ 32 ∧
      bs.length = len ∧ t.lane0.win.bytes = s.lane0.win.bytes ++ bs ∧ t.lane0.win.cur = s.lane0.win.cur + len ∧
      t.out = s.out ++ bs ∧ (n.toNat = 0 ∨ len ≤ n.toNat) ∧
      (kind = 0 → bs.map BitVec.toNat = [x]) ∧ (kind = 7 → len = 0) ∧
      (1 ≤ kind → kind ≤ 6 → 1 ≤ x ∧ x ≤ s.lane0.win.hist ∧ 1 ≤ len ∧ t.lane0.win.Repeats s.lane0.win.cur x len)

/-- R231, R631, R632, R633, R640: where LZD.SYMBOL and LZD.RUN raise, from a decoder that stands where the encoder stood: after symbols
that decode, on a symbol whose distance is beyond the history (InvalidReference 0x01), on an end marker that is not permitted (0x02), on
a symbol longer than what is left of `N` (CorruptStream 0x09), with the bytes taken that the decisions read took; and where IN ends
before those bytes, they hold or raise CorruptStream 0x0A. -/
def Obligations.LzdCommandsRaise : Prop :=
  ∀ (s : State) (n : BitVec 48) (l : Lane) (ys : List Sym) (y : Sym) (payload src : List Byte) (i : Instr) (err : Option Nat),
    s.unitsFree → s.lane0.rcd.inited = true →
    l.rce.Ok → CellsOk l.prob → CodableAll ys l → y.Spelled →
    Mirrors s.lane0 l → s.lane0.rcd.Follows l.rce payload src →
    (i = .lzdSymbol n ∧ ys = [] ∧
        err = y.errorCode l (if n = 0#48 then none else some n.toNat) true 0x0902 ∨
      i = .lzdRun n ∧ (n = 0#48 ∨ Sym.total ys < n.toNat) ∧
        err = y.errorCode (codedAll ys l) (if n = 0#48 then none else some (n.toNat - Sym.total ys)) (decide (n = 0#48)) 0x0902) →
    let e := (codedToError ys y err l).rce
    let took := e.digits.length - l.rce.digits.length
    e.Reaches payload →
    (∀ code, err = some code → s.input = src → exec i s = .next (s.failedWith took code took 0)) ∧
    (∀ m, m < took → s.input = src.take m →
      (s.inEof = false → exec i s = .next s.held) ∧
      (s.inEof = true → exec i s = .next (s.failedWith m 0x0A02 m 0)))

/-! ## The window and the match finder -/

/-- R240, R750–R753, R231: WIN.RESET, WIN.FEED, WIN.PUT and WIN.GET, with what they refuse. -/
def Obligations.WinCommands : Prop :=
  (∀ (s : State) (a : Act), s.unitsFree → s.act = some a →
    exec .winReset s = .next (s.completed 0 [] 0 { s.lane0 with
      win := { bytes := [], cur := 0, dictSize := a.dictSize }
      mf := { t2 := [], t3 := [], t4 := [], chain := [], next := 0, cache := none,
              own := { finder := none, parser := [], ahead := [] } } })) ∧
  (∀ (s : State) (n : BitVec 48), s.unitsFree →
    let k := min n.toNat s.input.length
    (n.toNat ≤ s.input.length ∨ s.inEof = true →
      exec (.winFeed n) s = .next (s.completed k [] k { s.lane0 with
        win := { s.lane0.win with bytes := s.lane0.win.bytes ++ s.input.take k } })) ∧
    (s.input.length < n.toNat → s.inEof = false → exec (.winFeed n) s = .next s.held)) ∧
  (∀ (s : State) (x : BitVec 8), s.unitsFree →
    (s.lane0.win.endPos = s.lane0.win.cur →
      exec (.winPut x) s = .next (s.completed 0 [] 0 { s.lane0 with
        win := { s.lane0.win with bytes := s.lane0.win.bytes ++ [x], cur := s.lane0.win.cur + 1 } })) ∧
    (s.lane0.win.endPos ≠ s.lane0.win.cur → exec (.winPut x) s = .next (s.refusedBy (.winPut x) 0x05))) ∧
  (∀ (s : State) (d : BitVec 32), s.ready →
    let w := s.lane0.win
    (d = 0#32 → w.cur < w.endPos → exec (.winGet d) s = .next (s.completed 0 [] (w.bytes.getD w.cur 0#8).toNat s.lane0)) ∧
    (d = 0#32 → w.endPos ≤ w.cur → exec (.winGet d) s = .next (s.refusedBy (.winGet d) 0x05)) ∧
    (d ≠ 0#32 → d.toNat ≤ min w.cur w.dictSize.toNat →
      exec (.winGet d) s = .next (s.completed 0 [] (w.bytes.getD (w.cur - d.toNat) 0#8).toNat s.lane0)) ∧
    (d ≠ 0#32 → min w.cur w.dictSize.toNat < d.toNat → exec (.winGet d) s = .next (s.refusedBy (.winGet d) 0x05)))

/-- R710, R712, R713, R755, R760: with either finder and every BT_FINDER, MF.FIND answers candidates in strictly increasing length, each a
true match within the window's reach; it files the position, and no other, where four bytes are there, advances `MF.next`, caches the
list, and keeps the tables sound. The hash-chain finder answers nothing short of four bytes. (That a substitute files by R712's Insert in
R120's tables is the model's reading of R760 (d), DEDUCED, log 29.) -/
def Obligations.MfFindKeepsTheFinderContract : Prop :=
  ∀ (s : State) (a : Act), s.unitsFree → s.act = some a →
    let w := s.lane0.win
    let m := s.lane0.mf
    let p := m.next
    let rem := w.endPos - p
    m.Sound w p → m.Ok →
    (w.endPos ≤ p → exec .mfFind s = .next (s.refusedBy .mfFind 0x05)) ∧
    (p < w.endPos → ∃ (list : List (Nat × Nat)) (m' : MatchFinder),
      exec .mfFind s = .next (s.completed 0 [] list.length { s.lane0 with mf := m' }) ∧
      m'.next = p + 1 ∧ m'.cache = some (p, list) ∧ m'.Sound w (p + 1) ∧ m'.Ok ∧
      list.Pairwise (fun x y => x.1 < y.1) ∧
      (∀ c ∈ list, 2 ≤ c.1 ∧ c.1 ≤ min 273 rem ∧ 1 ≤ c.2 ∧ c.2 ≤ min p w.dictSize.toNat ∧ w.Repeats p c.2 c.1) ∧
      (a.mf = false ∨ s.build.finder = none → m'.own = m.own ∧ (rem < 4 → list = [])) ∧
      (rem < 4 → m' = { m with next := p + 1, cache := some (p, list), own := m'.own }) ∧
      MatchFinder.Filed w m m' p (p + 1) ∧
      (4 ≤ rem → entry m'.chain p = entry m.t4 (hashesAt w p).h4 ∧ entry m'.t4 (hashesAt w p).h4 = some p ∧
        entry m'.t2 (hashesAt w p).h2 = some p ∧ entry m'.t3 (hashesAt w p).h3 = some p))

/-- R712, R714, R715, R754, R756, R757, R760: MF.RESET, after which MF.FIND answers nothing at the first position, with either finder and
every BT_FINDER; MF.CAND; and MF.SKIP, which files each of its positions in the three tables and the chain (a substitute too, log 29). -/
def Obligations.MfResetCandSkip : Prop :=
  (∀ s : State, s.unitsFree →
    exec .mfReset s = .next (s.completed 0 [] 0 { s.lane0 with
      mf := { t2 := [], t3 := [], t4 := [], chain := [], next := s.lane0.win.cur, cache := none,
              own := { finder := none, parser := [], ahead := [] } } })) ∧
  (∀ s : State, s.unitsFree → s.lane0.win.cur < s.lane0.win.endPos →
    ∃ t l, exec .mfReset s = .next t ∧ exec .mfFind t = .next (t.completed 0 [] 0 l) ∧
      l.mf.cache = some (s.lane0.win.cur, [])) ∧
  (∀ (s : State) (i : BitVec 16), s.ready →
    let list := (s.lane0.mf.cache.map Prod.snd).getD []
    (∀ len d, list[i.toNat]? = some (len, d) →
      exec (.mfCand i) s = .next (s.completed 0 [] (len <<< 32 + d) s.lane0)) ∧
    (list.length ≤ i.toNat → exec (.mfCand i) s = .next (s.refusedBy (.mfCand i) 0x03))) ∧
  (∀ (s : State) (n : BitVec 48), s.unitsFree →
    let w := s.lane0.win
    let m := s.lane0.mf
    (w.endPos < m.next + n.toNat → exec (.mfSkip n) s = .next (s.refusedBy (.mfSkip n) 0x05)) ∧
    (m.next + n.toNat ≤ w.endPos → m.Sound w m.next → m.Ok → ∃ m' : MatchFinder,
      exec (.mfSkip n) s = .next (s.completed 0 [] 0 { s.lane0 with mf := m' }) ∧
      m'.next = m.next + n.toNat ∧ m'.cache = none ∧ m'.Sound w m'.next ∧ m'.Ok ∧
      (n = 0#48 → m' = { m with cache := none }) ∧
      MatchFinder.Filed w m m' m.next (m.next + n.toNat) ∧
      (∀ p, m.next ≤ p → p < m.next + n.toNat → p + 4 ≤ w.endPos →
        ∃ q, p ≤ q ∧ q < m.next + n.toNat ∧ entry m'.t4 (hashesAt w p).h4 = some q ∧
          (hashesAt w q).h4 = (hashesAt w p).h4)))

/-! ## The streams -/

/-- R850, R810–R813, R234: L2.ENCODE takes all of IN and completes; what it writes is a stream whose every header passes the decoder's
checks (never CorruptStream 0x02 or 0x03), whose declared sizes add up to the input, and whose last byte is the end marker; with every
BT_FINDER and OPT_PARSER (R760, R761), as in the other statements about encoders: the state names them in its `build`. -/
def Obligations.L2EncodeMakesLegalStreams : Prop :=
  ∀ (s : State) (a : Act), s.unitsFree → s.act = some a → a.Ok s.laneCount →
    (s.inEof = false → a.lc.toNat + a.lp.toNat ≤ 4 → exec .l2Encode s = .next s.held) ∧
    (4 < a.lc.toNat + a.lp.toNat →
      exec .l2Encode s = .next (s.failedWith 0 0x0501 (a.lc.toNat + 16 * a.lp.toNat) 0)) ∧
    (s.inEof = true → a.lc.toNat + a.lp.toNat ≤ 4 → s.input.length < 2 ^ 64 → ∃ (bs : List Byte) (ds : List Nat),
      exec .l2Encode s = .next { s.completed s.input.length (bs ++ [0x00#8]) (bs.length + 1) (laneInit s.act) with
        workers := s.workers.map fun _ => laneInit s.act
        coord := if a.threadCount = 1#32 then s.coord else Coordinator.idle
        draws := ds } ∧
      (s.input = [] → bs = []) ∧
      ∃ (records : List ChunkRecord) (u : State),
        parseStream (2 ^ 64 - 1) (bs.length + 1) (bs.length + 2) { needDictReset := true, needProps := true, total := 0 } none []
          { State.reset with inp := bs ++ [0x00#8], inEof := true } = .ok (records, none) u ∧
        u.inp = [] ∧ (records.map fun r => r.chunk.size).sum = s.input.length)

/-- R911, R935: L2.ENCODE's output, RESULT and counters do not depend on the thread count, nor on the schedule. -/
def Obligations.L2EncodeIgnoresTheThreadCount : Prop :=
  ∀ (s : State) (a : Act) (n : BitVec 32) (ds : List Nat),
    s.unitsFree → s.act = some a → s.inEof = true → 1 ≤ a.threadCount.toNat → 1 ≤ n.toNat →
    a.lc.toNat + a.lp.toNat ≤ 4 →
    ∃ t t', exec .l2Encode s = .next t ∧
      exec .l2Encode { s with act := some { a with threadCount := n }, draws := ds } = .next t' ∧
      t'.out = t.out ∧ t'.result = t.result ∧ t'.inp = t.inp ∧ t'.inCount = t.inCount ∧ t'.outCount = t.outCount ∧
      t'.err = t.err

/-- R350, R830–R836, R851, R1005: L2.DECODE decodes a stream of chunks, raw ones and LZMA ones of every reset level, to their bytes, stops
after the end marker and leaves what follows it in IN, for every thread count and schedule. And with one thread and no error pending (no
run executes L2.DECODE under one, R1011), where the bytes after
such chunks are ones L2.DEC_CHUNK raises an error on (or holds for), L2.DECODE raises it (or holds), with the chunk's index in ERR_UNIT
and its control byte's offset in ERR_INFO (R1008). Where IN ends before a control byte (`tail` empty, IN_EOF set) there is no chunk for
R1008 to name: that CorruptStream 0x0A then carries the index and the offset the next chunk would have had is the model's reading, DEDUCED
(log 19). -/
def Obligations.L2DecodeDecodesChunks : Prop :=
  ∀ (s : State) (a : Act) (ks : List CodedChunk),
    s.unitsFree → s.act = some a → CodedChunk.AllLegal a ks (laneInit s.act) →
    let bytes := CodedChunk.allBytes ks
    let wires := CodedChunk.wires ks
    bytes.length ≤ a.outCap.toNat →
    (∀ rest, 1 ≤ a.threadCount.toNat → s.input = wires ++ 0x00#8 :: rest →
      ∃ ds, exec .l2Decode s =
        .next { s.completed (wires.length + 1) bytes bytes.length (laneInit s.act) with
          workers := s.workers.map fun _ => laneInit s.act
          coord := if a.threadCount = 1#32 then s.coord else Coordinator.idle
          draws := ds }) ∧
    (∀ tail, a.threadCount = 1#32 → s.err = false → s.input = wires ++ tail →
      let l := laneInit s.act
      let v : State := { s with
        inp := tail
        holding := none
        lane0 := CodedChunk.afterAll a ks { l with l2d := { l.l2d with active := true } } }
      (∀ took code unit, took ≤ tail.length → exec .l2DecChunk v = .next (v.failedWith took code 0 unit) →
        exec .l2Decode s = .next (s.failedWith (wires.length + took) code wires.length unit)) ∧
      (exec .l2DecChunk v = .next v.held → exec .l2Decode s = .next s.held))

/-- R935, R925, R931: with every thread count and schedule L2.DECODE gives what it gives with one thread. Where that decodes a stream, the
same OUT, RESULT and counters, leaving the same bytes in IN; where that fails (all of the input being there), the same error at the
same chunk and offset, wrapped as WorkerFailure 0x01 where more than one thread runs and a lane finds it (CorruptStream 0x06 to 0x09,
InvalidReference) and as it is where the coordinator does, with OUT and RESULT as they were. -/
def Obligations.L2DecodeIgnoresTheThreadCount : Prop :=
  ∀ (s t : State) (a : Act) (n : BitVec 32) (ds : List Nat),
    s.unitsFree → s.act = some a → a.threadCount = 1#32 → 1 ≤ n.toNat → a.Ok s.laneCount →
    s.err = false → exec .l2Decode s = .next t →
    let u : State := { s with act := some { a with threadCount := n }, draws := ds }
    (t.err = false → t.holding = none → ∃ t', exec .l2Decode u = .next t' ∧
      t'.out = t.out ∧ t'.result = t.result ∧ t'.inp = t.inp ∧ t'.inCount = t.inCount ∧ t'.outCount = t.outCount ∧
      t'.err = false) ∧
    (t.err = true → s.inEof = true → ∃ t', exec .l2Decode u = .next t' ∧
      t'.err = true ∧ t'.errUnit = t.errUnit ∧ t'.errInfo = t.errInfo ∧ t'.out = s.out ∧ t'.result = s.result ∧
      t'.errCode.toNat =
        if n ≠ 1#32 ∧ t.errCode ∈ laneErrors then t.errCode.toNat * 2 ^ 16 + 0x0105 else t.errCode.toNat)

/-- R815: the LZMA2 encode commands check `lc + lp ≤ 4` before they read any input and raise ConfigError 0x05 otherwise; CONFIGURE
accepts such properties. -/
def Obligations.L2EncodersNeedSmallProperties : Prop :=
  (∀ (s : State) (a : Act), s.act = some a → 4 < a.lc.toNat + a.lp.toNat →
    (s.unitsFree → exec .l2Encode s = .next (s.failedWith 0 0x0501 (a.lc.toNat + 16 * a.lp.toNat) 0)) ∧
    (s.lane0.l2d.active = false → ∀ n : BitVec 48, 1 ≤ n.toNat →
      exec (.l2EncSegment n) s = .next (s.failedWith 0 0x0501 (a.lc.toNat + 16 * a.lp.toNat) 0))) ∧
  (∀ (s : State) (lc lp : Nat), lc ≤ 8 → lp ≤ 4 → ∃ t,
    exec .sysConfigure { s with cfg := { CfgRegs.reset s.laneCount with
      lclppb := BitVec.ofNat 11 (lc + 16 * lp + 256 * 2), threads := 1#32 } } = .next t ∧
    t.err = s.err ∧ ∃ a, t.act = some a ∧ a.lc.toNat = lc ∧ a.lp.toNat = lp)

/-- Lane 0 at the start of an encoder command of a session: as it is, or opened (R852). -/
def encoderLane (s : State) : Lane :=
  if s.lane0.l2e.active then s.lane0
  else { laneInit s.act with
    l2e := { active := true, needDict := true, needProps := true, needState := false, segEnd := none } }

/-- Lane 0 at the start of a decoder command of a session: as it is, or opened (R854). -/
def decoderLane (s : State) : Lane :=
  if s.lane0.l2d.active then s.lane0
  else { laneInit s.act with
    l2d := { active := true, needDictReset := true, needProps := true, chunkIndex := 0#32, outTotal := 0#64 } }

/-- R852, R853, R812, R815: L2.ENC_SEGMENT opens a session, appends its bytes to the window and codes all of them (a segment of 1 to
7 bytes as one uncompressed chunk, where the lane's finder is sound, as StepKeepsTheFinderSound says every step keeps it): what it writes
passes the decoder's header checks from the session's flags on, and its chunks' sizes add up to the segment; L2.ENC_END writes the end marker and closes the session. -/
def Obligations.L2EncoderSessionCommands : Prop :=
  (∀ (s : State) (a : Act) (n : BitVec 48),
    s.act = some a → s.lane0.l2d.active = false → 1 ≤ n.toNat →
    (4 < a.lc.toNat + a.lp.toNat →
      exec (.l2EncSegment n) s = .next (s.failedWith 0 0x0501 (a.lc.toNat + 16 * a.lp.toNat) 0)) ∧
    (a.lc.toNat + a.lp.toNat ≤ 4 → s.input.length < n.toNat → s.inEof = false →
      exec (.l2EncSegment n) s = .next s.held) ∧
    (a.lc.toNat + a.lp.toNat ≤ 4 → n.toNat ≤ s.input.length ∨ s.inEof = true →
      (encoderLane s).win.cur = (encoderLane s).win.endPos →
      let k := min n.toNat s.input.length
      let l := encoderLane s
      ∃ (bs : List Byte) (l' : Lane),
        exec (.l2EncSegment n) s = .next (s.completed k bs bs.length l') ∧
        l'.win.bytes = l.win.bytes ++ s.input.take k ∧ l'.win.cur = l'.win.endPos ∧ l'.win.dictSize = l.win.dictSize ∧
        l'.l2e.active = true ∧ l'.l2e.segEnd = none ∧ l'.l2d = l.l2d ∧ l'.rcd = l.rcd ∧
        (k = 0 → bs = [] ∧ l' = { l with l2e := { l.l2e with segEnd := none } }) ∧
        (l.FinderOk → 1 ≤ k → k ≤ 7 →
          bs = (if l.l2e.needDict then 0x01#8 else 0x02#8) :: 0x00#8 :: BitVec.ofNat 8 (k - 1) :: s.input.take k ∧
          l'.l2e.needDict = false ∧ l'.l2e.needState = true) ∧
        (s.Inv → ∃ (records : List ChunkRecord) (u : State),
          parseStream (2 ^ 64 - 1) (bs.length + 1) (bs.length + 2)
            { needDictReset := l.l2e.needDict, needProps := l.l2e.needProps, total := 0 } none []
            { State.reset with inp := bs ++ [0x00#8], inEof := true } = .ok (records, none) u ∧
          u.inp = [] ∧ (records.map fun r => r.chunk.size).sum = k))) ∧
  (∀ s : State, s.ready → s.lane0.l2d.active = false →
    exec .l2EncEnd s = .next (s.completed 0 [0x00#8] 1 (if s.lane0.l2e.active then laneInit s.act else s.lane0)))

/-- The session's commands for the segments `xs`, each pushed into IN and coded by an L2.ENC_SEGMENT of its length: from `s` they append
`bs` to OUT and end in `t` (R852). -/
def SegmentsWrite : List (List Byte) → State → List Byte → State → Prop
  | [], s, bs, t => bs = [] ∧ t = s
  | x :: xs, s, bs, t =>
    ∃ first later m,
      exec (.l2EncSegment (BitVec.ofNat 48 x.length)) { s with inp := x } = .next m ∧
      m.out = s.out ++ first ∧ bs = first ++ later ∧ SegmentsWrite xs m later t

/-- R852, R853, R813, R8: the outputs of one session and L2.ENC_END's end marker are a valid LZMA2 stream: L2.DECODE, on any number of
threads, gives back the segments and leaves what follows. -/
def Obligations.EncoderSessionRoundTrip : Prop :=
  ∀ (s u : State) (a : Act) (n : BitVec 32) (xs : List (List Byte)) (rest : List Byte),
    s.unitsFree → s.holding = none → s.act = some a → a.Ok s.laneCount → a.lc.toNat + a.lp.toNat ≤ 4 →
    (∀ x ∈ xs, 1 ≤ x.length ∧ x.length < 2 ^ 48) → xs.flatten.length ≤ a.outCap.toNat →
    u.unitsFree → u.act = some { a with threadCount := n } → 1 ≤ n.toNat →
    ∃ bs t t', SegmentsWrite xs s bs t ∧
      exec .l2EncEnd t = .next t' ∧ t'.out = s.out ++ bs ++ [0x00#8] ∧ t'.lane0.l2e.active = false ∧
      (u.input = bs ++ 0x00#8 :: rest →
        ∃ v, exec .l2Decode u = .next v ∧ v.err = u.err ∧ v.out = u.out ++ xs.flatten ∧ v.inp = rest ∧
          v.result = BitVec.ofNat 64 xs.flatten.length)

/-- R350, R830–R836, R854: L2.DEC_CHUNK on the end marker, which closes the session, and on a chunk: a raw one, and an LZMA one of any reset
level whose payload codes its bytes by any symbols. It decodes to its bytes, with its resets and the session's counts. -/
def Obligations.L2DecChunkDecodesAChunk : Prop :=
  ∀ (s : State) (a : Act), s.act = some a → s.lane0.l2e.active = false →
    let l := decoderLane s
    (∀ rest, s.input = 0x00#8 :: rest → exec .l2DecChunk s = .next (s.completed 1 [] 0 (laneInit s.act))) ∧
    (∀ (k : CodedChunk) (rest : List Byte),
      CellsOk l.prob → l.win.cur = l.win.endPos → k.Legal a l → l.l2d.outTotal.toNat + k.bytes.length ≤ a.outCap.toNat →
      s.input = k.wire ++ rest →
      exec .l2DecChunk s = .next (s.completed k.wire.length k.bytes (k.control.toNat + k.bytes.length * 2 ^ 8) (k.after a l)))

/-- R231, R830, R834–R837, R854, R1003–R1005, R1008: where L2.DEC_CHUNK raises, in R830's order: a chunk out of sequence, a reserved control
byte, a bad properties byte, a payload of fewer than five bytes, the capacity, IN ending inside the chunk (before IN_EOF it holds), a
payload whose first byte is not 0x00, a symbol that cannot be decoded, a payload that ends too early, and one that ends uncleanly. -/
def Obligations.L2DecChunkErrors : Prop :=
  ∀ (s : State) (a : Act), s.act = some a → s.lane0.l2e.active = false →
    let l := decoderLane s
    let d := l.l2d
    let fails (took code : Nat) : Prop := exec .l2DecChunk s = .next (s.failedWith took code 0 d.chunkIndex.toNat)
    let dry (took : Nat) : Prop :=
      (s.inEof = false → exec .l2DecChunk s = .next s.held) ∧ (s.inEof = true → fails took 0x0A02)
    (s.input = [] → dry 0) ∧
    (∀ (ctl : Byte) (rest : List Byte), s.input = ctl :: rest →
      (d.needDictReset = true → 2 ≤ ctl.toNat → ctl.toNat < 0xE0 → fails 1 0x0202) ∧
      (d.needDictReset = false → 3 ≤ ctl.toNat → ctl.toNat < 0x80 → fails 1 0x0102) ∧
      (d.needDictReset = false → d.needProps = true → 0x80 ≤ ctl.toNat → ctl.toNat < 0xC0 → 4 ≤ rest.length →
        fails 5 0x0302)) ∧
    (∀ (reset : Bool) (x rest : List Byte), (CodedChunk.raw reset x).Legal a l →
      (s.input = (CodedChunk.raw reset x).wire ++ rest → a.outCap.toNat < d.outTotal.toNat + x.length → fails 3 0x0104) ∧
      (∀ m, m < (CodedChunk.raw reset x).wire.length → s.input = (CodedChunk.raw reset x).wire.take m →
        m < 3 ∨ d.outTotal.toNat + x.length ≤ a.outCap.toNat → dry m)) ∧
    (∀ (h : LzmaHead) (data : List Byte), h.InRange → h.InSequence d →
      (∀ m, m < h.bytes.length → s.input = h.bytes.take m → dry m) ∧
      (s.input = h.bytes ++ data →
        let n := h.bytes.length
        (¬ h.PropsOk → fails n 0x0402) ∧
        (h.PropsOk → h.count < 5 → fails n 0x0502) ∧
        (h.PropsOk → 5 ≤ h.count → a.outCap.toNat < d.outTotal.toNat + h.size → fails n 0x0104) ∧
        (h.PropsOk → 5 ≤ h.count → d.outTotal.toNat + h.size ≤ a.outCap.toNat →
          (data.length < h.count → dry (n + data.length)) ∧
          (h.count ≤ data.length → data.head? ≠ some 0x00#8 → fails (n + h.count) 0x0602) ∧
          (h.count ≤ data.length → CellsOk l.prob → l.win.cur = l.win.endPos →
            let sent := data.take h.count
            ∀ (x : List Byte) (ys : List Sym),
              let m := h.encoder a x l
              CodableAll ys m →
              (∀ y payload, y.Spelled → Sym.total ys < h.size →
                let err := y.errorCode (codedAll ys m) (some (h.size - Sym.total ys)) false 0x0902
                let e := (codedToError ys y err m).rce
                e.Reaches payload → (∃ more, payload = sent ++ more ∨ sent = payload ++ more) →
                (h.count < e.digits.length + 4 → fails (n + h.count) 0x0702) ∧
                (∀ code, err = some code → e.digits.length + 4 ≤ h.count → fails (n + h.count) code)) ∧
              (Sym.total ys = h.size → (codedAll ys m).rce.Reaches sent → ¬ (codedAll ys m).rce.EndsAt sent →
                fails (n + h.count) 0x0802)))))

/-- R660, R343, R231: LZMA.ENCODE takes all of IN and writes a payload of at least five bytes whose first is 0x00; before IN_EOF
it holds. -/
def Obligations.LzmaEncodeCompletes : Prop :=
  ∀ s : State, s.unitsFree →
    (s.inEof = false → exec .lzmaEncode s = .next s.held) ∧
    (s.inEof = true → ∃ bs,
      exec .lzmaEncode s = .next (s.completed s.input.length bs bs.length (laneInit s.act)) ∧
      5 ≤ bs.length ∧ bs.head? = some 0x00#8)

/-- R650, R661, R640: LZMA.DECODE decodes every payload that the symbol rules can code from the reset state and flush: with a known size,
exactly those bytes; with size 2^48 − 1, up to the end marker. It takes the payload and nothing after it. -/
def Obligations.LzmaDecodeDecodesWhatWasCoded : Prop :=
  ∀ (s : State) (a : Act) (n : BitVec 48) (x rest : List Byte) (ys : List Sym),
    s.unitsFree → s.act = some a → a.lc.toNat ≤ 8 → a.lp.toNat ≤ 4 → a.pb.toNat ≤ 4 →
    let l : Lane := { laneInit s.act with win := { bytes := x, cur := 0, dictSize := a.dictSize } }
    CodableAll ys l → Sym.total ys = x.length → x.length ≤ a.outCap.toNat → x.length < 2 ^ 48 - 1 →
    (n.toNat = x.length ∨ n = BitVec.allOnes 48) →
    let e := if n = BitVec.allOnes 48 then Sym.eos.coded (codedAll ys l) else codedAll ys l
    let payload := (encFlush e.rce).cbuf
    s.input = payload ++ rest →
    exec (.lzmaDecode n) s = .next (s.completed payload.length x x.length (laneInit s.act))

/-- R231, R631, R640, R651, R661, R1003–R1005, R1008: where LZMA.DECODE raises: CorruptStream 0x06 on a first byte that is not 0x00;
CapacityExceeded for a known size above the bound; after symbols that decode, a symbol that cannot be decoded (InvalidReference 0x01 and
0x02, CorruptStream 0x09 past a known size, CapacityExceeded past the bound in a stream of unknown size); CorruptStream 0x0B on a marker
where the code is not 0; and CorruptStream 0x0A where IN ends before the bytes needed, a hold before IN_EOF. -/
def Obligations.LzmaDecodeErrors : Prop :=
  ∀ (s : State) (a : Act) (n : BitVec 48), s.unitsFree → s.act = some a →
    (5 ≤ s.input.length → s.input.head? ≠ some 0x00#8 →
      exec (.lzmaDecode n) s = .next (s.failedWith 5 0x0602 5 0)) ∧
    (5 ≤ s.input.length → s.input.head? = some 0x00#8 → n ≠ BitVec.allOnes 48 → a.outCap.toNat < n.toNat →
      exec (.lzmaDecode n) s = .next (s.failedWith 5 0x0104 5 0)) ∧
    (s.input.length < 5 → s.inEof = true →
      exec (.lzmaDecode n) s = .next (s.failedWith s.input.length 0x0A02 s.input.length 0)) ∧
    (s.input.length < 5 → s.inEof = false → exec (.lzmaDecode n) s = .next s.held) ∧
    (∀ (x : List Byte) (ys : List Sym) (payload : List Byte),
      let l : Lane := { laneInit s.act with win := { bytes := x, cur := 0, dictSize := a.dictSize } }
      let unknown := n == BitVec.allOnes 48
      let bound := if unknown then a.outCap.toNat else n.toNat
      CodableAll ys l → bound ≤ a.outCap.toNat →
      (∀ y : Sym, y.Spelled → (if unknown then Sym.total ys ≤ bound else Sym.total ys < bound) →
        let err := y.errorCode (codedAll ys l) (some (bound - Sym.total ys)) unknown (if unknown then 0x0104 else 0x0902)
        let e := (codedToError ys y err l).rce
        let took := e.digits.length + 4
        e.Reaches payload →
        (∀ code, err = some code → s.input = payload → exec (.lzmaDecode n) s = .next (s.failedWith took code took 0)) ∧
        (∀ m, m < took → s.input = payload.take m →
          (s.inEof = false → exec (.lzmaDecode n) s = .next s.held) ∧
          (s.inEof = true → exec (.lzmaDecode n) s = .next (s.failedWith m 0x0A02 m 0)))) ∧
      (unknown → Sym.total ys ≤ bound →
        let e := (Sym.eos.coded (codedAll ys l)).rce
        let took := e.digits.length + 4
        e.Reaches payload → bytesValue (payload.take took) ≠ e.value → s.input = payload →
        exec (.lzmaDecode n) s = .next (s.failedWith took 0x0B02 took 0)))

/-- R8, R734, R660, R661: LZMA.DECODE gives back what LZMA.ENCODE coded, for every input, configuration, BT_FINDER and OPT_PARSER: by the known size without
end marker, by the marker with it. -/
def Obligations.LzmaRoundTrip : Prop :=
  ∀ (s u : State) (a : Act) (rest : List Byte),
    s.unitsFree → u.unitsFree → s.act = some a → u.act = some a → a.Ok s.laneCount → s.inEof = true →
    s.input.length ≤ a.outCap.toNat → s.input.length < 2 ^ 48 - 1 →
    ∃ payload,
      exec .lzmaEncode s = .next (s.completed s.input.length payload payload.length (laneInit s.act)) ∧
      (u.input = payload ++ rest →
        exec (.lzmaDecode (if a.eos then BitVec.allOnes 48 else BitVec.ofNat 48 s.input.length)) u =
          .next (u.completed payload.length s.input s.input.length (laneInit u.act)))

/-- R8, R813, R850, R851: L2.DECODE gives back what L2.ENCODE coded, for every input, configuration, BT_FINDER and OPT_PARSER (one thread on both sides;
other thread counts by the two statements of R935). -/
def Obligations.L2RoundTrip : Prop :=
  ∀ (s u : State) (a : Act) (rest : List Byte),
    s.unitsFree → u.unitsFree → s.act = some a → u.act = some a → a.Ok s.laneCount → a.threadCount = 1#32 →
    a.lc.toNat + a.lp.toNat ≤ 4 → s.inEof = true →
    s.input.length ≤ a.outCap.toNat →
    ∃ stream t,
      exec .l2Encode s = .next t ∧ t.out = s.out ++ stream ∧
      (u.input = stream ++ rest →
        ∃ t', exec .l2Decode u = .next t' ∧ t'.err = u.err ∧ t'.out = u.out ++ s.input ∧ t'.inp = rest ∧
          t'.result = BitVec.ofNat 64 s.input.length)

/-! ## The machine as a whole -/

/-- The invariant holds at reset, whatever the number of lanes and the build. -/
def Obligations.ResetMeetsTheInvariant : Prop := ∀ (n : Nat) (b : Build), (State.resetWith n b).Inv

/-- R401, R117, R118, R119, R140, R234, R701, R801, R813, R1040, R1102, R1130: every step, of the block, of the host or of the reset
input, keeps the invariant. -/
def Obligations.StepKeepsTheInvariant : Prop := ∀ s t : State, s.Inv → step s = .next t → t.Inv

/-- R1126: from a state that meets the invariant no step stops with a fault, and a step is refused only for a register access that is
not an aligned 32-bit one (R246): every command completes, ends with an error, or holds. -/
def Obligations.StepAlwaysAnswers : Prop :=
  ∀ s : State, s.Inv →
    (∀ f, step s ≠ .fault f) ∧
    (∀ r, step s = .refused r →
      r = .csrAccess ∧ ∃ w o turns, (w ≠ 32 ∨ o.toNat % 4 ≠ 0) ∧
        (s.agenda = .host (.csrRead w o) :: turns ∨ ∃ v, s.agenda = .host (.csrWrite w o v) :: turns))

/-- R712, R713, R731, R733: every step keeps the match finder sound: its tables speak of earlier positions whose bytes have the hash they
are filed under, the position whose candidates it caches has been searched, and in a session it is never ahead of the parser between
commands. -/
def Obligations.StepKeepsTheFinderSound : Prop :=
  (∀ (n : Nat) (b : Build), (State.resetWith n b).lane0.FinderOk) ∧
  ∀ s t : State, s.Inv → s.lane0.FinderOk → step s = .next t → t.lane0.FinderOk

/-- R117, R210, R212: no step writes a cell outside the store: every listed cell of lane 0 has an index below NPROB of lane 0's
properties. -/
def Obligations.StepStaysInsideTheStore : Prop :=
  (∀ (n : Nat) (b : Build), (State.resetWith n b).lane0.CellsExist) ∧
  ∀ s t : State, s.Inv → s.lane0.CellsExist → step s = .next t → t.lane0.CellsExist
end

