-- ==== Sys2Proof/Laws/State.lean ====
section
/-! SUPPORT. One lemma a field for each shared update of a state or a lane, so that no proof unfolds a record update. -/

namespace Sys2Proof.Machine

/-! ## State.withLane0 -/

@[simp] theorem State.withLane0_cq {s : State} {l : Lane} : (s.withLane0 l).cq = s.cq := rfl

@[simp] theorem State.withLane0_inp {s : State} {l : Lane} : (s.withLane0 l).inp = s.inp := rfl

@[simp] theorem State.withLane0_out {s : State} {l : Lane} : (s.withLane0 l).out = s.out := rfl

@[simp] theorem State.withLane0_stage {s : State} {l : Lane} : (s.withLane0 l).stage = s.stage := rfl

@[simp] theorem State.withLane0_holding {s : State} {l : Lane} : (s.withLane0 l).holding = s.holding := rfl

@[simp] theorem State.withLane0_act {s : State} {l : Lane} : (s.withLane0 l).act = s.act := rfl

@[simp] theorem State.withLane0_err {s : State} {l : Lane} : (s.withLane0 l).err = s.err := rfl

@[simp] theorem State.withLane0_inEof {s : State} {l : Lane} : (s.withLane0 l).inEof = s.inEof := rfl

@[simp] theorem State.withLane0_errCode {s : State} {l : Lane} : (s.withLane0 l).errCode = s.errCode := rfl

@[simp] theorem State.withLane0_errInfo {s : State} {l : Lane} : (s.withLane0 l).errInfo = s.errInfo := rfl

@[simp] theorem State.withLane0_errUnit {s : State} {l : Lane} : (s.withLane0 l).errUnit = s.errUnit := rfl

@[simp] theorem State.withLane0_cfg {s : State} {l : Lane} : (s.withLane0 l).cfg = s.cfg := rfl

@[simp] theorem State.withLane0_seen {s : State} {l : Lane} : (s.withLane0 l).seen = s.seen := rfl

@[simp] theorem State.withLane0_hostRegs {s : State} {l : Lane} : (s.withLane0 l).hostRegs = s.hostRegs := rfl

@[simp] theorem State.withLane0_result {s : State} {l : Lane} : (s.withLane0 l).result = s.result := rfl

@[simp] theorem State.withLane0_inCount {s : State} {l : Lane} : (s.withLane0 l).inCount = s.inCount := rfl

@[simp] theorem State.withLane0_outCount {s : State} {l : Lane} : (s.withLane0 l).outCount = s.outCount := rfl

@[simp] theorem State.withLane0_cmdLo {s : State} {l : Lane} : (s.withLane0 l).cmdLo = s.cmdLo := rfl

@[simp] theorem State.withLane0_lane0 {s : State} {l : Lane} : (s.withLane0 l).lane0 = l := rfl

@[simp] theorem State.withLane0_workers {s : State} {l : Lane} : (s.withLane0 l).workers = s.workers := rfl

@[simp] theorem State.withLane0_build {s : State} {l : Lane} : (s.withLane0 l).build = s.build := rfl

@[simp] theorem State.withLane0_coord {s : State} {l : Lane} : (s.withLane0 l).coord = s.coord := rfl

@[simp] theorem State.withLane0_agenda {s : State} {l : Lane} : (s.withLane0 l).agenda = s.agenda := rfl

@[simp] theorem State.withLane0_draws {s : State} {l : Lane} : (s.withLane0 l).draws = s.draws := rfl

@[simp] theorem State.withLane0_free {s : State} {l : Lane} : (s.withLane0 l).free = s.free := rfl

@[simp] theorem State.withLane0_readData {s : State} {l : Lane} : (s.withLane0 l).readData = s.readData := rfl

/-! ## State.initLane0 -/

@[simp] theorem State.initLane0_cq {s : State} : s.initLane0.cq = s.cq := rfl

@[simp] theorem State.initLane0_inp {s : State} : s.initLane0.inp = s.inp := rfl

@[simp] theorem State.initLane0_out {s : State} : s.initLane0.out = s.out := rfl

@[simp] theorem State.initLane0_stage {s : State} : s.initLane0.stage = s.stage := rfl

@[simp] theorem State.initLane0_holding {s : State} : s.initLane0.holding = s.holding := rfl

@[simp] theorem State.initLane0_act {s : State} : s.initLane0.act = s.act := rfl

@[simp] theorem State.initLane0_err {s : State} : s.initLane0.err = s.err := rfl

@[simp] theorem State.initLane0_inEof {s : State} : s.initLane0.inEof = s.inEof := rfl

@[simp] theorem State.initLane0_errCode {s : State} : s.initLane0.errCode = s.errCode := rfl

@[simp] theorem State.initLane0_errInfo {s : State} : s.initLane0.errInfo = s.errInfo := rfl

@[simp] theorem State.initLane0_errUnit {s : State} : s.initLane0.errUnit = s.errUnit := rfl

@[simp] theorem State.initLane0_cfg {s : State} : s.initLane0.cfg = s.cfg := rfl

@[simp] theorem State.initLane0_seen {s : State} : s.initLane0.seen = s.seen := rfl

@[simp] theorem State.initLane0_hostRegs {s : State} : s.initLane0.hostRegs = s.hostRegs := rfl

@[simp] theorem State.initLane0_result {s : State} : s.initLane0.result = s.result := rfl

@[simp] theorem State.initLane0_inCount {s : State} : s.initLane0.inCount = s.inCount := rfl

@[simp] theorem State.initLane0_outCount {s : State} : s.initLane0.outCount = s.outCount := rfl

@[simp] theorem State.initLane0_cmdLo {s : State} : s.initLane0.cmdLo = s.cmdLo := rfl

@[simp] theorem State.initLane0_lane0 {s : State} : s.initLane0.lane0 = laneInit s.act := rfl

@[simp] theorem State.initLane0_workers {s : State} : s.initLane0.workers = s.workers := rfl

@[simp] theorem State.initLane0_build {s : State} : s.initLane0.build = s.build := rfl

@[simp] theorem State.initLane0_coord {s : State} : s.initLane0.coord = s.coord := rfl

@[simp] theorem State.initLane0_agenda {s : State} : s.initLane0.agenda = s.agenda := rfl

@[simp] theorem State.initLane0_draws {s : State} : s.initLane0.draws = s.draws := rfl

@[simp] theorem State.initLane0_free {s : State} : s.initLane0.free = s.free := rfl

@[simp] theorem State.initLane0_readData {s : State} : s.initLane0.readData = s.readData := rfl

/-! ## State.initLanes -/

@[simp] theorem State.initLanes_cq {s : State} : s.initLanes.cq = s.cq := rfl

@[simp] theorem State.initLanes_inp {s : State} : s.initLanes.inp = s.inp := rfl

@[simp] theorem State.initLanes_out {s : State} : s.initLanes.out = s.out := rfl

@[simp] theorem State.initLanes_stage {s : State} : s.initLanes.stage = s.stage := rfl

@[simp] theorem State.initLanes_holding {s : State} : s.initLanes.holding = s.holding := rfl

@[simp] theorem State.initLanes_act {s : State} : s.initLanes.act = s.act := rfl

@[simp] theorem State.initLanes_err {s : State} : s.initLanes.err = s.err := rfl

@[simp] theorem State.initLanes_inEof {s : State} : s.initLanes.inEof = s.inEof := rfl

@[simp] theorem State.initLanes_errCode {s : State} : s.initLanes.errCode = s.errCode := rfl

@[simp] theorem State.initLanes_errInfo {s : State} : s.initLanes.errInfo = s.errInfo := rfl

@[simp] theorem State.initLanes_errUnit {s : State} : s.initLanes.errUnit = s.errUnit := rfl

@[simp] theorem State.initLanes_cfg {s : State} : s.initLanes.cfg = s.cfg := rfl

@[simp] theorem State.initLanes_seen {s : State} : s.initLanes.seen = s.seen := rfl

@[simp] theorem State.initLanes_hostRegs {s : State} : s.initLanes.hostRegs = s.hostRegs := rfl

@[simp] theorem State.initLanes_result {s : State} : s.initLanes.result = s.result := rfl

@[simp] theorem State.initLanes_inCount {s : State} : s.initLanes.inCount = s.inCount := rfl

@[simp] theorem State.initLanes_outCount {s : State} : s.initLanes.outCount = s.outCount := rfl

@[simp] theorem State.initLanes_cmdLo {s : State} : s.initLanes.cmdLo = s.cmdLo := rfl

@[simp] theorem State.initLanes_lane0 {s : State} : s.initLanes.lane0 = laneInit s.act := rfl

@[simp] theorem State.initLanes_workers {s : State} : s.initLanes.workers = s.workers.map fun _ => laneInit s.act := rfl

@[simp] theorem State.initLanes_build {s : State} : s.initLanes.build = s.build := rfl

@[simp] theorem State.initLanes_coord {s : State} : s.initLanes.coord = s.coord := rfl

@[simp] theorem State.initLanes_agenda {s : State} : s.initLanes.agenda = s.agenda := rfl

@[simp] theorem State.initLanes_draws {s : State} : s.initLanes.draws = s.draws := rfl

@[simp] theorem State.initLanes_free {s : State} : s.initLanes.free = s.free := rfl

@[simp] theorem State.initLanes_readData {s : State} : s.initLanes.readData = s.readData := rfl

/-! ## State.outBytes -/

@[simp] theorem State.outBytes_cq {s : State} {bs : List Byte} : (s.outBytes bs).cq = s.cq := rfl

@[simp] theorem State.outBytes_inp {s : State} {bs : List Byte} : (s.outBytes bs).inp = s.inp := rfl

@[simp] theorem State.outBytes_out {s : State} {bs : List Byte} : (s.outBytes bs).out = s.out := rfl

@[simp] theorem State.outBytes_stage {s : State} {bs : List Byte} : (s.outBytes bs).stage = s.stage ++ bs := rfl

@[simp] theorem State.outBytes_holding {s : State} {bs : List Byte} : (s.outBytes bs).holding = s.holding := rfl

@[simp] theorem State.outBytes_act {s : State} {bs : List Byte} : (s.outBytes bs).act = s.act := rfl

@[simp] theorem State.outBytes_err {s : State} {bs : List Byte} : (s.outBytes bs).err = s.err := rfl

@[simp] theorem State.outBytes_inEof {s : State} {bs : List Byte} : (s.outBytes bs).inEof = s.inEof := rfl

@[simp] theorem State.outBytes_errCode {s : State} {bs : List Byte} : (s.outBytes bs).errCode = s.errCode := rfl

@[simp] theorem State.outBytes_errInfo {s : State} {bs : List Byte} : (s.outBytes bs).errInfo = s.errInfo := rfl

@[simp] theorem State.outBytes_errUnit {s : State} {bs : List Byte} : (s.outBytes bs).errUnit = s.errUnit := rfl

@[simp] theorem State.outBytes_cfg {s : State} {bs : List Byte} : (s.outBytes bs).cfg = s.cfg := rfl

@[simp] theorem State.outBytes_seen {s : State} {bs : List Byte} : (s.outBytes bs).seen = s.seen := rfl

@[simp] theorem State.outBytes_hostRegs {s : State} {bs : List Byte} : (s.outBytes bs).hostRegs = s.hostRegs := rfl

@[simp] theorem State.outBytes_result {s : State} {bs : List Byte} : (s.outBytes bs).result = s.result := rfl

@[simp] theorem State.outBytes_inCount {s : State} {bs : List Byte} : (s.outBytes bs).inCount = s.inCount := rfl

@[simp] theorem State.outBytes_outCount {s : State} {bs : List Byte} : (s.outBytes bs).outCount = s.outCount := rfl

@[simp] theorem State.outBytes_cmdLo {s : State} {bs : List Byte} : (s.outBytes bs).cmdLo = s.cmdLo := rfl

@[simp] theorem State.outBytes_lane0 {s : State} {bs : List Byte} : (s.outBytes bs).lane0 = s.lane0 := rfl

@[simp] theorem State.outBytes_workers {s : State} {bs : List Byte} : (s.outBytes bs).workers = s.workers := rfl

@[simp] theorem State.outBytes_build {s : State} {bs : List Byte} : (s.outBytes bs).build = s.build := rfl

@[simp] theorem State.outBytes_coord {s : State} {bs : List Byte} : (s.outBytes bs).coord = s.coord := rfl

@[simp] theorem State.outBytes_agenda {s : State} {bs : List Byte} : (s.outBytes bs).agenda = s.agenda := rfl

@[simp] theorem State.outBytes_draws {s : State} {bs : List Byte} : (s.outBytes bs).draws = s.draws := rfl

@[simp] theorem State.outBytes_free {s : State} {bs : List Byte} : (s.outBytes bs).free = s.free := rfl

@[simp] theorem State.outBytes_readData {s : State} {bs : List Byte} : (s.outBytes bs).readData = s.readData := rfl

/-! ## State.begin -/

@[simp] theorem State.begin_cq {s : State} : s.begin.cq = s.cq := rfl

@[simp] theorem State.begin_inp {s : State} : s.begin.inp = s.input := rfl

@[simp] theorem State.begin_out {s : State} : s.begin.out = s.out := rfl

@[simp] theorem State.begin_stage {s : State} : s.begin.stage = [] := rfl

@[simp] theorem State.begin_holding {s : State} : s.begin.holding = none := rfl

@[simp] theorem State.begin_act {s : State} : s.begin.act = s.act := rfl

@[simp] theorem State.begin_err {s : State} : s.begin.err = s.err := rfl

@[simp] theorem State.begin_inEof {s : State} : s.begin.inEof = s.inEof := rfl

@[simp] theorem State.begin_errCode {s : State} : s.begin.errCode = s.errCode := rfl

@[simp] theorem State.begin_errInfo {s : State} : s.begin.errInfo = s.errInfo := rfl

@[simp] theorem State.begin_errUnit {s : State} : s.begin.errUnit = s.errUnit := rfl

@[simp] theorem State.begin_cfg {s : State} : s.begin.cfg = s.cfg := rfl

@[simp] theorem State.begin_seen {s : State} : s.begin.seen = s.seen := rfl

@[simp] theorem State.begin_hostRegs {s : State} : s.begin.hostRegs = s.hostRegs := rfl

@[simp] theorem State.begin_result {s : State} : s.begin.result = s.result := rfl

@[simp] theorem State.begin_inCount {s : State} : s.begin.inCount = s.inCount := rfl

@[simp] theorem State.begin_outCount {s : State} : s.begin.outCount = s.outCount := rfl

@[simp] theorem State.begin_cmdLo {s : State} : s.begin.cmdLo = s.cmdLo := rfl

@[simp] theorem State.begin_lane0 {s : State} : s.begin.lane0 = s.lane0 := rfl

@[simp] theorem State.begin_workers {s : State} : s.begin.workers = s.workers := rfl

@[simp] theorem State.begin_build {s : State} : s.begin.build = s.build := rfl

@[simp] theorem State.begin_coord {s : State} : s.begin.coord = s.coord := rfl

@[simp] theorem State.begin_agenda {s : State} : s.begin.agenda = s.agenda := rfl

@[simp] theorem State.begin_draws {s : State} : s.begin.draws = s.draws := rfl

@[simp] theorem State.begin_free {s : State} : s.begin.free = s.free := rfl

@[simp] theorem State.begin_readData {s : State} : s.begin.readData = s.readData := rfl

/-! ## suspend -/

@[simp] theorem suspend_cq {s : State} : (suspend s).cq = s.cq := rfl

@[simp] theorem suspend_inp {s : State} : (suspend s).inp = [] := rfl

@[simp] theorem suspend_out {s : State} : (suspend s).out = s.out := rfl

@[simp] theorem suspend_stage {s : State} : (suspend s).stage = s.stage := rfl

@[simp] theorem suspend_holding {s : State} : (suspend s).holding = some s.input := rfl

@[simp] theorem suspend_act {s : State} : (suspend s).act = s.act := rfl

@[simp] theorem suspend_err {s : State} : (suspend s).err = s.err := rfl

@[simp] theorem suspend_inEof {s : State} : (suspend s).inEof = s.inEof := rfl

@[simp] theorem suspend_errCode {s : State} : (suspend s).errCode = s.errCode := rfl

@[simp] theorem suspend_errInfo {s : State} : (suspend s).errInfo = s.errInfo := rfl

@[simp] theorem suspend_errUnit {s : State} : (suspend s).errUnit = s.errUnit := rfl

@[simp] theorem suspend_cfg {s : State} : (suspend s).cfg = s.cfg := rfl

@[simp] theorem suspend_seen {s : State} : (suspend s).seen = s.seen := rfl

@[simp] theorem suspend_hostRegs {s : State} : (suspend s).hostRegs = s.hostRegs := rfl

@[simp] theorem suspend_result {s : State} : (suspend s).result = s.result := rfl

@[simp] theorem suspend_inCount {s : State} : (suspend s).inCount = s.inCount := rfl

@[simp] theorem suspend_outCount {s : State} : (suspend s).outCount = s.outCount := rfl

@[simp] theorem suspend_cmdLo {s : State} : (suspend s).cmdLo = s.cmdLo := rfl

@[simp] theorem suspend_lane0 {s : State} : (suspend s).lane0 = s.lane0 := rfl

@[simp] theorem suspend_workers {s : State} : (suspend s).workers = s.workers := rfl

@[simp] theorem suspend_build {s : State} : (suspend s).build = s.build := rfl

@[simp] theorem suspend_coord {s : State} : (suspend s).coord = s.coord := rfl

@[simp] theorem suspend_agenda {s : State} : (suspend s).agenda = s.agenda := rfl

@[simp] theorem suspend_draws {s : State} : (suspend s).draws = s.draws := rfl

@[simp] theorem suspend_free {s : State} : (suspend s).free = s.free := rfl

@[simp] theorem suspend_readData {s : State} : (suspend s).readData = s.readData := rfl

/-! ## discard -/

@[simp] theorem discard_cq {s : State} : (discard s).cq = s.cq.tail := rfl

@[simp] theorem discard_inp {s : State} : (discard s).inp = s.inp := rfl

@[simp] theorem discard_out {s : State} : (discard s).out = s.out := rfl

@[simp] theorem discard_stage {s : State} : (discard s).stage = s.stage := rfl

@[simp] theorem discard_holding {s : State} : (discard s).holding = s.holding := rfl

@[simp] theorem discard_act {s : State} : (discard s).act = s.act := rfl

@[simp] theorem discard_err {s : State} : (discard s).err = s.err := rfl

@[simp] theorem discard_inEof {s : State} : (discard s).inEof = s.inEof := rfl

@[simp] theorem discard_errCode {s : State} : (discard s).errCode = s.errCode := rfl

@[simp] theorem discard_errInfo {s : State} : (discard s).errInfo = s.errInfo := rfl

@[simp] theorem discard_errUnit {s : State} : (discard s).errUnit = s.errUnit := rfl

@[simp] theorem discard_cfg {s : State} : (discard s).cfg = s.cfg := rfl

@[simp] theorem discard_seen {s : State} : (discard s).seen = s.seen := rfl

@[simp] theorem discard_hostRegs {s : State} : (discard s).hostRegs = s.hostRegs := rfl

@[simp] theorem discard_result {s : State} : (discard s).result = s.result := rfl

@[simp] theorem discard_inCount {s : State} : (discard s).inCount = s.inCount := rfl

@[simp] theorem discard_outCount {s : State} : (discard s).outCount = s.outCount := rfl

@[simp] theorem discard_cmdLo {s : State} : (discard s).cmdLo = s.cmdLo := rfl

@[simp] theorem discard_lane0 {s : State} : (discard s).lane0 = s.lane0 := rfl

@[simp] theorem discard_workers {s : State} : (discard s).workers = s.workers := rfl

@[simp] theorem discard_build {s : State} : (discard s).build = s.build := rfl

@[simp] theorem discard_coord {s : State} : (discard s).coord = s.coord := rfl

@[simp] theorem discard_agenda {s : State} : (discard s).agenda = s.agenda := rfl

@[simp] theorem discard_draws {s : State} : (discard s).draws = s.draws := rfl

@[simp] theorem discard_free {s : State} : (discard s).free = s.free := rfl

@[simp] theorem discard_readData {s : State} : (discard s).readData = s.readData := rfl

/-! ## clearError -/

@[simp] theorem clearError_cq {s : State} : (clearError s).cq = s.cq := rfl

@[simp] theorem clearError_inp {s : State} : (clearError s).inp = s.inp := rfl

@[simp] theorem clearError_out {s : State} : (clearError s).out = s.out := rfl

@[simp] theorem clearError_stage {s : State} : (clearError s).stage = s.stage := rfl

@[simp] theorem clearError_holding {s : State} : (clearError s).holding = s.holding := rfl

@[simp] theorem clearError_act {s : State} : (clearError s).act = s.act := rfl

@[simp] theorem clearError_err {s : State} : (clearError s).err = false := rfl

@[simp] theorem clearError_inEof {s : State} : (clearError s).inEof = s.inEof := rfl

@[simp] theorem clearError_errCode {s : State} : (clearError s).errCode = 0#32 := rfl

@[simp] theorem clearError_errInfo {s : State} : (clearError s).errInfo = 0#64 := rfl

@[simp] theorem clearError_errUnit {s : State} : (clearError s).errUnit = 0#32 := rfl

@[simp] theorem clearError_cfg {s : State} : (clearError s).cfg = s.cfg := rfl

@[simp] theorem clearError_seen {s : State} : (clearError s).seen = s.seen := rfl

@[simp] theorem clearError_hostRegs {s : State} : (clearError s).hostRegs = s.hostRegs := rfl

@[simp] theorem clearError_result {s : State} : (clearError s).result = s.result := rfl

@[simp] theorem clearError_inCount {s : State} : (clearError s).inCount = s.inCount := rfl

@[simp] theorem clearError_outCount {s : State} : (clearError s).outCount = s.outCount := rfl

@[simp] theorem clearError_cmdLo {s : State} : (clearError s).cmdLo = s.cmdLo := rfl

@[simp] theorem clearError_lane0 {s : State} : (clearError s).lane0 = s.lane0 := rfl

@[simp] theorem clearError_workers {s : State} : (clearError s).workers = s.workers := rfl

@[simp] theorem clearError_build {s : State} : (clearError s).build = s.build := rfl

@[simp] theorem clearError_coord {s : State} : (clearError s).coord = s.coord := rfl

@[simp] theorem clearError_agenda {s : State} : (clearError s).agenda = s.agenda := rfl

@[simp] theorem clearError_draws {s : State} : (clearError s).draws = s.draws := rfl

@[simp] theorem clearError_free {s : State} : (clearError s).free = s.free := rfl

@[simp] theorem clearError_readData {s : State} : (clearError s).readData = s.readData := rfl

/-! ## complete -/

@[simp] theorem complete_cq {s : State} {n : Nat} {v : BitVec 64} : (complete n v s).cq = s.cq.tail := rfl

@[simp] theorem complete_inp {s : State} {n : Nat} {v : BitVec 64} : (complete n v s).inp = s.inp := rfl

@[simp] theorem complete_out {s : State} {n : Nat} {v : BitVec 64} : (complete n v s).out = s.out ++ s.stage := rfl

@[simp] theorem complete_stage {s : State} {n : Nat} {v : BitVec 64} : (complete n v s).stage = [] := rfl

@[simp] theorem complete_holding {s : State} {n : Nat} {v : BitVec 64} : (complete n v s).holding = s.holding := rfl

@[simp] theorem complete_act {s : State} {n : Nat} {v : BitVec 64} : (complete n v s).act = s.act := rfl

@[simp] theorem complete_err {s : State} {n : Nat} {v : BitVec 64} : (complete n v s).err = s.err := rfl

@[simp] theorem complete_inEof {s : State} {n : Nat} {v : BitVec 64} : (complete n v s).inEof = s.inEof := rfl

@[simp] theorem complete_errCode {s : State} {n : Nat} {v : BitVec 64} : (complete n v s).errCode = s.errCode := rfl

@[simp] theorem complete_errInfo {s : State} {n : Nat} {v : BitVec 64} : (complete n v s).errInfo = s.errInfo := rfl

@[simp] theorem complete_errUnit {s : State} {n : Nat} {v : BitVec 64} : (complete n v s).errUnit = s.errUnit := rfl

@[simp] theorem complete_cfg {s : State} {n : Nat} {v : BitVec 64} : (complete n v s).cfg = s.cfg := rfl

@[simp] theorem complete_seen {s : State} {n : Nat} {v : BitVec 64} : (complete n v s).seen = s.hostRegs := rfl

@[simp] theorem complete_hostRegs {s : State} {n : Nat} {v : BitVec 64} : (complete n v s).hostRegs = s.hostRegs := rfl

@[simp] theorem complete_result {s : State} {n : Nat} {v : BitVec 64} : (complete n v s).result = v := rfl

@[simp] theorem complete_inCount {s : State} {n : Nat} {v : BitVec 64} : (complete n v s).inCount = satAdd64 s.inCount n := rfl

@[simp] theorem complete_outCount {s : State} {n : Nat} {v : BitVec 64} :
    (complete n v s).outCount = satAdd64 s.outCount s.stage.length := rfl

@[simp] theorem complete_cmdLo {s : State} {n : Nat} {v : BitVec 64} : (complete n v s).cmdLo = s.cmdLo := rfl

@[simp] theorem complete_lane0 {s : State} {n : Nat} {v : BitVec 64} : (complete n v s).lane0 = s.lane0 := rfl

@[simp] theorem complete_workers {s : State} {n : Nat} {v : BitVec 64} : (complete n v s).workers = s.workers := rfl

@[simp] theorem complete_build {s : State} {n : Nat} {v : BitVec 64} : (complete n v s).build = s.build := rfl

@[simp] theorem complete_coord {s : State} {n : Nat} {v : BitVec 64} : (complete n v s).coord = s.coord := rfl

@[simp] theorem complete_agenda {s : State} {n : Nat} {v : BitVec 64} : (complete n v s).agenda = s.agenda := rfl

@[simp] theorem complete_draws {s : State} {n : Nat} {v : BitVec 64} : (complete n v s).draws = s.draws := rfl

@[simp] theorem complete_free {s : State} {n : Nat} {v : BitVec 64} : (complete n v s).free = s.free := rfl

@[simp] theorem complete_readData {s : State} {n : Nat} {v : BitVec 64} : (complete n v s).readData = s.readData := rfl

/-! ## takeError -/

@[simp] theorem takeError_cq {s : State} {c : Word} {n : Nat} {e : Raised} :
    (takeError c n e s).cq = s.cq.tail := by
  unfold takeError
  split <;> rfl

@[simp] theorem takeError_inp {s : State} {c : Word} {n : Nat} {e : Raised} :
    (takeError c n e s).inp = s.inp := by
  unfold takeError
  split <;> rfl

@[simp] theorem takeError_out {s : State} {c : Word} {n : Nat} {e : Raised} :
    (takeError c n e s).out = s.out := by
  unfold takeError
  split <;> rfl

@[simp] theorem takeError_stage {s : State} {c : Word} {n : Nat} {e : Raised} :
    (takeError c n e s).stage = [] := by
  unfold takeError
  split <;> rfl

@[simp] theorem takeError_holding {s : State} {c : Word} {n : Nat} {e : Raised} :
    (takeError c n e s).holding = s.holding := by
  unfold takeError
  split <;> rfl

@[simp] theorem takeError_act {s : State} {c : Word} {n : Nat} {e : Raised} :
    (takeError c n e s).act = s.act := by
  unfold takeError
  split <;> rfl

@[simp] theorem takeError_err {s : State} {c : Word} {n : Nat} {e : Raised} :
    (takeError c n e s).err = true := by
  unfold takeError
  split <;> rfl

@[simp] theorem takeError_inEof {s : State} {c : Word} {n : Nat} {e : Raised} :
    (takeError c n e s).inEof = s.inEof := by
  unfold takeError
  split <;> rfl

@[simp] theorem takeError_errCode {s : State} {c : Word} {n : Nat} {e : Raised} :
    (takeError c n e s).errCode = e.errCode := by
  unfold takeError
  split <;> rfl

@[simp] theorem takeError_errInfo {s : State} {c : Word} {n : Nat} {e : Raised} :
    (takeError c n e s).errInfo = e.errInfo c n := by
  unfold takeError
  split <;> rfl

@[simp] theorem takeError_errUnit {s : State} {c : Word} {n : Nat} {e : Raised} :
    (takeError c n e s).errUnit = e.errUnit := by
  unfold takeError
  split <;> rfl

@[simp] theorem takeError_cfg {s : State} {c : Word} {n : Nat} {e : Raised} :
    (takeError c n e s).cfg = s.cfg := by
  unfold takeError
  split <;> rfl

@[simp] theorem takeError_seen {s : State} {c : Word} {n : Nat} {e : Raised} :
    (takeError c n e s).seen = s.hostRegs := by
  unfold takeError
  split <;> rfl

@[simp] theorem takeError_hostRegs {s : State} {c : Word} {n : Nat} {e : Raised} :
    (takeError c n e s).hostRegs = s.hostRegs := by
  unfold takeError
  split <;> rfl

@[simp] theorem takeError_result {s : State} {c : Word} {n : Nat} {e : Raised} :
    (takeError c n e s).result = s.result := by
  unfold takeError
  split <;> rfl

@[simp] theorem takeError_inCount {s : State} {c : Word} {n : Nat} {e : Raised} :
    (takeError c n e s).inCount = satAdd64 s.inCount n := by
  unfold takeError
  split <;> rfl

@[simp] theorem takeError_outCount {s : State} {c : Word} {n : Nat} {e : Raised} :
    (takeError c n e s).outCount = s.outCount := by
  unfold takeError
  split <;> rfl

@[simp] theorem takeError_cmdLo {s : State} {c : Word} {n : Nat} {e : Raised} :
    (takeError c n e s).cmdLo = s.cmdLo := by
  unfold takeError
  split <;> rfl

theorem takeError_coord_illegal {s : State} {c : Word} {n : Nat} {e : Raised} (h : e.cause.cls = .illegal) :
    (takeError c n e s).coord = s.coord := by
  unfold takeError
  rw [h]

theorem takeError_coord_legal {s : State} {c : Word} {n : Nat} {e : Raised} (h : e.cause.cls ≠ .illegal) :
    (takeError c n e s).coord = Coordinator.idle := by
  unfold takeError
  split
  · contradiction
  · rfl

@[simp] theorem takeError_build {s : State} {c : Word} {n : Nat} {e : Raised} :
    (takeError c n e s).build = s.build := by
  unfold takeError
  split <;> rfl

@[simp] theorem takeError_agenda {s : State} {c : Word} {n : Nat} {e : Raised} :
    (takeError c n e s).agenda = s.agenda := by
  unfold takeError
  split <;> rfl

@[simp] theorem takeError_draws {s : State} {c : Word} {n : Nat} {e : Raised} :
    (takeError c n e s).draws = s.draws := by
  unfold takeError
  split <;> rfl

@[simp] theorem takeError_free {s : State} {c : Word} {n : Nat} {e : Raised} :
    (takeError c n e s).free = s.free := by
  unfold takeError
  split <;> rfl

@[simp] theorem takeError_readData {s : State} {c : Word} {n : Nat} {e : Raised} :
    (takeError c n e s).readData = s.readData := by
  unfold takeError
  split <;> rfl

theorem takeError_lane0_illegal {s : State} {c : Word} {n : Nat} {e : Raised} (h : e.cause.cls = .illegal) :
    (takeError c n e s).lane0 = s.lane0 := by
  unfold takeError
  rw [h]

theorem takeError_lane0_legal {s : State} {c : Word} {n : Nat} {e : Raised} (h : e.cause.cls ≠ .illegal) :
    (takeError c n e s).lane0 = laneInit s.act := by
  unfold takeError
  split
  · contradiction
  · rfl

theorem takeError_workers_illegal {s : State} {c : Word} {n : Nat} {e : Raised} (h : e.cause.cls = .illegal) :
    (takeError c n e s).workers = s.workers := by
  unfold takeError
  rw [h]

theorem takeError_workers_legal {s : State} {c : Word} {n : Nat} {e : Raised} (h : e.cause.cls ≠ .illegal) :
    (takeError c n e s).workers = s.workers.map fun _ => laneInit s.act := by
  unfold takeError
  split
  · contradiction
  · rfl

/-! ## Lane.setCell -/

@[simp] theorem Lane.setCell_rce {l : Lane} {i : Nat} {v : BitVec 11} : (l.setCell i v).rce = l.rce := rfl

@[simp] theorem Lane.setCell_rcd {l : Lane} {i : Nat} {v : BitVec 11} : (l.setCell i v).rcd = l.rcd := rfl

@[simp] theorem Lane.setCell_prob {l : Lane} {i : Nat} {v : BitVec 11} : (l.setCell i v).prob = Memory.write probMid l.prob i v := rfl

@[simp] theorem Lane.setCell_lz {l : Lane} {i : Nat} {v : BitVec 11} : (l.setCell i v).lz = l.lz := rfl

@[simp] theorem Lane.setCell_win {l : Lane} {i : Nat} {v : BitVec 11} : (l.setCell i v).win = l.win := rfl

@[simp] theorem Lane.setCell_mf {l : Lane} {i : Nat} {v : BitVec 11} : (l.setCell i v).mf = l.mf := rfl

@[simp] theorem Lane.setCell_l2e {l : Lane} {i : Nat} {v : BitVec 11} : (l.setCell i v).l2e = l.l2e := rfl

@[simp] theorem Lane.setCell_l2d {l : Lane} {i : Nat} {v : BitVec 11} : (l.setCell i v).l2d = l.l2d := rfl

@[simp] theorem Lane.setCell_pb {l : Lane} {i : Nat} {v : BitVec 11} : (l.setCell i v).pb = l.pb := rfl

/-! ## Lane.stateReset -/

@[simp] theorem Lane.stateReset_rce {l : Lane} : l.stateReset.rce = l.rce := rfl

@[simp] theorem Lane.stateReset_rcd {l : Lane} : l.stateReset.rcd = l.rcd := rfl

@[simp] theorem Lane.stateReset_prob {l : Lane} : l.stateReset.prob = [] := rfl

@[simp] theorem Lane.stateReset_win {l : Lane} : l.stateReset.win = l.win := rfl

@[simp] theorem Lane.stateReset_mf {l : Lane} : l.stateReset.mf = l.mf := rfl

@[simp] theorem Lane.stateReset_l2e {l : Lane} : l.stateReset.l2e = l.l2e := rfl

@[simp] theorem Lane.stateReset_l2d {l : Lane} : l.stateReset.l2d = l.l2d := rfl

@[simp] theorem Lane.stateReset_pb {l : Lane} : l.stateReset.pb = l.pb := rfl

/-! ## Lane.setProps -/

@[simp] theorem Lane.setProps_rce {l : Lane} {pr : Byte} : (l.setProps pr).rce = l.rce := rfl

@[simp] theorem Lane.setProps_rcd {l : Lane} {pr : Byte} : (l.setProps pr).rcd = l.rcd := rfl

@[simp] theorem Lane.setProps_prob {l : Lane} {pr : Byte} : (l.setProps pr).prob = [] := rfl

@[simp] theorem Lane.setProps_win {l : Lane} {pr : Byte} : (l.setProps pr).win = l.win := rfl

@[simp] theorem Lane.setProps_mf {l : Lane} {pr : Byte} : (l.setProps pr).mf = l.mf := rfl

@[simp] theorem Lane.setProps_l2e {l : Lane} {pr : Byte} : (l.setProps pr).l2e = l.l2e := rfl

@[simp] theorem Lane.setProps_l2d {l : Lane} {pr : Byte} : (l.setProps pr).l2d = l.l2d := rfl

@[simp] theorem Lane.setProps_pb {l : Lane} {pr : Byte} : (l.setProps pr).pb = l.pb := rfl

/-! ## Lane.afterSymbol -/

@[simp] theorem Lane.afterSymbol_rce {l : Lane} {z : Coder} {n : Nat} : (l.afterSymbol z n).rce = l.rce := rfl

@[simp] theorem Lane.afterSymbol_rcd {l : Lane} {z : Coder} {n : Nat} : (l.afterSymbol z n).rcd = l.rcd := rfl

@[simp] theorem Lane.afterSymbol_prob {l : Lane} {z : Coder} {n : Nat} : (l.afterSymbol z n).prob = l.prob := rfl

@[simp] theorem Lane.afterSymbol_lz {l : Lane} {z : Coder} {n : Nat} : (l.afterSymbol z n).lz = z := rfl

@[simp] theorem Lane.afterSymbol_mf {l : Lane} {z : Coder} {n : Nat} : (l.afterSymbol z n).mf = l.mf := rfl

@[simp] theorem Lane.afterSymbol_l2e {l : Lane} {z : Coder} {n : Nat} : (l.afterSymbol z n).l2e = l.l2e := rfl

@[simp] theorem Lane.afterSymbol_l2d {l : Lane} {z : Coder} {n : Nat} : (l.afterSymbol z n).l2d = l.l2d := rfl

@[simp] theorem Lane.afterSymbol_pb {l : Lane} {z : Coder} {n : Nat} : (l.afterSymbol z n).pb = l.pb := rfl

/-! ## Windows -/

@[simp] theorem Window.append_cur {w : Window} {bs : List Byte} : (w.append bs).cur = w.cur + bs.length := rfl

@[simp] theorem Window.append_bytes {w : Window} {bs : List Byte} : (w.append bs).bytes = w.bytes ++ bs := rfl

@[simp] theorem Window.append_dictSize {w : Window} {bs : List Byte} : (w.append bs).dictSize = w.dictSize := rfl

@[simp] theorem Window.feed_cur {w : Window} {bs : List Byte} : (w.feed bs).cur = w.cur := rfl

@[simp] theorem Window.feed_bytes {w : Window} {bs : List Byte} : (w.feed bs).bytes = w.bytes ++ bs := rfl

@[simp] theorem Window.feed_dictSize {w : Window} {bs : List Byte} : (w.feed bs).dictSize = w.dictSize := rfl

/-! ## The build (R9) -/

@[simp] theorem State.resetWith_build {n : Nat} {b : Build} : (State.resetWith n b).build = b := rfl

@[simp] theorem softReset_build {s : State} : (softReset s).build = s.build := rfl

@[simp] theorem hardReset_build {s : State} : (hardReset s).build = s.build := rfl

@[simp] theorem laneInit_none : laneInit none = Lane.reset := rfl

/-! ## What a register read shows (R104) -/

theorem State.shownRegs_quiet {s : State} (h : s.holding = none) : s.shownRegs = s.hostRegs := by
  simp [State.shownRegs, State.inWait, h]

theorem State.shownRegs_holding {s : State} (h : s.holding.isSome = true) : s.shownRegs = s.seen := if_pos h

@[simp] theorem begin_input {s : State} : s.begin.input = s.input := rfl

end Sys2Proof.Machine
end

