-- ==== Sys2Proof/Laws/Commands.lean ====
section
/-! SUPPORT. How a command ends: one lemma for each way (R331, R1010, R231), and the checks before a command's own rule (R1020). -/

namespace Sys2Proof.Machine

/-! ## Sequencing -/

@[simp] theorem Res.bind_ok {σ α β : Type} {a : α} {s : σ} {f : α → σ → Res σ β} : (Res.ok a s).bind f = f a s := rfl

@[simp] theorem Res.bind_stop {σ α β : Type} {e : Stop} {s : σ} {f : α → σ → Res σ β} :
    (Res.stop e s : Res σ α).bind f = .stop e s := rfl

/-- A sequence that completes: its first part completed, and its second from there. -/
theorem Res.bind_eq_ok {σ α β : Type} {r : Res σ α} {f : α → σ → Res σ β} {b : β} {t : σ} (h : r.bind f = .ok b t) :
    ∃ a s, r = .ok a s ∧ f a s = .ok b t := by
  cases r with
  | ok a s => exact ⟨a, s, rfl, h⟩
  | stop e s => simp at h

/-- A sequence that stops: in its first part, or in its second. -/
theorem Res.bind_eq_stop {σ α β : Type} {r : Res σ α} {f : α → σ → Res σ β} {e : Stop} {t : σ}
    (h : r.bind f = .stop e t) : r = .stop e t ∨ ∃ a s, r = .ok a s ∧ f a s = .stop e t := by
  cases r with
  | ok a s => exact .inr ⟨a, s, rfl, h⟩
  | stop e' s =>
    simp only [Res.bind_stop, Res.stop.injEq] at h
    exact .inl (by rw [h.1, h.2])

@[simp] theorem require_true {σ α : Type} {c : Cause} {s : σ} {k : Res σ α} : require true c s k = k := rfl

@[simp] theorem require_false {σ α : Type} {c : Cause} {s : σ} {k : Res σ α} :
    require false c s k = .stop (.of c) s := rfl

theorem withAct_some {s : State} {a : Act} {k : Act → Res State (BitVec 64)} (h : s.act = some a) :
    withAct s k = k a := by simp [withAct, h]

/-! ## The checks before a command's rule (R1020 items 4 to 6) -/

@[simp] theorem precheck_sys {s : State} {i : Instr} (h : isSys i = true) : precheck i s = none := by
  cases i <;> simp_all [precheck, isSys, operandsOk, Instr.wf, lockOk, lockOf]

theorem lockOk_of_unitsFree {s : State} {i : Instr} (h : s.unitsFree) : lockOk i s = true := by
  obtain ⟨-, h2, h3⟩ := h
  simp only [lockOk]
  split <;> simp [State.sessionOpen, h2, h3]

/-- Configured, no session open, operands in range: every check passes. -/
theorem precheck_unitsFree {s : State} {i : Instr} (h : s.unitsFree) (ho : operandsOk i s = true) :
    precheck i s = none := by
  simp [precheck, State.configured, h.1, ho, lockOk_of_unitsFree h]

/-- A command that no session refuses needs only the configuration and its operands. -/
theorem precheck_reader {s : State} {i : Instr} (h : s.ready) (hl : lockOf i = .never) (ho : operandsOk i s = true) :
    precheck i s = none := by
  simp [precheck, State.configured, h, ho, lockOk, hl]

theorem precheck_notConfigured {s : State} {i : Instr} (h : s.act = none) (hi : isSys i = false) :
    precheck i s = some .notConfigured := by
  simp [precheck, State.configured, h, hi]

theorem precheck_operandRange {s : State} {i : Instr} (h : s.ready) (ho : operandsOk i s = false) :
    precheck i s = some .operandRange := by
  simp [precheck, State.configured, h, ho]

theorem precheck_locked {s : State} {i : Instr} (h : s.ready) (ho : operandsOk i s = true) (hl : lockOk i s = false) :
    precheck i s = some .precondition := by
  simp [precheck, State.configured, h, ho, hl]

/-! ## The checks as the statements name them -/

theorem operandsOk_iff {i : Instr} {s : State} : operandsOk i s = true ↔ InRange i s := by
  cases i with
  | rceBit | rcdBit | probRead => exact decide_eq_true_iff
  | probWrite => exact Bool.and_eq_true_iff.trans (and_congr decide_eq_true_iff decide_eq_true_iff)
  | _ => simp only [operandsOk, InRange, Instr.wf, decide_eq_true_eq]

theorem lockOk_either {s : State} :
    (!s.sessionOpen) = false ↔ (¬ False ∧ (s.lane0.l2e.active = true ∨ s.lane0.l2d.active = true)) := by
  simp only [State.sessionOpen]
  cases s.lane0.l2e.active <;> cases s.lane0.l2d.active <;> decide

theorem lockOk_false_iff {i : Instr} {s : State} : lockOk i s = false ↔ RefusedBySession i s := by
  have lock (b : Bool) : (!b) = false ↔ b = true := by simp
  cases i <;> first
    | exact ⟨fun h => (nomatch h), fun h => absurd trivial h.1⟩
    | exact lockOk_either
    | exact lock _

theorem isSys_iff {i : Instr} : isSys i = true ↔ InSys i := by cases i <;> simp [isSys, InSys]

/-- Every command runs through the checks and a rule of its own (R330). -/
theorem exec_runs (i : Instr) (s : State) : ∃ body, exec i s = runCommand i body s := by
  cases i <;>
    simp only [exec, execSysNop, execSysSoftReset, execSysClearErr, execSysConfigure, execRceReset, execRceBit, execRceDirect,
      execRceFlush, execRcePending, execRcdInit, execRcdBit, execRcdDirect, execRcdIsFinished, execProbReset, execProbRead,
      execProbWrite, execLzSetProps, execLzResetState, execLzReadState, execLzReadRep, execLzeLit, execLzeMatch, execLzeRep,
      execLzeShortrep, execLzeEos, execLzdSymbol, execLzdRun, execWinReset, execWinFeed, execWinPut, execWinGet, execMfReset,
      execMfFind, execMfCand, execMfSkip, execL2Encode, execL2Decode, execL2EncSegment, execL2EncEnd, execL2DecChunk,
      execLzmaEncode, execLzmaDecode] <;>
    exact ⟨_, rfl⟩

/-! ## The ends of a command -/

theorem satAdd64_zero {a : BitVec 64} : satAdd64 a 0 = a := by
  have := a.isLt
  simp only [satAdd64, Nat.add_zero]
  rw [Nat.min_eq_left (by omega)]
  simp

/-- The working state of a command that has taken `took` bytes, staged `bs` and left lane 0 as `l`. -/
abbrev State.working (s : State) (took : Nat) (bs : List Byte) (l : Lane) : State :=
  { s.begin with inp := s.input.drop took, stage := bs, lane0 := l }

theorem begin_eq_working {s : State} : s.begin = s.working 0 [] s.lane0 := rfl

/-- A command whose rule ends in a working state completes. -/
theorem runCommand_completed {i : Instr} {body : Body} {s : State} {took v : Nat} {bs : List Byte} {l : Lane}
    (hp : precheck i s = none) (ht : took ≤ s.input.length)
    (hb : body s.begin = .ok (BitVec.ofNat 64 v) (s.working took bs l)) :
    runCommand i body s = .next (s.completed took bs v l) := by
  have hlen : s.input.length - (s.input.length - took) = took := by omega
  simp [runCommand, hp, hb, finish, complete, State.completed, State.hostRegs, satAdd64, hlen]

/-- A command that raises IllegalCommand before its first write. -/
theorem runCommand_refusedBy {i : Instr} {body : Body} {s : State} {c : Cause} (hc : c.cls = .illegal)
    (h : precheck i s = some c ∨ precheck i s = none ∧ body s.begin = .stop (.of c) s.begin) :
    runCommand i body s = .next (s.refusedBy i c.sub) := by
  have hf : finish i s (.stop (.of c) s.begin) = .next (s.refusedBy i c.sub) := by
    have hl : s.input.length - s.begin.inp.length = 0 := by simp
    simp only [finish, Stop.of, hl]
    have h6 : ErrClass.illegal.code = 6 := rfl
    simp [takeError, hc, Raised.errCode, Raised.errInfo, Raised.errUnit, State.refusedBy, State.hostRegs, satAdd64_zero, h6]
  rcases h with h | ⟨h, hb⟩
  · simp [runCommand, h, hf]
  · simp [runCommand, h, hb, hf]

/-- A command that raises another error after taking `took` bytes. -/
theorem runCommand_failedWith {i : Instr} {body : Body} {s t : State} {e : Raised} {took : Nat}
    (hp : precheck i s = none) (hb : body s.begin = .stop (.raise e) t) (hc : e.cause.cls ≠ .illegal)
    (ht : t = { s.begin with inp := s.input.drop took, stage := t.stage, coord := t.coord, lane0 := t.lane0, workers := t.workers })
    (hw : t.workers.length = s.workers.length) (hk : took ≤ s.input.length) :
    runCommand i body s =
      .next (s.failedWith took e.errCode.toNat (e.errInfo (encode i) took).toNat e.errUnit.toNat) := by
  have hlen : s.input.length - t.inp.length = took := by
    rw [ht]
    simp only [List.length_drop]
    omega
  have hm : t.workers.map (fun _ => laneInit s.act) = s.workers.map (fun _ => laneInit s.act) := by
    rw [List.map_const', List.map_const', hw]
  have hact : t.act = s.act := by rw [ht]; rfl
  simp only [runCommand, hp, hb, finish, hlen]
  unfold takeError
  split
  · contradiction
  · simp only [State.failedWith, State.initLanes, hact, hm, BitVec.ofNat_toNat, BitVec.setWidth_eq]
    rw [ht]
    rfl

/-- A command whose rule meets an empty IN before IN_EOF holds. -/
theorem runCommand_held {i : Instr} {body : Body} {s t : State} (hp : precheck i s = none)
    (hb : body s.begin = .stop .hold t) : runCommand i body s = .next s.held := by
  simp [runCommand, hp, hb, finish, suspend, State.held]

/-- The three ways a command ends, and the one way the model stops in it. -/
theorem finish_cases {i : Instr} {s t : State} {r : Res State (BitVec 64)} (h : finish i s r = .next t) :
    (∃ v u, r = .ok v u ∧ t = complete (s.input.length - u.inp.length) v u) ∨
    (∃ e u, r = .stop (.raise e) u ∧ t = takeError (encode i) (s.input.length - u.inp.length) e u) ∨
    (t = suspend s ∧ ∃ u, r = .stop .hold u ∨ r = .stop .dry u) := by
  cases r with
  | ok v u => exact .inl ⟨v, u, rfl, by simpa [finish] using h.symm⟩
  | stop e u =>
    cases e with
    | raise e => exact .inr (.inl ⟨e, u, rfl, by simpa [finish] using h.symm⟩)
    | hold => exact .inr (.inr ⟨by simpa [finish] using h.symm, u, .inl rfl⟩)
    | dry => exact .inr (.inr ⟨by simpa [finish] using h.symm, u, .inr rfl⟩)
    | noProgress => simp [finish] at h

/-- A command that answers a next state: refused before its rule (R1020 items 4 to 6), or its rule ran from `s.begin`. -/
theorem runCommand_cases {i : Instr} {body : Body} {s t : State} (h : runCommand i body s = .next t) :
    (∃ c, precheck i s = some c ∧ t = takeError (encode i) 0 { cause := c, wrapped := false, place := none } s.begin) ∨
    (precheck i s = none ∧ finish i s (body s.begin) = .next t) := by
  simp only [runCommand] at h
  split at h
  · rename_i c hc
    refine .inl ⟨c, hc, ?_⟩
    simpa [finish, Stop.of] using h.symm
  · rename_i hc
    exact .inr ⟨hc, h⟩

end Sys2Proof.Machine
end

