-- ==== Sys2Proof/Laws/Decode.lean ====
section
/-! SUPPORT. The fields of an encoded word (R300, R302). -/

namespace Sys2Proof

theorem word_toNat {op x : Nat} (ho : op < 2 ^ 8) (hx : x < 2 ^ 56) : (word op x).toNat = op * 2 ^ 56 + x := by
  simp only [word, BitVec.toNat_ofNat]
  omega

/-- The opcode of a word is the one it was made with. -/
theorem opcodeField_word {op x : Nat} (ho : op < 2 ^ 8) (hx : x < 2 ^ 56) : opcodeField (word op x) = op := by
  rw [opcodeField, word_toNat ho hx]
  omega

/-- A field below the opcode reads the operand bits. -/
theorem field_word {op x lo w : Nat} (ho : op < 2 ^ 8) (hx : x < 2 ^ 56) (hw : lo + w ≤ 56) :
    field lo w (word op x) = x / 2 ^ lo % 2 ^ w := by
  rw [field, word_toNat ho hx]
  obtain ⟨k, hk⟩ := Nat.exists_eq_add_of_le hw
  have h56 : op * 2 ^ 56 = 2 ^ lo * (2 ^ w * (2 ^ k * op)) := by rw [hk, Nat.pow_add, Nat.pow_add]; ring
  rw [h56, Nat.mul_add_div (by positivity), Nat.mul_add_mod]

/-- Two operand fields side by side: the low one. -/
theorem fields_low {x y a b : Nat} (hy : y < 2 ^ a) (hb : b ≤ a) : (x * 2 ^ a + y) % 2 ^ b = y % 2 ^ b := by
  obtain ⟨k, rfl⟩ := Nat.exists_eq_add_of_le hb
  rw [show x * 2 ^ (b + k) = 2 ^ b * (2 ^ k * x) by rw [Nat.pow_add]; ring, Nat.mul_add_mod]

/-- Two operand fields side by side: the high one. -/
theorem fields_high {x y a : Nat} (hy : y < 2 ^ a) : (x * 2 ^ a + y) / 2 ^ a = x := by
  rw [Nat.add_comm, Nat.add_mul_div_right _ _ (by positivity), Nat.div_eq_of_lt hy, Nat.zero_add]

/-- A format whose reserved fields are 0 gives its instruction. -/
theorem reserving_ok {c : Word} {zero : List (Nat × Nat)} {i : Instr} (h : ∀ z ∈ zero, field z.1 z.2 c = 0) :
    reserving c zero i = .ok i := by
  simp only [reserving, List.all_eq_true, beq_iff_eq]
  exact if_pos h

/-- What a format that gives an instruction says of the word. -/
theorem reserving_inv {c : Word} {zero : List (Nat × Nat)} {i j : Instr} (h : reserving c zero i = .ok j) :
    j = i ∧ ∀ z ∈ zero, field z.1 z.2 c = 0 := by
  simp only [reserving, List.all_eq_true, beq_iff_eq] at h
  split at h
  · rename_i hz
    exact ⟨by simpa using h.symm, hz⟩
  · simp at h

end Sys2Proof
end

