-- ==== Sys2Proof/Laws/Finder.lean ====
section
/-! SUPPORT. The OPEN finder and parser (R760, R761, R734): a substitute's answer is held to its contract and, where it meets it, kept
whole; the defaults are the hash-chain finder and GREEDY_LAZY. -/

namespace Sys2Proof.Machine

/-! ## The finder's contract (R760) -/

/-- R760 (b): every candidate kept is one the contract admits, and longer than `best`. -/
theorem keepCandidates_mem {w : Window} {p rem best : Nat} {list : List (Nat × Nat)} {c : Nat × Nat}
    (h : c ∈ keepCandidates w p rem best list) : best < c.1 ∧ candidateOk w p rem c = true := by
  induction list generalizing best with
  | nil => simp [keepCandidates] at h
  | cons x xs ih =>
    simp only [keepCandidates] at h
    split at h
    · rename_i hx
      rcases List.mem_cons.mp h with rfl | h
      · exact hx
      · exact ⟨Nat.lt_trans hx.1 (ih h).1, (ih h).2⟩
    · exact ih h

/-- R760 (a): the candidates kept rise strictly in length. -/
theorem keepCandidates_pairwise {w : Window} {p rem best : Nat} {list : List (Nat × Nat)} :
    (keepCandidates w p rem best list).Pairwise fun x y => x.1 < y.1 := by
  induction list generalizing best with
  | nil => exact .nil
  | cons x xs ih =>
    simp only [keepCandidates]
    split
    · exact .cons (fun _ h => (keepCandidates_mem h).1) ih
    · exact ih

/-- No substitute is shut out: a list that meets R760 (a) and (b) is kept whole. -/
theorem keepCandidates_eq_self {w : Window} {p rem best : Nat} {list : List (Nat × Nat)}
    (rise : list.Pairwise fun x y => x.1 < y.1) (ok : ∀ c ∈ list, best < c.1 ∧ candidateOk w p rem c = true) :
    keepCandidates w p rem best list = list := by
  induction list generalizing best with
  | nil => rfl
  | cons x xs ih =>
    have hx := ok x List.mem_cons_self
    have hr := List.pairwise_cons.mp rise
    rw [keepCandidates, if_pos hx, ih hr.2 fun c hc => ⟨hr.1 c hc, (ok c (List.mem_cons_of_mem _ hc)).2⟩]

/-- R760 (c): the first position given after a reset has no candidates. -/
theorem substituteFind_first {which : Nat} {a : Act} {w : Window} {m : MatchFinder} {p rem : Nat} {search : Bool}
    (h : m.own.finder = none) : (substituteFind which a w m p rem search).1 = [] := by
  simp [substituteFind, h]

/-! ## The defaults (R9) -/

theorem find_default {b : Build} {a : Act} {w : Window} {m : MatchFinder} {p rem : Nat} (h : b.finder = none) :
    find b a w m p rem = hashChainFind a w m p rem := by
  simp [find, binaryTreeFind, h]

theorem skip_default {b : Build} {a : Act} {w : Window} {m : MatchFinder} {p rem : Nat} (h : b.finder = none) :
    skip b a w m p rem = skipAt w m p rem := by
  simp [skip, binaryTreeSkip, h]

theorem choose_default {b : Build} {a : Act} {most segEnd : Nat} {l : Lane} (h : b.parser = none) :
    choose b a most segEnd l = greedyLazy b a most segEnd l := by
  simp [choose, optimalParser, h]

/-! ## The parser's contract (R734) -/

/-- Every answer of a substitute parser is one R734 admits where it stands: in the lane the answer leaves, its window and repeat
distances those it was asked at. -/
theorem askParser_allowed {which : Nat} {b : Build} {a : Act} {most segEnd turns : Nat} {l : Lane} :
    (askParser which b a most segEnd turns l).1.allowed (askParser which b a most segEnd turns l).2 most = true ∧
    ∃ m, (askParser which b a most segEnd turns l).2 = { l with mf := m } := by
  induction turns generalizing l with
  | zero => exact ⟨rfl, _, rfl⟩
  | succ n ih =>
    simp only [askParser]
    split
    · refine ⟨?_, _, rfl⟩
      split
      · assumption
      · rfl
    · split
      · refine ⟨ih.1, ?_⟩
        obtain ⟨m, hm⟩ := ih.2
        exact ⟨m, hm⟩
      · exact ⟨rfl, _, rfl⟩

end Sys2Proof.Machine
end

