-- ==== Sys2Proof/Laws/Memory.lean ====
section
/-! SUPPORT. The laws of the sparse stores: a read after a write, and that a write keeps the canonical form. -/

namespace Sys2Proof.Machine.Memory

variable {α : Type} [DecidableEq α] {d v : α} {m : Memory α} {lo a b : Nat}

omit [DecidableEq α] in
@[simp] theorem read_nil : read d ([] : Memory α) a = d := rfl

@[simp] theorem wf_nil : wf d ([] : Memory α) = true := rfl

theorem wfFrom_mono {lo' : Nat} (h : wfFrom d lo m = true) (hle : lo' ≤ lo) : wfFrom d lo' m = true := by
  cases m with
  | nil => rfl
  | cons x rest =>
    obtain ⟨k, w⟩ := x
    simp only [wfFrom, Bool.and_eq_true, decide_eq_true_eq] at h ⊢
    exact ⟨⟨by omega, h.1.2⟩, h.2⟩

/-- Below the least index everything holds the default. -/
theorem read_below (h : wfFrom d lo m = true) (ha : a < lo) : read d m a = d := by
  cases m with
  | nil => rfl
  | cons x rest =>
    obtain ⟨k, w⟩ := x
    simp only [wfFrom, Bool.and_eq_true, decide_eq_true_eq] at h
    simp [read, show a < k by omega]

theorem write_wfFrom (h : wfFrom d lo m = true) (ha : lo ≤ a) : wfFrom d lo (write d m a v) = true := by
  induction m generalizing lo with
  | nil => by_cases hv : v = d <;> simp [write, wfFrom, hv, ha]
  | cons x rest ih =>
    obtain ⟨k, w⟩ := x
    simp only [wfFrom, Bool.and_eq_true, decide_eq_true_eq] at h
    obtain ⟨⟨h1, h2⟩, h3⟩ := h
    simp only [write]
    split
    · split
      · simp [wfFrom, h1, h2, h3]
      · simp_all [wfFrom]
    · split
      · split
        · exact wfFrom_mono h3 (by omega)
        · simp_all [wfFrom]
      · simp only [wfFrom, Bool.and_eq_true, decide_eq_true_eq]
        exact ⟨⟨h1, h2⟩, ih h3 (by omega)⟩

/-- A write keeps the canonical form. -/
theorem write_wf (h : wf d m = true) : wf d (write d m a v) = true := write_wfFrom h (Nat.zero_le a)

theorem read_write_same_from (h : wfFrom d lo m = true) : read d (write d m a v) a = v := by
  induction m generalizing lo with
  | nil => by_cases hv : v = d <;> simp [write, read, hv]
  | cons x rest ih =>
    obtain ⟨k, w⟩ := x
    simp only [wfFrom, Bool.and_eq_true, decide_eq_true_eq] at h
    simp only [write]
    split
    · rename_i hk
      split <;> simp_all [read]
    · split
      · rename_i hk he
        subst he
        split
        · rename_i hv
          rw [hv]
          exact read_below h.2 (by omega)
        · simp [read]
      · rename_i hk he
        simp only [read, hk, he, if_false]
        exact ih h.2

/-- A read after a write to the same cell gives the value written. -/
theorem read_write_same (h : wf d m = true) : read d (write d m a v) a = v := read_write_same_from h

theorem read_write_other_from (h : wfFrom d lo m = true) (hab : b ≠ a) :
    read d (write d m a v) b = read d m b := by
  induction m generalizing lo with
  | nil => by_cases hv : v = d <;> simp [write, read, hv, hab]
  | cons x rest ih =>
    obtain ⟨k, w⟩ := x
    simp only [wfFrom, Bool.and_eq_true, decide_eq_true_eq] at h
    simp only [write]
    split
    · rename_i hk
      split
      · rfl
      · by_cases hb : b < a
        · simp [read, hb, show b < k by omega]
        · simp [read, hb, hab]
    · split
      · rename_i hk he
        subst he
        split
        · by_cases hb : b < a
          · simp only [read, hb, if_true]
            exact read_below h.2 (by omega)
          · simp [read, hb, hab]
        · simp [read, hab]
      · simp only [read]
        split
        · rfl
        · split
          · rfl
          · exact ih h.2

/-- A write leaves every other cell alone. -/
theorem read_write_other (h : wf d m = true) (hab : b ≠ a) : read d (write d m a v) b = read d m b :=
  read_write_other_from h hab

/-- An entry of the store after a write is the written one or an entry from before. -/
theorem mem_write {x : Nat × α} (h : x ∈ write d m a v) : x = (a, v) ∧ v ≠ d ∨ x ∈ m := by
  induction m with
  | nil =>
    simp only [write] at h
    split at h <;> simp_all
  | cons y rest ih =>
    obtain ⟨k, w⟩ := y
    simp only [write] at h
    split at h
    · split at h <;> simp_all
    · split at h
      · split at h
        · simp_all
        · simp_all only [List.mem_cons]
          tauto
      · simp only [List.mem_cons] at h ⊢
        rcases h with rfl | h
        · exact .inr (.inl rfl)
        · rcases ih h with h | h
          · exact .inl h
          · exact .inr (.inr h)

omit [DecidableEq α] in
/-- What a read gives is the default or the value of an entry. -/
theorem read_mem : read d m a = d ∨ (a, read d m a) ∈ m := by
  induction m with
  | nil => exact .inl rfl
  | cons y rest ih =>
    obtain ⟨k, w⟩ := y
    simp only [read]
    split
    · exact .inl rfl
    · split
      · rename_i h
        subst h
        simp
      · rcases ih with h | h
        · exact .inl h
        · exact .inr (List.mem_cons_of_mem _ h)

theorem read_of_mem_from (h : wfFrom d lo m = true) {x : Nat × α} (hx : x ∈ m) : lo ≤ x.1 ∧ read d m x.1 = x.2 := by
  induction m generalizing lo with
  | nil => simp at hx
  | cons y rest ih =>
    obtain ⟨k, w⟩ := y
    simp only [wfFrom, Bool.and_eq_true, decide_eq_true_eq] at h
    rcases List.mem_cons.mp hx with rfl | hx
    · simp [read, h.1.1]
    · obtain ⟨h1, h2⟩ := ih h.2 hx
      refine ⟨by omega, ?_⟩
      simp [read, show ¬ x.1 < k by omega, show x.1 ≠ k by omega, h2]

/-- A listed cell reads as listed. -/
theorem read_of_mem (h : wf d m = true) {x : Nat × α} (hx : x ∈ m) : read d m x.1 = x.2 := (read_of_mem_from h hx).2

/-- Two stores in canonical form that read alike are the same store. -/
theorem ext_from {m' : Memory α} {lo' : Nat} (h : wfFrom d lo m = true) (h' : wfFrom d lo' m' = true)
    (hr : ∀ a, read d m a = read d m' a) : m = m' := by
  induction m generalizing lo lo' m' with
  | nil =>
    cases m' with
    | nil => rfl
    | cons y rest =>
      obtain ⟨k, w⟩ := y
      simp only [wfFrom, Bool.and_eq_true, decide_eq_true_eq] at h'
      have := hr k
      simp [read] at this
      exact absurd this.symm h'.1.2
  | cons x rest ih =>
    obtain ⟨k, w⟩ := x
    simp only [wfFrom, Bool.and_eq_true, decide_eq_true_eq] at h
    cases m' with
    | nil =>
      have := hr k
      simp [read] at this
      exact absurd this h.1.2
    | cons y rest' =>
      obtain ⟨k', w'⟩ := y
      simp only [wfFrom, Bool.and_eq_true, decide_eq_true_eq] at h'
      have hk : k = k' := by
        rcases Nat.lt_trichotomy k k' with hlt | heq | hgt
        · have := hr k
          simp [read, hlt] at this
          exact absurd this h.1.2
        · exact heq
        · have := hr k'
          simp [read, hgt] at this
          exact absurd this.symm h'.1.2
      subst hk
      have hw : w = w' := by simpa [read] using hr k
      subst hw
      congr 1
      refine ih h.2 h'.2 fun a => ?_
      by_cases ha : a ≤ k
      · rw [read_below h.2 (by omega), read_below h'.2 (by omega)]
      · have := hr a
        simpa [read, show ¬ a < k by omega, show a ≠ k by omega] using this

/-- Equal contents are equal data. -/
theorem ext {m' : Memory α} (h : wf d m = true) (h' : wf d m' = true) (hr : ∀ a, read d m a = read d m' a) : m = m' :=
  ext_from h h' hr

end Sys2Proof.Machine.Memory
end

