-- ==== Sys2Proof/Laws/PerInstr.lean ====
section
/-! SUPPORT. Statements about every command as syntax, one lemma a constructor. -/

namespace Sys2Proof.Laws.EncodedOpcode

/-- The opcode column of R303. -/
def opcodeOf : Instr → Nat
  | .sysNop => 0x00
  | .sysSoftReset => 0x01
  | .sysClearErr => 0x02
  | .sysConfigure => 0x03
  | .rceReset => 0x10
  | .rceBit _ _ => 0x11
  | .rceDirect _ _ => 0x12
  | .rceFlush => 0x13
  | .rcePending => 0x14
  | .rcdInit => 0x18
  | .rcdBit _ => 0x19
  | .rcdDirect _ => 0x1A
  | .rcdIsFinished => 0x1B
  | .probReset => 0x20
  | .probRead _ => 0x21
  | .probWrite _ _ => 0x22
  | .lzSetProps _ => 0x28
  | .lzResetState => 0x29
  | .lzReadState => 0x2A
  | .lzReadRep _ => 0x2B
  | .lzeLit => 0x30
  | .lzeMatch _ _ => 0x31
  | .lzeRep _ _ => 0x32
  | .lzeShortrep => 0x33
  | .lzeEos => 0x34
  | .lzdSymbol _ => 0x38
  | .lzdRun _ => 0x39
  | .winReset => 0x40
  | .winFeed _ => 0x41
  | .winPut _ => 0x42
  | .winGet _ => 0x43
  | .mfReset => 0x48
  | .mfFind => 0x49
  | .mfCand _ => 0x4A
  | .mfSkip _ => 0x4B
  | .l2Encode => 0x50
  | .l2Decode => 0x51
  | .l2EncSegment _ => 0x52
  | .l2EncEnd => 0x53
  | .l2DecChunk => 0x54
  | .lzmaEncode => 0x58
  | .lzmaDecode _ => 0x59

/-- Bits 63:56 of a command's word are its opcode (R300, R303), whatever its operands. -/
def Statement (i : Instr) : Prop := opcodeField (encode i) = opcodeOf i

theorem sysNop : Statement .sysNop := opcodeField_word (by decide) (by decide)

theorem sysSoftReset : Statement .sysSoftReset := opcodeField_word (by decide) (by decide)

theorem sysClearErr : Statement .sysClearErr := opcodeField_word (by decide) (by decide)

theorem sysConfigure : Statement .sysConfigure := opcodeField_word (by decide) (by decide)

theorem rceReset : Statement .rceReset := opcodeField_word (by decide) (by decide)

theorem rceBit (pi : BitVec 24) (b : Bool) : Statement (.rceBit pi b) :=
  opcodeField_word (by decide) (by cases b <;> simp <;> omega)

theorem rceDirect (v : BitVec 32) (n : BitVec 6) : Statement (.rceDirect v n) :=
  opcodeField_word (by decide) (by omega)

theorem rceFlush : Statement .rceFlush := opcodeField_word (by decide) (by decide)

theorem rcePending : Statement .rcePending := opcodeField_word (by decide) (by decide)

theorem rcdInit : Statement .rcdInit := opcodeField_word (by decide) (by decide)

theorem rcdBit (pi : BitVec 24) : Statement (.rcdBit pi) :=
  opcodeField_word (by decide) (by omega)

theorem rcdDirect (n : BitVec 6) : Statement (.rcdDirect n) :=
  opcodeField_word (by decide) (by omega)

theorem rcdIsFinished : Statement .rcdIsFinished := opcodeField_word (by decide) (by decide)

theorem probReset : Statement .probReset := opcodeField_word (by decide) (by decide)

theorem probRead (pi : BitVec 24) : Statement (.probRead pi) :=
  opcodeField_word (by decide) (by omega)

theorem probWrite (pi : BitVec 24) (v : BitVec 12) : Statement (.probWrite pi v) :=
  opcodeField_word (by decide) (by omega)

theorem lzSetProps (x : BitVec 8) : Statement (.lzSetProps x) :=
  opcodeField_word (by decide) (by omega)

theorem lzResetState : Statement .lzResetState := opcodeField_word (by decide) (by decide)

theorem lzReadState : Statement .lzReadState := opcodeField_word (by decide) (by decide)

theorem lzReadRep (i : BitVec 16) : Statement (.lzReadRep i) :=
  opcodeField_word (by decide) (by omega)

theorem lzeLit : Statement .lzeLit := opcodeField_word (by decide) (by decide)

theorem lzeMatch (d : BitVec 32) (l : BitVec 9) : Statement (.lzeMatch d l) :=
  opcodeField_word (by decide) (by omega)

theorem lzeRep (r : BitVec 2) (l : BitVec 9) : Statement (.lzeRep r l) :=
  opcodeField_word (by decide) (by omega)

theorem lzeShortrep : Statement .lzeShortrep := opcodeField_word (by decide) (by decide)

theorem lzeEos : Statement .lzeEos := opcodeField_word (by decide) (by decide)

theorem lzdSymbol (n : BitVec 48) : Statement (.lzdSymbol n) :=
  opcodeField_word (by decide) (by omega)

theorem lzdRun (n : BitVec 48) : Statement (.lzdRun n) :=
  opcodeField_word (by decide) (by omega)

theorem winReset : Statement .winReset := opcodeField_word (by decide) (by decide)

theorem winFeed (n : BitVec 48) : Statement (.winFeed n) :=
  opcodeField_word (by decide) (by omega)

theorem winPut (x : BitVec 8) : Statement (.winPut x) :=
  opcodeField_word (by decide) (by omega)

theorem winGet (d : BitVec 32) : Statement (.winGet d) :=
  opcodeField_word (by decide) (by omega)

theorem mfReset : Statement .mfReset := opcodeField_word (by decide) (by decide)

theorem mfFind : Statement .mfFind := opcodeField_word (by decide) (by decide)

theorem mfCand (i : BitVec 16) : Statement (.mfCand i) :=
  opcodeField_word (by decide) (by omega)

theorem mfSkip (n : BitVec 48) : Statement (.mfSkip n) :=
  opcodeField_word (by decide) (by omega)

theorem l2Encode : Statement .l2Encode := opcodeField_word (by decide) (by decide)

theorem l2Decode : Statement .l2Decode := opcodeField_word (by decide) (by decide)

theorem l2EncSegment (n : BitVec 48) : Statement (.l2EncSegment n) :=
  opcodeField_word (by decide) (by omega)

theorem l2EncEnd : Statement .l2EncEnd := opcodeField_word (by decide) (by decide)

theorem l2DecChunk : Statement .l2DecChunk := opcodeField_word (by decide) (by decide)

theorem lzmaEncode : Statement .lzmaEncode := opcodeField_word (by decide) (by decide)

theorem lzmaDecode (n : BitVec 48) : Statement (.lzmaDecode n) :=
  opcodeField_word (by decide) (by omega)

end Sys2Proof.Laws.EncodedOpcode
end

