-- ==== Sys2Proof/Laws/RangeCoder.lean ====
section
/-! SUPPORT. The arithmetic of the range coder: a shift multiplies the encoder's value by 2^8 (R405), a decision takes a sub-interval
(R406, R407), and what is coded later stays inside the interval (R408). -/

namespace Sys2Proof.Machine

/-! ## Byte strings as numbers -/

theorem bytesValue_foldl (bs : List Byte) (n : Nat) :
    bs.foldl (fun n b => n * 2 ^ 8 + b.toNat) n = n * 2 ^ (8 * bs.length) + bytesValue bs := by
  induction bs generalizing n with
  | nil => simp [bytesValue]
  | cons b bs ih =>
    simp only [List.foldl_cons, bytesValue, List.length_cons]
    rw [ih, ih (0 * 2 ^ 8 + b.toNat)]
    ring

theorem bytesValue_append (a b : List Byte) : bytesValue (a ++ b) = bytesValue a * 2 ^ (8 * b.length) + bytesValue b := by
  rw [bytesValue, List.foldl_append, bytesValue_foldl]
  rfl

@[simp] theorem bytesValue_nil : bytesValue [] = 0 := rfl

theorem bytesValue_cons (b : Byte) (bs : List Byte) :
    bytesValue (b :: bs) = b.toNat * 2 ^ (8 * bs.length) + bytesValue bs := by
  rw [bytesValue, List.foldl_cons, bytesValue_foldl]
  simp

@[simp] theorem bytesValue_singleton (b : Byte) : bytesValue [b] = b.toNat := by simp [bytesValue_cons]

theorem bytesValue_lt (bs : List Byte) : bytesValue bs < 2 ^ (8 * bs.length) := by
  induction bs with
  | nil => simp
  | cons b bs ih =>
    have hb := b.isLt
    have h8 : 2 ^ (8 * (b :: bs).length) = 2 ^ 8 * 2 ^ (8 * bs.length) := by
      rw [List.length_cons, ← Nat.pow_add]
      congr 1
      omega
    rw [bytesValue_cons, h8]
    have := Nat.mul_le_mul_right (2 ^ (8 * bs.length)) (show b.toNat + 1 ≤ 2 ^ 8 by omega)
    nlinarith

theorem bytesValue_replicate_ff (n : Nat) : bytesValue (List.replicate n 0xFF#8) + 1 = 2 ^ (8 * n) := by
  induction n with
  | zero => simp
  | succ n ih =>
    rw [List.replicate_succ, bytesValue_cons, List.length_replicate]
    have h8 : 2 ^ (8 * (n + 1)) = 2 ^ 8 * 2 ^ (8 * n) := by
      rw [← Nat.pow_add]
      congr 1
      omega
    rw [h8, Nat.add_assoc, ih]
    simp
    ring

theorem bytesValue_replicate_zero (n : Nat) : bytesValue (List.replicate n 0#8) = 0 := by
  induction n with
  | zero => rfl
  | succ n ih => simp [List.replicate_succ, bytesValue_cons, ih]

/-! ## ShiftLow (R405) -/

/-- The bytes a shift emits are the cache and its run of 0xFF plus the carry. -/
theorem heldBytes_value {cache : Byte} {n carry : Nat} (hc : carry ≤ 1) (hff : carry = 1 → cache ≠ 0xFF#8) :
    bytesValue (heldBytes cache (n + 1) carry) = bytesValue (cache :: List.replicate n 0xFF#8) + carry := by
  have hlt := cache.isLt
  have hr := bytesValue_replicate_ff n
  rcases Nat.le_one_iff_eq_zero_or_eq_one.mp hc with rfl | rfl
  · simp [heldBytes]
  · have hne : cache.toNat ≠ 255 := fun h => hff rfl (BitVec.eq_of_toNat_eq (by simpa using h))
    have h1 : (BitVec.ofNat 8 (cache.toNat + 1)).toNat = cache.toNat + 1 := by
      rw [BitVec.toNat_ofNat]
      omega
    have h0 : BitVec.ofNat 8 (0xFF + 1) = 0#8 := rfl
    simp only [heldBytes, bytesValue_cons, h0, List.length_replicate, bytesValue_replicate_zero, h1]
    rw [Nat.add_assoc, hr]
    ring

theorem heldBytes_length {cache : Byte} {n carry : Nat} : (heldBytes cache n carry).length = n := by
  cases n <;> simp [heldBytes]

/-- What one `ShiftLow` does (R405), where a carry, if there is one, finds a cache byte that can take it. -/
theorem shiftLow_spec {e : RangeEnc} (hs : 1 ≤ e.cacheSize) (hc : e.cache = 0xFF#8 → e.low.toNat < 2 ^ 32) :
    (shiftLow e).value = e.value * 2 ^ 8 ∧
    (shiftLow e).digits.length = e.digits.length + 1 ∧
    (shiftLow e).low.toNat = e.low.toNat % 2 ^ 24 * 2 ^ 8 ∧
    (shiftLow e).range = e.range ∧ (shiftLow e).flushed = e.flushed ∧
    1 ≤ (shiftLow e).cacheSize ∧
    (∃ more, (shiftLow e).cbuf = e.cbuf ++ more) ∧
    ((shiftLow e).cache = 0xFF#8 →
      e.cache = 0xFF#8 ∧ 0xFF000000 ≤ e.low.toNat ∧ e.low.toNat < 2 ^ 32 ∨ 0x1FF000000 ≤ e.low.toNat) := by
  obtain ⟨n, hn⟩ := Nat.exists_eq_add_of_le' hs
  have hlow := e.low.isLt
  have hmod : (BitVec.ofNat 33 (e.low.toNat % 2 ^ 24 * 2 ^ 8)).toNat = e.low.toNat % 2 ^ 24 * 2 ^ 8 := by
    rw [BitVec.toNat_ofNat]
    omega
  unfold shiftLow
  split
  · rename_i hem
    have hcarry : e.low.toNat / 2 ^ 32 ≤ 1 := by omega
    have hv := heldBytes_value (cache := e.cache) (n := n) hcarry (fun h hff => by have := hc hff; omega)
    have htop : (BitVec.ofNat 8 (e.low.toNat / 2 ^ 24)).toNat = e.low.toNat / 2 ^ 24 % 2 ^ 8 := by
      rw [BitVec.toNat_ofNat]
    refine ⟨?_, ?_, hmod, rfl, rfl, Nat.le_refl 1, ⟨_, rfl⟩, fun hff => ?_⟩
    · simp only [RangeEnc.value, RangeEnc.digits, hmod, Nat.sub_self, List.replicate_zero, bytesValue_append,
        bytesValue_singleton, List.length_singleton, htop]
      rw [hn] at *
      simp only [Nat.add_sub_cancel, heldBytes_length, hv, List.length_cons, List.length_replicate]
      have h1 : e.low.toNat = e.low.toNat / 2 ^ 32 * 2 ^ 32 + e.low.toNat / 2 ^ 24 % 2 ^ 8 * 2 ^ 24 + e.low.toNat % 2 ^ 24 := by omega
      generalize bytesValue e.cbuf * 2 ^ (8 * (n + 1)) = A
      generalize bytesValue (e.cache :: List.replicate n 0xFF#8) = B
      omega
    · simp only [RangeEnc.digits, List.length_append, heldBytes_length, List.length_cons, List.length_replicate]
      omega
    · have hff' : BitVec.ofNat 8 (e.low.toNat / 2 ^ 24) = 0xFF#8 := hff
      have : e.low.toNat / 2 ^ 24 % 2 ^ 8 = 255 := by rw [← htop, hff']; rfl
      omega
  · rename_i hem
    push Not at hem
    have hr : List.replicate (n + 1) 0xFF#8 = List.replicate n 0xFF#8 ++ [0xFF#8] := by
      rw [List.replicate_succ']
    refine ⟨?_, ?_, hmod, rfl, rfl, by simp, ⟨[], by simp⟩, fun hff => .inl ⟨hff, by omega, by omega⟩⟩
    · simp only [RangeEnc.value, RangeEnc.digits, hmod]
      rw [hn]
      simp only [Nat.add_sub_cancel, hr]
      rw [← List.cons_append, ← List.append_assoc, bytesValue_append _ [0xFF#8]]
      simp only [bytesValue_singleton, List.length_singleton]
      have : (0xFF#8).toNat = 255 := rfl
      rw [this]
      generalize bytesValue (e.cbuf ++ e.cache :: List.replicate n 0xFF#8) = A
      omega
    · simp only [RangeEnc.digits, List.length_append, List.length_cons, List.length_replicate]
      omega

/-! ## Normalisation and the interval steps (R404, R406, R407) -/

/-- What an interval step leaves before it normalises: `Ok` but for the lower bound of the range. -/
abbrev RangeEnc.Split (e : RangeEnc) : Prop :=
  1 ≤ e.range.toNat ∧ e.low.toNat + e.range.toNat < 2 ^ 33 ∧ 1 ≤ e.cacheSize ∧
    (e.cache = 0xFF#8 → e.low.toNat + e.range.toNat ≤ 2 ^ 32)

/-- The loop of `EncNorm` with turns enough: it takes the whole interval. -/
theorem encNormLoop_takes {n : Nat} {e : RangeEnc} (h : e.Split) (hn : 2 ^ 24 ≤ e.range.toNat * 2 ^ (8 * n)) :
    e.Takes (encNormLoop n e) 0 e.range.toNat := by
  induction n generalizing e with
  | zero =>
    obtain ⟨h1, h2, h3, h4⟩ := h
    simp only [Nat.mul_zero, Nat.pow_zero, Nat.mul_one] at hn
    exact ⟨0, ⟨by simpa using hn, .inl rfl⟩, by simp [encNormLoop], by simp [encNormLoop], rfl, ⟨[], by simp [encNormLoop]⟩,
      rfl, hn, h2, h3, h4⟩
  | succ n ih =>
    obtain ⟨h1, h2, h3, h4⟩ := h
    simp only [encNormLoop]
    split
    · rename_i hr
      have hr8 : (BitVec.ofNat 32 (e.range.toNat * 2 ^ 8)).toNat = e.range.toNat * 2 ^ 8 := by
        rw [BitVec.toNat_ofNat]
        omega
      obtain ⟨s1, s2, s3, s4, s5, s6, ⟨more, s7⟩, s8⟩ :=
        shiftLow_spec (e := { e with range := BitVec.ofNat 32 (e.range.toNat * 2 ^ 8) }) h3 (fun hff => by
          have := h4 hff
          simp only
          omega)
      generalize hm : shiftLow { e with range := BitVec.ofNat 32 (e.range.toNat * 2 ^ 8) } = m at *
      have hmr : m.range.toNat = e.range.toNat * 2 ^ 8 := by rw [s4, hr8]
      simp only at s3 s7 s8
      have hsplit : m.Split := by
        refine ⟨by omega, by rw [s3, hmr]; omega, s6, fun hff => ?_⟩
        rw [s3, hmr]
        rcases s8 hff with ⟨hc, hlo, hhi⟩ | hhi
        · have := h4 hc
          omega
        · omega
      have hpow : e.range.toNat * 2 ^ (8 * (n + 1)) = m.range.toNat * 2 ^ (8 * n) := by
        rw [hmr, Nat.mul_assoc, ← Nat.pow_add]
        congr 2
        omega
      obtain ⟨k, ⟨k1, k2⟩, r1, r2, r3, ⟨more', r4⟩, r5, r6⟩ := ih hsplit (by rw [← hpow]; exact hn)
      have hpk : ∀ j, m.range.toNat * 2 ^ (8 * j) = e.range.toNat * 2 ^ (8 * (j + 1)) := fun j => by
        rw [hmr, Nat.mul_assoc, ← Nat.pow_add]
        congr 2
        omega
      refine ⟨k + 1, ⟨by rw [← hpk]; exact k1, .inr ?_⟩, by rw [r1, hpk], ?_, by rw [r3, s2]; simp [RangeEnc.digits]; omega,
        ⟨more ++ more', by rw [r4, s7, List.append_assoc]⟩, by rw [r5, s5], r6⟩
      · rcases k2 with rfl | k2
        · simpa using hr
        · rcases Nat.eq_zero_or_pos k with rfl | hk
          · simpa using hr
          · rw [Nat.add_sub_cancel, show k = (k - 1) + 1 by omega, ← hpk]
            exact k2
      · have hv : e.value = ({ e with range := BitVec.ofNat 32 (e.range.toNat * 2 ^ 8) } : RangeEnc).value := rfl
        rw [r2, s1, ← hv, show 8 * (k + 1) = 8 + 8 * k by omega, Nat.pow_add]
        ring
    · rename_i hr
      exact ⟨0, ⟨by simp; omega, .inl rfl⟩, by simp, by simp, rfl, ⟨[], by simp⟩, rfl, by omega, h2, h3, h4⟩

/-- `EncNorm` on a non-empty interval (R404). -/
theorem encNorm_takes {e : RangeEnc} (h : e.Split) : e.Takes (encNorm e) 0 e.range.toNat :=
  encNormLoop_takes h (by have := h.1; omega)

/-- Taking a sub-interval and normalising. -/
theorem takes_of_encNorm {e m : RangeEnc} {add : Nat} (hm : m.Split) (hlow : m.low.toNat = e.low.toNat + add)
    (hcbuf : m.cbuf = e.cbuf) (hcache : m.cache = e.cache) (hsize : m.cacheSize = e.cacheSize)
    (hfl : m.flushed = e.flushed) : e.Takes (encNorm m) add m.range.toNat := by
  obtain ⟨k, h1, h2, h3, h4, h5, h6, h7⟩ := encNorm_takes hm
  have hd : m.digits = e.digits := by simp [RangeEnc.digits, hcbuf, hcache, hsize]
  refine ⟨k, h1, h2, ?_, by rw [h4, hd], by rw [← hcbuf]; exact h5, by rw [h6, hfl], h7⟩
  rw [h3, Nat.add_zero, RangeEnc.value, RangeEnc.value, hd, hlow, Nat.add_assoc]

/-- The split point lies strictly inside the range (R402). -/
theorem splitPoint_bounds {r : BitVec 32} {p : BitVec 11} (hr : 2 ^ 24 ≤ r.toNat) (hp : 1 ≤ p.toNat) :
    2 ^ 13 ≤ splitPoint r p ∧ splitPoint r p < r.toNat := by
  have hlt := p.isLt
  simp only [splitPoint]
  have h1 : 2 ^ 13 ≤ r.toNat / 2 ^ 11 := by omega
  have h2 : r.toNat / 2 ^ 11 * p.toNat ≤ r.toNat / 2 ^ 11 * 2047 := Nat.mul_le_mul_left _ (by omega)
  have h3 : r.toNat / 2 ^ 11 * 1 ≤ r.toNat / 2 ^ 11 * p.toNat := Nat.mul_le_mul_left _ hp
  omega

/-- The interval step of a decision with split point `bnd` (R406). -/
theorem encSplit_takes {e : RangeEnc} {bnd : Nat} {b : Bool} (h : e.Ok) (h1 : 1 ≤ bnd) (h2 : bnd < e.range.toNat) :
    e.Takes (encNorm (encSplit bnd b e)) (if b then bnd else 0) (if b then e.range.toNat - bnd else bnd) := by
  obtain ⟨o1, o2, o3, o4⟩ := h
  have hr := e.range.isLt
  have hl := e.low.isLt
  cases b
  · have hm : (encSplit bnd false e).range.toNat = bnd := by
      simp only [encSplit, Bool.false_eq_true, if_false, BitVec.toNat_ofNat]
      omega
    have := takes_of_encNorm (e := e) (m := encSplit bnd false e) (add := 0)
      ⟨by omega, by rw [hm]; simp only [encSplit]; simp; omega, o3, fun hff => by
        have := o4 hff
        rw [hm]
        simp only [encSplit]
        simp
        omega⟩ rfl rfl rfl rfl rfl
    simpa [hm] using this
  · have hm : (encSplit bnd true e).range.toNat = e.range.toNat - bnd := by
      simp only [encSplit, if_true, BitVec.toNat_ofNat]
      omega
    have hlow : (encSplit bnd true e).low.toNat = e.low.toNat + bnd := by
      simp only [encSplit, if_true, BitVec.toNat_ofNat]
      omega
    have := takes_of_encNorm (e := e) (m := encSplit bnd true e) (add := bnd)
      ⟨by omega, by omega, o3, fun hff => by
        have := o4 hff
        omega⟩ hlow rfl rfl rfl rfl
    simpa [hm] using this

/-- A direct bit (R407). -/
theorem encDirectBit_takes {e : RangeEnc} {b : Bool} (h : e.Ok) :
    e.Takes (encDirectBit b e) (if b then e.range.toNat / 2 else 0) (e.range.toNat / 2) := by
  obtain ⟨o1, o2, o3, o4⟩ := h
  have hr := e.range.isLt
  have hl := e.low.isLt
  have hm : (BitVec.ofNat 32 (e.range.toNat / 2)).toNat = e.range.toNat / 2 := by
    rw [BitVec.toNat_ofNat]
    omega
  simp only [encDirectBit]
  have hlow : (if b = true then BitVec.ofNat 33 (e.low.toNat + e.range.toNat / 2) else e.low).toNat =
      e.low.toNat + (if b then e.range.toNat / 2 else 0) := by
    cases b
    · simp
    · simp only [if_true, BitVec.toNat_ofNat]
      omega
  have := takes_of_encNorm (e := e)
    (m := { e with
      range := BitVec.ofNat 32 (e.range.toNat / 2)
      low := if b = true then BitVec.ofNat 33 (e.low.toNat + e.range.toNat / 2) else e.low })
    (add := if b then e.range.toNat / 2 else 0)
    ⟨by simp only [hm]; omega, by simp only [hm, hlow]; split <;> omega, o3, fun hff => by
      have := o4 hff
      simp only [hm, hlow]
      split <;> omega⟩ hlow rfl rfl rfl rfl
  simpa [hm] using this

/-! ## The flush (R408, R411) -/

/-- The flush writes the encoder's value (R408): as many bytes as the pending size says (R411). -/
theorem encFlush_spec {e : RangeEnc} (h : e.Ok) :
    bytesValue (encFlush e).cbuf = e.value ∧ (encFlush e).cbuf.length = pendingSize e ∧
    (encFlush e).range = e.range ∧ (encFlush e).flushed = e.flushed ∧
    (encFlush e).low = 0#33 ∧ (encFlush e).cache = 0#8 ∧ (encFlush e).cacheSize = 1 ∧
    (∃ more, (encFlush e).cbuf = e.cbuf ++ more) := by
  obtain ⟨o1, o2, o3, o4⟩ := h
  obtain ⟨a1, a2, a3, a4, a5, a6, ⟨am, a7⟩, -⟩ := shiftLow_spec o3 (fun hff => by have := o4 hff; omega)
  obtain ⟨b1, b2, b3, b4, b5, b6, ⟨bm, b7⟩, -⟩ := shiftLow_spec a6 (fun _ => by rw [a3]; omega)
  obtain ⟨c1, c2, c3, c4, c5, c6, ⟨cm, c7⟩, -⟩ := shiftLow_spec b6 (fun _ => by rw [b3]; omega)
  obtain ⟨d1, d2, d3, d4, d5, d6, ⟨dm, d7⟩, -⟩ := shiftLow_spec c6 (fun _ => by rw [c3]; omega)
  obtain ⟨e1, e2, e3, e4, e5, e6, ⟨em, e7⟩, -⟩ := shiftLow_spec d6 (fun _ => by rw [d3]; omega)
  generalize hfour : shiftLow (shiftLow (shiftLow (shiftLow e))) = f at *
  have hz : f.low.toNat = 0 := by omega
  have hl : f.low = 0#33 := BitVec.eq_of_toNat_eq (by simpa using hz)
  have hlast : shiftLow f = { f with
      cbuf := f.cbuf ++ heldBytes f.cache f.cacheSize 0, cacheSize := 1, cache := 0#8, low := 0#33 } := by
    simp [shiftLow, hl]
  have hflush : encFlush e = shiftLow f := by rw [encFlush, hfour]
  have hv : (shiftLow f).value = e.value * 2 ^ 40 := by rw [e1, d1, c1, b1, a1]; ring
  have hn : (shiftLow f).digits.length = e.digits.length + 5 := by omega
  have hdig : (shiftLow f).digits = (shiftLow f).cbuf ++ [0#8] := by rw [hlast]; simp [RangeEnc.digits]
  rw [hflush]
  refine ⟨?_, ?_, by rw [e4, d4, c4, b4, a4], by rw [e5, d5, c5, b5, a5], by rw [hlast], by rw [hlast], by rw [hlast],
    ⟨am ++ bm ++ cm ++ dm ++ em, by rw [e7, d7, c7, b7, a7]; simp⟩⟩
  · have : (shiftLow f).value = bytesValue (shiftLow f).cbuf * 2 ^ 40 := by
      rw [RangeEnc.value, hdig, bytesValue_append, hlast]
      simp
      ring
    omega
  · rw [hdig] at hn
    simp [RangeEnc.digits] at hn
    simp [pendingSize]
    omega

/-! ## Payloads (R405, R408) -/

/-- The flush's bytes continue the encoder's. -/
theorem reaches_flush {e : RangeEnc} (h : e.Ok) : e.Reaches (encFlush e).cbuf := by
  obtain ⟨h1, h2, -⟩ := encFlush_spec h
  have := h.1
  refine ⟨0, ?_, by simp [h1], by simp [h1]; omega⟩
  have := h.2.2.1
  simp [h2, pendingSize, RangeEnc.digits]
  omega

/-- What continues the encoder after it has taken a sub-interval continues it before (R405). -/
theorem reaches_of_takes {e e' : RangeEnc} {add r : Nat} {p : List Byte} (h : e.Takes e' add r)
    (hr : add + r ≤ e.range.toNat) (hp : e'.Reaches p) : e.Reaches p := by
  obtain ⟨k, -, h2, h3, h4, -⟩ := h
  obtain ⟨j, p1, p2, p3⟩ := hp
  have hpow : 2 ^ (8 * (k + j)) = 2 ^ (8 * k) * 2 ^ (8 * j) := by
    rw [← Nat.pow_add]
    congr 1
    omega
  refine ⟨k + j, by omega, ?_, ?_⟩
  · rw [hpow]
    calc e.value * (2 ^ (8 * k) * 2 ^ (8 * j)) ≤ (e.value + add) * 2 ^ (8 * k) * 2 ^ (8 * j) := by
          rw [← Nat.mul_assoc]
          exact Nat.mul_le_mul_right _ (Nat.mul_le_mul_right _ (by omega))
      _ ≤ bytesValue p := by rw [← h3]; exact p2
  · rw [hpow]
    calc bytesValue p < (e'.value + e'.range.toNat) * 2 ^ (8 * j) := p3
      _ = (e.value + add + r) * 2 ^ (8 * k) * 2 ^ (8 * j) := by rw [h3, h2]; ring
      _ ≤ (e.value + e.range.toNat) * (2 ^ (8 * k) * 2 ^ (8 * j)) := by
          rw [← Nat.mul_assoc]
          exact Nat.mul_le_mul_right _ (Nat.mul_le_mul_right _ (by omega))

/-! ## The decoder (R422–R424) -/

/-- A range has exactly one number of bytes that normalises it. -/
theorem normalises_unique {r j k : Nat} (hj : Normalises r j) (hk : Normalises r k) : j = k := by
  have key : ∀ {a b : Nat}, Normalises r a → Normalises r b → ¬ a < b := by
    intro a b ha hb hab
    rcases hb.2 with h | h
    · omega
    · have : r * 2 ^ (8 * a) ≤ r * 2 ^ (8 * (b - 1)) := Nat.mul_le_mul_left _ (Nat.pow_le_pow_right (by omega) (by omega))
      have := ha.1
      omega
  have h1 := key hj hk
  have h2 := key hk hj
  omega

/-- Every non-empty range is normalised by at most three bytes. -/
theorem normalises_exists {r : Nat} (h : 1 ≤ r) : ∃ k, k ≤ 3 ∧ Normalises r k := by
  by_cases h0 : 2 ^ 24 ≤ r
  · exact ⟨0, by omega, by simp; omega, .inl rfl⟩
  · by_cases h1 : 2 ^ 16 ≤ r
    · exact ⟨1, by omega, by simp; omega, .inr (by simp; omega)⟩
    · by_cases h2 : 2 ^ 8 ≤ r
      · exact ⟨2, by omega, by simp; omega, .inr (by simp; omega)⟩
      · exact ⟨3, by omega, by simp; omega, .inr (by simp; omega)⟩

/-- `DecNorm` (R424) takes exactly the bytes that normalise the range, where the source has them. -/
theorem decNormOn_some {d : RangeDec} {src : List Byte} {k : Nat} (hr : 1 ≤ d.range.toNat)
    (hk : Normalises d.range.toNat k) (hlen : k ≤ src.length) :
    ∃ d', decNormOn d src = some (d', src.drop k) ∧ d.Takes d' d.range.toNat d.code.toNat k src := by
  induction src generalizing d k with
  | nil =>
    have : k = 0 := by simpa using hlen
    subst this
    have h24 : 2 ^ 24 ≤ d.range.toNat := by simpa using hk.1
    refine ⟨d, ?_, ?_⟩
    · rw [decNormOn, if_neg (by omega)]
      rfl
    · simp [RangeDec.Takes]
  | cons b rest ih =>
    by_cases hlt : d.range.toNat < 2 ^ 24
    · obtain ⟨j, rfl⟩ : ∃ j, k = j + 1 := by
        rcases k with _ | j
        · have := hk.1
          simp at this
          omega
        · exact ⟨j, rfl⟩
      have hr8 : (decShift d b).range.toNat = d.range.toNat * 2 ^ 8 := by
        simp only [decShift, BitVec.toNat_ofNat]
        omega
      have hpk : ∀ i, (decShift d b).range.toNat * 2 ^ (8 * i) = d.range.toNat * 2 ^ (8 * (i + 1)) := fun i => by
        rw [hr8, Nat.mul_assoc, ← Nat.pow_add]
        congr 2
        omega
      have hnj : Normalises (decShift d b).range.toNat j := by
        refine ⟨by rw [hpk]; exact hk.1, ?_⟩
        rcases Nat.eq_zero_or_pos j with rfl | hj
        · exact .inl rfl
        · right
          rw [hpk, show j - 1 + 1 = j by omega]
          rcases hk.2 with h | h
          · omega
          · simpa using h
      obtain ⟨d', h1, h2⟩ := ih (by omega) hnj (by simpa using hlen)
      refine ⟨d', by rw [decNormOn, if_pos hlt, h1, List.drop_succ_cons], ?_⟩
      rw [RangeDec.Takes] at h2 ⊢
      rw [h2, hpk]
      simp only [decShift, List.take_succ_cons, bytesValue_cons, List.length_take, BitVec.toNat_ofNat]
      have hmin : min j rest.length = j := by simp at hlen; omega
      rw [hmin]
      congr 1
      apply BitVec.eq_of_toNat_eq
      simp only [BitVec.toNat_ofNat]
      have hp : 2 ^ (8 * (j + 1)) = 2 ^ 8 * 2 ^ (8 * j) := by
        rw [← Nat.pow_add]
        congr 1
        omega
      have he : d.code.toNat * 2 ^ (8 * (j + 1)) + (b.toNat * 2 ^ (8 * j) + bytesValue (rest.take j)) =
          (d.code.toNat * 2 ^ 8 + b.toNat) * 2 ^ (8 * j) + bytesValue (rest.take j) := by
        rw [hp]
        ring
      rw [he, Nat.add_mod, Nat.mod_mul_mod, ← Nat.add_mod]
    · have : k = 0 := by
        rcases hk.2 with h | h
        · exact h
        · have : d.range.toNat * 1 ≤ d.range.toNat * 2 ^ (8 * (k - 1)) := Nat.mul_le_mul_left _ Nat.one_le_two_pow
          omega
      subst this
      exact ⟨d, by rw [decNormOn, if_neg hlt, List.drop_zero], by simp [RangeDec.Takes]⟩

/-- `DecNorm` runs dry where the source has too few bytes. -/
theorem decNormOn_none {d : RangeDec} {src : List Byte} {k : Nat} (hr : 1 ≤ d.range.toNat)
    (hk : Normalises d.range.toNat k) (hlen : src.length < k) : decNormOn d src = none := by
  induction src generalizing d k with
  | nil =>
    have : d.range.toNat < 2 ^ 24 := by
      rcases hk.2 with h | h
      · simp [h] at hlen
      · have : d.range.toNat * 1 ≤ d.range.toNat * 2 ^ (8 * (k - 1)) := Nat.mul_le_mul_left _ Nat.one_le_two_pow
        omega
    rw [decNormOn, if_pos this]
  | cons b rest ih =>
    have hlt : d.range.toNat < 2 ^ 24 := by
      rcases hk.2 with h | h
      · simp [h] at hlen
      · have : d.range.toNat * 1 ≤ d.range.toNat * 2 ^ (8 * (k - 1)) := Nat.mul_le_mul_left _ Nat.one_le_two_pow
        omega
    obtain ⟨j, rfl⟩ : ∃ j, k = j + 1 := ⟨k - 1, by simp at hlen; omega⟩
    have hr8 : (decShift d b).range.toNat = d.range.toNat * 2 ^ 8 := by
      simp only [decShift, BitVec.toNat_ofNat]
      omega
    have hpk : ∀ i, (decShift d b).range.toNat * 2 ^ (8 * i) = d.range.toNat * 2 ^ (8 * (i + 1)) := fun i => by
      rw [hr8, Nat.mul_assoc, ← Nat.pow_add]
      congr 2
      omega
    have hnj : Normalises (decShift d b).range.toNat j := by
      refine ⟨by rw [hpk]; exact hk.1, ?_⟩
      rcases Nat.eq_zero_or_pos j with rfl | hj
      · exact .inl rfl
      · right
        rw [hpk, show j - 1 + 1 = j by omega]
        rcases hk.2 with h | h
        · omega
        · simpa using h
    simp only [decNormOn, hlt, if_true]
    exact ih (by omega) hnj (by simpa using hlen)

end Sys2Proof.Machine
end

