-- ==== Sys2Proof/Tests/Slice0.lean ====
section
/-! SUPPORT. Tests of the model. Expected values are those of spec/95 (its vector or program is named) or are worked out by hand from
the rule named; the last part shows, for each statement with hypotheses, a state that meets them. -/

namespace Sys2Proof.Tests

-- The tests are checked one after another: each theorem waiting in a thread of its own takes more memory than the check allows.
set_option Elab.async false

open Sys2Proof.Machine

/-! ## Helpers -/

/-- The state a command leaves, and `none` where it does not answer one. -/
def after (i : Instr) (s : State) : Option State :=
  match exec i s with
  | .next t => some t
  | _ => none

/-- A configuration with one thread, dictionary 8 MiB, nice_len 64 (the reset CFG values but for lc, lp, pb). -/
def act (lc lp pb : Nat) : Act where
  dictSize := 0x00800000#32
  lc := BitVec.ofNat 4 lc
  lp := BitVec.ofNat 4 lp
  pb := BitVec.ofNat 3 pb
  mode := true
  mf := true
  eos := false
  niceLen := 64#9
  depth := 0#32
  threadCount := 1#32
  span := 0#48
  outCap := 0xFFFFFFFFFFFFFFFF#64

/-- The block configured with `a`, one command in CQ. -/
def conf (a : Act) : State :=
  { State.reset with
    cq := [0x0000000000000000#64]
    act := some a
    lane0 := laneInit (some a)
    workers := [laneInit (some a), laneInit (some a), laneInit (some a)] }

/-- The block configured as in spec/95: lc/lp/pb 3/0/2. -/
def s0 : State := conf (act 3 0 2)

/-- `s0` with lane 0 replaced. -/
def lane (f : Lane → Lane) : State := { s0 with lane0 := f s0.lane0 }

/-- `s0` with bytes in IN, and IN_EOF. -/
def input (bs : List Byte) (eof : Bool) : State := { s0 with inp := bs, inEof := eof }

/-- Lane 0 with the bytes `bs` in its window and the coding position at `cur`. -/
def window (bs : List Byte) (cur : Nat) (l : Lane) : Lane := { l with win := { l.win with bytes := bs, cur := cur } }

/-- Lane 0 decoding: `code` taken in, range full (the state RCD.INIT leaves, R421). -/
def decoding (code : BitVec 32) (l : Lane) : Lane :=
  { l with rcd := { range := 0xFFFFFFFF#32, code := code, inited := true, initBad := false } }

/-- Cells of lane 0 as numbers. -/
def cells (is : List Nat) (s : State) : List Nat := is.map fun i => (s.lane0.cell i).toNat

/-! ## WellFormed refuses each operand range of R303 -/

theorem test_wf_direct_none : Instr.wf (.rceDirect 0#32 0#6) = false := by decide
theorem test_wf_direct_many : Instr.wf (.rceDirect 0#32 33#6) = false := by decide
theorem test_wf_direct_value : Instr.wf (.rceDirect 4#32 2#6) = false := by decide
theorem test_wf_decode_direct_none : Instr.wf (.rcdDirect 0#6) = false := by decide
theorem test_wf_decode_direct_many : Instr.wf (.rcdDirect 33#6) = false := by decide
theorem test_wf_cell_zero : Instr.wf (.probWrite 0#24 0#12) = false := by decide
theorem test_wf_cell_large : Instr.wf (.probWrite 0#24 2048#12) = false := by decide
theorem test_wf_props : Instr.wf (.lzSetProps 225#8) = false := by decide
theorem test_wf_rep_index : Instr.wf (.lzReadRep 4#16) = false := by decide
theorem test_wf_match_distance : Instr.wf (.lzeMatch 0#32 2#9) = false := by decide
theorem test_wf_match_short : Instr.wf (.lzeMatch 1#32 1#9) = false := by decide
theorem test_wf_match_long : Instr.wf (.lzeMatch 1#32 274#9) = false := by decide
theorem test_wf_rep_short : Instr.wf (.lzeRep 0#2 1#9) = false := by decide
theorem test_wf_rep_long : Instr.wf (.lzeRep 0#2 274#9) = false := by decide
theorem test_wf_segment_empty : Instr.wf (.l2EncSegment 0#48) = false := by decide
theorem test_wf_bounds :
    Instr.wf (.rceDirect 0xFFFFFFFF#32 32#6) = true ∧ Instr.wf (.rceDirect 1#32 1#6) = true ∧ Instr.wf (.rcdDirect 32#6) = true ∧
    Instr.wf (.probWrite 0#24 2047#12) = true ∧ Instr.wf (.lzSetProps 224#8) = true ∧ Instr.wf (.lzReadRep 3#16) = true ∧
    Instr.wf (.lzeMatch 1#32 273#9) = true ∧ Instr.wf (.lzeRep 3#2 2#9) = true ∧ Instr.wf (.l2EncSegment 1#48) = true := by decide

/-! ## Decoding: words written out from R302 and R303 -/

theorem test_decode_sys :
    decode 0x0000000000000000#64 = .ok .sysNop ∧ decode 0x0100000000000000#64 = .ok .sysSoftReset ∧
    decode 0x0200000000000000#64 = .ok .sysClearErr ∧ decode 0x0300000000000000#64 = .ok .sysConfigure := by decide

theorem test_decode_rce :
    decode 0x1000000000000000#64 = .ok .rceReset ∧ decode 0x1100000001ABCDEF#64 = .ok (.rceBit 0xABCDEF#24 true) ∧
    decode 0x1100000000000002#64 = .ok (.rceBit 2#24 false) ∧
    decode 0x120000203456789A#64 = .ok (.rceDirect 0x3456789A#32 32#6) ∧
    decode 0x1300000000000000#64 = .ok .rceFlush ∧ decode 0x1400000000000000#64 = .ok .rcePending := by decide

theorem test_decode_rcd :
    decode 0x1800000000000000#64 = .ok .rcdInit ∧ decode 0x1900000000FFFFFF#64 = .ok (.rcdBit 0xFFFFFF#24) ∧
    decode 0x1A00003F00000000#64 = .ok (.rcdDirect 63#6) ∧ decode 0x1B00000000000000#64 = .ok .rcdIsFinished := by decide

theorem test_decode_prob :
    decode 0x2000000000000000#64 = .ok .probReset ∧ decode 0x2100000000001F35#64 = .ok (.probRead 7989#24) ∧
    decode 0x22000007D0000001#64 = .ok (.probWrite 1#24 2000#12) := by decide

theorem test_decode_lz :
    decode 0x280000000000005D#64 = .ok (.lzSetProps 0x5D#8) ∧ decode 0x2900000000000000#64 = .ok .lzResetState ∧
    decode 0x2A00000000000000#64 = .ok .lzReadState ∧ decode 0x2B00000000000003#64 = .ok (.lzReadRep 3#16) := by decide

theorem test_decode_lze :
    decode 0x3000000000000000#64 = .ok .lzeLit ∧ decode 0x3100011180000001#64 = .ok (.lzeMatch 0x80000001#32 273#9) ∧
    decode 0x3200000200000003#64 = .ok (.lzeRep 3#2 2#9) ∧ decode 0x3300000000000000#64 = .ok .lzeShortrep ∧
    decode 0x3400000000000000#64 = .ok .lzeEos := by decide

theorem test_decode_lzd :
    decode 0x3800000000000000#64 = .ok (.lzdSymbol 0#48) ∧
    decode 0x3900FFFFFFFFFFFF#64 = .ok (.lzdRun 0xFFFFFFFFFFFF#48) := by decide

theorem test_decode_win :
    decode 0x4000000000000000#64 = .ok .winReset ∧ decode 0x4100800000000001#64 = .ok (.winFeed 0x800000000001#48) ∧
    decode 0x4200000000000041#64 = .ok (.winPut 0x41#8) ∧ decode 0x4300000080000001#64 = .ok (.winGet 0x80000001#32) := by decide

theorem test_decode_mf :
    decode 0x4800000000000000#64 = .ok .mfReset ∧ decode 0x4900000000000000#64 = .ok .mfFind ∧
    decode 0x4A00000000000001#64 = .ok (.mfCand 1#16) ∧ decode 0x4B00000000000100#64 = .ok (.mfSkip 256#48) := by decide

theorem test_decode_l2 :
    decode 0x5000000000000000#64 = .ok .l2Encode ∧ decode 0x5100000000000000#64 = .ok .l2Decode ∧
    decode 0x5200000000000002#64 = .ok (.l2EncSegment 2#48) ∧ decode 0x5300000000000000#64 = .ok .l2EncEnd ∧
    decode 0x5400000000000000#64 = .ok .l2DecChunk := by decide

theorem test_decode_lzma :
    decode 0x5800000000000000#64 = .ok .lzmaEncode ∧
    decode 0x5900FFFFFFFFFFFF#64 = .ok (.lzmaDecode 0xFFFFFFFFFFFF#48) := by decide

/-- X-1, X-2, and one reserved bit of each other format (R302, R304). -/
theorem test_decode_rejects :
    decode 0x0400000000000000#64 = .error .undefinedOpcode ∧ decode 0x0000000000000001#64 = .error .reservedBits ∧
    decode 0x1100000002000000#64 = .error .reservedBits ∧ decode 0x1200004000000000#64 = .error .reservedBits ∧
    decode 0x1900000001000000#64 = .error .reservedBits ∧ decode 0x1A00000000000001#64 = .error .reservedBits ∧
    decode 0x2200001000000000#64 = .error .reservedBits ∧ decode 0x2800000000000100#64 = .error .reservedBits ∧
    decode 0x2B00000000010000#64 = .error .reservedBits ∧ decode 0x3100020000000000#64 = .error .reservedBits ∧
    decode 0x3200000000000004#64 = .error .reservedBits ∧ decode 0x3801000000000000#64 = .error .reservedBits ∧
    decode 0x4300000100000000#64 = .error .reservedBits ∧ decode 0xFF00000000000000#64 = .error .undefinedOpcode := by decide

theorem test_decode_table_word : decodeTableWord 64 0x3900000000000004 = some (.lzdRun 4#48) := by decide

/-! ## One step of each command -/

/-- R1041: the command leaves CQ and nothing else of the block changes but RESULT. -/
theorem test_sysNop : (after .sysNop { s0 with result := 5#64 }).map (fun t => (t.cq, t.result)) = some ([], 0#64) := by
  decide +kernel

/-- R1042: a soft reset keeps IN and its counter, and leaves the block unconfigured. -/
theorem test_sysSoftReset :
    (after .sysSoftReset { s0 with inp := [7#8], inCount := 3#64, inEof := true }).map
      (fun t => (t.inp, t.inCount, t.inEof, t.act.isSome)) = some ([7#8], 3#64, false, false) := by decide +kernel

/-- X-11. -/
theorem test_sysClearErr :
    (after .sysClearErr { s0 with err := true, errCode := 0x106#32, errInfo := 1#64, result := 9#64 }).map
      (fun t => (t.err, t.errCode, t.errInfo, t.result)) = some (false, 0#32, 0#64, 0#64) := by decide +kernel

/-- P1: STATUS after CONFIGURE is CONFIGURED; LZD-8: the state word is 0x20300. -/
theorem test_sysConfigure :
    (after .sysConfigure { State.reset with cq := [0x0300000000000000#64] }).map
      (fun t => (t.status, stateWord t.lane0.lz)) = some (0x04#32, 0x20300) := by decide +kernel

/-- X-5. -/
theorem test_sysConfigure_dict :
    (after .sysConfigure { s0 with cfg := { s0.cfg with dictSize := 4095#32 } }).map
      (fun t => (t.errCode, t.errInfo, t.act.isSome)) = some (0x101#32, 4095#64, false) := by decide +kernel

/-- R410. -/
theorem test_rceReset :
    (after .rceReset (lane fun l => { l with rce := { l.rce with low := 5#33, flushed := true, cbuf := [1#8] } })).map
      (fun t => (t.lane0.rce.low, t.lane0.rce.flushed, t.lane0.rce.cbuf)) = some (0#33, false, []) := by decide +kernel

/-- RC-3. -/
theorem test_rceBit :
    (after (.rceBit 0#24 true) s0).map (fun t => (t.lane0.rce.low, t.lane0.rce.range, cells [0] t)) =
      some (0x7FFFFC00#33, 0x800003FF#32, [992]) := by decide +kernel

/-- RC-7, step 2: the cache byte is written and the next one cached. -/
theorem test_rceBit_shift :
    (after (.rceBit 3#24 false) (lane fun l => { l.setCell 3 31#11 with
      rce := { l.rce with low := 0xF9FFF830#33, range := 0x060007CF#32 } })).map
      (fun t => (t.lane0.rce.low, t.lane0.rce.range, t.lane0.rce.cache, t.lane0.rce.cbuf)) =
      some (0xFFF83000#33, 0x17400000#32, 0xF9#8, [0#8]) := by decide +kernel

/-- RC-4. -/
theorem test_rceDirect :
    (after (.rceDirect 0xABCD#32 16#6) s0).map
      (fun t => (t.lane0.rce.low, t.lane0.rce.range, t.lane0.rce.cache, t.lane0.rce.cbuf)) =
      some (0xFFFA3300#33, 0xFFFFFF00#32, 0xCC#8, [0#8, 0xAB#8]) := by decide +kernel

/-- X-3. -/
theorem test_rceDirect_none :
    (after (.rceDirect 0#32 0#6) s0).map (fun t => (t.errCode, t.errInfo)) =
      some (0x306#32, 0x1200000000000000#64) := by decide +kernel

/-- RC-7: the flush after step 4, with a carry pending. -/
theorem test_rceFlush :
    (after .rceFlush (lane fun l => { l with
      rce := { range := 0xAE8E8000#32, low := 0x103A18000#33, cache := 0xF9#8, cacheSize := 2, flushed := false,
               cbuf := [0#8] } })).map
      (fun t => (t.out, t.result)) = some ([0#8, 0xFA#8, 0#8, 3#8, 0xA1#8, 0x80#8, 0#8], 7#64) := by decide +kernel

/-- RC-7: RCE.PENDING after step 4. -/
theorem test_rcePending :
    (after .rcePending (lane fun l => { l with rce := { l.rce with cacheSize := 2, cbuf := [0#8] } })).map
      (fun t => t.result) = some 7#64 := by decide +kernel

/-- RD-1. -/
theorem test_rcdInit :
    (after .rcdInit (input [0#8, 0x7F#8, 0xFF#8, 0xFC#8, 0#8] false)).map
      (fun t => (t.lane0.rcd.code, t.lane0.rcd.range, t.lane0.rcd.initBad)) =
      some (0x7FFFFC00#32, 0xFFFFFFFF#32, false) := by decide +kernel

/-- RD-6. -/
theorem test_rcdInit_truncated :
    (after .rcdInit (input [0#8, 0x7F#8, 0xFF#8] true)).map (fun t => (t.errCode, t.errInfo)) =
      some (0xA02#32, 3#64) := by decide +kernel

/-- RD-2. -/
theorem test_rcdBit :
    (after (.rcdBit 0#24) (lane (decoding 0x7FFFFC00#32))).map (fun t => (t.result, t.lane0.rcd.code, cells [0] t)) =
      some (1#64, 0#32, [992]) := by decide +kernel

/-- RD-4. -/
theorem test_rcdDirect :
    (after (.rcdDirect 16#6) { lane (decoding 0xABCCFFFA#32) with inp := [0x33#8, 0#8] }).map
      (fun t => (t.result, t.lane0.rcd.code, t.inp)) = some (0xABCD#64, 0#32, []) := by decide +kernel

/-- RD-5. -/
theorem test_rcdIsFinished :
    (after .rcdIsFinished (lane fun l => { decoding 0x7FFFFC00#32 l with
      rcd := { (decoding 0x7FFFFC00#32 l).rcd with initBad := true } })).map (fun t => t.result) = some 2#64 := by
  decide +kernel

/-- PB-3. -/
theorem test_probReset : (after .probReset (lane fun l => l.setCell 5 77#11)).map (cells [5]) = some [1024] := by
  decide +kernel

/-- PB-1. -/
theorem test_probRead : (after (.probRead 7989#24) s0).map (fun t => t.result) = some 1024#64 := by decide +kernel

/-- PB-1. -/
theorem test_probRead_beyond : (after (.probRead 7990#24) s0).map (fun t => t.errCode) = some 0x306#32 := by
  decide +kernel

/-- PB-2. -/
theorem test_probWrite :
    (after (.probWrite 0#24 2047#12) s0).map (cells [0]) = some [2047] ∧
    (after (.probWrite 0#24 2048#12) s0).map (fun t => t.errCode) = some 0x306#32 := by decide +kernel

/-- The table of §2.3: 0xE0 is lc 8, lp 4, pb 4. -/
theorem test_lzSetProps :
    (after (.lzSetProps 0xE0#8) s0).map (fun t => (t.lane0.lz.lc, t.lane0.lz.lp, t.lane0.lz.pb)) =
      some (8#4, 4#3, 4#3) := by decide +kernel

/-- R671: the properties stay. -/
theorem test_lzResetState :
    (after .lzResetState (lane fun l => { l.setCell 9 31#11 with lz := { l.lz with state := 7, rep2 := 4#32 } })).map
      (fun t => (stateWord t.lane0.lz, t.lane0.lz.rep2, cells [9] t)) = some (0x20300, 0#32, [1024]) := by decide +kernel

/-- LZD-8. -/
theorem test_lzReadState :
    (after .lzReadState (lane fun l => { l with lz := { l.lz with state := 7 } })).map (fun t => t.result) =
      some 0x20307#64 := by decide +kernel

/-- R673. -/
theorem test_lzReadRep :
    (after (.lzReadRep 2#16) (lane fun l => { l with lz := { l.lz with rep1 := 1#32, rep2 := 9#32, rep3 := 2#32 } })).map
      (fun t => t.result) = some 9#64 := by decide +kernel

/-- LZ-1: the nine cells, and P1: the encoder after LZE.LIT. -/
theorem test_lzeLit :
    (after .lzeLit (lane (window [0x61#8] 0))).map
      (fun t => (cells [0, 1847, 1848, 1851, 1857, 1868, 1890, 1934, 2022, 1849] t, t.lane0.rce.low, t.lane0.rce.range)) =
      some ([1056, 1056, 992, 992, 1056, 1056, 1056, 1056, 992, 1024], 0x7FFC0000#33, 0x80000000#32) := by decide +kernel

/-- A matched literal (R552), after a match: byte 0x62 beside match byte 0x61 from state 7, worked out by hand. The offset is 0x200 where
the match byte's bit is 1 and 0x100 where it is 0, until bit 1, the first that differs. -/
theorem test_lzeLit_matched :
    (after .lzeLit (lane fun l => { window [0x61#8, 0x62#8] 1 l with lz := { l.lz with state := 7 } })).map
      (fun t => (t.lane0.lz.state, t.lane0.prob.length,
        let b := 1846 + 0x300 * 3
        cells [7 * 16 + 1, b + 0x100 + 1, b + 0x200 + 2, b + 0x200 + 5, b + 0x100 + 11, b + 0x100 + 22, b + 0x100 + 44,
          b + 0x100 + 88, b + 177] t)) =
      some (4, 9, [1056, 1056, 992, 992, 1056, 1056, 1056, 992, 1056]) := by decide +kernel

/-- LZ-3: the cells MATCH 1, 3 changes at coding position 1. -/
theorem test_lzeMatch :
    (after (.lzeMatch 1#32 3#9) (lane (window [0x61#8, 0x61#8, 0x61#8, 0x61#8] 1))).map
      (fun t => (t.lane0.lz.state, t.lane0.win.cur,
        cells [1, 192, 818, 829, 830, 832, 497, 498, 500, 504, 512, 528] t)) =
      some (7, 4, [992, 1056, 1056, 1056, 1056, 992, 1056, 1056, 1056, 1056, 1056, 1056]) := by decide +kernel

/-- LZE-E1. -/
theorem test_lzeMatch_no_history :
    (after (.lzeMatch 1#32 3#9) s0).map (fun t => t.errCode) = some 0x506#32 := by decide +kernel

/-- LZ-7: REP 1, 2 from reps 2, 0, 0, 0 in state 7. -/
theorem test_lzeRep :
    (after (.lzeRep 1#2 2#9) (lane fun l =>
      { window [0x61#8, 0x62#8, 0x63#8, 0x61#8, 0x62#8, 0x62#8, 0x62#8] 5 l with lz := { l.lz with state := 7, rep0 := 2#32 } })).map
      (fun t => (t.lane0.lz.state, t.lane0.lz.rep0, t.lane0.lz.rep1)) = some (11, 0#32, 2#32) := by decide +kernel

/-- LZ-2: state 9; R340: the four cells of the symbol at state 0, coding position 1. -/
theorem test_lzeShortrep :
    (after .lzeShortrep (lane (window [0x61#8, 0x61#8] 1))).map
      (fun t => (t.lane0.lz.state, t.lane0.win.cur, cells [1, 192, 204, 241] t)) =
      some (9, 2, [992, 992, 1056, 1056]) := by decide +kernel

/-- LZMA-2: state 7, rep[0] = 0xFFFFFFFF. -/
theorem test_lzeEos :
    (after .lzeEos s0).map (fun t => (t.lane0.lz.state, t.lane0.lz.rep0, t.lane0.win.cur)) =
      some (7, 0xFFFFFFFF#32, 0) := by decide +kernel

/-- LZD-1, P2. -/
theorem test_lzdSymbol :
    (after (.lzdSymbol 0#48) { lane (decoding 0x307FFC00#32) with inp := [0#8] }).map
      (fun t => (t.result, t.out, t.inp)) = some (0x6100010000#64, [0x61#8], []) := by decide +kernel

/-- LZD-2. -/
theorem test_lzdRun :
    (after (.lzdRun 4#48) { lane (decoding 0x30C1FC00#32) with inp := [0#8, 0#8] }).map
      (fun t => (t.out, t.lane0.rcd.code, stateWord t.lane0.lz)) =
      some ([0x61#8, 0x61#8, 0x61#8, 0x61#8], 0#32, 0x20307) := by decide +kernel

/-- R750. -/
theorem test_winReset :
    (after .winReset (lane (window [1#8, 2#8] 1))).map (fun t => (t.lane0.win.bytes, t.lane0.win.cur)) = some ([], 0) := by
  decide +kernel

/-- WN-1: four bytes of IN in the window. -/
theorem test_winFeed :
    (after (.winFeed 4#48) (input [0x61#8, 0x62#8, 0x63#8, 0x64#8, 0x65#8] false)).map
      (fun t => (t.lane0.win.bytes, t.lane0.win.cur, t.result, t.inp)) =
      some ([0x61#8, 0x62#8, 0x63#8, 0x64#8], 0, 4#64, [0x65#8]) := by decide +kernel

/-- WN-2. -/
theorem test_winPut :
    (after (.winPut 0x41#8) s0).map (fun t => (t.lane0.win.bytes, t.lane0.win.cur)) = some ([0x41#8], 1) := by
  decide +kernel

/-- WN-1, WN-2. -/
theorem test_winGet :
    (after (.winGet 0#32) (lane (window [0x61#8, 0x62#8] 0))).map (fun t => t.result) = some 0x61#64 ∧
    (after (.winGet 1#32) (lane (window [0x61#8, 0x62#8] 0))).map (fun t => t.errCode) = some 0x506#32 := by
  decide +kernel

/-- R754. -/
theorem test_mfReset :
    (after .mfReset (lane (window [1#8, 2#8] 1))).map (fun t => t.lane0.mf.next) = some 1 := by decide +kernel

/-- The window `abcabcab` with the first three positions inserted (R714). -/
def finder : State :=
  lane fun l =>
    let l := window [0x61#8, 0x62#8, 0x63#8, 0x61#8, 0x62#8, 0x63#8, 0x61#8, 0x62#8] 0 l
    { l with mf := skipMany Build.default (act 3 0 2) l.win 8 3 l.mf }

/-- The finder example: at position 3, (5, 3). -/
theorem test_mfFind :
    (after .mfFind finder).map (fun t => (t.result, t.lane0.mf.next)) = some (1#64, 4) ∧
    (after .mfFind finder).map (fun t => t.lane0.mf.candidates) = some [(5, 3)] := by decide +kernel

/-- R760 (a), (b): of a substitute's answer at position 3 of `abcabcab`, the candidates it admits. -/
theorem test_keepCandidates :
    keepCandidates finder.lane0.win 3 5 0 [(1, 3), (2, 3), (2, 3), (3, 0), (3, 2), (4, 4), (4, 3), (5, 3), (6, 3)] =
      [(2, 3), (4, 3), (5, 3)] := by decide +kernel

/-- R734, R761: at position 3 of `abcabcab`, with (4, 3) its one candidate and the repeat distances 3, 1, 1, 1. -/
theorem test_choiceAllowed :
    let l := finder.lane0
    let m := { l with
      win := { l.win with cur := 3 }
      lz := { l.lz with rep0 := 2#32 }
      mf := { l.mf with own := { l.mf.own with ahead := [(3, [(4, 3)])] } } }
    ([.lit, .shortrep, .rep 0 5, .rep 0 6, .rep 1 2, .mtch 3 4, .mtch 3 2, .mtch 3 5, .mtch 6 2, .mtch 0 2] : List Choice).map
      (Choice.allowed m 5) = [true, true, true, false, false, true, true, false, false, false] := by decide +kernel

/-- The finder example: MF.CAND 0 at position 3, and MF.CAND 1. -/
theorem test_mfCand :
    (after (.mfCand 0#16) (lane fun l => { l with mf := { l.mf with cache := some (3, [(5, 3)]) } })).map
      (fun t => t.result) = some 0x500000003#64 ∧
    (after (.mfCand 1#16) (lane fun l => { l with mf := { l.mf with cache := some (3, [(5, 3)]) } })).map
      (fun t => t.errCode) = some 0x306#32 := by decide +kernel

/-- R757 with the hashes of §2.4: positions 0 (`abca`) and 1 (`bcab`) are filed. -/
theorem test_mfSkip :
    let t := after (.mfSkip 2#48) (lane (window [0x61#8, 0x62#8, 0x63#8, 0x61#8, 0x62#8] 0))
    t.map (fun t => t.lane0.mf.next) = some 2 ∧
    t.map (fun t => t.lane0.mf.t2) = some [(0x17, some 1), (0x1AC, some 0)] ∧
    t.map (fun t => t.lane0.mf.t3) = some [(0x32AC, some 0), (0x6117, some 1)] ∧
    t.map (fun t => t.lane0.mf.t4) = some [(0x1F0B6C, some 0), (0x3C6F97, some 1)] := by decide +kernel

/-- L2-1. -/
theorem test_l2Encode :
    (after .l2Encode (input [0x61#8, 0x61#8, 0x61#8, 0x61#8] true)).map (fun t => (t.out, t.result)) =
      some ([1#8, 0#8, 3#8, 0x61#8, 0x61#8, 0x61#8, 0x61#8, 0#8], 8#64) := by decide +kernel

/-- X-9. -/
theorem test_l2Encode_props :
    (after .l2Encode { conf (act 4 1 0) with inEof := true, inp := [1#8] }).map
      (fun t => (t.errCode, t.errInfo, t.inp)) = some (0x501#32, 0x14#64, [1#8]) := by decide +kernel

/-- L2-D7. -/
theorem test_l2Decode :
    (after .l2Decode (input [0xE0#8, 0#8, 3#8, 0#8, 6#8, 0x5D#8, 0#8, 0x30#8, 0xC1#8, 0xFC#8, 0#8, 0#8, 0#8, 0#8] false)).map
      (fun t => (t.out, t.result, t.inp)) = some ([0x61#8, 0x61#8, 0x61#8, 0x61#8], 4#64, []) := by decide +kernel

/-- S-1 with three threads. -/
theorem test_l2Decode_threads :
    (after .l2Decode { conf { act 3 0 2 with threadCount := 3#32 } with
      inp := [1#8, 0#8, 1#8, 0x61#8, 0x61#8, 0xE0#8, 0#8, 1#8, 0#8, 5#8, 0x5D#8, 1#8, 0x30#8, 0xDF#8, 0xFC#8, 0#8, 0#8, 0#8]
      inEof := true }).map (fun t => (t.errCode, t.errUnit, t.errInfo, t.out)) =
      some (0x06020105#32, 1#32, 5#64, []) := by decide +kernel

/-- The session encoding of §2.5: the first segment. -/
theorem test_l2EncSegment :
    (after (.l2EncSegment 2#48) (input [0x61#8, 0x61#8, 0x61#8, 0x61#8] false)).map
      (fun t => (t.out, t.result, t.inp, t.lane0.l2e.active)) =
      some ([1#8, 0#8, 1#8, 0x61#8, 0x61#8], 5#64, [0x61#8, 0x61#8], true) := by decide +kernel

/-- The session encoding of §2.5: the end. -/
theorem test_l2EncEnd :
    (after .l2EncEnd (lane fun l => { l with l2e := { l.l2e with active := true } })).map
      (fun t => (t.out, t.result, t.lane0.l2e.active)) = some ([0#8], 1#64, false) := by decide +kernel

/-- The session decoding of §2.5: the first chunk. -/
theorem test_l2DecChunk :
    (after .l2DecChunk (input [1#8, 0#8, 3#8, 0x61#8, 0x61#8, 0x61#8, 0x61#8, 0#8] false)).map
      (fun t => (t.out, t.result, t.lane0.l2d.active, t.inp)) =
      some ([0x61#8, 0x61#8, 0x61#8, 0x61#8], 0x401#64, true, [0#8]) := by decide +kernel

/-- L2-D19: a reserved control byte after a dictionary reset. -/
theorem test_l2DecChunk_reserved :
    (after .l2DecChunk { lane (fun l => { l with l2d := { l.l2d with active := true, needDictReset := false } }) with
      inp := [3#8, 0#8] }).map (fun t => t.errCode) = some 0x102#32 := by decide +kernel

/-- LZMA-1 with the parser trace of §2.4 for a run of one byte (LIT, then REP 0). -/
theorem test_lzmaEncode :
    (after .lzmaEncode (input [0x61#8, 0x61#8, 0x61#8, 0x61#8] true)).map (fun t => (t.out, t.result)) =
      some ([0#8, 0x30#8, 0xE8#8, 0x7C#8, 0#8, 0#8, 0#8], 7#64) := by decide +kernel

/-- LZD-3. -/
theorem test_lzmaDecode :
    (after (.lzmaDecode 4#48) (input [0#8, 0x30#8, 0xE8#8, 0x7C#8, 0#8, 0#8, 0#8] false)).map
      (fun t => (t.out, t.result, t.inp)) = some ([0x61#8, 0x61#8, 0x61#8, 0x61#8], 4#64, []) := by decide +kernel

/-- LZD-6: an unknown size, up to the end marker. -/
theorem test_lzmaDecode_unknown :
    (after (.lzmaDecode 0xFFFFFFFFFFFF#48)
      (input [0#8, 0x30#8, 0xE8#8, 0xBD#8, 0xFF#8, 0xFF#8, 0xFF#8, 0xFF#8, 0xE0#8, 0#8, 0#8, 0#8] false)).map
      (fun t => (t.out, t.result)) = some ([0x61#8, 0x61#8, 0x61#8, 0x61#8], 4#64) := by decide +kernel

/-! ## The machine: the host, the reset input and the sequencer -/

/-- R110: a write of CMD_HI pushes {CMD_HI, CMD_LO}. -/
theorem test_push :
    (match step { State.reset with cmdLo := 0xD0000001#32, agenda := [.host (.csrWrite 32 0x74 0x22000007)] } with
      | .next t => t.cq
      | _ => []) = [0x22000007D0000001#64] := by decide +kernel

/-- X-4, as the first instruction after reset. -/
theorem test_first_instruction :
    (match step (State.reset.withFetchWord 64 0x3000000000000000) with
      | .next t => (t.errCode, t.errInfo)
      | _ => (0, 0)) = (0x406#32, 0x3000000000000000#64) := by decide +kernel

/-- X-10: the error stays, the command goes. -/
theorem test_sticky :
    (match step { s0 with err := true, errCode := 0x106#32, cq := [0x1400000000000000#64] } with
      | .next t => (t.cq, t.errCode, t.result)
      | _ => ([], 0, 0)) = ([], 0x106#32, 0#64) := by decide +kernel

/-- R1100: the reset input empties IN and unconfigures the block. -/
theorem test_reset_input :
    (match step { input [1#8] true with agenda := [.reset] } with
      | .next t => (t.inp, t.inEof, t.act.isSome)
      | _ => ([9#8], true, true)) = ([], false, false) := by decide +kernel

/-- R104: CTRL and CFG_DICT_SIZE, written while RCD.INIT holds, read as before until it completes; STATUS shows the hold at once. -/
theorem test_read_in_a_hold :
    let s : State := { input [] true with holding := some [], cfg := { s0.cfg with dictSize := 4096#32 } }
    let shows (s : State) : List CsrWord := [0x04, 0x08, 0x20].map (csrValue s)
    shows s = [0xD, 0, 0x800000] ∧ (after .rcdInit s).map shows = some [0x6, 1, 4096] := by decide +kernel

/-! ## Every statement with hypotheses has a state and operands that meet them -/

/-- A command's outcome is a next state in which `p` holds. -/
def ends (i : Instr) (s : State) (p : State → Bool) : Bool :=
  match exec i s with
  | .next t => p t
  | _ => false

/-- A step's outcome is a next state in which `p` holds. -/
def steps (s : State) (p : State → Bool) : Bool :=
  match step s with
  | .next t => p t
  | _ => false

theorem steps_spec {s : State} {p : State → Bool} (h : steps s p = true) : ∃ t, step s = .next t ∧ p t = true := by
  simp only [steps] at h
  split at h
  · rename_i t ht
    exact ⟨t, ht, h⟩
  · simp at h

theorem ends_spec {i : Instr} {s : State} {p : State → Bool} (h : ends i s p = true) :
    ∃ t, exec i s = .next t ∧ p t = true := by
  simp only [ends] at h
  split at h
  · rename_i t ht
    exact ⟨t, ht, h⟩
  · simp at h

theorem meets_EncodeOfDecodeIsTheWord : decode 0x3900FFFFFFFFFFFF#64 = .ok (.lzdRun (BitVec.allOnes 48)) := by decide

theorem meets_EveryWordIsACommandOrRejected :
    reservedBitsOf.lookup ((0x0400000000000000#64).toNat / 2 ^ 56) = none ∧
    reservedBitsOf.lookup ((0x1100000001FFFFFF#64).toNat / 2 ^ 56) = some 0xFFFFFFFE000000 ∧
    (0x1100000001FFFFFF#64).toNat &&& 0xFFFFFFFE000000 = 0 ∧ (0x1100000002000000#64).toNat &&& 0xFFFFFFFE000000 ≠ 0 := by
  decide

/-- The two forms of the agenda, with the flag clear and with the flag set. -/
theorem meets_StepRunsTheDecodedCommand :
    s0.cq = 0#64 :: [] ∧ decode 0#64 = .ok .sysNop ∧ s0.err = false ∧ s0.agenda = [] ∧
    ({ s0 with err := true, agenda := [.block] } : State).agenda = .block :: [] ∧
    (({ s0 with err := true } : State).err = false ∨ Instr.sysNop = .sysNop ∨ Instr.sysNop = .sysSoftReset ∨
      Instr.sysNop = .sysClearErr) := by decide

theorem meets_StickyErrorDiscardsCommands :
    let s : State := { s0 with err := true, cq := [0x0300000000000000#64] }
    s.agenda = [] ∧ s.err = true ∧ s.cq = 0x0300000000000000#64 :: [] ∧
    0x0300000000000000#64 ≠ 0x0000000000000000#64 ∧ 0x0300000000000000#64 ≠ 0x0100000000000000#64 ∧
    0x0300000000000000#64 ≠ 0x0200000000000000#64 := by decide

theorem meets_RejectedWordsRaiseIllegalCommand :
    let s : State := { s0 with cq := [0x0400000000000000#64] }
    let t : State := { s0 with cq := [0x0000000000000001#64] }
    s.agenda = [] ∧ s.err = false ∧ s.cq = 0x0400000000000000#64 :: [] ∧
    decode 0x0400000000000000#64 = .error .undefinedOpcode ∧
    t.agenda = [] ∧ t.err = false ∧ t.cq = 0x0000000000000001#64 :: [] ∧
    decode 0x0000000000000001#64 = .error .reservedBits := by decide

/-- An open encoder session. -/
def session : State := lane fun l => { l with l2e := { l.l2e with active := true } }

/-- An open decoder session, past its dictionary reset. -/
def decSession : State := lane fun l => { l with l2d := { l.l2d with active := true, needDictReset := false } }

theorem meets_ChecksComeInOrder :
    (¬ InSys .rceReset ∧ State.reset.act = none) ∧
    (s0.act.isSome = true ∧ ¬ InRange (.probRead 7990#24) s0) ∧
    (session.act.isSome = true ∧ InRange .rceReset session ∧ RefusedBySession .rceReset session) ∧
    (session.act.isSome = true ∧ InRange .l2DecChunk session ∧ RefusedBySession .l2DecChunk session) ∧
    (decSession.act.isSome = true ∧ InRange .l2EncEnd decSession ∧ RefusedBySession .l2EncEnd decSession) :=
  ⟨⟨not_false, rfl⟩, ⟨rfl, (by decide : ¬ 7990 < 1846 + 0x300 * 2 ^ 3)⟩, ⟨rfl, trivial, not_false, .inl rfl⟩,
    ⟨rfl, trivial, rfl⟩, ⟨rfl, trivial, rfl⟩⟩

theorem meets_IllegalCommandHasNoEffect :
    s0.err = false ∧ ∃ t, exec (.probRead 7990#24) s0 = .next t ∧ (t.err && t.errCode.toNat % 2 ^ 8 == 6) = true :=
  ⟨rfl, ends_spec (by decide +kernel)⟩

/-- A command that IN ends, and SYS.CONFIGURE. -/
theorem meets_ErrorsInitialiseEveryLane :
    let s := input [0#8] true
    let u : State := { s0 with cfg := { s0.cfg with dictSize := 4095#32 } }
    s.err = false ∧ u.err = false ∧
    (∃ t, exec .rcdInit s = .next t ∧ (t.err && t.errCode.toNat % 2 ^ 8 == 2) = true) ∧
    (∃ t, exec .sysConfigure u = .next t ∧ (t.err && t.errCode.toNat % 2 ^ 8 == 1) = true) :=
  ⟨rfl, rfl, ends_spec (by decide +kernel), ends_spec (by decide +kernel)⟩

/-- Each of the three ends is met. -/
theorem meets_EveryCommandEndsOneOfThreeWays :
    (∃ t, exec .rcdInit (input [0#8] false) = .next t ∧ decide (t = (input [0#8] false).held) = true) ∧
    (∃ t, exec .rcdInit (input [0#8] true) = .next t ∧ t.err = true) ∧
    (∃ t, exec .rceFlush s0 = .next t ∧ (t.out.length == 5) = true) :=
  ⟨ends_spec (by decide +kernel), ends_spec (p := fun t => t.err) (by decide +kernel), ends_spec (by decide +kernel)⟩

theorem ends_eq {i : Instr} {s t : State} (h : ends i s (fun u => decide (u = t)) = true) : exec i s = .next t := by
  obtain ⟨u, hu, hp⟩ := ends_spec h
  rw [hu, of_decide_eq_true hp]

theorem meets_HeldCommandWaitsAndResumes :
    exec .rcdInit (input [0#8] false) = .next (input [0#8] false).held ∧ Instr.rcdInit ≠ .l2Decode ∧
    Instr.l2DecChunk ≠ .l2Decode :=
  ⟨ends_eq (by decide +kernel), by decide, by decide⟩

/-- The two ends of every range. -/
theorem meets_ConfigureSucceeds :
    let low : State := { s0 with cfg := { s0.cfg with dictSize := 4096#32, lclppb := 0#11, threads := 1#32, niceLen := 8#9 } }
    let high : State :=
      { s0 with cfg := { s0.cfg with dictSize := 1610612736#32, lclppb := 0x448#11, threads := 4#32, niceLen := 273#9 } }
    ∀ s ∈ [low, high],
      let v := cfgFields s.cfg
      4096 ≤ v.dictSize.toNat ∧ v.dictSize.toNat ≤ 1610612736 ∧ v.lc.toNat ≤ 8 ∧ v.lp.toNat ≤ 4 ∧ v.pb.toNat ≤ 4 ∧
      1 ≤ v.threadCount.toNat ∧ v.threadCount.toNat ≤ s.laneCount ∧ 8 ≤ v.niceLen.toNat ∧ v.niceLen.toNat ≤ 273 := by
  decide +kernel

/-- Each clause at the first value past its range. -/
theorem meets_ConfigureFails :
    let with' (f : CfgRegs → CfgRegs) := cfgFields (f s0.cfg)
    let dictOk (v : Act) : Bool := decide (4096 ≤ v.dictSize.toNat ∧ v.dictSize.toNat ≤ 1610612736)
    let threadsOk (v : Act) : Bool := decide (1 ≤ v.threadCount.toNat ∧ v.threadCount.toNat ≤ s0.laneCount)
    let niceOk (v : Act) : Bool := decide (8 ≤ v.niceLen.toNat ∧ v.niceLen.toNat ≤ 273)
    let v1 := with' fun c => { c with dictSize := 1610612737#32 }
    let v2 := with' fun c => { c with lclppb := 0x009#11 }
    let v3 := with' fun c => { c with lclppb := 0x058#11 }
    let v4 := with' fun c => { c with lclppb := 0x548#11 }
    let v6 := with' fun c => { c with lclppb := 0x448#11, threads := 5#32 }
    let v7 := with' fun c => { c with lclppb := 0x448#11, niceLen := 274#9 }
    (dictOk v1 = false) ∧
    (dictOk v2 = true ∧ 8 < v2.lc.toNat) ∧
    (dictOk v3 = true ∧ v3.lc.toNat ≤ 8 ∧ 4 < v3.lp.toNat) ∧
    (dictOk v4 = true ∧ v4.lc.toNat ≤ 8 ∧ v4.lp.toNat ≤ 4 ∧ 4 < v4.pb.toNat) ∧
    (dictOk v6 = true ∧ v6.lc.toNat ≤ 8 ∧ v6.lp.toNat ≤ 4 ∧ v6.pb.toNat ≤ 4 ∧ threadsOk v6 = false) ∧
    (dictOk v7 = true ∧ v7.lc.toNat ≤ 8 ∧ v7.lp.toNat ≤ 4 ∧ v7.pb.toNat ≤ 4 ∧ threadsOk v7 = true ∧ niceOk v7 = false) := by
  decide +kernel

theorem meets_ResetAndLaneInitValues :
    ({ s0 with agenda := [.reset] } : State).agenda = .reset :: [] ∧ (act 8 4 4).lp.toNat ≤ 4 := by decide

theorem meets_ConfigurationRegistersReadBack :
    ((0x20 : BitVec 7), (0xFFFFFFFF : CsrWord)) ∈ cfgMasks ∧ ((0x48 : BitVec 7), (0xFFFFFFFF : CsrWord)) ∈ cfgMasks ∧
    (0x1C : BitVec 7) ≠ 0x20 ∧ s0.holding = none ∧ (input [0#8] false).held.holding.isSome = true ∧ (0x08 : BitVec 7) ≠ 0x04 := by
  decide

theorem meets_OtherRegisterAccesses :
    ((0x00 : BitVec 7).toNat % 4 = 0 ∧ (0x00 : BitVec 7) ∉ writableOffsets) ∧
    ((0x7C : BitVec 7).toNat % 4 = 0 ∧ (0x7C : BitVec 7) ∉ writableOffsets) ∧
    ((16 ≠ 32 ∨ (0x20 : BitVec 7).toNat % 4 ≠ 0) ∧ (32 ≠ 32 ∨ (0x22 : BitVec 7).toNat % 4 ≠ 0)) := by decide

theorem meets_HostPushesCommandsAndBytes : ({ s0 with out := [1#8, 2#8] } : State).out = 1#8 :: [2#8] := by decide

theorem meets_PresetLoadsItsRow :
    9 < (10#32).toNat ∧ presetTable[(9#32).toNat]? = some (67108864, 3, 64, 0) ∧
    presetTable[(0#32).toNat]? = some (262144, 0, 128, 4) := by decide

theorem meets_ProbabilityUpdateBounds :
    1 ≤ (1#11).toNat ∧ 1 ≤ (2047#11).toNat ∧ (31 ≤ (31#11).toNat ∧ (31#11).toNat ≤ 2017) ∧
    (31 ≤ (2017#11).toNat ∧ (2017#11).toNat ≤ 2017) := by decide

/-- Lane 0 with a flushed encoder. -/
def flushed : State := lane fun l => { l with rce := { l.rce with flushed := true } }

theorem meets_RceResetPendingFlush :
    (s0.unitsFree ∧ s0.ready ∧ s0.lane0.rce.Ok ∧ s0.lane0.rce.flushed = false) ∧
    (flushed.unitsFree ∧ flushed.ready ∧ flushed.lane0.rce.Ok ∧ flushed.lane0.rce.flushed = true) := by decide

/-- The last cell, and a flushed encoder. -/
theorem meets_RceBitTakesASubInterval :
    ∀ s ∈ [s0, flushed], s.unitsFree ∧ (7989#24).toNat < 1846 + 0x300 * 2 ^ (s.lane0.lz.lc.toNat + s.lane0.lz.lp.toNat) ∧
      s.lane0.rce.Ok ∧ 1 ≤ (s.lane0.cell (7989#24).toNat).toNat ∧ (s.lane0.rce.flushed = false ∨ s = flushed) := by
  decide +kernel

theorem meets_RceBitInRange : InRange (.rceBit 7989#24 true) s0 := (by decide : 7989 < 1846 + 0x300 * 2 ^ 3)

theorem meets_RceDirectHalvesTheInterval :
    s0.unitsFree ∧ InRange (.rceDirect 0xFFFFFFFF#32 32#6) s0 ∧ InRange (.rceDirect 1#32 1#6) s0 ∧ s0.lane0.rce.Ok ∧
    s0.lane0.rce.flushed = false ∧ flushed.unitsFree ∧ InRange (.rceDirect 0#32 1#6) flushed ∧ flushed.lane0.rce.Ok ∧
    flushed.lane0.rce.flushed = true := by
  refine ⟨by decide, ?_, ?_, by decide, by decide, by decide, ?_, by decide, by decide⟩ <;> (simp only [InRange]; decide)

theorem meets_RcdInitTakesFiveBytes :
    s0.unitsFree ∧ 5 ≤ (input [0#8, 1#8, 2#8, 3#8, 4#8] false).input.length ∧
    ((input [0#8, 1#8, 2#8, 3#8] false).input.length < 5 ∧ (input [0#8, 1#8, 2#8, 3#8] false).inEof = false) ∧
    ((input [0#8, 1#8, 2#8, 3#8] true).input.length < 5 ∧ (input [0#8, 1#8, 2#8, 3#8] true).inEof = true) := by decide

/-- A decoder with a range of 2^24 needs a byte for a bit of cell 1 at 1024, and has it, waits for it, or misses it. -/
theorem meets_RcdBitDecidesByTheSplitPoint :
    let narrow (bs : List Byte) (eof : Bool) : State :=
      { lane fun l => { l with rcd := { range := 0x01000000#32, code := 0#32, inited := true, initBad := false } } with
        inp := bs, inEof := eof }
    let none' : State := s0
    (∀ s ∈ [narrow [9#8] false, narrow [] false, narrow [] true], s.unitsFree ∧ s.lane0.rcd.Ok ∧
      1 ≤ (s.lane0.cell 1).toNat ∧ s.lane0.rcd.inited = true ∧
      decide (s.lane0.rcd.range.toNat / 2 ^ 11 * (s.lane0.cell 1).toNat ≤ s.lane0.rcd.code.toNat) = false ∧
      Normalises (s.lane0.rcd.range.toNat / 2 ^ 11 * (s.lane0.cell 1).toNat) 1) ∧
    1 ≤ (narrow [9#8] false).input.length ∧ (narrow [] false).input.length < 1 ∧ (narrow [] false).inEof = false ∧
    (narrow [] true).inEof = true ∧
    none'.unitsFree ∧ none'.lane0.rcd.Ok ∧ none'.lane0.rcd.inited = false ∧ Normalises 0x7FFFFC00 0 := by decide +kernel

theorem meets_RcdBitInRange : InRange (.rcdBit 1#24) s0 := (by decide : 1 < 1846 + 0x300 * 2 ^ 3)

/-- Thirty-two bits from a full range take four bytes: they are there, one is missing before IN_EOF, and after it. -/
theorem meets_RcdDirectAndIsFinished :
    let s (bs : List Byte) (eof : Bool) : State := { lane (decoding 0#32) with inp := bs, inEof := eof }
    (∀ t ∈ [s [1#8, 2#8, 3#8, 4#8] false, s [1#8, 2#8, 3#8] false, s [1#8, 2#8, 3#8] true],
      t.unitsFree ∧ t.ready ∧ t.lane0.rcd.Ok ∧ t.lane0.rcd.inited = true) ∧
    InRange (.rcdDirect 32#6) (s [] false) ∧ directBytes (32#6).toNat 0xFFFFFFFF = 4 ∧
    s0.unitsFree ∧ s0.lane0.rcd.Ok ∧ s0.lane0.rcd.inited = false ∧ s0.ready := by
  refine ⟨by decide, ?_, by decide, by decide, by decide, by decide, by decide⟩
  simp only [InRange]
  decide

theorem meets_ProbCommands :
    s0.unitsFree ∧ s0.ready ∧ InRange (.probRead 7989#24) s0 ∧ InRange (.probWrite 7989#24 2047#12) s0 ∧
    CellsOk s0.lane0.prob := by
  have h : (7989 : Nat) < 1846 + 0x300 * 2 ^ 3 := by decide
  exact ⟨by decide, by decide, h, ⟨h, by decide⟩, by decide⟩

theorem meets_RangeCoderRoundTrip :
    s0.lane0.rce = { range := 0xFFFFFFFF#32, low := 0#33, cache := 0#8, cacheSize := 1, flushed := false, cbuf := [] } ∧
    CellsOk s0.lane0.prob ∧ (lane (decoding 0#32)).lane0.prob = s0.lane0.prob := by decide

theorem meets_LzCommands :
    s0.unitsFree ∧ (224#8).toNat ≤ 224 ∧ s0.ready ∧ (3#16).toNat ≤ 3 := by decide

theorem meets_DistanceSlotsCoverTheirRange :
    3 < 2 ^ 32 ∧ slotOf 3 < 4 ∧ 0xFFFFFFFF < 2 ^ 32 ∧ 4 ≤ slotOf 0xFFFFFFFF := by decide +kernel

/-- The window `aaaa` with one byte behind the coding position. -/
def four : State := lane (window [0x61#8, 0x61#8, 0x61#8, 0x61#8] 1)

theorem meets_LzeCommandsCodeTheirSymbol :
    four.unitsFree ∧ four.lane0.rce.flushed = false ∧ Sym.lit.Codable four.lane0 ∧
    (Sym.mtch (1#32).toNat (3#9).toNat).Codable four.lane0 ∧ (Sym.rep (3#2).toNat (2#9).toNat).Codable four.lane0 ∧
    Sym.shortrep.Codable four.lane0 := by
  refine ⟨by decide, by decide, ?_, ?_, ?_, ?_⟩ <;> (simp only [Sym.Codable]; decide +kernel)

theorem meets_LzeCommandsRefuseBadSymbols :
    flushed.unitsFree ∧ flushed.lane0.rce.flushed = true ∧ InRange (.lzeMatch 1#32 2#9) flushed ∧
    InRange (.lzeRep 0#2 273#9) flushed ∧
    s0.unitsFree ∧ s0.lane0.rce.flushed = false ∧ ¬ Sym.lit.Codable s0.lane0 ∧
    InRange (.lzeMatch 1#32 2#9) s0 ∧ ¬ (Sym.mtch (1#32).toNat (2#9).toNat).Codable s0.lane0 ∧
    InRange (.lzeRep 0#2 2#9) s0 ∧ ¬ (Sym.rep (0#2).toNat (2#9).toNat).Codable s0.lane0 ∧
    ¬ Sym.shortrep.Codable s0.lane0 := by
  refine ⟨by decide, by decide, ?_, ?_, by decide, by decide, ?_, ?_, ?_, ?_, ?_, ?_⟩ <;>
    (first | (simp only [InRange]; decide) | (simp only [Sym.Codable]; decide +kernel))

/-- LZ-1: the encoder before the literal, the decoder after RCD.INIT on the payload, and one byte that is not the stream's. -/
def beforeLit : State := { lane (decoding 0x307FFC00#32) with inp := [0#8, 9#8] }

/-- The payload of LZ-1. -/
def litPayload : List Byte := [0#8, 0x30#8, 0x7F#8, 0xFC#8, 0#8, 0#8]

theorem meets_LzdSymbolDecodesWhatWasCoded :
    let l := window [0x61#8] 0 s0.lane0
    beforeLit.unitsFree ∧ beforeLit.lane0.rcd.inited = true ∧ l.rce.Ok ∧ CellsOk l.prob ∧ Sym.lit.Codable l ∧
    ((1#48).toNat = 0 ∨ Sym.lit.len ≤ (1#48).toNat) ∧ Mirrors beforeLit.lane0 l ∧
    beforeLit.lane0.rcd.Follows l.rce litPayload [0#8] ∧ beforeLit.input = [0#8] ++ [9#8] ∧
    (Sym.lit.coded l).rce.Reaches litPayload := by
  refine ⟨by decide, by decide, by decide, by decide, ?_, by decide, ⟨rfl, rfl, rfl, rfl⟩, ?_, rfl, ⟨0, ?_⟩⟩
  · simp only [Sym.Codable]; decide
  · simp only [RangeDec.Follows]; decide +kernel
  · decide +kernel

/-- LZ-3's run of four bytes with its length, and LZ-9 with the end marker. -/
theorem meets_LzdRunDecodesWhatWasCoded :
    let l := window [0x61#8, 0x61#8, 0x61#8, 0x61#8] 0 s0.lane0
    let s : State := { lane (decoding 0x30C1FC00#32) with inp := [0#8, 0#8] }
    let payload : List Byte := [0#8, 0x30#8, 0xC1#8, 0xFC#8, 0#8, 0#8, 0#8]
    let ys := [Sym.lit, .mtch 1 3]
    let l' := window [0x61#8] 0 s0.lane0
    let s' : State := { lane (decoding 0x30C1FBFF#32) with inp := [0xFF#8, 0xFF#8, 0xE0#8, 0#8, 0#8, 0#8] }
    let payload' : List Byte := [0#8, 0x30#8, 0xC1#8, 0xFB#8, 0xFF#8, 0xFF#8, 0xFF#8, 0xE0#8, 0#8, 0#8, 0#8]
    (s.unitsFree ∧ s.lane0.rcd.inited = true ∧ l.rce.Ok ∧ CellsOk l.prob ∧ CodableAll ys l ∧ Mirrors s.lane0 l ∧
      s.lane0.rcd.Follows l.rce payload [0#8, 0#8] ∧ s.input = [0#8, 0#8] ++ [] ∧
      (codedAll ys l).rce.Reaches payload ∧ (4#48 : BitVec 48) ≠ 0#48 ∧ (4#48).toNat = Sym.total ys) ∧
    (s'.unitsFree ∧ CodableAll [Sym.lit] l' ∧ Mirrors s'.lane0 l' ∧ s'.lane0.rcd.Follows l'.rce payload' s'.input ∧
      (Sym.eos.coded (codedAll [Sym.lit] l')).rce.Reaches payload') := by
  refine ⟨⟨by decide, by decide, by decide, by decide, ?_, ⟨rfl, rfl, rfl, rfl⟩, ?_, rfl, ⟨0, ?_⟩, by decide, by decide⟩,
    by decide, ?_, ⟨rfl, rfl, rfl, rfl⟩, ?_, ⟨0, ?_⟩⟩
  · simp only [CodableAll, Sym.Codable]; decide +kernel
  · simp only [RangeDec.Follows]; decide +kernel
  · decide +kernel
  · simp only [CodableAll, Sym.Codable]; decide +kernel
  · simp only [RangeDec.Follows]; decide +kernel
  · decide +kernel

theorem meets_LzdSymbolStaysInsideTheHistory :
    beforeLit.err = false ∧
    ∃ t, exec (.lzdSymbol 0#48) beforeLit = .next t ∧ (!t.err && t.holding.isNone) = true :=
  ⟨rfl, ends_spec (by decide +kernel)⟩

/-- A match at an empty history, with the whole payload in IN and with none of it: as a symbol, and as a run of one byte. -/
theorem meets_LzdCommandsRaise :
    let l := s0.lane0
    let y := Sym.mtch 1 2
    let e := (codedToError [] y (some 0x0103) l).rce
    let payload := (encFlush e).cbuf
    let src := payload.drop 5
    let s : State := { lane (decoding (BitVec.ofNat 32 (bytesValue (payload.take 5)))) with inp := src }
    s.unitsFree ∧ s.lane0.rcd.inited = true ∧ l.rce.Ok ∧ CellsOk l.prob ∧ CodableAll [] l ∧ y.Spelled ∧ Mirrors s.lane0 l ∧
    s.lane0.rcd.Follows l.rce payload src ∧ some 0x0103 = y.errorCode l none true 0x0902 ∧
    Sym.total [] < (1#48).toNat ∧ some 0x0103 = y.errorCode (codedAll [] l) (some ((1#48).toNat - Sym.total [])) false 0x0902 ∧
    e.Reaches payload ∧ s.input = src ∧ 0 < e.digits.length - l.rce.digits.length ∧ s0.input = src.take 0 := by
  refine ⟨by decide +kernel, by decide +kernel, by decide, by decide, trivial, ?_, ⟨rfl, rfl, rfl, rfl⟩, ?_, by decide +kernel,
    by decide, by decide +kernel, ⟨0, ?_⟩, by decide +kernel, by decide +kernel, by decide +kernel⟩
  · simp only [Sym.Spelled]; decide
  · simp only [RangeDec.Follows]; decide +kernel
  · decide +kernel

theorem meets_WinCommands :
    s0.unitsFree ∧ s0.act = some (act 3 0 2) ∧ s0.ready ∧ four.ready ∧
    (2#48).toNat ≤ (input [1#8, 2#8] false).input.length ∧ (input [] true).inEof = true ∧
    ((input [1#8] false).input.length < (2#48).toNat ∧ (input [1#8] false).inEof = false) ∧
    s0.lane0.win.endPos = s0.lane0.win.cur ∧ four.lane0.win.endPos ≠ four.lane0.win.cur ∧
    four.lane0.win.cur < four.lane0.win.endPos ∧ s0.lane0.win.endPos ≤ s0.lane0.win.cur ∧
    (1#32 ≠ 0#32 ∧ (1#32).toNat ≤ min four.lane0.win.cur four.lane0.win.dictSize.toNat) ∧
    (2#32 ≠ 0#32 ∧ min four.lane0.win.cur four.lane0.win.dictSize.toNat < (2#32).toNat) := by decide

theorem sound_empty {w : Window} {n p : Nat} {c : Option (Nat × List (Nat × Nat))} {o : Substitutes} :
    MatchFinder.Sound w { t2 := [], t3 := [], t4 := [], chain := [], next := n, cache := c, own := o } p :=
  ⟨fun _ _ h => (nomatch h), fun _ _ h => (nomatch h), fun _ _ h => (nomatch h), fun _ _ h => (nomatch h)⟩

/-- At the end of the window, with three bytes left, and with four; the default finder, and a substitute. -/
theorem meets_MfFindKeepsTheFinderContract :
    let three := lane (window [1#8, 2#8, 3#8] 0)
    let other : State := { four with build := { finder := some 0, parser := none } }
    s0.act = some (act 3 0 2) ∧ three.act = some (act 3 0 2) ∧ four.act = some (act 3 0 2) ∧ other.act = some (act 3 0 2) ∧
    three.build.finder = none ∧ other.unitsFree ∧ other.lane0.mf.Sound other.lane0.win other.lane0.mf.next ∧
    s0.unitsFree ∧ s0.lane0.mf.Sound s0.lane0.win s0.lane0.mf.next ∧ s0.lane0.mf.Ok ∧
    s0.lane0.win.endPos ≤ s0.lane0.mf.next ∧
    three.unitsFree ∧ three.lane0.mf.Sound three.lane0.win three.lane0.mf.next ∧ three.lane0.mf.Ok ∧
    three.lane0.mf.next < three.lane0.win.endPos ∧ three.lane0.win.endPos - three.lane0.mf.next < 4 ∧
    four.unitsFree ∧ four.lane0.mf.Sound four.lane0.win four.lane0.mf.next ∧ four.lane0.mf.Ok ∧
    4 ≤ four.lane0.win.endPos - four.lane0.mf.next :=
  ⟨by decide, by decide, by decide, by decide, by decide, by decide, sound_empty, by decide, sound_empty, by decide, by decide, by decide, sound_empty, by decide, by decide, by decide, by decide, sound_empty,
    by decide, by decide⟩

theorem meets_MfResetCandSkip :
    let cached := lane fun l => { l with mf := { l.mf with cache := some (3, [(5, 3)]) } }
    s0.unitsFree ∧ four.unitsFree ∧ four.lane0.win.cur < four.lane0.win.endPos ∧ cached.ready ∧ ((cached.lane0.mf.cache.map Prod.snd).getD [])[(0#16).toNat]? = some (5, 3) ∧
    ((cached.lane0.mf.cache.map Prod.snd).getD []).length ≤ (1#16).toNat ∧
    four.unitsFree ∧ four.lane0.win.endPos < four.lane0.mf.next + (5#48).toNat ∧
    four.lane0.mf.next + (4#48).toNat ≤ four.lane0.win.endPos ∧ four.lane0.mf.Sound four.lane0.win four.lane0.mf.next ∧
    four.lane0.mf.Ok ∧ four.lane0.mf.next ≤ 0 ∧ 0 < four.lane0.mf.next + (4#48).toNat ∧ 0 + 4 ≤ four.lane0.win.endPos :=
  ⟨by decide, by decide, by decide, by decide, by decide, by decide, by decide, by decide, by decide, sound_empty, by decide, by decide, by decide,
    by decide⟩

theorem meets_L2EncodeMakesLegalStreams :
    s0.unitsFree ∧ s0.act = some (act 3 0 2) ∧ (act 3 0 2).Ok s0.laneCount ∧ s0.inEof = false ∧
    (input [] true).unitsFree ∧ (input [] true).act = some (act 3 0 2) ∧ (input [] true).inEof = true ∧
    (act 3 0 2).lc.toNat + (act 3 0 2).lp.toNat ≤ 4 ∧ (input [] true).input.length < 2 ^ 64 ∧
    (conf (act 8 4 4)).unitsFree ∧ (conf (act 8 4 4)).act = some (act 8 4 4) ∧ (act 8 4 4).Ok (conf (act 8 4 4)).laneCount ∧
    4 < (act 8 4 4).lc.toNat + (act 8 4 4).lp.toNat := by decide +kernel

theorem meets_L2EncodeIgnoresTheThreadCount :
    (input [1#8] true).unitsFree ∧ (input [1#8] true).act = some (act 3 0 2) ∧ (input [1#8] true).inEof = true ∧
    1 ≤ (act 3 0 2).threadCount.toNat ∧ 1 ≤ (4#32).toNat ∧ (act 3 0 2).lc.toNat + (act 3 0 2).lp.toNat ≤ 4 := by
  decide +kernel

/-- L2-D7's chunk: `aaaa`, with every reset. -/
def aaaa : CodedChunk :=
  .lzma 3 0x5D#8 [.lit, .mtch 1 3] [0x61#8, 0x61#8, 0x61#8, 0x61#8] [0#8, 0x30#8, 0xC1#8, 0xFC#8, 0#8, 0#8, 0#8]

/-- A raw chunk and L2-D7's, then the end marker, a reserved control byte, or the end of IN. -/
theorem meets_L2DecodeDecodesChunks :
    let ks := [CodedChunk.raw true [1#8], aaaa]
    let s (tail : List Byte) : State := input (CodedChunk.wires ks ++ tail) false
    let l := laneInit s0.act
    let v (tail : List Byte) : State :=
      { s tail with
        inp := tail
        holding := none
        lane0 := CodedChunk.afterAll (act 3 0 2) ks { l with l2d := { l.l2d with active := true } } }
    (∀ tail ∈ [[0#8, 9#8], [3#8], []], (s tail).unitsFree ∧ (s tail).act = some (act 3 0 2) ∧
      (s tail).err = false ∧ (s tail).input = CodedChunk.wires ks ++ tail) ∧
    CodedChunk.AllLegal (act 3 0 2) ks l ∧ (CodedChunk.allBytes ks).length ≤ (act 3 0 2).outCap.toNat ∧
    1 ≤ (act 3 0 2).threadCount.toNat ∧ (act 3 0 2).threadCount = 1#32 ∧
    1 ≤ ([3#8] : List Byte).length ∧ exec .l2DecChunk (v [3#8]) = .next ((v [3#8]).failedWith 1 0x0102 0 2) ∧
    exec .l2DecChunk (v []) = .next (v []).held := by
  refine ⟨by decide +kernel, ?_, by decide +kernel, by decide, by decide, by decide, ends_eq (by decide +kernel),
    ends_eq (by decide +kernel)⟩
  simp only [CodedChunk.AllLegal, CodedChunk.Legal, aaaa, CodableAll, Sym.Codable]
  decide +kernel

/-- A stream that decodes, and S-1, which does not. -/
theorem meets_L2DecodeIgnoresTheThreadCount :
    let s := input [1#8, 0#8, 0#8, 0x41#8, 0#8] false
    let bad := input [1#8, 0#8, 1#8, 0x61#8, 0x61#8, 0xE0#8, 0#8, 1#8, 0#8, 5#8, 0x5D#8, 1#8, 0x30#8, 0xDF#8, 0xFC#8, 0#8, 0#8,
      0#8] true
    s.unitsFree ∧ s.act = some (act 3 0 2) ∧ (act 3 0 2).threadCount = 1#32 ∧ 1 ≤ (4#32).toNat ∧
    (act 3 0 2).Ok s.laneCount ∧ s.err = false ∧
    (∃ t, exec .l2Decode s = .next t ∧ (!t.err && t.holding.isNone) = true) ∧
    bad.unitsFree ∧ bad.act = some (act 3 0 2) ∧ (act 3 0 2).Ok bad.laneCount ∧ bad.err = false ∧ bad.inEof = true ∧
    (∃ t, exec .l2Decode bad = .next t ∧ t.err = true) :=
  ⟨by decide +kernel, by decide +kernel, by decide, by decide, by decide +kernel, by decide, ends_spec (by decide +kernel),
    by decide +kernel, by decide +kernel, by decide +kernel, by decide, by decide,
    ends_spec (p := fun t => t.err) (by decide +kernel)⟩

theorem meets_L2EncodersNeedSmallProperties :
    let wide := conf (act 1 4 0)
    wide.act = some (act 1 4 0) ∧ 4 < (act 1 4 0).lc.toNat + (act 1 4 0).lp.toNat ∧ wide.unitsFree ∧
    wide.lane0.l2d.active = false ∧ 1 ≤ (1#48).toNat ∧ 8 ≤ 8 ∧ 4 ≤ 4 := by decide +kernel

theorem meets_L2EncoderSessionCommands :
    let wide := conf (act 8 4 4)
    (wide.act = some (act 8 4 4) ∧ wide.lane0.l2d.active = false ∧ 1 ≤ (1#48).toNat ∧
      4 < (act 8 4 4).lc.toNat + (act 8 4 4).lp.toNat) ∧
    (s0.act = some (act 3 0 2) ∧ s0.lane0.l2d.active = false ∧ (act 3 0 2).lc.toNat + (act 3 0 2).lp.toNat ≤ 4 ∧
      s0.input.length < (1#48).toNat ∧ s0.inEof = false) ∧
    ((input [1#8] false).act = some (act 3 0 2) ∧ (input [1#8] false).lane0.l2d.active = false ∧
      ((1#48).toNat ≤ (input [1#8] false).input.length ∨ (input [1#8] false).inEof = true) ∧
      (encoderLane (input [1#8] false)).win.cur = (encoderLane (input [1#8] false)).win.endPos) ∧
    (input [1#8] false).Inv ∧ (encoderLane (input [1#8] false)).FinderOk ∧
    (session.act = some (act 3 0 2) ∧ (encoderLane session).win.cur = (encoderLane session).win.endPos ∧
      session.ready ∧ session.lane0.l2d.active = false) :=
  ⟨by decide +kernel, by decide +kernel, by decide +kernel, by decide +kernel,
    ⟨sound_empty, fun _ _ h => (nomatch h), fun _ => Nat.le_refl 0, fun h => (nomatch h)⟩, by decide +kernel⟩


theorem meets_EncoderSessionRoundTrip :
    let xs : List (List Byte) := [[1#8, 2#8], List.replicate 8 3#8]
    let u (bs : List Byte) : State := { conf { act 3 0 2 with threadCount := 4#32 } with inp := bs ++ [0x00#8, 9#8] }
    s0.unitsFree ∧ s0.holding = none ∧ s0.act = some (act 3 0 2) ∧ (act 3 0 2).Ok s0.laneCount ∧
    (act 3 0 2).lc.toNat + (act 3 0 2).lp.toNat ≤ 4 ∧ (∀ x ∈ xs, 1 ≤ x.length ∧ x.length < 2 ^ 48) ∧
    xs.flatten.length ≤ (act 3 0 2).outCap.toNat ∧ 1 ≤ (4#32).toNat ∧
    (∀ bs, (u bs).unitsFree ∧ (u bs).act = some { act 3 0 2 with threadCount := 4#32 } ∧ (u bs).input = bs ++ 0x00#8 :: [9#8]) :=
  ⟨by decide, by decide, by decide +kernel, by decide +kernel, by decide, by decide, by decide, by decide,
    fun _ => ⟨⟨rfl, rfl, rfl⟩, rfl, rfl⟩⟩

theorem meets_L2DecChunkDecodesAChunk :
    let s (bs : List Byte) : State := { decSession with inp := bs }
    let l := decoderLane decSession
    decSession.act = some (act 3 0 2) ∧ decSession.lane0.l2e.active = false ∧ (s [0#8]).input = 0x00#8 :: [] ∧
    CellsOk l.prob ∧ l.win.cur = l.win.endPos ∧
    (CodedChunk.raw false [7#8]).Legal (act 3 0 2) l ∧ aaaa.Legal (act 3 0 2) l ∧
    (∀ k ∈ [CodedChunk.raw false [7#8], aaaa], l.l2d.outTotal.toNat + k.bytes.length ≤ (act 3 0 2).outCap.toNat ∧
      (s (k.wire ++ [9#8])).input = k.wire ++ [9#8]) := by
  refine ⟨by decide +kernel, by decide +kernel, by decide +kernel, by decide +kernel, by decide +kernel, ?_, ?_, by decide +kernel⟩
  · simp only [CodedChunk.Legal]; decide +kernel
  · simp only [CodedChunk.Legal, aaaa, CodableAll, Sym.Codable]; decide +kernel

/-- The header checks, at the ends of their ranges, and a raw chunk: nothing in IN, no room for it, cut short in its bytes. -/
theorem meets_L2DecChunkErrors_raw :
    let small : State := conf { act 3 0 2 with outCap := 0#64 }
    let k := CodedChunk.raw true [7#8]
    decSession.act = some (act 3 0 2) ∧ decSession.lane0.l2e.active = false ∧ decSession.input = [] ∧
    small.act = some { act 3 0 2 with outCap := 0#64 } ∧ small.lane0.l2e.active = false ∧
    ((decoderLane s0).l2d.needDictReset = true ∧ 2 ≤ (0x02#8).toNat ∧ (0xDF#8).toNat < 0xE0) ∧
    ((decoderLane decSession).l2d.needDictReset = false ∧ 3 ≤ (0x03#8).toNat ∧ (0x7F#8).toNat < 0x80) ∧
    ((decoderLane decSession).l2d.needProps = true ∧ 0x80 ≤ (0x80#8).toNat ∧ (0xBF#8).toNat < 0xC0 ∧
      4 ≤ ([0#8, 0#8, 0#8, 4#8] : List Byte).length) ∧
    k.Legal { act 3 0 2 with outCap := 0#64 } (decoderLane small) ∧ k.Legal (act 3 0 2) (decoderLane s0) ∧
    ({ small with inp := k.wire } : State).input = k.wire ++ [] ∧
    ({ act 3 0 2 with outCap := 0#64 } : Act).outCap.toNat < (decoderLane small).l2d.outTotal.toNat + ([7#8] : List Byte).length ∧
    (3 < k.wire.length ∧ ({ s0 with inp := k.wire.take 3 } : State).input = k.wire.take 3 ∧
      (decoderLane s0).l2d.outTotal.toNat + ([7#8] : List Byte).length ≤ (act 3 0 2).outCap.toNat) := by
  simp only [CodedChunk.Legal]
  decide +kernel

/-- The first bytes of an LZMA chunk of four bytes: properties, payload size, capacity, a payload that is not there or starts wrongly. -/
theorem meets_L2DecChunkErrors_header :
    let h (pr : Byte) (count : Nat) : LzmaHead := { level := 3, pr := pr, size := 4, count := count }
    let tight := { act 3 0 2 with outCap := 3#64 }
    let sent (h : LzmaHead) (data : List Byte) : State := { s0 with inp := h.bytes ++ data }
    (∀ k ∈ [h 0xE1#8 7, h 0x5D#8 4, h 0x5D#8 7], k.InRange ∧ k.InSequence (decoderLane s0).l2d ∧ 5 < k.bytes.length ∧
      ∀ data ∈ [[], [1#8, 0#8, 0#8, 0#8, 0#8, 0#8, 0#8]], (sent k data).input = k.bytes ++ data) ∧
    ¬ (h 0xE1#8 7).PropsOk ∧
    ((h 0x5D#8 4).PropsOk ∧ (h 0x5D#8 4).count < 5) ∧
    ((h 0x5D#8 7).PropsOk ∧ 5 ≤ (h 0x5D#8 7).count) ∧
    tight.outCap.toNat < (decoderLane (conf tight)).l2d.outTotal.toNat + (h 0x5D#8 7).size ∧
    (decoderLane s0).l2d.outTotal.toNat + (h 0x5D#8 7).size ≤ (act 3 0 2).outCap.toNat ∧
    ([] : List Byte).length < (h 0x5D#8 7).count ∧
    (h 0x5D#8 7).count ≤ ([1#8, 0#8, 0#8, 0#8, 0#8, 0#8, 0#8] : List Byte).length ∧
    ([1#8, 0#8, 0#8, 0#8, 0#8, 0#8, 0#8] : List Byte).head? ≠ some 0x00#8 := by decide +kernel

/-- After a literal, a match beyond the history in a payload that holds its symbols and in one a byte short; and L2-D7's symbols in a
payload whose last byte is not the encoder's. -/
theorem meets_L2DecChunkErrors_symbols :
    let l := decoderLane s0
    let h (count : Nat) : LzmaHead := { level := 3, pr := 0x5D#8, size := 4, count := count }
    let m := (h 0).encoder (act 3 0 2) [0x61#8, 0x61#8, 0x61#8, 0x61#8] l
    let e := (codedToError [.lit] (.mtch 2 3) (some 0x0103) m).rce
    let payload := (encFlush e).cbuf
    let n := payload.length
    let late : List Byte := [0#8, 0x30#8, 0xC1#8, 0xFC#8, 0#8, 0#8, 1#8]
    (CellsOk l.prob ∧ l.win.cur = l.win.endPos ∧ CodableAll [.lit] m ∧ (Sym.mtch 2 3).Spelled ∧ Sym.total [.lit] < 4 ∧
      (∀ c ∈ [n, n - 1], (h c).InRange ∧ 5 ≤ c ∧ (h c).encoder (act 3 0 2) [0x61#8, 0x61#8, 0x61#8, 0x61#8] l = m) ∧
      (Sym.mtch 2 3).errorCode (codedAll [.lit] m) (some (4 - Sym.total [.lit])) false 0x0902 = some 0x0103 ∧
      e.Reaches payload ∧ payload = payload.take (n - 1) ++ payload.drop (n - 1) ∧ payload = payload.take n ++ [] ∧
      n - 1 < e.digits.length + 4 ∧ e.digits.length + 4 ≤ n) ∧
    (CodableAll [.lit, .mtch 1 3] m ∧ Sym.total [.lit, .mtch 1 3] = 4 ∧ (h 7).InRange ∧ late.take 7 = late ∧
      (codedAll [.lit, .mtch 1 3] m).rce.Reaches late ∧ ¬ (codedAll [.lit, .mtch 1 3] m).rce.EndsAt late) := by
  refine ⟨⟨by decide, by decide, ?_, ?_, by decide, by decide +kernel, by decide +kernel, ⟨0, ?_⟩, ?_⟩, ?_, by decide,
    by decide, by decide, ⟨0, ?_⟩, ?_⟩ <;>
    first | decide +kernel | (simp only [CodableAll, Sym.Codable]; decide +kernel) | (simp only [Sym.Spelled]; decide)

theorem meets_LzmaEncodeCompletes :
    s0.unitsFree ∧ s0.inEof = false ∧ (input [] true).unitsFree ∧ (input [] true).inEof = true := by decide +kernel

/-- LZD-3 with the size, LZD-7 with the end marker. -/
theorem meets_LzmaDecodeDecodesWhatWasCoded :
    let a := act 3 0 2
    let x : List Byte := [0x61#8, 0x61#8, 0x61#8, 0x61#8]
    let l : Lane := { laneInit (some a) with win := { bytes := x, cur := 0, dictSize := a.dictSize } }
    let ys := [Sym.lit, .rep 0 3]
    let payload : List Byte := [0#8, 0x30#8, 0xE8#8, 0x7C#8, 0#8, 0#8, 0#8]
    let marked : List Byte := [0#8, 0x30#8, 0xE8#8, 0xBD#8, 0xFF#8, 0xFF#8, 0xFF#8, 0xFF#8, 0xE0#8, 0#8, 0#8, 0#8]
    s0.unitsFree ∧ s0.act = some a ∧ a.lc.toNat ≤ 8 ∧ a.lp.toNat ≤ 4 ∧ a.pb.toNat ≤ 4 ∧
    CodableAll ys l ∧ Sym.total ys = x.length ∧ x.length ≤ a.outCap.toNat ∧ x.length < 2 ^ 48 - 1 ∧
    (4#48).toNat = x.length ∧ (4#48 : BitVec 48) ≠ BitVec.allOnes 48 ∧
    (encFlush (codedAll ys l).rce).cbuf = payload ∧ (input (payload ++ [9#8]) false).input = payload ++ [9#8] ∧
    (encFlush (Sym.eos.coded (codedAll ys l)).rce).cbuf = marked ∧ (input marked false).input = marked ++ [] := by
  refine ⟨by decide, by decide +kernel, by decide, by decide, by decide, ?_, by decide, by decide, by decide, by decide, by decide,
    by decide +kernel, by decide, by decide +kernel, by decide⟩
  simp only [CodableAll, Sym.Codable]
  decide +kernel

theorem meets_LzmaDecodeErrors :
    let small := conf { act 3 0 2 with outCap := 3#64 }
    let s (bs : List Byte) : State := { small with inp := bs }
    small.unitsFree ∧ small.act = some { act 3 0 2 with outCap := 3#64 } ∧
    (5 ≤ (s [1#8, 0#8, 0#8, 0#8, 0#8]).input.length ∧ (s [1#8, 0#8, 0#8, 0#8, 0#8]).input.head? ≠ some 0x00#8) ∧
    (5 ≤ (s [0#8, 0#8, 0#8, 0#8, 0#8]).input.length ∧ (s [0#8, 0#8, 0#8, 0#8, 0#8]).input.head? = some 0x00#8 ∧
      (4#48 : BitVec 48) ≠ BitVec.allOnes 48 ∧ (3#64).toNat < (4#48).toNat) ∧
    ((s [0#8, 0#8, 0#8, 0#8]).input.length < 5 ∧ (s [0#8, 0#8, 0#8, 0#8]).inEof = false) ∧
    ({ s [0#8, 0#8, 0#8, 0#8] with inEof := true } : State).inEof = true := by decide +kernel


/-- After a literal: a match beyond the history, one too long for the size and one too long for the bound, each with its payload there and
with five bytes of it; and the end marker where the code is not 0. -/
theorem meets_LzmaDecodeErrors_symbols :
    let a := { act 3 0 2 with outCap := 3#64 }
    let l : Lane := { laneInit (some a) with win := { bytes := [0x61#8], cur := 0, dictSize := a.dictSize } }
    let payload (y : Sym) (err : Option Nat) := (encFlush (codedToError [.lit] y err l).rce).cbuf
    let raises (y : Sym) (bound : Nat) (unknown : Bool) (tooLong code : Nat) : Bool :=
      decide (y.errorCode (codedAll [.lit] l) (some (bound - Sym.total [.lit])) unknown tooLong = some code ∧
        (codedToError [.lit] y (some code) l).rce.digits.length + 4 = (payload y (some code)).length ∧
        (codedToError [.lit] y (some code) l).rce.value = bytesValue (payload y (some code)) ∧
        ({ conf a with inp := payload y (some code) } : State).input = payload y (some code) ∧
        5 < (payload y (some code)).length)
    let e := (Sym.eos.coded (codedAll [.lit] l)).rce
    let late := (encFlush e).cbuf.dropLast ++ [1#8]
    (conf a).unitsFree ∧ (conf a).act = some a ∧ CodableAll [.lit] l ∧ (Sym.mtch 2 2).Spelled ∧ (Sym.mtch 1 3).Spelled ∧
    Sym.total [.lit] < 3 ∧ (3#48).toNat ≤ a.outCap.toNat ∧ (3#48 : BitVec 48) ≠ BitVec.allOnes 48 ∧
    raises (.mtch 2 2) 3 false 0x0902 0x0103 = true ∧ raises (.mtch 1 3) 3 false 0x0902 0x0902 = true ∧
    raises (.mtch 1 3) 3 true 0x0104 0x0104 = true ∧ raises .eos 3 false 0x0902 0x0203 = true ∧
    e.Reaches late ∧ bytesValue (late.take (e.digits.length + 4)) ≠ e.value := by
  refine ⟨by decide +kernel, by decide +kernel, ?_, ?_, ?_, by decide, by decide, by decide, by decide +kernel, by decide +kernel,
    by decide +kernel, by decide +kernel, ⟨0, ?_⟩, ?_⟩ <;>
    first | decide +kernel | (simp only [CodableAll, Sym.Codable]; decide +kernel) | (simp only [Sym.Spelled]; decide)

theorem meets_LzmaRoundTrip :
    let s := input [1#8, 1#8] true
    s.unitsFree ∧ s.act = some (act 3 0 2) ∧ (act 3 0 2).Ok s.laneCount ∧ s.inEof = true ∧
    s.input.length ≤ (act 3 0 2).outCap.toNat ∧ s.input.length < 2 ^ 48 - 1 ∧
    ∃ t, exec .lzmaEncode s = .next t ∧
      decide (s0.unitsFree ∧ s0.act = some (act 3 0 2) ∧
        ({ s0 with inp := t.out ++ [9#8] } : State).input = t.out ++ [9#8]) = true :=
  ⟨by decide +kernel, by decide +kernel, by decide +kernel, by decide, by decide, by decide, ends_spec (by decide +kernel)⟩

theorem meets_L2RoundTrip :
    let s := input [1#8, 1#8] true
    s.unitsFree ∧ s.act = some (act 3 0 2) ∧ (act 3 0 2).Ok s.laneCount ∧ (act 3 0 2).threadCount = 1#32 ∧
    (act 3 0 2).lc.toNat + (act 3 0 2).lp.toNat ≤ 4 ∧ s.inEof = true ∧ s.input.length ≤ (act 3 0 2).outCap.toNat ∧
    ∃ t, exec .l2Encode s = .next t ∧
      decide (s0.unitsFree ∧ s0.act = some (act 3 0 2) ∧
        ({ s0 with inp := t.out ++ [9#8] } : State).input = t.out ++ [9#8]) = true :=
  ⟨by decide +kernel, by decide +kernel, by decide +kernel, by decide, by decide, by decide, by decide, ends_spec (by decide +kernel)⟩

/-- A state in mid-hold meets the invariant and steps on. -/
theorem meets_StepKeepsTheInvariant :
    let s : State := { s0 with cq := [0x1800000000000000#64], holding := some [0#8], inp := [1#8] }
    s.Inv ∧ ∃ t, step s = .next t ∧ t.holding.isSome = true :=
  ⟨by decide +kernel, steps_spec (p := fun t => t.holding.isSome) (by decide +kernel)⟩

theorem meets_StepAlwaysAnswers : s0.Inv ∧ session.Inv ∧ decSession.Inv ∧
    step { s0 with agenda := [.host (.csrRead 8 0)] } = .refused .csrAccess :=
  ⟨by decide +kernel, by decide +kernel, by decide +kernel, rfl⟩

/-- An encoder session whose finder has come as far as its parser, the last position's candidates cached. -/
def coded : State := lane fun l =>
  { window [1#8, 1#8] 2 l with l2e := { l.l2e with active := true }, mf := { l.mf with next := 2, cache := some (1, []) } }

theorem coded_finderOk : coded.lane0.FinderOk := by
  refine ⟨sound_empty, fun q list h => ?_, fun _ => Nat.le_refl 2, fun h => (nomatch h)⟩
  obtain ⟨rfl, -⟩ : 1 = q ∧ [] = list := by simpa [coded, lane] using h
  exact Nat.lt_succ_self 1

theorem s0_finderOk : s0.lane0.FinderOk :=
  ⟨sound_empty, fun _ _ h => (nomatch h), fun h => (nomatch h), fun h => (nomatch h)⟩

/-- No session, an encoder session, and a decoder session. -/
theorem meets_StepKeepsTheFinderSound :
    (s0.Inv ∧ s0.lane0.FinderOk) ∧ (coded.Inv ∧ coded.lane0.FinderOk) ∧ (decSession.Inv ∧ decSession.lane0.FinderOk) :=
  ⟨⟨by decide +kernel, s0_finderOk⟩, ⟨by decide +kernel, coded_finderOk⟩, by decide +kernel, sound_empty,
    fun _ _ h => (nomatch h), fun h => (nomatch h), fun _ => rfl⟩

theorem meets_StepStaysInsideTheStore :
    let s := lane fun l => l.setCell 7989 31#11
    s.Inv ∧ s.lane0.CellsExist := by decide +kernel

end Sys2Proof.Tests
end

section
/-! PROOFS. Decisions on both sides of the range coder: coding a decision takes a sub-interval and keeps the encoder sound, and a decoder
that follows the encoder on a payload that continues it reads the decision back (R400, R405, R406, R407, R420, R422, R423, R424). -/

namespace Sys2Proof.Machine

/-! ## The cells -/

theorem probUpdate_pos {p : BitVec 11} {b : Bool} (h : 1 ≤ p.toNat) : 1 ≤ (probUpdate b p).toNat := by
  have hp := p.isLt
  have hstep : (2048 - p.toNat) / 2 ^ 5 < 2048 - p.toNat := Nat.div_lt_self (by omega) (by decide)
  cases b <;> simp only [probUpdate, Bool.false_eq_true, if_false, if_true, BitVec.toNat_ofNat] <;> omega

theorem Lane.cell_pos {l : Lane} {i : Nat} (h : CellsOk l.prob) : 1 ≤ (l.cell i).toNat := by
  rcases Memory.read_mem (d := probMid) (m := l.prob) (a := i) with hd | hm
  · rw [Lane.cell, hd]
    decide
  · exact h.2 _ hm

theorem CellsOk.write {p : Memory (BitVec 11)} {i : Nat} {v : BitVec 11} (h : CellsOk p) (hv : 1 ≤ v.toNat) :
    CellsOk (Memory.write probMid p i v) := by
  refine ⟨Memory.write_wf h.1, fun x hx => ?_⟩
  rcases Memory.mem_write hx with ⟨rfl, -⟩ | hx
  · exact hv
  · exact h.2 x hx

theorem cellsOk_nil : CellsOk [] := ⟨rfl, fun _ h => nomatch h⟩

theorem rangeEnc_fresh_ok : RangeEnc.fresh.Ok := by decide

/-! ## Coding decisions -/

@[simp] theorem codeDecisions_nil {l : Lane} : codeDecisions [] l = l := rfl

@[simp] theorem codeDecisions_cons {d : Decision} {ds : List Decision} {l : Lane} :
    codeDecisions (d :: ds) l = codeDecisions ds (d.code l) := rfl

theorem codeDecisions_append {ds es : List Decision} {l : Lane} :
    codeDecisions (ds ++ es) l = codeDecisions es (codeDecisions ds l) := List.foldl_append

/-- What coding a decision does depends on the cells and the range encoder alone, and changes nothing else. -/
theorem Decision.code_congr {d : Decision} {l m : Lane} (hp : m.prob = l.prob) (he : m.rce = l.rce) :
    d.code m = { m with prob := (d.code l).prob, rce := (d.code l).rce } := by
  cases d with
  | cell i b => simp [Decision.code, encBit, Lane.setCell, Lane.cell, hp, he]
  | direct b => simp [Decision.code, hp, he]

/-- What coding decisions does depends on the cells and the range encoder alone, and changes nothing else. -/
theorem codeDecisions_congr {ds : List Decision} {l m : Lane} (hp : m.prob = l.prob) (he : m.rce = l.rce) :
    codeDecisions ds m = { m with prob := (codeDecisions ds l).prob, rce := (codeDecisions ds l).rce } := by
  induction ds generalizing l m with
  | nil => simp [← hp, ← he]
  | cons d ds ih =>
    have hd := Decision.code_congr (d := d) hp he
    rw [codeDecisions_cons, codeDecisions_cons, ih (l := d.code l) (by rw [hd]) (by rw [hd]), hd]

/-- Coding decisions changes the cells and the range encoder, and nothing else. -/
theorem codeDecisions_frame {ds : List Decision} {l : Lane} :
    codeDecisions ds l = { l with prob := (codeDecisions ds l).prob, rce := (codeDecisions ds l).rce } :=
  codeDecisions_congr rfl rfl

@[simp] theorem codeDecisions_win {ds : List Decision} {l : Lane} : (codeDecisions ds l).win = l.win := by
  rw [codeDecisions_frame]

/-- What an encoder keeps between decisions (R401, R117). -/
abbrev Lane.EncOk (l : Lane) : Prop := l.rce.Ok ∧ CellsOk l.prob

/-- A decision takes a part of the encoder's interval, not all of it, and keeps the encoder sound. -/
theorem Decision.code_takes {d : Decision} {l : Lane} (h : l.EncOk) :
    (∃ add r, l.rce.Takes (d.code l).rce add r ∧ add + r ≤ l.rce.range.toNat ∧ r < l.rce.range.toNat) ∧
    (d.code l).EncOk := by
  obtain ⟨he, hc⟩ := h
  have hr := he.1
  cases d with
  | cell i b =>
    have hp := Lane.cell_pos (i := i) hc
    obtain ⟨hb, hlt⟩ := splitPoint_bounds hr hp
    have ht := encSplit_takes (b := b) he (show 1 ≤ splitPoint l.rce.range (l.cell i) by omega) hlt
    refine ⟨⟨_, _, ht, ?_, ?_⟩, ?_, hc.write (probUpdate_pos hp)⟩
    · cases b <;> simp <;> omega
    · cases b <;> simp <;> omega
    · obtain ⟨_, -, -, -, -, -, -, hok⟩ := ht
      exact hok
  | direct b =>
    have ht := encDirectBit_takes (b := b) he
    refine ⟨⟨_, _, ht, ?_, ?_⟩, ?_, hc⟩
    · cases b <;> simp <;> omega
    · omega
    · obtain ⟨_, -, -, -, -, -, -, hok⟩ := ht
      exact hok

/-- Coding keeps the encoder sound (R401, R117). -/
theorem codeDecisions_encOk {ds : List Decision} {l : Lane} (h : l.EncOk) : (codeDecisions ds l).EncOk := by
  induction ds generalizing l with
  | nil => exact h
  | cons d ds ih => exact ih (Decision.code_takes h).2

/-- A payload that continues the encoder after decisions continues it before them (R405). -/
theorem reaches_of_codeDecisions {ds : List Decision} {l : Lane} {p : List Byte} (h : l.EncOk)
    (hp : (codeDecisions ds l).rce.Reaches p) : l.rce.Reaches p := by
  induction ds generalizing l with
  | nil => exact hp
  | cons d ds ih =>
    obtain ⟨⟨add, r, ht, hr, -⟩, hok⟩ := Decision.code_takes (d := d) h
    exact reaches_of_takes ht hr (ih hok hp)

/-- A decision takes from the range or shifts a byte out: so many decisions need so many bytes (R1126). -/
theorem codeDecisions_turns {ds : List Decision} {l : Lane} (h : l.EncOk) :
    2 ^ 32 * l.rce.digits.length + ds.length + (codeDecisions ds l).rce.range.toNat ≤
      2 ^ 32 * (codeDecisions ds l).rce.digits.length + l.rce.range.toNat := by
  induction ds generalizing l with
  | nil => simp
  | cons d ds ih =>
    obtain ⟨⟨add, r, ⟨k, -, hrange, -, hdig, -⟩, -, hr⟩, hok⟩ := Decision.code_takes (d := d) h
    have htail := ih hok
    have hlt := (d.code l).rce.range.isLt
    have h24 := h.1.1
    rw [codeDecisions_cons, List.length_cons]
    generalize (codeDecisions ds (d.code l)).rce = e' at *
    generalize (d.code l).rce.digits.length = n at *
    generalize (d.code l).rce.range.toNat = r' at *
    generalize l.rce.digits.length = n0 at *
    rcases Nat.eq_zero_or_pos k with rfl | hk
    · simp only [Nat.mul_zero, Nat.pow_zero, Nat.mul_one] at hrange
      omega
    · omega

/-! ## One decision read back (R422, R423, R424) -/

/-- The payload's bytes up to `n + k`, from those up to `n`. -/
theorem bytesValue_take_add {p : List Byte} {n k : Nat} (h : n + k ≤ p.length) :
    bytesValue (p.take (n + k)) = bytesValue (p.take n) * 2 ^ (8 * k) + bytesValue ((p.drop n).take k) ∧
    bytesValue ((p.drop n).take k) < 2 ^ (8 * k) := by
  have hlen : ((p.drop n).take k).length = k := by simp; omega
  refine ⟨by rw [List.take_add, bytesValue_append, hlen], ?_⟩
  have := bytesValue_lt ((p.drop n).take k)
  rwa [hlen] at this

/-- The bytes a decoder has read of a payload that continues the encoder lie in the encoder's interval (R420). -/
theorem RangeEnc.Reaches.firstBytes {e : RangeEnc} {p : List Byte} (h : e.Reaches p) :
    e.digits.length + 4 ≤ p.length ∧ e.value ≤ bytesValue (p.take (e.digits.length + 4)) ∧
      bytesValue (p.take (e.digits.length + 4)) < e.value + e.range.toNat := by
  obtain ⟨k, hlen, hlo, hhi⟩ := h
  obtain ⟨hsplit, hlt⟩ := bytesValue_take_add (p := p) (n := e.digits.length + 4) (k := k) (by omega)
  rw [← hlen, List.take_length] at hsplit
  have hpos : 0 < 2 ^ (8 * k) := Nat.two_pow_pos _
  refine ⟨by omega, ?_, ?_⟩
  · by_contra hc
    have : (bytesValue (p.take (e.digits.length + 4)) + 1) * 2 ^ (8 * k) ≤ e.value * 2 ^ (8 * k) :=
      Nat.mul_le_mul_right _ (by omega)
    rw [Nat.add_mul] at this
    omega
  · exact Nat.lt_of_mul_lt_mul_right (a := 2 ^ (8 * k)) (by omega)

/-- A decoder that follows the encoder before a decision follows it after it: its code names the sub-interval that the encoder took,
and normalising takes the bytes that the encoder shifted out. -/
theorem RangeDec.Follows.step {e e' : RangeEnc} {d : RangeDec} {payload src : List Byte} {add r : Nat} (rest : List Byte)
    (hf : d.Follows e payload src) (ht : e.Takes e' add r) (hr : 1 ≤ r) (hp : e'.Reaches payload) :
    add ≤ d.code.toNat ∧ d.code.toNat < add + r ∧
    ∃ range code,
      decNormOn { d with range := BitVec.ofNat 32 r, code := BitVec.ofNat 32 (d.code.toNat - add) } (src ++ rest) =
        some ({ d with range := range, code := code }, payload.drop (e'.digits.length + 4) ++ rest) ∧
      RangeDec.Follows { d with range := range, code := code } e' payload (payload.drop (e'.digits.length + 4)) := by
  obtain ⟨hrange, hsrc, hlen, hval⟩ := hf
  obtain ⟨k, hk, hrange', hvalue', hdig, -⟩ := ht
  obtain ⟨hlen', hlo, hhi⟩ := hp.firstBytes
  rw [hdig, show e.digits.length + k + 4 = e.digits.length + 4 + k by omega] at hlo hhi
  obtain ⟨hsplit, ht⟩ := bytesValue_take_add (p := payload) (n := e.digits.length + 4) (k := k) (by omega)
  rw [← hsrc] at hsplit ht
  rw [hsplit, hval, hvalue'] at hlo hhi
  rw [hrange'] at hhi
  have hpos : 0 < 2 ^ (8 * k) := Nat.two_pow_pos _
  have hadd : add ≤ d.code.toNat := by
    by_contra hc
    have : (e.value + d.code.toNat + 1) * 2 ^ (8 * k) ≤ (e.value + add) * 2 ^ (8 * k) := Nat.mul_le_mul_right _ (by omega)
    rw [Nat.add_mul] at this
    omega
  have hlt : d.code.toNat < add + r := by
    rw [← Nat.add_mul] at hhi
    have : (e.value + d.code.toNat) * 2 ^ (8 * k) < (e.value + add + r) * 2 ^ (8 * k) := by omega
    have := Nat.lt_of_mul_lt_mul_right this
    omega
  have hr32 := e'.range.isLt
  have hr8 : r ≤ r * 2 ^ (8 * k) := Nat.le_mul_of_pos_right _ hpos
  have hrn : (BitVec.ofNat 32 r).toNat = r := by
    rw [BitVec.toNat_ofNat]
    omega
  have hc32 := d.code.isLt
  have hcn : (BitVec.ofNat 32 (d.code.toNat - add)).toNat = d.code.toNat - add := by
    rw [BitVec.toNat_ofNat]
    omega
  have hsl : src.length = payload.length - (e.digits.length + 4) := by rw [hsrc, List.length_drop]
  obtain ⟨d', hn, hd'⟩ := decNormOn_some
    (d := { d with range := BitVec.ofNat 32 r, code := BitVec.ofNat 32 (d.code.toNat - add) }) (src := src ++ rest) (k := k)
    (by simp only [hrn]; omega) (by simp only [hrn]; exact hk) (by simp; omega)
  rw [RangeDec.Takes, List.take_append_of_le_length (by omega)] at hd'
  rw [List.drop_append_of_le_length (by omega), hsrc, List.drop_drop, ← hsrc] at hn
  simp only [hrn, hcn] at hd'
  refine ⟨hadd, hlt, BitVec.ofNat 32 (r * 2 ^ (8 * k)),
    BitVec.ofNat 32 ((d.code.toNat - add) * 2 ^ (8 * k) + bytesValue (src.take k)), ?_, ?_⟩
  · rw [hn, hd', hdig, show e.digits.length + 4 + k = e.digits.length + k + 4 by omega]
  · have hcode : (BitVec.ofNat 32 ((d.code.toNat - add) * 2 ^ (8 * k) + bytesValue (src.take k))).toNat =
        (d.code.toNat - add) * 2 ^ (8 * k) + bytesValue (src.take k) := by
      rw [BitVec.toNat_ofNat, Nat.mod_eq_of_lt]
      have : (d.code.toNat - add + 1) * 2 ^ (8 * k) ≤ r * 2 ^ (8 * k) := Nat.mul_le_mul_right _ (by omega)
      rw [Nat.add_mul] at this
      omega
    refine ⟨BitVec.eq_of_toNat_eq (by rw [BitVec.toNat_ofNat, ← hrange']; omega), rfl, hlen', ?_⟩
    rw [hdig, show e.digits.length + k + 4 = e.digits.length + 4 + k by omega, hsplit, hval, hvalue', hcode, Nat.add_mul,
      Nat.add_mul, Nat.sub_mul]
    have : add * 2 ^ (8 * k) ≤ d.code.toNat * 2 ^ (8 * k) := Nat.mul_le_mul_right _ hadd
    omega

/-! ## Computations that read decisions -/

/-- The decoding computation `c` stands where the encoder lane `l` stood on `payload`, which `rest` follows in the source. -/
structure InStep (payload rest : List Byte) (l : Lane) (c : DecCtx) : Prop where
  encOk : l.EncOk
  prob : c.lane.prob = l.prob
  follows : c.lane.rcd.Follows l.rce payload (payload.drop (l.rce.digits.length + 4))
  src : c.src = payload.drop (l.rce.digits.length + 4) ++ rest

/-- The context with the cells, the decoder's registers and the source that reading decisions changes. -/
def DecCtx.reading (c : DecCtx) (p : Memory (BitVec 11)) (range code : BitVec 32) (src : List Byte) : DecCtx :=
  { c with lane := { c.lane with prob := p, rcd := { c.lane.rcd with range := range, code := code } }, src := src }

/-- Where the encoder's cells and range encoder are the same, so is the decoder's place. -/
theorem InStep.congr {payload rest : List Byte} {l m : Lane} {c : DecCtx} (h : InStep payload rest l c)
    (hp : m.prob = l.prob) (he : m.rce = l.rce) : InStep payload rest m c := by
  obtain ⟨hok, hprob, hf, hs⟩ := h
  exact ⟨by rw [Lane.EncOk, hp, he]; exact hok, by rw [hp]; exact hprob, by rw [he]; exact hf, by rw [he]; exact hs⟩

/-- The computation reads the decisions `ds` and answers `v`: from where the encoder stood to where it stands after them, on any payload
that continues the encoder. -/
def Reads {α : Type} (ds : List Decision) (f : DecCtx → Res DecCtx α) (v : α) : Prop :=
  ∀ (payload rest : List Byte) (l : Lane) (c : DecCtx),
    InStep payload rest l c → (codeDecisions ds l).rce.Reaches payload →
    ∃ p range code src, f c = .ok v (c.reading p range code src) ∧
      InStep payload rest (codeDecisions ds l) (c.reading p range code src)

theorem Reads.pure {α : Type} {v : α} : Reads [] (fun c => .ok v c) v :=
  fun _ _ _ c h _ => ⟨c.lane.prob, c.lane.rcd.range, c.lane.rcd.code, c.src, rfl, h⟩

theorem Reads.bind {α β : Type} {ds es : List Decision} {f : DecCtx → Res DecCtx α} {k : α → DecCtx → Res DecCtx β}
    {v : α} {w : β}
    (hf : Reads ds f v) (hk : Reads es (k v) w) : Reads (ds ++ es) (fun c => (f c).bind k) w := by
  intro payload rest l c h hp
  rw [codeDecisions_append] at hp ⊢
  obtain ⟨p, r, code, src, h1, h2⟩ := hf payload rest l c h (reaches_of_codeDecisions (codeDecisions_encOk h.encOk) hp)
  obtain ⟨p', r', code', src', h3, h4⟩ := hk payload rest _ _ h2 hp
  exact ⟨p', r', code', src', by simp only [h1, Res.bind_ok]; exact h3, h4⟩

theorem Reads.map {α β : Type} {ds : List Decision} {f : DecCtx → Res DecCtx α} {v : α} {g : α → β} (hf : Reads ds f v) :
    Reads ds (fun c => (f c).bind fun x c => .ok (g x) c) (g v) := by
  have := hf.bind (k := fun x c => .ok (g x) c) Reads.pure
  rwa [List.append_nil] at this

/-- The last steps of reading a decision, for the sub-interval the encoder took. -/
theorem InStep.normalise {payload rest : List Byte} {l l' : Lane} {c : DecCtx} {add r : Nat} (h : InStep payload rest l c)
    (hok : l'.EncOk) (ht : l.rce.Takes l'.rce add r) (hr : 1 ≤ r) (hp : l'.rce.Reaches payload) :
    add ≤ c.lane.rcd.code.toNat ∧ c.lane.rcd.code.toNat < add + r ∧
    ∃ range code src,
      decNorm (c.reading l'.prob (BitVec.ofNat 32 r) (BitVec.ofNat 32 (c.lane.rcd.code.toNat - add)) c.src) =
        .ok () (c.reading l'.prob range code src) ∧
      InStep payload rest l' (c.reading l'.prob range code src) := by
  obtain ⟨h1, h2, range, code, h3, h4⟩ := h.follows.step rest ht hr hp
  refine ⟨h1, h2, range, code, _, ?_, ⟨hok, rfl, h4, rfl⟩⟩
  simp only [decNorm, DecCtx.reading, h.src, h3]

/-- A bit with a cell is read back (R422). -/
theorem reads_cell {i : Nat} {b : Bool} : Reads [.cell i b] (decBit i) b := by
  intro payload rest l c h hp
  obtain ⟨he, hc⟩ := h.encOk
  have hpos := Lane.cell_pos (i := i) hc
  obtain ⟨hb, hlt⟩ := splitPoint_bounds he.1 hpos
  have hcell : c.lane.cell i = l.cell i := by rw [Lane.cell, Lane.cell, h.prob]
  have hrange : c.lane.rcd.range = l.rce.range := h.follows.1
  have hcode := c.lane.rcd.code.isLt
  have ht := encSplit_takes (b := b) he (show 1 ≤ splitPoint l.rce.range (l.cell i) by omega) hlt
  obtain ⟨h1, h2, range, code, src, h3, h4⟩ := h.normalise (Decision.code_takes (d := .cell i b) h.encOk).2 ht
    (by cases b <;> simp <;> omega) hp
  refine ⟨_, range, code, src, ?_, h4⟩
  have hchoice : decChoice (splitPoint l.rce.range (l.cell i)) c.lane.rcd = b := by
    cases b <;> simp [decChoice] at h1 h2 ⊢ <;> omega
  have hsplit : decSplit (splitPoint l.rce.range (l.cell i)) c.lane.rcd =
      { c.lane.rcd with
        range := BitVec.ofNat 32 (if b then l.rce.range.toNat - splitPoint l.rce.range (l.cell i)
          else splitPoint l.rce.range (l.cell i))
        code := BitVec.ofNat 32 (c.lane.rcd.code.toNat - if b then splitPoint l.rce.range (l.cell i) else 0) } := by
    rw [decSplit, hchoice, hrange]
    cases b <;> simp
  have hlane : (Decision.code (.cell i b) l).prob = Memory.write probMid l.prob i (probUpdate b (l.cell i)) := rfl
  rw [hlane] at h3
  simp only [decBit, hcell, hrange, hchoice, hsplit, Lane.setCell, h.prob]
  simp only [DecCtx.reading] at h3 ⊢
  rw [h3]
  rfl

/-- A direct bit is read back (R423). -/
theorem reads_direct {b : Bool} : Reads [.direct b] decDirectBit b := by
  intro payload rest l c h hp
  have he := h.encOk.1
  have hrange : c.lane.rcd.range = l.rce.range := h.follows.1
  have h24 := he.1
  obtain ⟨h1, h2, range, code, src, h3, h4⟩ := h.normalise (Decision.code_takes (d := .direct b) h.encOk).2
    (encDirectBit_takes (b := b) he) (by omega) hp
  refine ⟨_, range, code, src, ?_, h4⟩
  have hchoice : decide (l.rce.range.toNat / 2 ≤ c.lane.rcd.code.toNat) = b := by
    cases b <;> simp at h1 h2 ⊢ <;> omega
  have hcode : (if b = true then BitVec.ofNat 32 (c.lane.rcd.code.toNat - l.rce.range.toNat / 2) else c.lane.rcd.code) =
      BitVec.ofNat 32 (c.lane.rcd.code.toNat - if b then l.rce.range.toNat / 2 else 0) := by
    cases b <;> simp
  have hlane : (Decision.code (.direct b) l).prob = l.prob := rfl
  rw [hlane, ← h.prob] at h3
  simp only [decDirectBit, hrange, hchoice, hcode, hlane, ← h.prob]
  simp only [DecCtx.reading] at h3 ⊢
  rw [h3]
  rfl

theorem Reads.cell_bind {α : Type} {i : Nat} {b : Bool} {ds : List Decision} {k : Bool → DecCtx → Res DecCtx α} {v : α}
    (hk : Reads ds (k b) v) : Reads (.cell i b :: ds) (fun c => (decBit i c).bind k) v := reads_cell.bind hk

/-! ## The ends of a payload (R421, R425) -/

/-- A register that takes in a byte keeps the low bits of the value shifted up (R421). -/
theorem shiftIn {x y : Nat} : BitVec.ofNat 32 ((BitVec.ofNat 32 x).toNat * 2 ^ 8 + y) = BitVec.ofNat 32 (x * 2 ^ 8 + y) := by
  apply BitVec.eq_of_toNat_eq
  simp only [BitVec.toNat_ofNat]
  rw [Nat.add_mod, Nat.mod_mul_mod, ← Nat.add_mod]

theorem bytesValue_five {b0 b1 b2 b3 b4 : Byte} :
    bytesValue [b0, b1, b2, b3, b4] =
      2 ^ 32 * b0.toNat + 2 ^ 24 * b1.toNat + 2 ^ 16 * b2.toNat + 2 ^ 8 * b3.toNat + b4.toNat := by
  simp only [bytesValue, List.foldl]
  ring

/-- `DecInit` on a payload of a fresh encoder: the decoder stands at the encoder's start, its first byte good (R421). -/
theorem decInit_inStep {l : Lane} {c : DecCtx} {payload rest : List Byte} (hok : l.EncOk) (hl : l.rce = RangeEnc.fresh)
    (hp : l.rce.Reaches payload) (hprob : c.lane.prob = l.prob) (hsrc : c.src = payload ++ rest) :
    ∃ code, let d : RangeDec := { range := 0xFFFFFFFF#32, code := code, inited := true, initBad := false }
      let c' : DecCtx := { c with lane := { c.lane with rcd := d }, src := payload.drop 5 ++ rest }
      decInit c = .ok () c' ∧ InStep payload rest l c' := by
  obtain ⟨hlen, -, hhi⟩ := hp.firstBytes
  have hdig : l.rce.digits.length + 4 = 5 := by rw [hl]; rfl
  have hval : l.rce.value = 0 := by rw [hl]; rfl
  have hrange : l.rce.range.toNat = 0xFFFFFFFF := by rw [hl]; rfl
  rw [hdig] at hlen hhi
  obtain ⟨b0, b1, b2, b3, b4, tail, rfl⟩ : ∃ b0 b1 b2 b3 b4 tail, payload = b0 :: b1 :: b2 :: b3 :: b4 :: tail := by
    match payload, hlen with
    | b0 :: b1 :: b2 :: b3 :: b4 :: tail, _ => exact ⟨b0, b1, b2, b3, b4, tail, rfl⟩
  rw [show (b0 :: b1 :: b2 :: b3 :: b4 :: tail).take 5 = [b0, b1, b2, b3, b4] from rfl, bytesValue_five, hval, hrange] at hhi
  have h1 := b1.isLt
  have h2 := b2.isLt
  have h3 := b3.isLt
  have h4 := b4.isLt
  have h0 : b0 = 0#8 := BitVec.eq_of_toNat_eq (by simp; omega)
  subst h0
  have htake : decInit c = .ok () { c with
      lane := { c.lane with
        rcd := {
          range := 0xFFFFFFFF#32
          code := BitVec.ofNat 32 (2 ^ 24 * b1.toNat + 2 ^ 16 * b2.toNat + 2 ^ 8 * b3.toNat + b4.toNat)
          inited := true
          initBad := false } }
      src := tail ++ rest } := by
    have hcode : BitVec.ofNat 32 ((BitVec.ofNat 32 ((BitVec.ofNat 32 ((BitVec.ofNat 32 ((0#32).toNat * 2 ^ 8 + b1.toNat)).toNat *
        2 ^ 8 + b2.toNat)).toNat * 2 ^ 8 + b3.toNat)).toNat * 2 ^ 8 + b4.toNat) =
        BitVec.ofNat 32 (2 ^ 24 * b1.toNat + 2 ^ 16 * b2.toNat + 2 ^ 8 * b3.toNat + b4.toNat) := by
      simp only [shiftIn]
      refine congrArg (BitVec.ofNat 32) ?_
      ring
    simp only [decInit, takeByte, hsrc, decInitCode, List.cons_append, Res.bind_ok, bne_self_eq_false, hcode]
  refine ⟨_, htake, hok, hprob, ⟨?_, rfl, ?_, ?_⟩, ?_⟩
  · rw [hl]
    rfl
  · exact hdig ▸ hlen
  · rw [hdig, hval, show (0#8 :: b1 :: b2 :: b3 :: b4 :: tail).take 5 = [0#8, b1, b2, b3, b4] from rfl, bytesValue_five,
      BitVec.toNat_ofNat, BitVec.toNat_ofNat]
    omega
  · rw [hdig]

/-- A decoder in step with an encoder whose payload ends here has code 0 and nothing left but `rest` (R425). -/
theorem InStep.at_end {payload rest : List Byte} {l : Lane} {c : DecCtx} (h : InStep payload rest l c) (he : l.rce.EndsAt payload) :
    c.lane.rcd.code = 0#32 ∧ c.src = rest := by
  obtain ⟨-, -, -, hval⟩ := h.follows
  rw [← he.1, List.take_length, he.2] at hval
  refine ⟨BitVec.eq_of_toNat_eq (by simp; omega), ?_⟩
  rw [h.src, ← he.1, List.drop_length]
  rfl

/-- The flush's bytes are a payload that ends at the encoder (R408, R425). -/
theorem encFlush_endsAt {e : RangeEnc} (h : e.Ok) : e.EndsAt (encFlush e).cbuf := by
  obtain ⟨hval, hlen, -⟩ := encFlush_spec h
  have := h.2.2.1
  refine ⟨?_, hval⟩
  simp [hlen, pendingSize, RangeEnc.digits]
  omega

theorem RangeEnc.EndsAt.reaches {e : RangeEnc} {p : List Byte} (h : e.EndsAt p) (hok : e.Ok) : e.Reaches p := by
  have := hok.1
  exact ⟨0, h.1, by simp [h.2], by simp [h.2]; omega⟩

end Sys2Proof.Machine
end

section
/-! PROOFS. The coders built on the probability store code the decisions of R520 to R552, and their decoders read them back. -/

namespace Sys2Proof.Machine

/-! ## Lists of decisions, one at a time -/

/-- A forward tree from node `m`, the `n` low bits of `v` to come (R520). -/
def treeFrom (base v : Nat) : Nat → Nat → List Decision
  | 0, _ => []
  | n + 1, m => .cell (base + m) (v.testBit n) :: treeFrom base v n (2 * m + (v.testBit n).toNat)

/-- A reverse tree from bit `k` (R521). -/
def reverseFrom (base v : Nat) : Nat → Nat → List Decision
  | 0, _ => []
  | n + 1, k => .cell (base + reverseNode v k) (v.testBit k) :: reverseFrom base v n (k + 1)

/-- The `n` low bits of `v` as direct bits (R407). -/
def directFrom (v : Nat) : Nat → List Decision
  | 0 => []
  | n + 1 => .direct (v.testBit n) :: directFrom v n

/-- A matched literal's bits `k - 1` down to 0 (R552). -/
def matchedFrom (base b mb : Nat) : Nat → List Decision
  | 0 => []
  | k + 1 =>
    .cell (matchedCell base (if b / 2 ^ (k + 1) = mb / 2 ^ (k + 1) then 0x100 else 0) (2 ^ (7 - k) + b / 2 ^ (k + 1)) (mb.testBit k))
      (b.testBit k) :: matchedFrom base b mb k

theorem mod_two_pow_succ (v n : Nat) : v % 2 ^ (n + 1) = (v.testBit n).toNat * 2 ^ n + v % 2 ^ n := by
  rw [Nat.mod_pow_succ, Nat.toNat_testBit]
  ring

theorem div_two_pow_eq (b k : Nat) : b / 2 ^ k = 2 * (b / 2 ^ (k + 1)) + (b.testBit k).toNat := by
  rw [Nat.toNat_testBit, Nat.pow_succ, ← Nat.div_div_eq_div_mul]
  omega

theorem treeFrom_eq {base v n m : Nat} :
    treeFrom base v n m =
      (List.range n).map fun j => .cell (base + m * 2 ^ j + v % 2 ^ n / 2 ^ (n - j)) (v.testBit (n - 1 - j)) := by
  induction n generalizing m with
  | zero => rfl
  | succ n ih =>
    rw [treeFrom, ih, List.range_succ_eq_map, List.map_cons, List.map_map]
    congr 1
    · simp [Nat.div_eq_of_lt (Nat.mod_lt v (Nat.two_pow_pos (n + 1)))]
    · refine List.map_congr_left fun j hj => ?_
      have hj : j < n := List.mem_range.mp hj
      have hsplit : 2 ^ n = 2 ^ j * 2 ^ (n - j) := by rw [← Nat.pow_add]; congr 1; omega
      have hdiv : v % 2 ^ (n + 1) / 2 ^ (n - j) = (v.testBit n).toNat * 2 ^ j + v % 2 ^ n / 2 ^ (n - j) := by
        rw [mod_two_pow_succ, hsplit, ← Nat.mul_assoc, Nat.add_comm, Nat.add_mul_div_right _ _ (Nat.two_pow_pos _), Nat.add_comm]
      simp only [Function.comp, Nat.succ_eq_add_one, Decision.cell.injEq]
      rw [show n + 1 - (j + 1) = n - j by omega, show n + 1 - 1 - (j + 1) = n - 1 - j by omega, hdiv, Nat.pow_succ]
      exact ⟨by ring, rfl⟩

theorem treeDecisions_eq {base n v : Nat} : treeDecisions base n v = treeFrom base v n 1 := by
  simp [treeFrom_eq, treeDecisions]

theorem reverseNode_succ {v k : Nat} : reverseNode v (k + 1) = 2 * reverseNode v k + (v.testBit k).toNat := by
  simp [reverseNode, List.range_succ]

theorem reverseFrom_eq {base v n k : Nat} :
    reverseFrom base v n k = (List.range n).map fun j => .cell (base + reverseNode v (k + j)) (v.testBit (k + j)) := by
  induction n generalizing k with
  | zero => rfl
  | succ n ih =>
    rw [reverseFrom, ih, List.range_succ_eq_map, List.map_cons, List.map_map]
    congr 1
    refine List.map_congr_left fun j _ => ?_
    simp only [Function.comp, Nat.succ_eq_add_one, show k + 1 + j = k + (j + 1) by omega]

theorem reverseDecisions_eq {base n v : Nat} : reverseDecisions base n v = reverseFrom base v n 0 := by
  simp [reverseFrom_eq, reverseDecisions]

theorem directDecisions_eq {v n : Nat} : directDecisions v n = directFrom v n := by
  induction n with
  | zero => rfl
  | succ n ih =>
    rw [directFrom, ← ih, directDecisions, List.range_succ_eq_map, List.map_cons, List.map_map, directDecisions]
    congr 1
    refine List.map_congr_left fun j hj => ?_
    simp only [Function.comp, Nat.succ_eq_add_one, show n + 1 - 1 - (j + 1) = n - 1 - j by omega]

theorem matchedFrom_eq {base b mb k : Nat} (hk : k ≤ 8) :
    matchedFrom base b mb k = (List.range k).map fun i =>
      let j := 8 - k + i
      .cell
        (base + (if b / 2 ^ (8 - j) = mb / 2 ^ (8 - j) then (if mb.testBit (7 - j) then 0x200 else 0x100) else 0) + 2 ^ j +
          b / 2 ^ (8 - j))
        (b.testBit (7 - j)) := by
  induction k with
  | zero => rfl
  | succ k ih =>
    rw [matchedFrom, ih (by omega), List.range_succ_eq_map, List.map_cons, List.map_map]
    congr 1
    · simp only [Nat.add_zero, show 8 - (k + 1) = 7 - k by omega, show 8 - (7 - k) = k + 1 by omega,
        show 7 - (7 - k) = k by omega, matchedCell]
      split <;> split <;> simp <;> omega
    · refine List.map_congr_left fun j hj => ?_
      simp only [Function.comp, Nat.succ_eq_add_one, show 8 - (k + 1) + (j + 1) = 8 - k + j by omega]

theorem matchedDecisions_eq {base b mb : Nat} : matchedDecisions base b mb = matchedFrom base b mb 8 := by
  rw [matchedFrom_eq (Nat.le_refl 8)]
  simp [matchedDecisions]

/-! ## The coders code them -/

theorem treeEncFrom_eq {base v n m : Nat} {l : Lane} : treeEncFrom base v n m l = codeDecisions (treeFrom base v n m) l := by
  induction n generalizing m l with
  | zero => rfl
  | succ n ih => exact ih

theorem treeEnc_eq {base n v : Nat} {l : Lane} : treeEnc base n v l = codeDecisions (treeDecisions base n v) l := by
  rw [treeDecisions_eq]
  exact treeEncFrom_eq

theorem rtreeEncFrom_eq {base v n k : Nat} {l : Lane} :
    rtreeEncFrom base v n k (reverseNode v k) l = codeDecisions (reverseFrom base v n k) l := by
  induction n generalizing k l with
  | zero => rfl
  | succ n ih => rw [rtreeEncFrom, ← reverseNode_succ, ih]; rfl

theorem rtreeEnc_eq {base n v : Nat} {l : Lane} : rtreeEnc base n v l = codeDecisions (reverseDecisions base n v) l := by
  rw [reverseDecisions_eq]
  exact rtreeEncFrom_eq (k := 0)

theorem encDirect_eq {v n : Nat} {l : Lane} : encDirect v n l = codeDecisions (directDecisions v n) l := by
  rw [directDecisions_eq]
  induction n generalizing l with
  | zero => rfl
  | succ n ih => exact ih (l := (Decision.direct (v.testBit n)).code l)

theorem lenEnc_eq {base len ps : Nat} {l : Lane} (h : 2 ≤ len) :
    lenEnc base len ps l = codeDecisions (lengthDecisions base len ps) l := by
  simp only [lenEnc, lengthDecisions, treeEnc_eq]
  by_cases h9 : len ≤ 9
  · rw [if_pos (by omega), if_pos h9]
    rfl
  · rw [if_neg (by omega), if_neg h9]
    by_cases h17 : len ≤ 17
    · rw [if_pos (by omega), if_pos h17, show len - 2 - 8 = len - 10 by omega]
      rfl
    · rw [if_neg (by omega), if_neg h17, show len - 2 - 16 = len - 18 by omega]
      rfl

theorem distEnc_eq {d0 len : Nat} {l : Lane} : distEnc d0 len l = codeDecisions (distanceDecisions d0 len) l := by
  simp only [distEnc, distanceDecisions, treeEnc_eq, rtreeEnc_eq, encDirect_eq, distSlotBase, lenState, footerBits, slotBase,
    distSpecialBase, distAlignBase]
  rw [codeDecisions_append]
  split
  · rfl
  · split
    · rfl
    · rw [codeDecisions_append]
      rfl

theorem litEncMatchedFrom_eq {base b mb k : Nat} {l : Lane} (hk : k ≤ 8) :
    litEncMatchedFrom base b mb k (if b / 2 ^ k = mb / 2 ^ k then 0x100 else 0) (2 ^ (8 - k) + b / 2 ^ k) l =
      codeDecisions (matchedFrom base b mb k) l := by
  induction k generalizing l with
  | zero => rfl
  | succ k ih =>
    rw [litEncMatchedFrom, matchedFrom, codeDecisions_cons, ← ih (by omega), show 8 - (k + 1) = 7 - k by omega]
    have hm := div_two_pow_eq b k
    have hmb := div_two_pow_eq mb k
    have hoff : (if b.testBit k = mb.testBit k then (if b / 2 ^ (k + 1) = mb / 2 ^ (k + 1) then 0x100 else 0) else 0) =
        if b / 2 ^ k = mb / 2 ^ k then 0x100 else 0 := by
      rw [hm, hmb]
      cases b.testBit k <;> cases mb.testBit k <;> simp <;> omega
    have hnode : 2 * (2 ^ (7 - k) + b / 2 ^ (k + 1)) + (b.testBit k).toNat = 2 ^ (8 - k) + b / 2 ^ k := by
      rw [hm, show 8 - k = 7 - k + 1 by omega, Nat.pow_succ]
      ring
    rw [hoff, hnode]
    rfl

theorem litEncMatched_eq {base : Nat} {b mb : Byte} {l : Lane} :
    litEncMatched base b mb l = codeDecisions (matchedDecisions base b.toNat mb.toNat) l := by
  have hb := b.isLt
  have hmb := mb.isLt
  rw [matchedDecisions_eq, ← litEncMatchedFrom_eq (Nat.le_refl 8), Nat.div_eq_of_lt hb, Nat.div_eq_of_lt hmb]
  rfl

theorem litEnc_eq {base : Nat} {b : Byte} {l : Lane} : litEnc base b l = codeDecisions (treeDecisions base 8 b.toNat) l :=
  treeEnc_eq

/-! ## The decoders read them back -/

theorem reads_treeFrom {base v n m : Nat} : Reads (treeFrom base v n m) (treeDecFrom base n m) (m * 2 ^ n + v % 2 ^ n) := by
  induction n generalizing m with
  | zero => simpa [treeDecFrom, treeFrom, Nat.mod_one] using Reads.pure
  | succ n ih =>
    have hval : m * 2 ^ (n + 1) + v % 2 ^ (n + 1) = (2 * m + (v.testBit n).toNat) * 2 ^ n + v % 2 ^ n := by
      rw [mod_two_pow_succ]
      ring
    rw [hval]
    exact Reads.cell_bind ih

/-- A forward tree reads back its value (R520). -/
theorem reads_tree {base n v : Nat} (h : v < 2 ^ n) : Reads (treeDecisions base n v) (treeDec base n) v := by
  have := (reads_treeFrom (base := base) (v := v) (n := n) (m := 1)).map (g := fun m => m - 2 ^ n)
  rwa [Nat.mod_eq_of_lt h, Nat.one_mul, Nat.add_sub_cancel_left, ← treeDecisions_eq] at this

theorem reads_reverseFrom {base v n k r : Nat} :
    Reads (reverseFrom base v n k) (rtreeDecFrom base n k (reverseNode v k) r) (r + v / 2 ^ k % 2 ^ n * 2 ^ k) := by
  induction n generalizing k r with
  | zero => simpa [rtreeDecFrom, reverseFrom, Nat.mod_one] using Reads.pure
  | succ n ih =>
    have hbit : v / 2 ^ k % 2 ^ (n + 1) = (v.testBit k).toNat + 2 * (v / 2 ^ (k + 1) % 2 ^ n) := by
      rw [Nat.toNat_testBit, Nat.pow_succ' (n := n), Nat.mod_mul, Nat.div_div_eq_div_mul, Nat.pow_succ]
    have hval : r + v / 2 ^ k % 2 ^ (n + 1) * 2 ^ k =
        r + (v.testBit k).toNat * 2 ^ k + v / 2 ^ (k + 1) % 2 ^ n * 2 ^ (k + 1) := by
      rw [hbit]
      ring
    rw [hval]
    refine Reads.cell_bind ?_
    rw [← reverseNode_succ]
    exact ih

/-- A reverse tree reads back its value (R521). -/
theorem reads_reverse {base n v : Nat} (h : v < 2 ^ n) : Reads (reverseDecisions base n v) (rtreeDec base n) v := by
  have := reads_reverseFrom (base := base) (v := v) (n := n) (k := 0) (r := 0)
  rwa [Nat.zero_add, Nat.pow_zero, Nat.div_one, Nat.mul_one, Nat.mod_eq_of_lt h, ← reverseDecisions_eq] at this

theorem reads_directFrom {v n r : Nat} : Reads (directFrom v n) (decDirectFrom n r) (r * 2 ^ n + v % 2 ^ n) := by
  induction n generalizing r with
  | zero => simpa [decDirectFrom, directFrom, Nat.mod_one] using Reads.pure
  | succ n ih =>
    have hval : r * 2 ^ (n + 1) + v % 2 ^ (n + 1) = (2 * r + (v.testBit n).toNat) * 2 ^ n + v % 2 ^ n := by
      rw [mod_two_pow_succ]
      ring
    rw [hval]
    exact reads_direct.bind ih

/-- Direct bits read back their value (R423). -/
theorem reads_directBits {v n : Nat} (h : v < 2 ^ n) : Reads (directDecisions v n) (decDirect n) v := by
  have := reads_directFrom (v := v) (n := n) (r := 0)
  rwa [Nat.zero_mul, Nat.zero_add, Nat.mod_eq_of_lt h, ← directDecisions_eq] at this

/-- A length is read back (R530). -/
theorem reads_length {base len ps : Nat} (h2 : 2 ≤ len) (h273 : len ≤ 273) :
    Reads (lengthDecisions base len ps) (lenDec base ps) len := by
  unfold lenDec
  by_cases h9 : len ≤ 9
  · rw [lengthDecisions, if_pos h9]
    refine Reads.cell_bind ?_
    have := (reads_tree (base := base + 2 + ps * 8) (n := 3) (v := len - 2) (by omega)).map (g := fun v => 2 + v)
    rwa [show 2 + (len - 2) = len by omega] at this
  · by_cases h17 : len ≤ 17
    · rw [lengthDecisions, if_neg h9, if_pos h17]
      refine Reads.cell_bind (Reads.cell_bind ?_)
      have := (reads_tree (base := base + 130 + ps * 8) (n := 3) (v := len - 10) (by omega)).map (g := fun v => 10 + v)
      rwa [show 10 + (len - 10) = len by omega] at this
    · rw [lengthDecisions, if_neg h9, if_neg h17]
      refine Reads.cell_bind (Reads.cell_bind ?_)
      have := (reads_tree (base := base + 258) (n := 8) (v := len - 18) (by omega)).map (g := fun v => 18 + v)
      rwa [show 18 + (len - 18) = len by omega] at this

/-- The slot's range holds the distance (R540, R545). -/
theorem slotOf_spec {d0 : Nat} (h : d0 < 2 ^ 32) :
    slotOf d0 < 64 ∧ (slotOf d0 < 4 → d0 = slotOf d0) ∧
    (4 ≤ slotOf d0 → slotBase (slotOf d0) ≤ d0 ∧ d0 < slotBase (slotOf d0) + 2 ^ footerBits (slotOf d0)) := by
  by_cases h4 : d0 < 4
  · have hs : slotOf d0 = d0 := if_pos h4
    omega
  · have hs : slotOf d0 = 2 * Nat.log2 d0 + (d0.testBit (Nat.log2 d0 - 1)).toNat := if_neg h4
    have hlo := Nat.log2_self_le (n := d0) (by omega)
    have hhi := Nat.lt_log2_self (n := d0)
    have hlog : 2 ≤ Nat.log2 d0 := (Nat.le_log2 (by omega)).mpr (by omega)
    have hlog32 : Nat.log2 d0 < 32 := (Nat.log2_lt (by omega)).mpr h
    obtain ⟨n, hn⟩ : ∃ n, Nat.log2 d0 = n + 1 := ⟨Nat.log2 d0 - 1, by omega⟩
    rw [hn] at hs hlo hhi hlog hlog32
    simp only [Nat.add_sub_cancel] at hs
    have htop : d0 / 2 ^ (n + 1) = 1 := by
      apply Nat.div_eq_of_lt_le
      · simpa using hlo
      · rw [← Nat.pow_succ']; exact hhi
    have hbits := div_two_pow_eq d0 n
    rw [htop] at hbits
    have hmod := Nat.div_add_mod d0 (2 ^ n)
    have hlt := Nat.mod_lt d0 (Nat.two_pow_pos n)
    have hb : (d0.testBit n).toNat ≤ 1 := Bool.toNat_le _
    have hfb : footerBits (slotOf d0) = n := by
      rw [footerBits]
      omega
    have hbase : slotBase (slotOf d0) = (2 + (d0.testBit n).toNat) * 2 ^ n := by
      rw [slotBase, hfb]
      congr 2
      omega
    rw [hbits, Nat.mul_one, Nat.mul_comm] at hmod
    refine ⟨by omega, by omega, fun _ => ?_⟩
    rw [hfb, hbase]
    omega

/-- A distance is read back (R544). -/
theorem reads_distance {d0 len : Nat} (h : d0 < 2 ^ 32) : Reads (distanceDecisions d0 len) (distDec len) d0 := by
  obtain ⟨h64, hsmall, hbig⟩ := slotOf_spec h
  unfold distDec
  refine (reads_tree (base := 432 + min (len - 2) 3 * 64) (n := 6) (v := slotOf d0) (by omega)).bind ?_
  rw [← footerBits, ← slotBase]
  by_cases h4 : slotOf d0 < 4
  · have h0 := hsmall h4
    simp only [if_pos h4]
    rw [← h0]
    exact Reads.pure
  · obtain ⟨hlo, hhi⟩ := hbig (by omega)
    simp only [if_neg h4]
    by_cases h14 : slotOf d0 < 14
    · simp only [if_pos h14]
      have := (reads_reverse (base := distSpecialBase (slotOf d0)) (n := footerBits (slotOf d0))
        (v := d0 - slotBase (slotOf d0)) (by omega)).map (g := fun r => slotBase (slotOf d0) + r)
      rwa [show slotBase (slotOf d0) + (d0 - slotBase (slotOf d0)) = d0 by omega] at this
    · simp only [if_neg h14]
      have hf : 4 ≤ footerBits (slotOf d0) := by
        rw [footerBits]
        omega
      generalize hr : d0 - slotBase (slotOf d0) = r
      have hdiv : r / 2 ^ 4 < 2 ^ (footerBits (slotOf d0) - 4) := by
        rw [Nat.div_lt_iff_lt_mul (by decide), ← Nat.pow_add, Nat.sub_add_cancel hf]
        omega
      refine (reads_directBits hdiv).bind ?_
      have := (reads_reverse (base := distAlignBase) (Nat.mod_lt r (Nat.two_pow_pos 4))).map
        (g := fun lo => slotBase (slotOf d0) + r / 2 ^ 4 * 16 + lo)
      rwa [show slotBase (slotOf d0) + r / 2 ^ 4 * 16 + r % 2 ^ 4 = d0 by omega] at this

theorem reads_matchedFrom {base b mb k : Nat} (hk : k ≤ 8) :
    Reads (matchedFrom base b mb k)
      (litDecMatchedFrom base mb k (if b / 2 ^ k = mb / 2 ^ k then 0x100 else 0) (2 ^ (8 - k) + b / 2 ^ k)) (256 + b) := by
  induction k with
  | zero => simpa [litDecMatchedFrom, matchedFrom] using Reads.pure
  | succ k ih =>
    have hm := div_two_pow_eq b k
    have hmb := div_two_pow_eq mb k
    have hoff : (if b.testBit k = mb.testBit k then (if b / 2 ^ (k + 1) = mb / 2 ^ (k + 1) then 0x100 else 0) else 0) =
        if b / 2 ^ k = mb / 2 ^ k then 0x100 else 0 := by
      rw [hm, hmb]
      cases b.testBit k <;> cases mb.testBit k <;> simp <;> omega
    have hnode : 2 * (2 ^ (7 - k) + b / 2 ^ (k + 1)) + (b.testBit k).toNat = 2 ^ (8 - k) + b / 2 ^ k := by
      rw [hm, show 8 - k = 7 - k + 1 by omega, Nat.pow_succ]
      ring
    rw [show 8 - (k + 1) = 7 - k by omega]
    refine Reads.cell_bind ?_
    rw [hoff, hnode]
    exact ih (by omega)

/-- A literal is read back (R551). -/
theorem reads_literal {base : Nat} {b : Byte} : Reads (treeDecisions base 8 b.toNat) (litDec base) b := by
  have := (reads_tree (base := base) (n := 8) b.isLt).map (g := fun v => BitVec.ofNat 8 v)
  rwa [BitVec.ofNat_toNat, BitVec.setWidth_eq] at this

/-- A matched literal is read back (R552). -/
theorem reads_matched {base : Nat} {b mb : Byte} :
    Reads (matchedDecisions base b.toNat mb.toNat) (litDecMatched base mb) b := by
  have hb := b.isLt
  have hmb := mb.isLt
  have := (reads_matchedFrom (base := base) (b := b.toNat) (mb := mb.toNat) (Nat.le_refl 8)).map
    (g := fun m => BitVec.ofNat 8 (m - 256))
  rw [Nat.div_eq_of_lt hb, Nat.div_eq_of_lt hmb, Nat.add_sub_cancel_left, BitVec.ofNat_toNat, BitVec.setWidth_eq,
    ← matchedDecisions_eq] at this
  exact this

end Sys2Proof.Machine
end

section
/-! PROOFS. Symbols: the encoder of R611 codes the decisions of R340 and moves the state and the repeat distances by R601 and R602, and
the decoder of R630 reads each symbol back from where the encoder stood. -/

namespace Sys2Proof.Machine

/-! ## The state after a symbol (R601, R602) -/

theorem nextLit_eq (s : Fin 12) : (transitions.getD s.val []).getD 0 0 = nextLit s := by revert s; decide

theorem nextMatch_eq (s : Fin 12) : (transitions.getD s.val []).getD 1 0 = nextMatch s := by revert s; decide

theorem nextLongrep_eq (s : Fin 12) : (transitions.getD s.val []).getD 2 0 = nextLongrep s := by revert s; decide

theorem nextShortrep_eq (s : Fin 12) : (transitions.getD s.val []).getD 3 0 = nextShortrep s := by revert s; decide

theorem Sym.after_lit {z : Coder} : Sym.lit.after z = { z with state := nextLit z.state } := by
  rw [← nextLit_eq]
  rfl

theorem Sym.after_mtch {z : Coder} {d n : Nat} :
    (Sym.mtch d n).after z = { z.pushRep (BitVec.ofNat 32 (d - 1)) with state := nextMatch z.state } := by
  rw [← nextMatch_eq]
  rfl

theorem Sym.after_shortrep {z : Coder} : Sym.shortrep.after z = { z with state := nextShortrep z.state } := by
  rw [← nextShortrep_eq]
  rfl

theorem Sym.after_rep {z : Coder} {r n : Nat} :
    (Sym.rep r n).after z = { z.promote r with state := nextLongrep z.state } := by
  rw [← nextLongrep_eq]
  match r with
  | 0 | 1 | 2 => rfl
  | r + 3 => rfl

theorem Sym.after_eos {z : Coder} :
    Sym.eos.after z = { z.pushRep (BitVec.ofNat 32 markerDist) with state := nextMatch z.state } := by
  rw [← nextMatch_eq]
  rfl

/-! ## The encoder (R611) -/

@[simp] theorem Sym.coded_lz {y : Sym} {l : Lane} : (y.coded l).lz = y.after l.lz := rfl

@[simp] theorem Sym.coded_win {y : Sym} {l : Lane} :
    (y.coded l).win = { l.win with cur := l.win.cur + y.len } := rfl

@[simp] theorem Sym.coded_prob {y : Sym} {l : Lane} : (y.coded l).prob = (codeDecisions (y.decisions l) l).prob := rfl

@[simp] theorem Sym.coded_rce {y : Sym} {l : Lane} : (y.coded l).rce = (codeDecisions (y.decisions l) l).rce := rfl

/-- A symbol's bits, then its effect on state machine and window: the shape of every encoder of R611. -/
theorem Sym.coded_eq {y : Sym} {l m : Lane} {z : Coder} {n : Nat} (hm : m = codeDecisions (y.decisions l) l)
    (hz : z = y.after l.lz) (hn : n = y.len) : m.afterSymbol z n = y.coded l := by
  subst hm hz hn
  simp [Lane.afterSymbol, Sym.coded]

theorem encLit_eq {l : Lane} : encLit l = Sym.lit.coded l := by
  refine Sym.coded_eq ?_ Sym.after_lit.symm rfl
  have hb : literalBase l = literalCells l := rfl
  simp only [Sym.decisions, codeDecisions_cons, litEnc_eq, litEncMatched_eq, hb]
  split <;> rfl

theorem encMatchBits_eq {d0 len : Nat} {l : Lane} (h : 2 ≤ len) :
    encMatchBits d0 len l =
      codeDecisions (.cell (l.lz.state.val * 16 + l.posState) true :: .cell (192 + l.lz.state.val) false ::
        (lengthDecisions 818 len l.posState ++ distanceDecisions d0 len)) l := by
  rw [encMatchBits, distEnc_eq, lenEnc_eq h, codeDecisions_cons, codeDecisions_cons, codeDecisions_append]
  rfl

theorem encMatch_eq {d len : Nat} {l : Lane} (h : 2 ≤ len) : encMatch d len l = (Sym.mtch d len).coded l :=
  Sym.coded_eq (encMatchBits_eq h) Sym.after_mtch.symm rfl

theorem encEos_eq {l : Lane} : encEos l = Sym.eos.coded l :=
  Sym.coded_eq (encMatchBits_eq (Nat.le_refl 2)) Sym.after_eos.symm rfl

theorem encShortrep_eq {l : Lane} : encRep 0 1 l = Sym.shortrep.coded l :=
  Sym.coded_eq rfl Sym.after_shortrep.symm rfl

/-- The first decisions of a rep symbol after IS_REP (R340). -/
def repPrefix (r s ps : Nat) : List Decision :=
  match r with
  | 0 => [.cell (204 + s) false, .cell (240 + s * 16 + ps) true]
  | 1 => [.cell (204 + s) true, .cell (216 + s) false]
  | 2 => [.cell (204 + s) true, .cell (216 + s) true, .cell (228 + s) false]
  | _ => [.cell (204 + s) true, .cell (216 + s) true, .cell (228 + s) true]

theorem Sym.decisions_rep {r n : Nat} {l : Lane} :
    (Sym.rep r n).decisions l =
      .cell (l.lz.state.val * 16 + l.posState) true :: .cell (192 + l.lz.state.val) true ::
        (repPrefix r l.lz.state.val l.posState ++ lengthDecisions 1332 n l.posState) := by
  match r with
  | 0 | 1 | 2 => rfl
  | r + 3 => rfl

theorem encRepChoice_eq {r ps : Nat} {s : Fin 12} {l : Lane} (hr : r ≤ 3) :
    encRepChoice r true s ps l = codeDecisions (repPrefix r s.val ps) l := by
  obtain rfl | rfl | rfl | rfl : r = 0 ∨ r = 1 ∨ r = 2 ∨ r = 3 := by omega
  all_goals rfl

theorem encRep_eq {r len : Nat} {l : Lane} (hr : r ≤ 3) (h : 2 ≤ len) : encRep r len l = (Sym.rep r len).coded l := by
  have hlong : (len != 1) = true := by simpa using show len ≠ 1 by omega
  simp only [encRep, if_neg (show ¬ len = 1 by omega), hlong]
  refine Sym.coded_eq ?_ Sym.after_rep.symm rfl
  rw [lenEnc_eq h, encRepChoice_eq hr, Sym.decisions_rep, codeDecisions_cons, codeDecisions_cons, codeDecisions_append]
  rfl

/-! ## Reading a symbol's decisions -/

theorem InStep.withLz {payload rest : List Byte} {l : Lane} {c : DecCtx} {z : Coder} (h : InStep payload rest l c) :
    InStep payload rest l (c.withLz z) := ⟨h.encOk, h.prob, h.follows, h.src⟩

theorem InStep.putBytes {payload rest : List Byte} {l : Lane} {c : DecCtx} {bs : List Byte} (h : InStep payload rest l c) :
    InStep payload rest l (putBytes bs c) := ⟨h.encOk, h.prob, h.follows, h.src⟩

/-- From a context with state machine `z` and window `w`, the computation `f` reads the decisions `ds` and goes on as `g`. -/
def ReadsThen {α : Type} (z : Coder) (w : Window) (ds : List Decision) (f g : DecCtx → Res DecCtx α) : Prop :=
  ∀ (payload rest : List Byte) (l : Lane) (c : DecCtx), c.lane.lz = z → c.lane.win = w →
    InStep payload rest l c → (codeDecisions ds l).rce.Reaches payload →
    ∃ p range code src, f c = g (c.reading p range code src) ∧
      InStep payload rest (codeDecisions ds l) (c.reading p range code src)

variable {α β : Type} {z : Coder} {w : Window} {ds es : List Decision}

theorem ReadsThen.done {f g : DecCtx → Res DecCtx α} (h : ∀ c : DecCtx, c.lane.lz = z → c.lane.win = w → f c = g c) :
    ReadsThen z w [] f g :=
  fun _ _ _ c hz hw hs _ => ⟨c.lane.prob, c.lane.rcd.range, c.lane.rcd.code, c.src, h c hz hw, hs⟩

theorem ReadsThen.congr {f f' g : DecCtx → Res DecCtx α} (h : ∀ c : DecCtx, c.lane.lz = z → c.lane.win = w → f c = f' c)
    (hf : ReadsThen z w ds f' g) : ReadsThen z w ds f g := by
  intro payload rest l c hz hw
  rw [h c hz hw]
  exact hf payload rest l c hz hw

theorem ReadsThen.bind {f : DecCtx → Res DecCtx α} {v : α} {k : α → DecCtx → Res DecCtx β} {g : DecCtx → Res DecCtx β}
    (hf : Reads ds f v) (hk : ReadsThen z w es (k v) g) : ReadsThen z w (ds ++ es) (fun c => (f c).bind k) g := by
  intro payload rest l c hz hw h hp
  rw [codeDecisions_append] at hp ⊢
  obtain ⟨p, r, code, src, h1, h2⟩ := hf payload rest l c h (reaches_of_codeDecisions (codeDecisions_encOk h.encOk) hp)
  obtain ⟨p', r', code', src', h3, h4⟩ := hk payload rest _ _ (by exact hz) (by exact hw) h2 hp
  exact ⟨p', r', code', src', by simp only [h1, Res.bind_ok]; exact h3, h4⟩

theorem ReadsThen.cell {i : Nat} {b : Bool} {k : Bool → DecCtx → Res DecCtx β} {g : DecCtx → Res DecCtx β}
    (hk : ReadsThen z w es (k b) g) : ReadsThen z w (.cell i b :: es) (fun c => (decBit i c).bind k) g :=
  ReadsThen.bind reads_cell hk

theorem ReadsThen.withLz {z' : Coder} {f g : DecCtx → Res DecCtx α} (hf : ReadsThen z' w ds f g) :
    ReadsThen z w ds (fun c => f (c.withLz z')) (fun c => g (c.withLz z')) := by
  intro payload rest l c _ hw h hp
  obtain ⟨p, r, code, src, h1, h2⟩ := hf payload rest l (c.withLz z') rfl hw h.withLz hp
  exact ⟨p, r, code, src, h1, ⟨h2.encOk, h2.prob, h2.follows, h2.src⟩⟩

/-! ## The window behind a mirrored decoder -/

theorem Window.byteAt_take {w : Window} {n p : Nat} {c : Nat} {d : BitVec 32} (h : p < n) :
    Window.byteAt { bytes := w.bytes.take n, cur := c, dictSize := d } p = w.byteAt p := by
  simp [Window.byteAt, List.getD_eq_getElem?_getD, h]

/-- What a decoder that mirrors an encoder has of its window: the bytes before the coding position. -/
def Window.behind (w : Window) : Window := { bytes := w.bytes.take w.cur, cur := w.cur, dictSize := w.dictSize }

@[simp] theorem Window.behind_hist {w : Window} : w.behind.hist = w.hist := rfl

theorem Window.behind_back {w : Window} {d : Nat} (h1 : 1 ≤ d) (hd : d ≤ w.hist) : w.behind.back d = w.back d := by
  have : d ≤ w.cur := Nat.le_trans hd (Nat.min_le_left _ _)
  exact byteAt_take (by show w.cur - d < w.cur; omega)

theorem Window.behind_prev {w : Window} : w.behind.prev = w.prev := by
  by_cases h : w.cur = 0
  · rw [Window.prev, Window.prev, if_pos h]
    exact if_pos h
  · rw [Window.prev, Window.prev, if_neg h]
    exact (if_neg h).trans (byteAt_take (by show w.cur - 1 < w.cur; omega))

theorem Window.take_succ_byteAt {w : Window} {p : Nat} (h : p < w.endPos) :
    w.bytes.take (p + 1) = w.bytes.take p ++ [w.byteAt p] := by
  have hp : p < w.bytes.length := h
  rw [List.take_add_one, List.getElem?_eq_getElem hp]
  simp [Window.byteAt, List.getD_eq_getElem?_getD, hp]

theorem Window.drop_byteAt {w : Window} {p : Nat} (h : p < w.endPos) :
    w.bytes.drop p = w.byteAt p :: w.bytes.drop (p + 1) := by
  have hp : p < w.bytes.length := h
  rw [List.drop_eq_getElem_cons hp]
  simp [Window.byteAt, List.getD_eq_getElem?_getD, hp]

theorem putBytes_putBytes {a b : List Byte} {c : DecCtx} : putBytes b (putBytes a c) = putBytes (a ++ b) c := by
  simp [putBytes, Window.append, Nat.add_assoc]

theorem putBytes_nil {c : DecCtx} : putBytes [] c = c := by
  simp [putBytes, Window.append]

/-- Copying a match puts the encoder's bytes (R630): the window repeats them. -/
theorem copyMatch_eq {w : Window} {p d n : Nat} {c : DecCtx} (hb : c.lane.win.bytes = w.bytes.take p) (hc : c.lane.win.cur = p)
    (h1 : 1 ≤ d) (hd : d ≤ p) (hend : p + n ≤ w.endPos) (hrep : w.Repeats p d n) :
    copyMatch d n c = putBytes ((w.bytes.drop p).take n) c := by
  induction n generalizing p c with
  | zero => simp [copyMatch, putBytes_nil]
  | succ n ih =>
    have hback : c.lane.win.back d = w.byteAt p := by
      have h0 := hrep 0 (by omega)
      rw [Nat.add_zero] at h0
      rw [h0, ← Window.byteAt_take (w := w) (n := p) (c := p) (d := c.lane.win.dictSize) (by omega), ← hb]
      simp [Window.back, hc, Window.byteAt]
    have hlt : p < w.endPos := by omega
    rw [copyMatch, hback, ih (p := p + 1) (by simp [putBytes, hb, Window.take_succ_byteAt hlt]) (by simp [putBytes, hc])
      (by omega) (by omega) (fun k hk => by
        have := hrep (k + 1) (by omega)
        rwa [show p + (k + 1) = p + 1 + k by omega] at this), putBytes_putBytes, Window.drop_byteAt hlt]
    rfl

/-! ## DecSymbol on a coded symbol (R630, R632) -/

/-- The kind of a symbol (R632). -/
def Sym.kind : Sym → SymKind
  | .lit => .lit
  | .mtch _ _ => .mtch
  | .shortrep => .shortrep
  | .rep 0 _ => .rep0
  | .rep 1 _ => .rep1
  | .rep 2 _ => .rep2
  | .rep _ _ => .rep3
  | .eos => .eos

/-- What `DecSymbol` answers for a symbol coded at lane `l`. -/
def Sym.answer (y : Sym) (l : Lane) : Symbol where
  kind := y.kind
  len := y.len
  x := match y with
    | .lit => (l.win.look 0).toNat
    | .mtch d _ => d
    | .shortrep => l.lz.dist 0
    | .rep r _ => l.lz.dist r
    | .eos => 0

/-- The bytes of the symbol at the coding position. -/
def Sym.bytes (y : Sym) (l : Lane) : List Byte := (l.win.bytes.drop l.win.cur).take y.len

/-- The decoder's context after the symbol: its bytes put, the state machine moved. -/
def DecCtx.decoded (c : DecCtx) (y : Sym) (l : Lane) : DecCtx := (putBytes (y.bytes l) c).withLz (y.after l.lz)

/-- The limits let the symbol pass (R631 c and d). -/
def SymLimits.Admit (q : SymLimits) (y : Sym) : Prop := q.exceeded y.len = false ∧ (y = .eos → q.eosOk = true)

theorem decCopy_eq {q : SymLimits} {kind : SymKind} {d n : Nat} {l : Lane} {c : DecCtx} (hw : c.lane.win = l.win.behind)
    (hd : c.lane.lz.dist 0 = d) (h1 : 1 ≤ d) (hist : d ≤ l.win.hist) (hend : l.win.cur + n ≤ l.win.endPos)
    (hrep : l.win.Repeats l.win.cur d n) (hq : q.exceeded n = false) :
    decCopy q kind n c = .ok { kind := kind, len := n, x := d } (putBytes ((l.win.bytes.drop l.win.cur).take n) c) := by
  have hcur : d ≤ l.win.cur := Nat.le_trans hist (Nat.min_le_left _ _)
  simp only [decCopy, hd, hw, Window.behind_hist, hq, if_neg (Nat.not_lt.mpr hist)]
  rw [copyMatch_eq (w := l.win) (p := l.win.cur) (by rw [hw]; rfl) (by rw [hw]; rfl) h1 hcur hend hrep]
  rfl

theorem decLiteral_readsThen {q : SymLimits} {l : Lane} {ds : List Decision} (hcod : Sym.lit.Codable l) (hq : q.exceeded 1 = false)
    (hds : ds = if l.lz.state.val < 7 then treeDecisions (literalCells l) 8 (l.win.look 0).toNat
      else matchedDecisions (literalCells l) (l.win.look 0).toNat (l.win.back (l.lz.rep0.toNat + 1)).toNat) :
    ReadsThen l.lz l.win.behind ds (decLiteral q l.lz.state) (fun c => .ok (Sym.lit.answer l) (c.decoded .lit l)) := by
  obtain ⟨hlt, hhist⟩ := hcod
  have hbase : ∀ c : DecCtx, c.lane.lz = l.lz → c.lane.win = l.win.behind → literalBase c.lane = literalCells l := by
    intro c hz hw
    rw [literalBase, hz, hw, Window.behind_prev]
    rfl
  have hgo : ∀ c : DecCtx, c.lane.lz = l.lz → c.lane.win = l.win.behind → decLiteral q l.lz.state c =
      (if l.lz.state.val < 7 then litDec (literalCells l) c
        else litDecMatched (literalCells l) (l.win.back (l.lz.rep0.toNat + 1)) c).bind fun b c =>
      .ok { kind := .lit, len := 1, x := b.toNat } ((putBytes [b] c).withLz { c.lane.lz with state := nextLit l.lz.state }) := by
    intro c hz hw
    rw [decLiteral, hbase c hz hw, hz, hw, Window.behind_hist]
    rw [if_neg (show ¬ (7 ≤ l.lz.state.val ∧ l.win.hist < l.lz.dist 0) by
      rcases hhist with h | h
      · omega
      · exact fun hc => Nat.not_lt.mpr h hc.2), if_neg (by simp [hq])]
    split
    · rfl
    · rename_i h7
      rcases hhist with h | h
      · exact absurd h h7
      · rw [show l.lz.dist 0 = l.lz.rep0.toNat + 1 from rfl, Window.behind_back (by omega) h]
  have hbytes : Sym.lit.bytes l = [l.win.look 0] := by
    rw [Sym.bytes, Window.drop_byteAt hlt]
    rfl
  have hlast : ReadsThen l.lz l.win.behind [] (fun c => .ok { kind := .lit, len := 1, x := (l.win.look 0).toNat }
      ((putBytes [l.win.look 0] c).withLz { c.lane.lz with state := nextLit l.lz.state }))
      (fun c => .ok (Sym.lit.answer l) (c.decoded .lit l)) := by
    refine ReadsThen.done fun c hz _ => ?_
    rw [DecCtx.decoded, hbytes, Sym.after_lit, hz]
    rfl
  refine ReadsThen.congr hgo ?_
  subst hds
  by_cases h7 : l.lz.state.val < 7
  · simp only [if_pos h7]
    rw [← List.append_nil (treeDecisions _ _ _)]
    exact ReadsThen.bind reads_literal hlast
  · simp only [if_neg h7]
    rw [← List.append_nil (matchedDecisions _ _ _)]
    exact ReadsThen.bind reads_matched hlast

theorem decMatch_readsThen {q : SymLimits} {l : Lane} {d n : Nat} (hcod : (Sym.mtch d n).Codable l) (hq : q.exceeded n = false) :
    ReadsThen l.lz l.win.behind (lengthDecisions 818 n l.posState ++ distanceDecisions (d - 1) n)
      (decMatch q l.lz.state l.posState) (fun c => .ok ((Sym.mtch d n).answer l) (c.decoded (.mtch d n) l)) := by
  obtain ⟨hd, h2, h273, hist, hend, hrep⟩ := hcod
  have hdict : d ≤ l.win.dictSize.toNat := Nat.le_trans hist (Nat.min_le_right _ _)
  have h32 := l.win.dictSize.isLt
  have hback : (BitVec.ofNat 32 (d - 1)).toNat + 1 = d := by
    rw [BitVec.toNat_ofNat]
    omega
  unfold decMatch
  refine ReadsThen.bind (reads_length h2 h273) ?_
  rw [← List.append_nil (distanceDecisions (d - 1) n)]
  refine ReadsThen.bind (reads_distance (show d - 1 < 2 ^ 32 by omega)) (ReadsThen.done fun c hz hw => ?_)
  rw [if_neg (show ¬ d - 1 = markerDist by rw [markerDist]; omega),
    decCopy_eq (l := l) (d := d) (by exact hw) (by exact hback) hd hist hend hrep hq, hz, DecCtx.decoded, Sym.after_mtch]
  rfl

theorem decMarker_readsThen {q : SymLimits} {l : Lane} (hq : q.eosOk = true) :
    ReadsThen l.lz l.win.behind (lengthDecisions 818 2 l.posState ++ distanceDecisions 0xFFFFFFFF 2)
      (decMatch q l.lz.state l.posState) (fun c => .ok (Sym.eos.answer l) (c.decoded .eos l)) := by
  unfold decMatch
  refine ReadsThen.bind (reads_length (by decide) (by decide)) ?_
  rw [← List.append_nil (distanceDecisions 0xFFFFFFFF 2)]
  refine ReadsThen.bind (reads_distance (by decide)) (ReadsThen.done fun c hz hw => ?_)
  rw [if_pos (show 0xFFFFFFFF = markerDist from rfl), if_pos hq, hz, DecCtx.decoded, Sym.after_eos]
  rw [show Sym.eos.bytes l = [] by simp [Sym.bytes, Sym.len], putBytes_nil]
  rfl

theorem Coder.promote_dist {z : Coder} {r : Nat} : (z.promote r).dist 0 = z.dist r := by
  match r with
  | 0 | 1 | 2 => rfl
  | r + 3 => rfl

theorem decLongrep_readsThen {q : SymLimits} {l : Lane} {r n : Nat} (hcod : (Sym.rep r n).Codable l) (hq : q.exceeded n = false) :
    ReadsThen l.lz l.win.behind (lengthDecisions 1332 n l.posState)
      (decLongrep q (Sym.rep r n).kind r l.lz.state l.posState)
      (fun c => .ok ((Sym.rep r n).answer l) (c.decoded (.rep r n) l)) := by
  obtain ⟨-, h2, h273, hist, hend, hrep⟩ := hcod
  rw [← List.append_nil (lengthDecisions 1332 n l.posState)]
  have hread : ReadsThen (l.lz.promote r) l.win.behind (lengthDecisions 1332 n l.posState ++ [])
      (fun c => (lenDec repLenBase l.posState c).bind fun len c =>
        decCopy q (Sym.rep r n).kind len (c.withLz { c.lane.lz with state := nextLongrep l.lz.state }))
      (fun c => .ok ((Sym.rep r n).answer l) (c.decoded (.rep r n) l)) := by
    refine ReadsThen.bind (reads_length h2 h273) (ReadsThen.done fun c hz hw => ?_)
    rw [decCopy_eq (l := l) (d := l.lz.dist r) (by exact hw) (by rw [hz]; exact Coder.promote_dist) (Nat.le_add_left _ _) hist hend
      hrep hq, hz, DecCtx.decoded, Sym.after_rep]
    rfl
  refine ReadsThen.congr (fun c hz _ => ?_) (hread.withLz (z := l.lz))
  rw [decLongrep, hz]

theorem decRep_readsThen {q : SymLimits} {l : Lane} {r n : Nat} (hcod : (Sym.rep r n).Codable l) (hq : q.exceeded n = false) :
    ReadsThen l.lz l.win.behind
      (repPrefix r l.lz.state.val l.posState ++ lengthDecisions 1332 n l.posState)
      (decRep q l.lz.state l.posState) (fun c => .ok ((Sym.rep r n).answer l) (c.decoded (.rep r n) l)) := by
  have hlong := decLongrep_readsThen hcod hq
  unfold decRep
  obtain rfl | rfl | rfl | rfl : r = 0 ∨ r = 1 ∨ r = 2 ∨ r = 3 := by have := hcod.1; omega
  · exact ReadsThen.cell (ReadsThen.cell hlong)
  · exact ReadsThen.cell (ReadsThen.cell hlong)
  · exact ReadsThen.cell (ReadsThen.cell (ReadsThen.cell hlong))
  · exact ReadsThen.cell (ReadsThen.cell (ReadsThen.cell hlong))

theorem decShortrep_readsThen {q : SymLimits} {l : Lane} (hcod : Sym.shortrep.Codable l) (hq : q.exceeded 1 = false) :
    ReadsThen l.lz l.win.behind [.cell (204 + l.lz.state.val) false, .cell (240 + l.lz.state.val * 16 + l.posState) false]
      (decRep q l.lz.state l.posState) (fun c => .ok (Sym.shortrep.answer l) (c.decoded .shortrep l)) := by
  obtain ⟨hist, hlt, heq⟩ := hcod
  unfold decRep
  refine ReadsThen.cell (ReadsThen.cell (ReadsThen.done fun c hz hw => ?_))
  have hrep : l.win.Repeats l.win.cur (l.lz.dist 0) 1 := by
    intro k hk
    obtain rfl : k = 0 := by omega
    exact heq
  rw [if_neg (by decide), decCopy_eq (l := l) (d := l.lz.dist 0) (by exact hw) (by rw [hz]; rfl) (Nat.le_add_left _ _) hist hlt hrep hq, hz,
    DecCtx.decoded, Sym.after_shortrep]
  rfl

/-- `DecSymbol` reads back the symbol that was coded (R630, R640). -/
theorem decSymbol_readsThen {q : SymLimits} {y : Sym} {l : Lane} (hcod : y.Codable l) (hq : q.Admit y) :
    ReadsThen l.lz l.win.behind (y.decisions l) (decSymbol q) (fun c => .ok (y.answer l) (c.decoded y l)) := by
  obtain ⟨hlim, heos⟩ := hq
  have hgo : ∀ c : DecCtx, c.lane.lz = l.lz → c.lane.win = l.win.behind → decSymbol q c =
      (decBit (isMatchCell l.lz.state l.posState) c).bind fun isMatch c =>
      if isMatch then
        (decBit (isRepCell l.lz.state) c).bind fun isRep c =>
        if isRep then decRep q l.lz.state l.posState c else decMatch q l.lz.state l.posState c
      else decLiteral q l.lz.state c := by
    intro c hz hw
    have hps : c.lane.posState = l.posState := by
      rw [Lane.posState, hz, hw]
      rfl
    rw [decSymbol, hz, hps]
  refine ReadsThen.congr hgo ?_
  cases y with
  | lit => exact ReadsThen.cell (decLiteral_readsThen hcod hlim rfl)
  | mtch d n => exact ReadsThen.cell (ReadsThen.cell (decMatch_readsThen hcod hlim))
  | shortrep => exact ReadsThen.cell (ReadsThen.cell (decShortrep_readsThen hcod hlim))
  | rep r n =>
    rw [Sym.decisions_rep]
    exact ReadsThen.cell (ReadsThen.cell (decRep_readsThen hcod hlim))
  | eos => exact ReadsThen.cell (ReadsThen.cell (decMarker_readsThen (heos rfl)))

end Sys2Proof.Machine
end

section
/-! PROOFS. Symbols one after another: what coding them keeps, that it depends on the bytes they cover alone, and that the decoder's loops
of R633, R661 and R830 read them back. -/

namespace Sys2Proof.Machine

/-! ## Coding symbols -/

theorem Sym.Codable.len_pos {y : Sym} {l : Lane} (h : y.Codable l) (hy : y ≠ .eos) : 1 ≤ y.len := by
  cases y with
  | lit | shortrep => exact Nat.le_refl 1
  | mtch d n => exact Nat.le_trans (by decide) h.2.1
  | rep r n => exact Nat.le_trans (by decide) h.2.1
  | eos => exact absurd rfl hy

theorem Sym.Codable.end_le {y : Sym} {l : Lane} (h : y.Codable l) (hc : l.win.cur ≤ l.win.endPos) :
    l.win.cur + y.len ≤ l.win.endPos := by
  cases y with
  | lit => exact h.1
  | shortrep => exact h.2.1
  | mtch d n => exact h.2.2.2.2.1
  | rep r n => exact h.2.2.2.2.1
  | eos => exact hc

theorem Sym.coded_encOk {y : Sym} {l : Lane} (h : l.EncOk) : (y.coded l).EncOk := codeDecisions_encOk (ds := y.decisions l) h

theorem Sym.decisions_pos {y : Sym} {l : Lane} : 1 ≤ (y.decisions l).length := by
  cases y with
  | rep r n =>
    rw [Sym.decisions_rep]
    exact Nat.le_add_left _ _
  | _ => exact Nat.le_add_left _ _

@[simp] theorem codedAll_nil {l : Lane} : codedAll [] l = l := rfl

@[simp] theorem codedAll_cons {y : Sym} {ys : List Sym} {l : Lane} : codedAll (y :: ys) l = codedAll ys (y.coded l) := rfl

@[simp] theorem Sym.total_nil : Sym.total [] = 0 := rfl

@[simp] theorem Sym.total_cons {y : Sym} {ys : List Sym} : Sym.total (y :: ys) = y.len + Sym.total ys := rfl

theorem codedAll_encOk {ys : List Sym} {l : Lane} (h : l.EncOk) : (codedAll ys l).EncOk := by
  induction ys generalizing l with
  | nil => exact h
  | cons y ys ih => exact ih (Sym.coded_encOk h)

theorem codedAll_win {ys : List Sym} {l : Lane} : (codedAll ys l).win = { l.win with cur := l.win.cur + Sym.total ys } := by
  induction ys generalizing l with
  | nil => rfl
  | cons y ys ih =>
    rw [codedAll_cons, ih, Sym.total_cons, ← Nat.add_assoc]
    rfl

/-- The bytes of symbols that can be coded are in the window. -/
theorem CodableAll.end_le {ys : List Sym} {l : Lane} (h : CodableAll ys l) (hc : l.win.cur ≤ l.win.endPos) :
    l.win.cur + Sym.total ys ≤ l.win.endPos := by
  induction ys generalizing l with
  | nil => exact hc
  | cons y ys ih =>
    rw [Sym.total_cons, ← Nat.add_assoc]
    exact ih h.2.2 (h.2.1.end_le hc)

theorem reaches_of_coded {y : Sym} {l : Lane} {p : List Byte} (h : l.EncOk) (hp : (y.coded l).rce.Reaches p) :
    l.rce.Reaches p := by
  rw [Sym.coded_rce] at hp
  exact reaches_of_codeDecisions h hp

theorem reaches_of_codedAll {ys : List Sym} {l : Lane} {p : List Byte} (h : l.EncOk) (hp : (codedAll ys l).rce.Reaches p) :
    l.rce.Reaches p := by
  induction ys generalizing l with
  | nil => exact hp
  | cons y ys ih => exact reaches_of_coded h (ih (Sym.coded_encOk h) hp)

/-- So many symbols need so many bytes (R1126). -/
theorem codedAll_turns {ys : List Sym} {l : Lane} (h : l.EncOk) :
    2 ^ 32 * l.rce.digits.length + ys.length + (codedAll ys l).rce.range.toNat ≤
      2 ^ 32 * (codedAll ys l).rce.digits.length + l.rce.range.toNat := by
  induction ys generalizing l with
  | nil => simp
  | cons y ys ih =>
    have h1 := codeDecisions_turns (ds := y.decisions l) h
    have h2 := ih (Sym.coded_encOk (y := y) h)
    have h3 := Sym.decisions_pos (y := y) (l := l)
    rw [← Sym.coded_rce] at h1
    rw [codedAll_cons, List.length_cons]
    omega

/-! ## Coding does not touch the rest of the lane -/

theorem Sym.coded_frame {y : Sym} {l : Lane} :
    y.coded l = { l with prob := (y.coded l).prob, rce := (y.coded l).rce, lz := (y.coded l).lz, win := (y.coded l).win } := by
  simp only [Sym.coded]
  rw [codeDecisions_frame]

theorem codedAll_frame {ys : List Sym} {l : Lane} :
    codedAll ys l = { l with
      prob := (codedAll ys l).prob, rce := (codedAll ys l).rce, lz := (codedAll ys l).lz, win := (codedAll ys l).win } := by
  induction ys generalizing l with
  | nil => rfl
  | cons y ys ih =>
    rw [codedAll_cons, ih, Sym.coded_frame]

theorem Sym.coded_withMf {y : Sym} {l : Lane} {m : MatchFinder} : y.coded { l with mf := m } = { y.coded l with mf := m } := by
  have hds : y.decisions { l with mf := m } = y.decisions l := rfl
  simp only [Sym.coded, hds]
  rw [codeDecisions_congr (m := { l with mf := m }) (l := l) rfl rfl, codeDecisions_frame (l := l)]

theorem codedAll_props {ys : List Sym} {l : Lane} :
    (codedAll ys l).lz.lc = l.lz.lc ∧ (codedAll ys l).lz.lp = l.lz.lp ∧ (codedAll ys l).lz.pb = l.lz.pb := by
  induction ys generalizing l with
  | nil => exact ⟨rfl, rfl, rfl⟩
  | cons y ys ih => exact ih

/-! ## Coding depends on the bytes it covers alone -/

/-- `m` codes as `l` does, on the first `n` bytes of `l`'s window. -/
structure CodesAs (n : Nat) (l m : Lane) : Prop where
  prob : m.prob = l.prob
  lz : m.lz = l.lz
  rce : m.rce = l.rce
  win : m.win = { l.win with bytes := l.win.bytes.take n }

theorem CodesAs.byteAt {n p : Nat} {l m : Lane} (h : CodesAs n l m) (hp : p < n) : m.win.byteAt p = l.win.byteAt p := by
  rw [h.win]
  exact Window.byteAt_take hp

theorem CodesAs.endPos {n : Nat} {l m : Lane} (h : CodesAs n l m) (hn : n ≤ l.win.endPos) : m.win.endPos = n := by
  rw [h.win, Window.endPos]
  exact List.length_take_of_le hn

theorem CodesAs.repeats {n p d len : Nat} {l m : Lane} (h : CodesAs n l m) (hp : p + len ≤ n) (hr : l.win.Repeats p d len) :
    m.win.Repeats p d len := fun k hk => by
  rw [h.byteAt (by omega), h.byteAt (by omega)]
  exact hr k hk

theorem CodesAs.decisions {n : Nat} {l m : Lane} {y : Sym} (h : CodesAs n l m) (hc : y.Codable l) (hn : l.win.cur + y.len ≤ n) :
    y.decisions m = y.decisions l := by
  have hcur : m.win.cur = l.win.cur := by rw [h.win]
  have hps : m.posState = l.posState := by rw [Lane.posState, h.lz, hcur]; rfl
  cases y with
  | lit =>
    have hn : l.win.cur < n := hn
    have hlook : m.win.look 0 = l.win.look 0 := by
      rw [Window.look, hcur]
      exact h.byteAt hn
    have hback : m.win.back (l.lz.rep0.toNat + 1) = l.win.back (l.lz.rep0.toNat + 1) := by
      rw [Window.back, hcur]
      exact h.byteAt (by omega)
    have hprev : m.win.prev = l.win.prev := by
      rw [Window.prev, Window.prev, hcur, Window.back, hcur, h.byteAt (by omega)]
      rfl
    have hcells : literalCells m = literalCells l := by rw [literalCells, hcur, h.lz, hprev]; rfl
    simp only [Sym.decisions, h.lz, hcur, hlook, hback, hcells]
  | rep r len => rw [Sym.decisions_rep, Sym.decisions_rep, hps, h.lz]
  | mtch d len => simp only [Sym.decisions, h.lz, hcur]
  | shortrep => simp only [Sym.decisions, h.lz, hcur]
  | eos => simp only [Sym.decisions, h.lz, hcur]

theorem CodesAs.codable {n : Nat} {l m : Lane} {y : Sym} (h : CodesAs n l m) (hle : n ≤ l.win.endPos) (hc : y.Codable l)
    (hn : l.win.cur + y.len ≤ n) : y.Codable m := by
  have hcur : m.win.cur = l.win.cur := by rw [h.win]
  have hhist : m.win.hist = l.win.hist := by rw [h.win]; rfl
  have hend := h.endPos hle
  cases y with
  | lit =>
    obtain ⟨-, h2⟩ := hc
    exact ⟨by rw [hcur, hend]; exact hn, by rw [h.lz, hhist]; exact h2⟩
  | mtch d len =>
    obtain ⟨h1, h2, h3, h4, -, h6⟩ := hc
    exact ⟨h1, h2, h3, by rw [hhist]; exact h4, by rw [hcur, hend]; exact hn, by rw [hcur]; exact h.repeats hn h6⟩
  | shortrep =>
    obtain ⟨h1, -, h3⟩ := hc
    have hlt : l.win.cur < n := hn
    exact ⟨by rw [h.lz, hhist]; exact h1, by rw [hcur, hend]; exact hlt, by
      rw [hcur, h.lz, h.byteAt hlt, h.byteAt (by omega)]
      exact h3⟩
  | rep r len =>
    obtain ⟨h1, h2, h3, h4, -, h6⟩ := hc
    exact ⟨h1, h2, h3, by rw [h.lz, hhist]; exact h4, by rw [hcur, hend]; exact hn, by
      rw [hcur, h.lz]
      exact h.repeats hn h6⟩
  | eos => trivial

theorem CodesAs.coded {n : Nat} {l m : Lane} {y : Sym} (h : CodesAs n l m) (hc : y.Codable l) (hn : l.win.cur + y.len ≤ n) :
    CodesAs n (y.coded l) (y.coded m) := by
  have hd := h.decisions hc hn
  have hcode := codeDecisions_congr (ds := y.decisions l) h.prob h.rce
  refine ⟨?_, ?_, ?_, ?_⟩
  · rw [Sym.coded_prob, Sym.coded_prob, hd, hcode]
  · rw [Sym.coded_lz, Sym.coded_lz, h.lz]
  · rw [Sym.coded_rce, Sym.coded_rce, hd, hcode]
  · rw [Sym.coded_win, Sym.coded_win, h.win]

/-- Symbols are coded alike where the window holds their bytes, whatever follows. -/
theorem CodesAs.codedAll {n : Nat} {l m : Lane} {ys : List Sym} (h : CodesAs n l m) (hle : n ≤ l.win.endPos)
    (hc : CodableAll ys l) (hn : l.win.cur + Sym.total ys ≤ n) :
    CodableAll ys m ∧ CodesAs n (codedAll ys l) (codedAll ys m) := by
  induction ys generalizing l m with
  | nil => exact ⟨trivial, h⟩
  | cons y ys ih =>
    obtain ⟨h1, h2, h3⟩ := hc
    rw [Sym.total_cons] at hn
    have hy : l.win.cur + y.len ≤ n := by omega
    obtain ⟨h4, h5⟩ := ih (h.coded h2 hy) hle h3 (by
      rw [Sym.coded_win]
      show l.win.cur + y.len + Sym.total ys ≤ n
      omega)
    exact ⟨⟨h1, h.codable hle h2 hy, h4⟩, h5⟩

/-! ## The decoder tracks the encoder -/

/-- The decoder's context stands where the encoder lane `l` stood: its place in the payload, its state machine and its history. -/
structure Tracks (payload rest : List Byte) (l : Lane) (c : DecCtx) : Prop extends InStep payload rest l c where
  lz : c.lane.lz = l.lz
  win : c.lane.win = l.win.behind

/-- The context with the decoder moved to the encoder lane `m`, having put `bs`. -/
def DecCtx.movedTo (c : DecCtx) (m : Lane) (code : BitVec 32) (src bs : List Byte) : DecCtx where
  lane := { c.lane with
    prob := m.prob, lz := m.lz, win := m.win.behind, rcd := { c.lane.rcd with range := m.rce.range, code := code } }
  src := src
  out := c.out ++ bs

theorem DecCtx.movedTo_movedTo {c : DecCtx} {m m' : Lane} {k k' : BitVec 32} {src src' bs bs' : List Byte} :
    (c.movedTo m k src bs).movedTo m' k' src' bs' = c.movedTo m' k' src' (bs ++ bs') := by
  simp [DecCtx.movedTo]

theorem Tracks.movedTo_self {payload rest : List Byte} {l : Lane} {c : DecCtx} (h : Tracks payload rest l c) :
    c = c.movedTo l c.lane.rcd.code c.src [] := by
  rw [DecCtx.movedTo, ← h.prob, ← h.lz, ← h.win, ← h.follows.1, List.append_nil]

/-- The window behind the coding position after a symbol: its bytes are appended. -/
theorem Window.behind_append {w : Window} {n : Nat} (h : w.cur + n ≤ w.endPos) :
    w.behind.append ((w.bytes.drop w.cur).take n) = Window.behind { w with cur := w.cur + n } := by
  have hlen : w.cur + n ≤ w.bytes.length := h
  simp only [Window.append, Window.behind, List.take_add, List.length_take, List.length_drop]
  congr 1
  omega

/-- `DecSymbol` answers the coded symbol and moves on to where the encoder stands after it. -/
theorem Tracks.symbol {payload rest : List Byte} {l : Lane} {c : DecCtx} {q : SymLimits} {y : Sym} (h : Tracks payload rest l c)
    (hcur : l.win.cur ≤ l.win.endPos) (hcod : y.Codable l) (hq : q.Admit y) (hp : (y.coded l).rce.Reaches payload) :
    ∃ code src, decSymbol q c = .ok (y.answer l) (c.movedTo (y.coded l) code src (y.bytes l)) ∧
      Tracks payload rest (y.coded l) (c.movedTo (y.coded l) code src (y.bytes l)) := by
  obtain ⟨p, r, code, src, h1, h2⟩ := decSymbol_readsThen hcod hq payload rest l c h.lz h.win h.toInStep hp
  have hprob : p = (y.coded l).prob := h2.prob
  have hrange : r = (y.coded l).rce.range := h2.follows.1
  subst hprob hrange
  have hwin : c.lane.win.append (y.bytes l) = (y.coded l).win.behind := by
    rw [h.win, Sym.bytes, Window.behind_append (hcod.end_le hcur)]
    rfl
  have hctx : (c.reading (y.coded l).prob (y.coded l).rce.range code src).decoded y l =
      c.movedTo (y.coded l) code src (y.bytes l) := by
    simp only [DecCtx.decoded, DecCtx.withLz, putBytes, DecCtx.movedTo, DecCtx.reading, hwin]
    rfl
  simp only [hctx] at h1
  exact ⟨code, src, h1, ⟨Sym.coded_encOk h.encOk, rfl, h2.follows, h2.src⟩, rfl, rfl⟩

/-- The bytes of `n` then `k` positions. -/
theorem drop_take_append {bs : List Byte} {p n k : Nat} :
    (bs.drop p).take n ++ (bs.drop (p + n)).take k = (bs.drop p).take (n + k) := by
  rw [List.take_add, List.drop_drop]

/-- `while produced < n` on symbols of `n` bytes in all (R633, R661, R830). -/
theorem Tracks.exactly {payload rest : List Byte} {l : Lane} {c : DecCtx} {ys : List Sym} {fuel : Nat} (h : Tracks payload rest l c)
    (hcur : l.win.cur ≤ l.win.endPos) (hcod : CodableAll ys l) (hfuel : Sym.total ys ≤ fuel)
    (hp : (codedAll ys l).rce.Reaches payload) :
    ∃ code src, let c' := c.movedTo (codedAll ys l) code src ((l.win.bytes.drop l.win.cur).take (Sym.total ys))
      decExactly fuel (Sym.total ys) c = .ok () c' ∧ Tracks payload rest (codedAll ys l) c' := by
  induction ys generalizing l c fuel with
  | nil =>
    refine ⟨c.lane.rcd.code, c.src, ?_⟩
    simp only [Sym.total_nil, List.take_zero, codedAll_nil]
    rw [← h.movedTo_self]
    exact ⟨by cases fuel <;> rfl, h⟩
  | cons y ys ih =>
    obtain ⟨hne, hy, hys⟩ := hcod
    have hpos := hy.len_pos hne
    rw [Sym.total_cons] at hfuel ⊢
    obtain ⟨f, rfl⟩ : ∃ f, fuel = f + 1 := ⟨fuel - 1, by omega⟩
    obtain ⟨code, src, h1, h2⟩ := h.symbol (q := { limit := some (y.len + Sym.total ys), eosOk := false, tooLong := .overrun })
      hcur hy ⟨by simp [SymLimits.exceeded], fun he => absurd he hne⟩ (reaches_of_codedAll (Sym.coded_encOk h.encOk) hp)
    obtain ⟨code', src', h3, h4⟩ := ih (fuel := f) h2 (hy.end_le hcur) hys (by omega) hp
    rw [DecCtx.movedTo_movedTo] at h3 h4
    have hbytes : y.bytes l ++ ((y.coded l).win.bytes.drop (y.coded l).win.cur).take (Sym.total ys) =
        (l.win.bytes.drop l.win.cur).take (y.len + Sym.total ys) := drop_take_append
    rw [hbytes] at h3 h4
    refine ⟨code', src', ?_, h4⟩
    have hlen : y.len + Sym.total ys - (y.answer l).len = Sym.total ys := Nat.add_sub_cancel_left _ _
    rw [decExactly, if_neg (by omega), h1, Res.bind_ok, hlen]
    exact h3

theorem Sym.kind_ne_eos {y : Sym} (h : y ≠ .eos) : y.kind ≠ .eos := by
  cases y with
  | eos => exact absurd rfl h
  | rep r n =>
    match r with
    | 0 | 1 | 2 => exact SymKind.noConfusion
    | r + 3 => exact SymKind.noConfusion
  | _ => exact SymKind.noConfusion

/-- The loop until the end marker on symbols and a marker (R633, R640, R661). -/
theorem Tracks.markerLoop {payload rest : List Byte} {l : Lane} {c : DecCtx} {q : Nat → SymLimits} {ys : List Sym}
    {fuel produced : Nat} (h : Tracks payload rest l c) (hcur : l.win.cur ≤ l.win.endPos) (hcod : CodableAll ys l)
    (hfuel : ys.length < fuel) (hq : ∀ p y, p + y.len ≤ l.win.cur + Sym.total ys → (q p).Admit y)
    (hp : (Sym.eos.coded (codedAll ys l)).rce.Reaches payload) :
    ∃ code src,
      let c' := c.movedTo (Sym.eos.coded (codedAll ys l)) code src ((l.win.bytes.drop l.win.cur).take (Sym.total ys))
      decMarkerLoop q fuel produced c = .ok (produced + Sym.total ys) c' ∧
        Tracks payload rest (Sym.eos.coded (codedAll ys l)) c' := by
  have hat : c.lane.win.cur = l.win.cur := by rw [h.win]; rfl
  obtain ⟨f, rfl⟩ : ∃ f, fuel = f + 1 := ⟨fuel - 1, by omega⟩
  induction ys generalizing l c f produced with
  | nil =>
    obtain ⟨code, src, h1, h2⟩ := h.symbol (y := .eos) hcur trivial (hq _ _ (Nat.le_refl _)) hp
    refine ⟨code, src, ?_, h2⟩
    rw [decMarkerLoop, hat, h1]
    rfl
  | cons y ys ih =>
    obtain ⟨hne, hy, hys⟩ := hcod
    rw [Sym.total_cons] at hq ⊢
    rw [List.length_cons] at hfuel
    obtain ⟨g, rfl⟩ : ∃ g, f = g + 1 := ⟨f - 1, by omega⟩
    have hok := Sym.coded_encOk (y := y) h.encOk
    obtain ⟨code, src, h1, h2⟩ := h.symbol hcur hy (hq l.win.cur y (by omega))
      (reaches_of_codedAll hok (reaches_of_coded (codedAll_encOk hok) hp))
    obtain ⟨code', src', h3, h4⟩ := ih (produced := produced + y.len) h2 (hy.end_le hcur) hys
      (fun p z hz => hq p z (by rw [Sym.coded_win, Nat.add_assoc] at hz; exact hz)) hp rfl g (by omega)
    rw [DecCtx.movedTo_movedTo] at h3 h4
    have hbytes : y.bytes l ++ ((y.coded l).win.bytes.drop (y.coded l).win.cur).take (Sym.total ys) =
        (l.win.bytes.drop l.win.cur).take (y.len + Sym.total ys) := drop_take_append
    rw [hbytes] at h3 h4
    refine ⟨code', src', ?_, h4⟩
    rw [decMarkerLoop, hat, h1, Res.bind_ok, if_neg (show ¬ (y.answer l).kind = .eos from Sym.kind_ne_eos hne)]
    rw [Nat.add_assoc] at h3
    exact h3

/-- The turns of `decUntilMarker` are enough for any symbols a payload can carry (R1126). -/
theorem Tracks.turns {payload rest : List Byte} {l : Lane} {c : DecCtx} {ys : List Sym} (h : Tracks payload rest l c)
    (hp : (codedAll ys l).rce.Reaches payload) : ys.length < (c.src.length + 1) * 2 ^ 32 := by
  have hturns := codedAll_turns (ys := ys) h.encOk
  have hlen := hp.firstBytes.1
  have hrange := l.rce.range.isLt
  have hsrc : payload.length - (l.rce.digits.length + 4) ≤ c.src.length := by
    rw [h.src, List.length_append, List.length_drop]
    exact Nat.le_add_right _ _
  rw [Nat.mul_comm]
  omega

end Sys2Proof.Machine
end

section
/-! PROOFS. The finder and the parser: with a sound finder every candidate is a true match, and every symbol that the parser chooses can be
coded where it stands (R710 to R714, R730 to R734, R760, R761). -/

namespace Sys2Proof.Machine

/-! ## Matches (R713) -/

/-- A candidate (length, distance) is a true match at `p`, its distance in the history of the dictionary. -/
def Window.IsMatch (w : Window) (p : Nat) (c : Nat × Nat) : Prop :=
  1 ≤ c.2 ∧ c.2 ≤ min p w.dictSize.toNat ∧ w.Repeats p c.2 c.1

theorem Window.Repeats.mono {w : Window} {p d m n : Nat} (h : w.Repeats p d n) (hmn : m ≤ n) : w.Repeats p d m :=
  fun k hk => h k (Nat.lt_of_lt_of_le hk hmn)

theorem extendMatch_le {w : Window} {p d n len : Nat} : extendMatch w p d n len ≤ len + n := by
  induction n generalizing len with
  | zero => exact Nat.le_refl _
  | succ n ih =>
    rw [extendMatch]
    split
    · have := ih (len := len + 1)
      omega
    · omega

theorem extendMatch_repeats {w : Window} {p d n len : Nat} (h : w.Repeats p d len) :
    w.Repeats p d (extendMatch w p d n len) := by
  induction n generalizing len with
  | zero => exact h
  | succ n ih =>
    rw [extendMatch]
    split
    · rename_i heq
      refine ih fun k hk => ?_
      rcases Nat.lt_succ_iff_lt_or_eq.mp hk with hk | rfl
      · exact h k hk
      · exact heq.symm
    · exact h

theorem matchLength_le {w : Window} {p d n : Nat} : matchLength w p d 0 n ≤ n := by
  have := extendMatch_le (w := w) (p := p) (d := d) (n := n - 0) (len := 0)
  rw [matchLength]
  omega

theorem matchLength_repeats {w : Window} {p d len n : Nat} (h : w.Repeats p d len) :
    w.Repeats p d (matchLength w p d len n) := extendMatch_repeats h

theorem repeats_zero {w : Window} {p d : Nat} : w.Repeats p d 0 := fun _ hk => absurd hk (Nat.not_lt_zero _)

theorem isMatch_of_candidateOk {w : Window} {p rem : Nat} {c : Nat × Nat} (h : candidateOk w p rem c = true) : w.IsMatch p c := by
  obtain ⟨-, -, h1, h2, h3⟩ := of_decide_eq_true h
  refine ⟨h1, h2, ?_⟩
  rw [← h3]
  exact matchLength_repeats repeats_zero

/-! ## Hashes (R710) -/

/-- Bytes that hash alike beside the same first bytes are the same. -/
theorem eq_of_xor_and {t y y' i m : Nat} (hy : y < 2 ^ 8) (hy' : y' < 2 ^ 8) (hm : ∀ j, j < 8 → m.testBit (i + j) = true)
    (h : (t ^^^ y * 2 ^ i) &&& m = (t ^^^ y' * 2 ^ i) &&& m) : y = y' := by
  apply Nat.eq_of_testBit_eq
  intro j
  by_cases hj : j < 8
  · have hbit := congrArg (fun n => n.testBit (i + j)) h
    simpa [Nat.testBit_and, Nat.testBit_xor, Nat.testBit_mul_two_pow, hm j hj] using hbit
  · have hpow : 2 ^ 8 ≤ 2 ^ j := Nat.pow_le_pow_right (by decide) (by omega)
    rw [Nat.testBit_lt_two_pow (by omega), Nat.testBit_lt_two_pow (by omega)]

/-- Two positions with the same first byte and the same 2-byte hash carry the same two bytes. -/
theorem repeats_of_h2 {w : Window} {p q : Nat} (hqp : q ≤ p) (h0 : w.byteAt q = w.byteAt p)
    (h : (hashesAt w q).h2 = (hashesAt w p).h2) : w.Repeats p (p - q) 2 := by
  simp only [hashesAt, h0] at h
  have h1 : w.byteAt (q + 1) = w.byteAt (p + 1) := BitVec.eq_of_toNat_eq
    (eq_of_xor_and (i := 0) (m := 0x3FF) (BitVec.isLt _) (BitVec.isLt _) (by decide) (by simpa using h))
  intro k hk
  obtain rfl | rfl : k = 0 ∨ k = 1 := by omega
  · rw [Nat.add_zero, show p - (p - q) = q by omega, h0]
  · rw [show p + 1 - (p - q) = q + 1 by omega, h1]

/-- The low byte does not see a value shifted above it. -/
theorem xor_shift_and_low {n y : Nat} : (n ^^^ y * 2 ^ 8) &&& 0xFFFF &&& 0xFF = n &&& 0xFF := by
  apply Nat.eq_of_testBit_eq
  intro j
  simp only [Nat.testBit_and, Nat.testBit_xor, Nat.testBit_mul_two_pow]
  by_cases hj : j < 8
  · have hff : Nat.testBit 0xFFFF j = true := by revert j; decide
    rw [hff, decide_eq_false (by omega), Bool.false_and, Bool.xor_false, Bool.and_true]
  · have hff : Nat.testBit 0xFF j = false := Nat.testBit_lt_two_pow
      (Nat.lt_of_lt_of_le (by decide) (Nat.pow_le_pow_right (n := 2) (by decide) (show 8 ≤ j by omega)))
    rw [hff, Bool.and_false, Bool.and_false]

/-- Two positions with the same first byte and the same 3-byte hash carry the same three bytes. -/
theorem repeats_of_h3 {w : Window} {p q : Nat} (hqp : q ≤ p) (h0 : w.byteAt q = w.byteAt p)
    (h : (hashesAt w q).h3 = (hashesAt w p).h3) : w.Repeats p (p - q) 3 := by
  simp only [hashesAt, h0] at h
  have h1 : w.byteAt (q + 1) = w.byteAt (p + 1) := BitVec.eq_of_toNat_eq
    (eq_of_xor_and (i := 0) (m := 0xFF) (BitVec.isLt _) (BitVec.isLt _) (by decide) (by
      have := congrArg (· &&& 0xFF) h
      simp only [xor_shift_and_low] at this
      rw [Nat.pow_zero, Nat.mul_one, Nat.mul_one]
      exact this))
  rw [h1] at h
  have h2 : w.byteAt (q + 2) = w.byteAt (p + 2) := BitVec.eq_of_toNat_eq
    (eq_of_xor_and (i := 8) (m := 0xFFFF) (BitVec.isLt _) (BitVec.isLt _) (by decide) h)
  intro k hk
  obtain rfl | rfl | rfl : k = 0 ∨ k = 1 ∨ k = 2 := by omega
  · rw [Nat.add_zero, show p - (p - q) = q by omega, h0]
  · rw [show p + 1 - (p - q) = q + 1 by omega, h1]
  · rw [show p + 2 - (p - q) = q + 2 by omega, h2]

/-! ## The tables (R712) -/

theorem entry_setEntry {t : Memory (Option Nat)} {i j : Nat} {q : Option Nat} (h : Memory.wf none t = true) :
    entry (setEntry t i q) j = if j = i then q else entry t j := by
  by_cases hj : j = i
  · subst hj
    rw [if_pos rfl]
    exact Memory.read_write_same h
  · rw [if_neg hj]
    exact Memory.read_write_other h hj

theorem insertAt_ok {m : MatchFinder} {h : Hashes} {p : Nat} (hm : m.Ok) : (insertAt m h p).Ok := by
  obtain ⟨h2, h3, h4, hc⟩ := hm
  exact ⟨Memory.write_wf h2, Memory.write_wf h3, Memory.write_wf h4, Memory.write_wf hc⟩

theorem MatchFinder.Sound.mono {w : Window} {m : MatchFinder} {p p' : Nat} (h : m.Sound w p) (hp : p ≤ p') : m.Sound w p' := by
  obtain ⟨h2, h3, h4, hc⟩ := h
  refine ⟨fun i q hq => ?_, fun i q hq => ?_, fun i q hq => ?_, hc⟩
  · exact ⟨by have := (h2 i q hq).1; omega, (h2 i q hq).2⟩
  · exact ⟨by have := (h3 i q hq).1; omega, (h3 i q hq).2⟩
  · have := h4 i q hq
    omega

/-- Filing a position with four bytes keeps the finder sound (R712). -/
theorem insertAt_sound {w : Window} {m : MatchFinder} {p : Nat} (hm : m.Ok) (h : m.Sound w p) (hend : p + 4 ≤ w.endPos) :
    (insertAt m (hashesAt w p) p).Sound w (p + 1) := by
  obtain ⟨o2, o3, o4, oc⟩ := hm
  obtain ⟨h2, h3, h4, hc⟩ := h
  refine ⟨fun i q hq => ?_, fun i q hq => ?_, fun i q hq => ?_, fun x q hq => ?_⟩
  · rw [insertAt, entry_setEntry o2] at hq
    split at hq
    · rename_i hi
      obtain rfl : p = q := Option.some.inj hq
      exact ⟨Nat.lt_succ_self p, hend, hi.symm⟩
    · obtain ⟨h5, h6⟩ := h2 i q hq
      exact ⟨Nat.lt_succ_of_lt h5, h6⟩
  · rw [insertAt, entry_setEntry o3] at hq
    split at hq
    · rename_i hi
      obtain rfl : p = q := Option.some.inj hq
      exact ⟨Nat.lt_succ_self p, hend, hi.symm⟩
    · obtain ⟨h5, h6⟩ := h3 i q hq
      exact ⟨Nat.lt_succ_of_lt h5, h6⟩
  · rw [insertAt, entry_setEntry o4] at hq
    split at hq
    · obtain rfl : p = q := Option.some.inj hq
      exact Nat.lt_succ_self p
    · exact Nat.lt_succ_of_lt (h4 i q hq)
  · rw [insertAt, entry_setEntry oc] at hq
    split at hq
    · rename_i hx
      rw [hx]
      exact h4 _ q hq
    · exact hc x q hq

/-! ## The search (R713) -/

theorem probe_eq_some {w : Window} {p q d : Nat} (h : probe w p (some q) = some d) (hq : q < p) :
    d = p - q ∧ 1 ≤ d ∧ d ≤ min p w.dictSize.toNat ∧ w.byteAt q = w.byteAt p := by
  simp only [probe] at h
  split at h
  · rename_i hd
    obtain rfl := Option.some.inj h
    rw [show p - (p - q) = q by omega] at hd
    exact ⟨rfl, by omega, by omega, hd.2⟩
  · exact nomatch h

/-- Every candidate of the 2- and 3-byte tables is a true match. -/
theorem shortCandidates_isMatch {w : Window} {m : MatchFinder} {p : Nat} (h : m.Sound w p) {c : Nat × Nat}
    (hc : c ∈ shortCandidates w p (entry m.t2 (hashesAt w p).h2) (entry m.t3 (hashesAt w p).h3)) : w.IsMatch p c := by
  obtain ⟨h2, h3, -, -⟩ := h
  rcases List.mem_append.mp hc with hc | hc
  · generalize he : entry m.t2 (hashesAt w p).h2 = e at hc
    cases e with
    | none => simp [probe] at hc
    | some q =>
      obtain ⟨hqp, -, hh⟩ := h2 _ q he
      split at hc
      · rename_i d hd
        obtain ⟨rfl, hd1, hd2, h0⟩ := probe_eq_some hd hqp
        rw [List.mem_singleton.mp hc]
        exact ⟨hd1, hd2, repeats_of_h2 (by omega) h0 hh⟩
      · simp at hc
  · generalize he : entry m.t3 (hashesAt w p).h3 = e at hc
    cases e with
    | none => simp at hc
    | some q =>
      obtain ⟨hqp, -, hh⟩ := h3 _ q he
      simp only at hc
      split at hc
      · simp at hc
      · split at hc
        · rename_i d hd
          obtain ⟨rfl, hd1, hd2, h0⟩ := probe_eq_some hd hqp
          rw [List.mem_singleton.mp hc]
          exact ⟨hd1, hd2, repeats_of_h3 (by omega) h0 hh⟩
        · simp at hc

/-- The chain walk adds only true matches. -/
theorem walkChain_isMatch {w : Window} {chain : Memory (Option Nat)} {p mll nl depth best : Nat} {q : Option Nat}
    {found : List (Nat × Nat)} (hchain : ∀ x q, entry chain x = some q → q < x) (hq : ∀ r, q = some r → r < p)
    (hfound : ∀ c ∈ found, w.IsMatch p c) : ∀ c ∈ walkChain w chain p mll nl depth q best found, w.IsMatch p c := by
  induction depth generalizing q best found with
  | zero => exact hfound
  | succ depth ih =>
    cases q with
    | none => exact hfound
    | some q =>
      have hqp := hq q rfl
      have hnext : ∀ r, entry chain q = some r → r < p := fun r hr => Nat.lt_trans (hchain q r hr) hqp
      simp only [walkChain]
      split
      · exact hfound
      · rename_i hdict
        split
        · rename_i hbytes
          have hone : w.Repeats p (p - q) 1 := fun k hk => by
            obtain rfl : k = 0 := by omega
            exact hbytes.2.symm
          have hadd : ∀ c ∈ found ++ [(matchLength w p (p - q) 1 mll, p - q)], w.IsMatch p c := by
            intro c hc
            rcases List.mem_append.mp hc with hc | hc
            · exact hfound c hc
            · rw [List.mem_singleton.mp hc]
              exact ⟨show 1 ≤ p - q by omega, show p - q ≤ min p _ by omega, matchLength_repeats hone⟩
          split
          · split
            · exact hadd
            · exact ih hnext hadd
          · exact ih hnext hfound
        · exact ih hnext hfound

/-- Every candidate of the hash-chain finder is a true match (R713). -/
theorem searchAt_isMatch {a : Act} {w : Window} {m : MatchFinder} {p rem : Nat} (hm : m.Ok) (h : m.Sound w p) :
    ∀ c ∈ searchAt a w m (hashesAt w p) p rem, w.IsMatch p c := by
  have h4 : ∀ q, entry m.t4 (hashesAt w p).h4 = some q → q < p := fun q hq => h.2.2.1 _ q hq
  have hchain : ∀ x q, entry (setEntry m.chain p (entry m.t4 (hashesAt w p).h4)) x = some q → q < x := by
    intro x q hq
    rw [entry_setEntry hm.2.2.2] at hq
    split at hq
    · rename_i hx
      rw [hx]
      exact h4 q hq
    · exact h.2.2.2 x q hq
  simp only [searchAt]
  split
  · exact walkChain_isMatch hchain h4 (fun _ hc => nomatch hc)
  · rename_i len d hlast
    have hshort := shortCandidates_isMatch h (List.mem_of_getLast? hlast)
    have hfound : ∀ c ∈ (shortCandidates w p (entry m.t2 (hashesAt w p).h2) (entry m.t3 (hashesAt w p).h3)).dropLast ++
        [(matchLength w p d len (min 273 rem), d)], w.IsMatch p c := by
      intro c hc
      rcases List.mem_append.mp hc with hc | hc
      · exact shortCandidates_isMatch h (List.mem_of_mem_dropLast hc)
      · rw [List.mem_singleton.mp hc]
        obtain ⟨h5, h6, h7⟩ := hshort
        exact ⟨h5, h6, matchLength_repeats h7⟩
    split
    · exact hfound
    · exact walkChain_isMatch hchain h4 hfound

/-- Every candidate of the selected finder is a true match (R713, R760 b). -/
theorem find_isMatch {b : Build} {a : Act} {w : Window} {m : MatchFinder} {p rem : Nat} (hm : m.Ok) (h : m.Sound w p) :
    ∀ c ∈ (find b a w m p rem).1, w.IsMatch p c := by
  have hhash : ∀ c ∈ (hashChainFind a w m p rem).1, w.IsMatch p c := by
    rw [hashChainFind]
    split
    · exact fun _ hc => nomatch hc
    · exact searchAt_isMatch hm h
  rw [find]
  split
  · rw [binaryTreeFind]
    split
    · exact hhash
    · simp only [substituteFind]
      split
      · exact fun c hc => isMatch_of_candidateOk (keepCandidates_mem hc).2
      · exact fun _ hc => nomatch hc
  · exact hhash

/-- What a finder given a position changes beside a substitute's memory: the position is filed, where four bytes are there (R712, R714). -/
structure FiledAt (w : Window) (m m' : MatchFinder) (p rem : Nat) : Prop where
  eq : m' = { skipAt w m p rem with own := m'.own }

theorem filedAt_skipAt {w : Window} {m : MatchFinder} {p rem : Nat} : FiledAt w m (skipAt w m p rem) p rem := ⟨rfl⟩

theorem filedAt_substituteFind {which : Nat} {a : Act} {w : Window} {m : MatchFinder} {p rem : Nat} {search : Bool} :
    FiledAt w m (substituteFind which a w m p rem search).2 p rem := ⟨rfl⟩

theorem filedAt_hashChainFind {a : Act} {w : Window} {m : MatchFinder} {p rem : Nat} :
    FiledAt w m (hashChainFind a w m p rem).2 p rem := by
  rw [hashChainFind]
  split
  · rename_i h
    exact ⟨by rw [skipAt, if_neg (by omega)]⟩
  · rename_i h
    exact ⟨by rw [skipAt, if_pos (by omega)]⟩

theorem filedAt_find {b : Build} {a : Act} {w : Window} {m : MatchFinder} {p rem : Nat} :
    FiledAt w m (find b a w m p rem).2 p rem := by
  rw [find]
  split
  · rw [binaryTreeFind]
    split
    · exact filedAt_hashChainFind
    · exact filedAt_substituteFind
  · exact filedAt_hashChainFind

theorem filedAt_skip {b : Build} {a : Act} {w : Window} {m : MatchFinder} {p rem : Nat} :
    FiledAt w m (skip b a w m p rem) p rem := by
  rw [skip]
  split
  · rw [binaryTreeSkip]
    split
    · exact filedAt_skipAt
    · exact filedAt_substituteFind
  · exact filedAt_skipAt

theorem skipAt_next {w : Window} {m : MatchFinder} {p rem : Nat} :
    (skipAt w m p rem).next = m.next ∧ (skipAt w m p rem).cache = m.cache := by
  rw [skipAt]
  split <;> exact ⟨rfl, rfl⟩

theorem FiledAt.next {w : Window} {m m' : MatchFinder} {p rem : Nat} (h : FiledAt w m m' p rem) : m'.next = m.next := by
  rw [h.eq]
  exact skipAt_next.1

theorem FiledAt.cache {w : Window} {m m' : MatchFinder} {p rem : Nat} (h : FiledAt w m m' p rem) : m'.cache = m.cache := by
  rw [h.eq]
  exact skipAt_next.2

theorem FiledAt.ok {w : Window} {m m' : MatchFinder} {p rem : Nat} (h : FiledAt w m m' p rem) (hm : m.Ok) : m'.Ok := by
  have : (skipAt w m p rem).Ok := by
    rw [skipAt]
    split
    · exact insertAt_ok hm
    · exact hm
  rw [h.eq]
  exact this

theorem FiledAt.sound {w : Window} {m m' : MatchFinder} {p rem : Nat} (h : FiledAt w m m' p rem) (hm : m.Ok) (hs : m.Sound w p)
    (hrem : p + rem ≤ w.endPos) : m'.Sound w (p + 1) := by
  have : (skipAt w m p rem).Sound w (p + 1) := by
    rw [skipAt]
    split
    · exact insertAt_sound hm hs (by omega)
    · exact hs.mono (Nat.le_succ p)
  rw [h.eq]
  exact this

/-! ## The finder of GREEDY_LAZY between symbols (R730, R731, R733) -/

/-- The finder stands ready at coding position `cur` of a segment: it is sound, it is one position ahead at most, and then `cur` is the
position it has cached. -/
structure FinderReady (w : Window) (segEnd cur : Nat) (m : MatchFinder) : Prop where
  ok : m.Ok
  sound : m.Sound w m.next
  next_le : m.next ≤ cur + 1
  next_le_end : m.next ≤ segEnd
  cached : ∀ q list, m.cache = some (q, list) → q < m.next ∧ (cur ≤ q → ∀ c ∈ list, w.IsMatch q c)
  searched : cur < m.next → ∃ list, m.cache = some (cur, list)

/-- The coding position may move on: the finder is then ready there. -/
theorem FinderReady.moveOn {w : Window} {segEnd cur cur' : Nat} {m : MatchFinder} (h : FinderReady w segEnd cur m) (hc : cur < cur') :
    FinderReady w segEnd cur' m where
  ok := h.ok
  sound := h.sound
  next_le := by have := h.next_le; omega
  next_le_end := h.next_le_end
  cached := fun q list hq => ⟨(h.cached q list hq).1, fun hle => by
    have := (h.cached q list hq).1
    have := h.next_le
    omega⟩
  searched := fun hlt => by
    have := h.next_le
    omega

/-- The window's coding position is no part of what the finder sees. -/
theorem FinderReady.withCur {w : Window} {segEnd cur c : Nat} {m : MatchFinder} (h : FinderReady w segEnd cur m) :
    FinderReady { w with cur := c } segEnd cur m := ⟨h.ok, h.sound, h.next_le, h.next_le_end, h.cached, h.searched⟩

theorem FinderReady.search {b : Build} {a : Act} {w : Window} {segEnd cur : Nat} {m : MatchFinder} (h : FinderReady w segEnd cur m)
    (hend : segEnd ≤ w.endPos) (hlt : cur < segEnd) (hnext : m.next ≤ cur) :
    (∀ c ∈ (searchAndCache b a w m cur (segEnd - cur)).1, w.IsMatch cur c) ∧
    FinderReady w segEnd cur (searchAndCache b a w m cur (segEnd - cur)).2 := by
  have hs : m.Sound w cur := h.sound.mono hnext
  have hc := find_isMatch (b := b) (a := a) (rem := segEnd - cur) h.ok hs
  have hf := filedAt_find (b := b) (a := a) (w := w) (m := m) (p := cur) (rem := segEnd - cur)
  refine ⟨hc, hf.ok h.ok, hf.sound h.ok hs (by omega), Nat.le_refl _, hlt, fun q list hq => ?_, fun _ => ⟨_, rfl⟩⟩
  obtain ⟨rfl, rfl⟩ := Prod.mk.inj (Option.some.inj hq)
  exact ⟨Nat.lt_succ_self _, fun _ => hc⟩

/-- `Cands` at the coding position answers true matches and leaves the finder ready (R733). -/
theorem FinderReady.cands {b : Build} {a : Act} {segEnd : Nat} {cur : Nat} {l : Lane} (h : FinderReady l.win segEnd cur l.mf)
    (hend : segEnd ≤ l.win.endPos) (hlt : cur < segEnd) :
    (∀ c ∈ (cands b a segEnd cur l).1, l.win.IsMatch cur c) ∧
    ∃ m, (cands b a segEnd cur l).2 = { l with mf := m } ∧ FinderReady l.win segEnd cur m := by
  have hsearch (hne : ∀ q list, l.mf.cache = some (q, list) → q ≠ cur) :=
    h.search (b := b) (a := a) hend hlt (by
      by_contra hc
      obtain ⟨list, hl⟩ := h.searched (by omega)
      exact hne cur list hl rfl)
  simp only [Machine.cands]
  split
  · rename_i q list hcache
    split
    · rename_i hq
      subst hq
      exact ⟨(h.cached _ list hcache).2 (Nat.le_refl _), l.mf, rfl, h⟩
    · rename_i hq
      obtain ⟨h1, h2⟩ := hsearch fun q' list' hc' => by
        rw [hcache] at hc'
        obtain ⟨rfl, -⟩ := Prod.mk.inj (Option.some.inj hc')
        exact hq
      exact ⟨h1, _, rfl, h2⟩
  · rename_i hcache
    obtain ⟨h1, h2⟩ := hsearch fun q list hc => by
      rw [hcache] at hc
      exact nomatch hc
    exact ⟨h1, _, rfl, h2⟩

/-- `Advance` leaves the finder ready (R731). -/
theorem FinderReady.skipMany {b : Build} {a : Act} {w : Window} {segEnd cur n : Nat} {m : MatchFinder}
    (h : FinderReady w segEnd cur m) (hend : segEnd ≤ w.endPos) (hcur : cur ≤ segEnd) (hn : n ≤ cur - m.next) :
    FinderReady w segEnd cur (skipMany b a w segEnd n m) := by
  induction n generalizing m with
  | zero => exact h
  | succ n ih =>
    have hf := filedAt_skip (b := b) (a := a) (w := w) (m := m) (p := m.next) (rem := segEnd - m.next)
    refine ih ⟨hf.ok h.ok, hf.sound h.ok h.sound (by omega), ?_, ?_, fun q list hq => ?_, fun hlt => ?_⟩ ?_
    · show m.next + 1 ≤ cur + 1
      omega
    · show m.next + 1 ≤ segEnd
      omega
    · obtain ⟨h1, h2⟩ := h.cached q list (hf.cache ▸ hq)
      exact ⟨Nat.lt_succ_of_lt h1, h2⟩
    · have : cur < m.next + 1 := hlt
      omega
    · show n ≤ cur - (m.next + 1)
      omega

/-! ## The parser's choice (R730, R734) -/

/-- The symbol of a choice. -/
def Choice.sym : Choice → Sym
  | .lit => .lit
  | .shortrep => .shortrep
  | .rep i n => .rep i n
  | .mtch d n => .mtch d n

theorem Choice.sym_ne_eos {c : Choice} : c.sym ≠ .eos := by cases c <;> exact Sym.noConfusion

theorem Choice.sym_len {c : Choice} : c.sym.len = c.len := by cases c <;> rfl

/-- `EncSym` codes the symbol (R611, R732). -/
theorem encSym_eq {c : Choice} {l : Lane} (h : c.sym.Codable l) : encSym c l = c.sym.coded l := by
  cases c with
  | lit => exact encLit_eq
  | shortrep => exact encShortrep_eq
  | rep i n => exact encRep_eq h.1 h.2.1
  | mtch d n => exact encMatch_eq h.2.1

/-- A literal can be coded as far as the state machine goes (R621). -/
def Lane.LitReady (l : Lane) : Prop := l.lz.state.val < 7 ∨ l.lz.rep0.toNat + 1 ≤ l.win.hist

/-- After a symbol a literal can be coded. -/
theorem Sym.Codable.litReady {y : Sym} {l : Lane} (h : y.Codable l) (hy : y ≠ .eos) : (y.coded l).LitReady := by
  have hhist : l.win.hist ≤ (y.coded l).win.hist := by
    rw [Sym.coded_win]
    simp only [Window.hist]
    omega
  cases y with
  | lit =>
    left
    rw [Sym.coded_lz, Sym.after_lit]
    have : ∀ s : Fin 12, (nextLit s).val < 7 := by decide
    exact this _
  | mtch d n =>
    right
    have hd : d ≤ l.win.hist := h.2.2.2.1
    have hdict : l.win.hist ≤ l.win.dictSize.toNat := Nat.min_le_right _ _
    have h32 := l.win.dictSize.isLt
    have hrep : ((Sym.mtch d n).coded l).lz.rep0 = BitVec.ofNat 32 (d - 1) := rfl
    rw [hrep, BitVec.toNat_ofNat]
    have := h.1
    omega
  | shortrep =>
    right
    exact Nat.le_trans h.1 hhist
  | rep r n =>
    right
    have hrep : ((Sym.rep r n).coded l).lz.rep0.toNat + 1 = (l.lz.rep r).toNat + 1 := by
      rw [Sym.coded_lz, Sym.after_rep]
      exact Coder.promote_dist
    rw [hrep]
    exact Nat.le_trans h.2.2.2.1 hhist
  | eos => exact absurd rfl hy

/-- The symbol can be coded at the coding position and is of at most `most` bytes (R734). -/
def Choice.Fits (c : Choice) (l : Lane) (most : Nat) : Prop := c.sym.Codable l ∧ c.len ≤ most

theorem repLength_spec {l : Lane} {most i : Nat} (h : 1 ≤ repLength l most i) :
    l.lz.dist i ≤ l.win.hist ∧ repLength l most i ≤ most ∧ l.win.Repeats l.win.cur (l.lz.dist i) (repLength l most i) := by
  rw [repLength] at h ⊢
  split at h
  · rename_i hd
    rw [if_pos hd]
    exact ⟨hd, matchLength_le, matchLength_repeats repeats_zero⟩
  · omega

section
variable {l : Lane} {most : Nat}

theorem fits_lit (hl : l.LitReady) (hlt : l.win.cur < l.win.endPos) (hm : 1 ≤ most) : Choice.Fits .lit l most := ⟨⟨hlt, hl⟩, hm⟩

theorem fits_shortrep (hd : l.lz.dist 0 ≤ l.win.hist) (heq : l.win.look 0 = l.win.back (l.lz.dist 0))
    (hlt : l.win.cur < l.win.endPos) (hm : 1 ≤ most) : Choice.Fits .shortrep l most := ⟨⟨hd, hlt, heq⟩, hm⟩

theorem fits_rep {i n : Nat} (hi : i ≤ 3) (h2 : 2 ≤ n) (hn : n ≤ repLength l most i) (hm : most ≤ 273)
    (hend : l.win.cur + most ≤ l.win.endPos) : Choice.Fits (.rep i n) l most := by
  obtain ⟨h4, h5, h6⟩ := repLength_spec (show 1 ≤ repLength l most i by omega)
  exact ⟨⟨hi, h2, by omega, h4, by omega, h6.mono hn⟩, by rw [Choice.len]; omega⟩

theorem fits_mtch {d n : Nat} (h1 : 1 ≤ d) (hd : d ≤ l.win.hist) (h2 : 2 ≤ n) (hn : n ≤ most) (hrep : l.win.Repeats l.win.cur d n)
    (hm : most ≤ 273) (hend : l.win.cur + most ≤ l.win.endPos) : Choice.Fits (.mtch d n) l most :=
  ⟨⟨h1, h2, by omega, hd, by omega, hrep⟩, hn⟩

theorem fits_litOrShort (hl : l.LitReady) (hlt : l.win.cur < l.win.endPos) (hm : 1 ≤ most) : (litOrShort l).Fits l most := by
  rw [litOrShort]
  split
  · rename_i h
    exact fits_shortrep h.1 h.2 hlt hm
  · exact fits_lit hl hlt hm

/-- A choice that R734 admits can be coded. -/
theorem fits_of_allowed {c : Choice} (hc : c.allowed l most = true) (hl : l.LitReady) (hm1 : 1 ≤ most) (hm : most ≤ 273)
    (hend : l.win.cur + most ≤ l.win.endPos) : c.Fits l most := by
  cases c with
  | lit => exact fits_lit hl (by omega) hm1
  | shortrep =>
    obtain ⟨h1, -, h3⟩ := repLength_spec (of_decide_eq_true hc)
    have h0 := h3 0 (of_decide_eq_true hc)
    exact fits_shortrep h1 h0 (by omega) hm1
  | rep i n =>
    obtain ⟨h1, h2, -, h4⟩ := of_decide_eq_true hc
    exact fits_rep h1 h2 h4 hm hend
  | mtch d n =>
    obtain ⟨h1, h2, h3, h4, h5⟩ := of_decide_eq_true (Bool.and_eq_true_iff.mp hc).1
    exact fits_mtch h1 h2 h3 h4 (h5 ▸ matchLength_repeats repeats_zero) hm hend

theorem bestRep_spec : (bestRep l most).2 ≤ 3 ∧ (bestRep l most).1 ≤ repLength l most (bestRep l most).2 := by
  have hfold : ∀ (is : List Nat) (best : Nat × Nat), (∀ i ∈ is, i ≤ 3) → best.2 ≤ 3 ∧ best.1 ≤ repLength l most best.2 →
      (is.foldl (fun best i => let n := repLength l most i; if best.1 < n then (n, i) else best) best).2 ≤ 3 ∧
      (is.foldl (fun best i => let n := repLength l most i; if best.1 < n then (n, i) else best) best).1 ≤
        repLength l most (is.foldl (fun best i => let n := repLength l most i; if best.1 < n then (n, i) else best) best).2 := by
    intro is
    induction is with
    | nil => exact fun _ _ h => h
    | cons i is ih =>
      intro best his hbest
      refine ih _ (fun j hj => his j (List.mem_cons_of_mem _ hj)) ?_
      simp only
      split
      · exact ⟨his i List.mem_cons_self, Nat.le_refl _⟩
      · exact hbest
  exact hfold [0, 1, 2, 3] (0, 0) (by decide) ⟨by decide, Nat.zero_le _⟩

/-- The last candidate is a true match where its length is not 0. -/
theorem longest_isMatch {w : Window} {p : Nat} {list : List (Nat × Nat)} (h : ∀ c ∈ list, w.IsMatch p c)
    (hpos : 1 ≤ (longest list).1) : w.IsMatch p (longest list) := by
  rw [longest] at hpos ⊢
  cases hlast : list.getLast? with
  | none => simp [hlast] at hpos
  | some c =>
    rw [Option.getD_some]
    exact h c (List.mem_of_getLast? hlast)

theorem fits_longest {list : List (Nat × Nat)} (h : ∀ c ∈ list, l.win.IsMatch l.win.cur c) (h2 : 2 ≤ min (longest list).1 most)
    (hm : most ≤ 273) (hend : l.win.cur + most ≤ l.win.endPos) :
    Choice.Fits (.mtch (longest list).2 (min (longest list).1 most)) l most := by
  obtain ⟨h3, h4, h5⟩ := longest_isMatch h (by omega)
  exact fits_mtch h3 h4 h2 (Nat.min_le_right _ _) (h5.mono (Nat.min_le_left _ _)) hm hend

end

/-- GREEDY_LAZY chooses a symbol that can be coded, and leaves the finder ready one position on (R730). -/
theorem greedyLazy_fits {b : Build} {a : Act} {most segEnd : Nat} {l : Lane} (hl : l.LitReady)
    (hf : FinderReady l.win segEnd l.win.cur l.mf) (hlt : l.win.cur < segEnd) (hend : segEnd ≤ l.win.endPos) (hm1 : 1 ≤ most)
    (hm : most ≤ 273) (hmost : l.win.cur + most ≤ segEnd) :
    (greedyLazy b a most segEnd l).1.Fits l most ∧
    ∃ m, (greedyLazy b a most segEnd l).2 = { l with mf := m } ∧ FinderReady l.win segEnd (l.win.cur + 1) m := by
  obtain ⟨hc, m1, hl1, hf1⟩ := hf.cands (b := b) (a := a) hend hlt
  have hon := hf1.moveOn (Nat.lt_succ_self l.win.cur)
  have hlit : (litOrShort l).Fits l most := fits_litOrShort hl (by omega) hm1
  simp only [greedyLazy]
  generalize hr : cands b a segEnd l.win.cur l = r at *
  split
  · exact ⟨hlit, m1, hl1, hon⟩
  · split
    · rename_i hbr
      obtain ⟨h3, h4⟩ := bestRep_spec (l := l) (most := most)
      exact ⟨fits_rep h3 hbr.1 h4 hm (by omega), m1, hl1, hon⟩
    · split
      · exact ⟨hlit, m1, hl1, hon⟩
      · rename_i hml
        have hmatch := fits_longest (most := most) hc (by omega) hm (by omega)
        split
        · rename_i hlazy
          obtain ⟨-, m2, hl2, hf2⟩ := FinderReady.cands (b := b) (a := a) (l := r.2) (cur := l.win.cur + 1) (segEnd := segEnd)
            (by rw [hl1]; exact hon) (by rw [hl1]; exact hend) hlazy.2
          rw [hl1] at hl2 hf2
          simp only [hl1]
          split
          · exact ⟨hlit, m2, hl2, hf2⟩
          · exact ⟨hmatch, m2, hl2, hf2⟩
        · exact ⟨hmatch, m1, hl1, hon⟩

/-! ## Coding symbol by symbol (R660, R810) -/

/-- The selected parser is GREEDY_LAZY (R108, R761). -/
def LazyParser (b : Build) (a : Act) : Prop := a.mode = false ∨ b.parser = none

/-- The encoder's lane stands ready to code on up to `segEnd`. -/
structure EncReady (b : Build) (a : Act) (segEnd : Nat) (l : Lane) : Prop where
  encOk : l.EncOk
  lit : l.LitReady
  cur_le : l.win.cur ≤ segEnd
  end_le : segEnd ≤ l.win.endPos
  finder : LazyParser b a → FinderReady l.win segEnd l.win.cur l.mf

/-- Whatever parser is selected, its choice can be coded (R730, R734, R761). -/
theorem choose_fits {b : Build} {a : Act} {most segEnd : Nat} {l : Lane} (h : EncReady b a segEnd l) (hlt : l.win.cur < segEnd)
    (hm1 : 1 ≤ most) (hm : most ≤ 273) (hmost : l.win.cur + most ≤ segEnd) :
    (choose b a most segEnd l).1.Fits l most ∧
    ∃ m, (choose b a most segEnd l).2 = { l with mf := m } ∧
      (LazyParser b a → FinderReady l.win segEnd (l.win.cur + 1) m) := by
  have hend := h.end_le
  have hgreedy (hz : LazyParser b a) := greedyLazy_fits (b := b) (a := a) h.lit (h.finder hz) hlt hend hm1 hm hmost
  have hplain (hz : LazyParser b a) : (greedyLazy b a most segEnd l).1.Fits l most ∧
      ∃ m, (greedyLazy b a most segEnd l).2 = { l with mf := m } ∧
        (LazyParser b a → FinderReady l.win segEnd (l.win.cur + 1) m) := by
    obtain ⟨h1, m, h2, h3⟩ := hgreedy hz
    exact ⟨h1, m, h2, fun _ => h3⟩
  rw [choose]
  split
  · rename_i hmode
    rw [optimalParser]
    split
    · rename_i hp
      exact hplain (.inr hp)
    · rename_i which hp
      obtain ⟨h1, m, h2⟩ := askParser_allowed (which := which) (b := b) (a := a) (most := most) (segEnd := segEnd)
        (turns := segEnd - l.win.cur + 1) (l := l)
      refine ⟨?_, m, h2, fun hz => ?_⟩
      · rw [h2] at h1
        exact fits_of_allowed (l := { l with mf := m }) h1 h.lit hm1 hm (by show l.win.cur + most ≤ l.win.endPos; omega)
      · rcases hz with hz | hz
        · simp [hmode] at hz
        · simp [hp] at hz
  · rename_i hmode
    exact hplain (.inl (by simpa using hmode))

/-- One symbol: coded, the lane ready after it (R660, R732, R810). -/
theorem codeSymbol_spec {b : Build} {a : Act} {most segEnd : Nat} {l : Lane} (h : EncReady b a segEnd l) (hlt : l.win.cur < segEnd)
    (hm1 : 1 ≤ most) (hm : most ≤ 273) (hmost : l.win.cur + most ≤ segEnd) :
    ∃ (y : Sym) (m : MatchFinder), codeSymbol b a most segEnd l = (y.len, { y.coded l with mf := m }) ∧ y ≠ .eos ∧
      y.Codable l ∧ y.len ≤ most ∧
      EncReady b a segEnd { y.coded l with mf := m } := by
  obtain ⟨⟨hcod, hlen⟩, m, hl1, hf⟩ := choose_fits h hlt hm1 hm hmost
  generalize hr : choose b a most segEnd l = r at *
  have hne := Choice.sym_ne_eos (c := r.1)
  have hpos := hcod.len_pos hne
  rw [← Choice.sym_len] at hlen
  have henc : encSym r.1 { l with mf := m } = { r.1.sym.coded l with mf := m } := by
    rw [encSym_eq (l := { l with mf := m }) hcod, Sym.coded_withMf]
  refine ⟨r.1.sym, skipMany b a (r.1.sym.coded l).win segEnd ((r.1.sym.coded l).win.cur - m.next) m, ?_, hne, hcod,
    hlen, Sym.coded_encOk h.encOk, hcod.litReady hne, ?_, h.end_le, fun hz => ?_⟩
  · simp only [codeSymbol, hr, hl1, henc, Choice.sym_len, advance]
  · show l.win.cur + r.1.sym.len ≤ segEnd
    omega
  · have hready : FinderReady l.win segEnd (l.win.cur + r.1.sym.len) m := by
      rcases Nat.lt_or_eq_of_le hpos with h2 | h1
      · exact (hf hz).moveOn (by omega)
      · rw [← h1]
        exact hf hz
    exact (hready.withCur (c := l.win.cur + r.1.sym.len)).skipMany h.end_le (by omega) (Nat.le_refl _)

theorem codedAll_withMf {ys : List Sym} {l : Lane} {m : MatchFinder} :
    codedAll ys { l with mf := m } = { codedAll ys l with mf := m } := by
  induction ys generalizing l with
  | nil => rfl
  | cons y ys ih => rw [codedAll_cons, Sym.coded_withMf, ih, codedAll_cons]

theorem codableAll_withMf {ys : List Sym} {l : Lane} {m : MatchFinder} : CodableAll ys { l with mf := m } ↔ CodableAll ys l := by
  induction ys generalizing l with
  | nil => exact Iff.rfl
  | cons y ys ih =>
    rw [CodableAll, CodableAll, Sym.coded_withMf, ih]
    exact Iff.rfl

/-- LZMA.ENCODE's loop codes the rest of the segment as symbols (R660). -/
theorem codeAll_spec {b : Build} {a : Act} {segEnd fuel : Nat} {l : Lane} (h : EncReady b a segEnd l)
    (hfuel : segEnd - l.win.cur ≤ fuel) :
    ∃ ys m, codeAll b a segEnd fuel l = { codedAll ys l with mf := m } ∧ CodableAll ys l ∧
      Sym.total ys = segEnd - l.win.cur := by
  induction fuel generalizing l with
  | zero => exact ⟨[], l.mf, rfl, trivial, by rw [Sym.total_nil]; omega⟩
  | succ fuel ih =>
    rw [codeAll]
    split
    · rename_i hlt
      obtain ⟨y, m, heq, hne, hcod, hlen, hready⟩ := codeSymbol_spec h hlt
        (most := min Config.matchLenMax (segEnd - l.win.cur)) (by rw [Config.matchLenMax]; omega)
        (by rw [Config.matchLenMax]; omega) (by omega)
      have hpos := hcod.len_pos hne
      obtain ⟨ys, m', heq', hall, htotal⟩ := ih hready (by show segEnd - (l.win.cur + y.len) ≤ fuel; omega)
      rw [codedAll_withMf] at heq'
      rw [codableAll_withMf] at hall
      have htotal : Sym.total ys = segEnd - (l.win.cur + y.len) := htotal
      refine ⟨y :: ys, m', ?_, ⟨hne, hcod, hall⟩, by rw [Sym.total_cons]; omega⟩
      rw [heq, heq', codedAll_cons]
    · exact ⟨[], l.mf, rfl, trivial, by rw [Sym.total_nil]; omega⟩

/-- A chunk's loop codes symbols, at most `U_LIMIT` bytes of them (R810, R811). -/
theorem codeChunk_spec {b : Build} {a : Act} {segEnd fuel cu : Nat} {l : Lane} (h : EncReady b a segEnd l) (hcu : cu ≤ Config.uLimit) :
    ∃ ys m, codeChunk b a segEnd fuel cu l = (cu + Sym.total ys, { codedAll ys l with mf := m }) ∧ CodableAll ys l ∧
      cu + Sym.total ys ≤ Config.uLimit ∧ EncReady b a segEnd { codedAll ys l with mf := m } ∧
      (1 ≤ fuel → l.win.cur < segEnd → cu < Config.uLimit → pendingSize l.rce < Config.cSoft → 1 ≤ Sym.total ys) := by
  induction fuel generalizing cu l with
  | zero => exact ⟨[], l.mf, rfl, trivial, hcu, h, fun hf => absurd hf (by decide)⟩
  | succ fuel ih =>
    rw [codeChunk]
    split
    · rename_i hgo
      obtain ⟨hlt, hu, -⟩ := hgo
      obtain ⟨y, m, heq, hne, hcod, hlen, hready⟩ := codeSymbol_spec h hlt
        (most := min Config.matchLenMax (min (Config.uLimit - cu) (segEnd - l.win.cur))) (by rw [Config.matchLenMax]; omega)
        (by rw [Config.matchLenMax]; omega) (by omega)
      have hpos := hcod.len_pos hne
      obtain ⟨ys, m', heq', hall, hlim, hready', -⟩ := ih (cu := cu + y.len) hready (by omega)
      rw [codedAll_withMf] at heq' hready'
      rw [codableAll_withMf] at hall
      refine ⟨y :: ys, m', ?_, ⟨hne, hcod, hall⟩, by rw [Sym.total_cons]; omega, hready', fun _ _ _ _ => by
        rw [Sym.total_cons]; omega⟩
      simp only [heq]
      rw [heq', codedAll_cons, Sym.total_cons, Nat.add_assoc]
    · rename_i hstop
      exact ⟨[], l.mf, rfl, trivial, hcu, h, fun _ h1 h2 h3 => absurd ⟨h1, h2, h3⟩ hstop⟩

end Sys2Proof.Machine
end

section
/-! PROOFS. Raw LZMA streams: LZMA.DECODE reads back any symbols coded from the reset state and flushed, and LZMA.ENCODE's payload is such
symbols (R650, R651, R660, R661). -/

namespace Sys2Proof.Machine

/-- A finder that has filed nothing is sound (R1102). -/
theorem sound_of_empty {w : Window} {p : Nat} : MatchFinder.fresh.Sound w p := by
  have hnone : ∀ i q, entry [] i ≠ some q := fun i q h => by simp [entry] at h
  exact ⟨fun i q h => absurd h (hnone i q), fun i q h => absurd h (hnone i q), fun i q h => absurd h (hnone i q),
    fun i q h => absurd h (hnone i q)⟩

theorem finderReady_fresh {w : Window} {segEnd : Nat} : FinderReady w segEnd 0 MatchFinder.fresh where
  ok := ⟨rfl, rfl, rfl, rfl⟩
  sound := sound_of_empty
  next_le := Nat.zero_le _
  next_le_end := Nat.zero_le _
  cached := fun _ _ h => nomatch h
  searched := fun h => absurd h (Nat.lt_irrefl 0)

/-- An initialised lane that has been fed its input stands ready to code it (R1102). -/
theorem encReady_laneInit {b : Build} {a : Act} {x : List Byte} :
    EncReady b a x.length { laneInit (some a) with win := (laneInit (some a)).win.feed x } where
  encOk := ⟨rangeEnc_fresh_ok, cellsOk_nil⟩
  lit := .inl (show 0 < 7 by decide)
  cur_le := Nat.zero_le _
  end_le := Nat.le_refl _
  finder := fun _ => finderReady_fresh

/-- The lane of an encoder of raw LZMA, its input `x` all lookahead (R660). -/
def rawLane (a : Act) (x : List Byte) : Lane :=
  { laneInit (some a) with win := { bytes := x, cur := 0, dictSize := a.dictSize } }

theorem rawLane_encOk {a : Act} {x : List Byte} : (rawLane a x).EncOk := ⟨rangeEnc_fresh_ok, cellsOk_nil⟩

/-- The range encoder after the symbols of a raw stream and, where it is marked, the end marker (R640, R660). -/
def rawEnd (a : Act) (x : List Byte) (ys : List Sym) (marked : Bool) : Lane :=
  if marked then Sym.eos.coded (codedAll ys (rawLane a x)) else codedAll ys (rawLane a x)

theorem rawEnd_encOk {a : Act} {x : List Byte} {ys : List Sym} {marked : Bool} : (rawEnd a x ys marked).EncOk := by
  have h := codedAll_encOk (ys := ys) (rawLane_encOk (a := a) (x := x))
  cases marked
  · exact h
  · exact Sym.coded_encOk h

/-- LZMA.ENCODE's payload is the flush of symbols that cover its input (R660). -/
theorem encodeRaw_spec {b : Build} {a : Act} {x : List Byte} :
    ∃ ys, CodableAll ys (rawLane a x) ∧ Sym.total ys = x.length ∧
      (encodeRaw b a x).rce = encFlush (rawEnd a x ys a.eos).rce := by
  have hready : EncReady b a x.length (rawLane a x) := encReady_laneInit
  obtain ⟨ys, m, heq, hall, htotal⟩ := codeAll_spec (fuel := x.length) hready (Nat.sub_le _ _)
  refine ⟨ys, hall, htotal, ?_⟩
  have hraw : (encodeRaw b a x).rce = encFlush
      (if a.eos then encEos (codeAll b a x.length x.length (rawLane a x))
        else codeAll b a x.length x.length (rawLane a x)).rce := rfl
  rw [hraw, heq, encEos_eq, Sym.coded_withMf, rawEnd]
  cases a.eos <;> simp only [Bool.false_eq_true, if_false, if_true]

section Decode
variable {a : Act} {x rest payload : List Byte} {ys : List Sym} {c : DecCtx}

/-- The symbols of a stream of known size (R661). -/
theorem decodeKnown_coded {cap : Nat} (h : Tracks payload rest (rawLane a x) c) (hcod : CodableAll ys (rawLane a x))
    (htotal : Sym.total ys = x.length) (hcap : x.length ≤ cap) (hp : (rawEnd a x ys false).rce.Reaches payload) :
    ∃ code src, let c' := c.movedTo (rawEnd a x ys false) code src x
      decodeKnown x.length cap c = .ok () c' ∧ Tracks payload rest (rawEnd a x ys false) c' := by
  obtain ⟨code, src, h1, h2⟩ := h.exactly (fuel := x.length) (Nat.zero_le _) hcod (Nat.le_of_eq htotal) hp
  have hbytes : ((rawLane a x).win.bytes.drop (rawLane a x).win.cur).take (Sym.total ys) = x := by
    rw [htotal]
    exact List.take_length
  rw [hbytes, htotal] at h1
  rw [hbytes] at h2
  exact ⟨code, src, by rw [decodeKnown, if_neg (Nat.not_lt.mpr hcap)]; exact h1, h2⟩

/-- The symbols of a stream of unknown size, up to the end marker (R640, R661). -/
theorem decodeUnknown_coded {cap : Nat} (h : Tracks payload rest (rawLane a x) c) (hcod : CodableAll ys (rawLane a x))
    (htotal : Sym.total ys = x.length) (hcap : x.length ≤ cap) (hp : (rawEnd a x ys true).rce.EndsAt payload) :
    ∃ code src, let c' := c.movedTo (rawEnd a x ys true) code src x
      decodeUnknown cap c = .ok () c' ∧ Tracks payload rest (rawEnd a x ys true) c' := by
  have hreach := hp.reaches rawEnd_encOk.1
  obtain ⟨code, src, h1, h2⟩ := h.markerLoop (q := unknownSizeLimits cap) (fuel := (c.src.length + 1) * 2 ^ 32) (produced := 0)
    (Nat.zero_le _) hcod (h.turns (reaches_of_coded (codedAll_encOk rawLane_encOk) hreach)) (fun p y hy => by
      have hcur : (rawLane a x).win.cur = 0 := rfl
      refine ⟨decide_eq_false ?_, fun _ => rfl⟩
      omega) hreach
  have hbytes : ((rawLane a x).win.bytes.drop (rawLane a x).win.cur).take (Sym.total ys) = x := by
    rw [htotal]
    exact List.take_length
  rw [hbytes] at h1 h2
  refine ⟨code, src, ?_, h2⟩
  rw [decodeUnknown, decUntilMarker, h1, Res.bind_ok, if_pos (h2.toInStep.at_end hp).1]
  rfl

/-- The decoding of a raw stream gives the bytes that its symbols cover, takes the payload and leaves what follows (R651, R661). -/
theorem decodeRaw_coded {cap : Nat} {n : BitVec 48} (hcod : CodableAll ys (rawLane a x)) (htotal : Sym.total ys = x.length)
    (hcap : x.length ≤ cap) (hn : n ≠ BitVec.allOnes 48 → n.toNat = x.length)
    (hp : (rawEnd a x ys (n = BitVec.allOnes 48)).rce.EndsAt payload) :
    ∃ c', decodeRaw n cap { lane := laneInit (some a), src := payload ++ rest, out := [] } = .ok () c' ∧
      c'.src = rest ∧ c'.out = x ∧ c'.lane.win.cur = x.length := by
  have hreach := hp.reaches rawEnd_encOk.1
  have hstart : (rawLane a x).rce.Reaches payload := by
    rw [rawEnd] at hreach
    split at hreach
    · exact reaches_of_codedAll rawLane_encOk (reaches_of_coded (codedAll_encOk rawLane_encOk) hreach)
    · exact reaches_of_codedAll rawLane_encOk hreach
  obtain ⟨code0, hinit, hin⟩ := decInit_inStep (rest := rest) rawLane_encOk rfl hstart
    (c := { lane := laneInit (some a), src := payload ++ rest, out := [] }) rfl rfl
  have htracks : Tracks payload rest (rawLane a x) _ := ⟨hin, rfl, rfl⟩
  have hend : ∀ marked, (rawEnd a x ys marked).win.cur = x.length := by
    intro marked
    cases marked <;> simp [rawEnd, codedAll_win, htotal, Sym.len, rawLane]
  rw [decodeRaw, hinit, Res.bind_ok, if_neg Bool.false_ne_true]
  by_cases hu : n = BitVec.allOnes 48
  · simp only [hu, decide_true] at hp
    obtain ⟨code, src, h1, h2⟩ := decodeUnknown_coded htracks hcod htotal hcap hp
    exact ⟨_, by rw [if_pos (show n = unknownSize from hu)]; exact h1, (h2.toInStep.at_end hp).2, rfl, hend true⟩
  · simp only [hu, decide_false] at hp hreach
    obtain ⟨code, src, h1, h2⟩ := decodeKnown_coded htracks hcod htotal hcap hreach
    exact ⟨_, by rw [if_neg (show ¬ n = unknownSize from hu), hn hu]; exact h1, (h2.toInStep.at_end hp).2, rfl, hend false⟩

end Decode

/-- LZMA.DECODE decodes any symbols coded from the reset state and flushed, takes their payload and nothing after it (R661). -/
theorem exec_lzmaDecode_coded {s : State} {a : Act} {n : BitVec 48} {x rest payload : List Byte} {ys : List Sym} (hs : s.unitsFree)
    (ha : s.act = some a) (hcod : CodableAll ys (rawLane a x)) (htotal : Sym.total ys = x.length)
    (hcap : x.length ≤ a.outCap.toNat) (hn : n ≠ BitVec.allOnes 48 → n.toNat = x.length)
    (hp : (rawEnd a x ys (n = BitVec.allOnes 48)).rce.EndsAt payload) (hinput : s.input = payload ++ rest) :
    exec (.lzmaDecode n) s = .next (s.completed payload.length x x.length (laneInit s.act)) := by
  obtain ⟨c', hdec, hsrc, hout, hcur⟩ := decodeRaw_coded (rest := rest) hcod htotal hcap hn hp
  rw [show exec (.lzmaDecode n) s = execLzmaDecode n s from rfl, execLzmaDecode]
  refine runCommand_completed (precheck_unitsFree hs rfl) (by rw [hinput, List.length_append]; exact Nat.le_add_right _ _) ?_
  rw [withAct_some (a := a) (by exact ha)]
  simp only [onIn, State.initLane0_lane0, State.initLane0_inp, State.initLane0_stage, State.begin_act, State.begin_inp,
    State.begin_stage, ha, hinput, hdec, Res.bind_ok, answer, hsrc, hout, hcur]
  simp [State.working, State.initLane0, ha, hinput]

/-- LZMA.ENCODE takes all of IN and writes its payload (R660). -/
theorem exec_lzmaEncode_eof {s : State} {a : Act} (hs : s.unitsFree) (ha : s.act = some a) (heof : s.inEof = true) :
    exec .lzmaEncode s = .next (s.completed s.input.length (encodeRaw s.build a s.input).rce.cbuf
      (encodeRaw s.build a s.input).rce.cbuf.length (laneInit s.act)) := by
  rw [show exec .lzmaEncode s = execLzmaEncode s from rfl, execLzmaEncode]
  refine runCommand_completed (precheck_unitsFree hs rfl) (Nat.le_refl _) ?_
  rw [withAct_some (a := a) (by exact ha)]
  simp only [inAll, State.begin_inEof, heof, if_true, Res.bind_ok, answer, State.begin_inp]
  simp [State.working, State.initLane0, State.outBytes, ha, State.begin, heof]

/-- Settles O54: the parser's symbols are a payload that the decoder reads back, known size and end marker alike. -/
theorem lzmaRoundTrip : Obligations.LzmaRoundTrip := by
  intro s u a rest hs hu hsa hua _ heof hcap hsize
  obtain ⟨ys, hcod, htotal, hrce⟩ := encodeRaw_spec (b := s.build) (a := a) (x := s.input)
  refine ⟨_, exec_lzmaEncode_eof hs hsa heof, fun hinput => ?_⟩
  have hends := encFlush_endsAt (rawEnd_encOk (a := a) (x := s.input) (ys := ys) (marked := a.eos)).1
  rw [hrce] at hinput ⊢
  have hnat : (BitVec.ofNat 48 s.input.length).toNat = s.input.length := by
    rw [BitVec.toNat_ofNat]
    omega
  have hne : BitVec.ofNat 48 s.input.length ≠ BitVec.allOnes 48 := by
    intro h
    have := congrArg BitVec.toNat h
    rw [hnat, BitVec.toNat_allOnes] at this
    omega
  have hmarked : decide ((if a.eos then BitVec.allOnes 48 else BitVec.ofNat 48 s.input.length) = BitVec.allOnes 48) = a.eos := by
    cases a.eos
    · exact decide_eq_false hne
    · exact decide_eq_true rfl
  refine exec_lzmaDecode_coded hu hua hcod htotal hcap (fun h => ?_) (by rw [hmarked]; exact hends) hinput
  cases heos : a.eos
  · exact hnat
  · exact absurd (if_pos heos) h

end Sys2Proof.Machine
end

section
/-! PROOFS. The LZMA2 encoder: what it writes is a row of chunks, each legal where the ones before it leave the decoder's lane, and together
they stand for the bytes of the segment (R810 to R814, R350, R830, R833). -/

namespace Sys2Proof.Machine

/-! ## Chunks in a row -/

@[simp] theorem CodedChunk.afterAll_nil {a : Act} {d : Lane} : CodedChunk.afterAll a [] d = d := rfl

@[simp] theorem CodedChunk.afterAll_cons {a : Act} {k : CodedChunk} {ks : List CodedChunk} {d : Lane} :
    CodedChunk.afterAll a (k :: ks) d = CodedChunk.afterAll a ks (k.after a d) := rfl

theorem CodedChunk.afterAll_append {a : Act} {ks js : List CodedChunk} {d : Lane} :
    CodedChunk.afterAll a (ks ++ js) d = CodedChunk.afterAll a js (CodedChunk.afterAll a ks d) := List.foldl_append

theorem CodedChunk.allLegal_append {a : Act} {ks js : List CodedChunk} {d : Lane} :
    CodedChunk.AllLegal a (ks ++ js) d ↔ CodedChunk.AllLegal a ks d ∧ CodedChunk.AllLegal a js (CodedChunk.afterAll a ks d) := by
  induction ks generalizing d with
  | nil => simp [CodedChunk.AllLegal]
  | cons k ks ih => simp [CodedChunk.AllLegal, ih, and_assoc]

@[simp] theorem CodedChunk.wires_nil : CodedChunk.wires [] = [] := rfl

@[simp] theorem CodedChunk.wires_cons {k : CodedChunk} {ks : List CodedChunk} :
    CodedChunk.wires (k :: ks) = k.wire ++ CodedChunk.wires ks := rfl

theorem CodedChunk.wires_append {ks js : List CodedChunk} :
    CodedChunk.wires (ks ++ js) = CodedChunk.wires ks ++ CodedChunk.wires js := by
  simp [CodedChunk.wires]

@[simp] theorem CodedChunk.allBytes_nil : CodedChunk.allBytes [] = [] := rfl

@[simp] theorem CodedChunk.allBytes_cons {k : CodedChunk} {ks : List CodedChunk} :
    CodedChunk.allBytes (k :: ks) = k.bytes ++ CodedChunk.allBytes ks := rfl

theorem CodedChunk.allBytes_append {ks js : List CodedChunk} :
    CodedChunk.allBytes (ks ++ js) = CodedChunk.allBytes ks ++ CodedChunk.allBytes js := by
  simp [CodedChunk.allBytes]

/-! ## Properties and control bytes (R350, R360) -/

/-- A properties byte gives back the properties it was made from (R360). -/
theorem propsEncode_spec {lc : BitVec 4} {lp pb : BitVec 3} (hlc : lc.toNat ≤ 8) (hlp : lp.toNat ≤ 4) (hpb : pb.toNat ≤ 4) :
    (propsEncode lc lp pb).toNat ≤ 224 ∧ propsOf (propsEncode lc lp pb) = (lc.toNat, lp.toNat, pb.toNat) := by
  have hval : (propsEncode lc lp pb).toNat = (pb.toNat * 5 + lp.toNat) * 9 + lc.toNat := by
    rw [propsEncode, BitVec.toNat_ofNat, Nat.mod_eq_of_lt (by omega)]
  simp only [propsOf, hval, Prod.mk.injEq]
  omega

/-- The reset level of the encoder's next LZMA chunk (R350, R812). -/
def chunkLevel (e : EncSession) : Fin 4 :=
  if e.needProps then (if e.needDict then 3 else 2) else (if e.needState then 1 else 0)

theorem chunkLevel_eq_three {e : EncSession} : chunkLevel e = 3 ↔ e.needProps = true ∧ e.needDict = true := by
  unfold chunkLevel
  cases e.needProps <;> cases e.needDict <;> cases e.needState <;> decide

theorem two_le_chunkLevel {e : EncSession} : 2 ≤ (chunkLevel e).val ↔ e.needProps = true := by
  unfold chunkLevel
  cases e.needProps <;> cases e.needDict <;> cases e.needState <;> decide

theorem one_le_chunkLevel {e : EncSession} : 1 ≤ (chunkLevel e).val ↔ e.needProps = true ∨ e.needState = true := by
  unfold chunkLevel
  cases e.needProps <;> cases e.needDict <;> cases e.needState <;> decide

theorem lzmaControl_eq {e : EncSession} : lzmaControl e = 2 ^ 5 * (4 + (chunkLevel e).val) := by
  unfold lzmaControl chunkLevel
  cases e.needProps <;> cases e.needDict <;> cases e.needState <;> rfl

/-- The header the encoder writes is the chunk's (R350, R812). -/
theorem lzmaHeader_eq {l : Lane} {x payload : List Byte} (hx : 1 ≤ x.length ∧ x.length ≤ 2 ^ 21) :
    lzmaHeader l x.length payload.length =
      (CodedChunk.head (chunkLevel l.l2e) (propsEncode l.lz.lc l.lz.lp l.lz.pb) x payload).bytes := by
  have hsize : (x.length - 1) / 2 ^ 16 < 2 ^ 5 := by omega
  have hctl : lzmaControl l.l2e ||| (x.length - 1) / 2 ^ 16 = 0x80 + (chunkLevel l.l2e).val * 2 ^ 5 + (x.length - 1) / 2 ^ 16 := by
    rw [lzmaControl_eq, ← Nat.two_pow_add_eq_or_of_lt hsize]
    omega
  have hprops : (0xC0 ≤ lzmaControl l.l2e) = (2 ≤ (chunkLevel l.l2e).val) := by
    rw [lzmaControl_eq]
    exact propext (by omega)
  simp only [lzmaHeader, hctl, hprops]
  rfl

/-! ## The encoder and the decoder between chunks -/

/-- Between two chunks the decoder's lane `d` stands as far as the encoder's lane `e` did when it began its next chunk: where the next
chunk will not reset them, they have the same history, properties, cells and state machine (R352, R812, R833). -/
structure InSync (a : Act) (e d : Lane) : Prop where
  dictSize : e.win.dictSize = a.dictSize
  atStart : e.l2e.needDict = true → e.win.cur = 0 ∧ e.l2e.needProps = true
  history : e.l2e.needDict = false → d.win = e.win.behind
  dictFlag : d.l2d.needDictReset = true → e.l2e.needDict = true
  propsFlag : d.l2d.needProps = true → e.l2e.needProps = true
  fresh : e.l2e.needProps = true ∨ e.l2e.needState = true →
    e.prob = [] ∧ e.lz = { e.lz with state := 0, rep0 := 0#32, rep1 := 0#32, rep2 := 0#32, rep3 := 0#32 }
  props : e.l2e.needProps = false → d.lz.lc = e.lz.lc ∧ d.lz.lp = e.lz.lp ∧ d.lz.pb = e.lz.pb
  same : e.l2e.needProps = false → e.l2e.needState = false → d.prob = e.prob ∧ d.lz = e.lz
  small : e.lz.lc.toNat + e.lz.lp.toNat ≤ 4 ∧ e.lz.pb.toNat ≤ 4

/-- The bytes of the next `n` positions. -/
def Window.ahead (w : Window) (n : Nat) : List Byte := (w.bytes.drop w.cur).take n

theorem Window.ahead_length {w : Window} {n : Nat} (h : w.cur + n ≤ w.endPos) : (w.ahead n).length = n := by
  have : w.cur + n ≤ w.bytes.length := h
  rw [Window.ahead, List.length_take, List.length_drop]
  omega

theorem Window.ahead_ne_nil {w : Window} {n : Nat} (hn : 1 ≤ n) (h : w.cur + n ≤ w.endPos) : w.ahead n ≠ [] :=
  List.ne_nil_of_length_pos (by rw [ahead_length h]; exact hn)

/-- The decoder's encoder, with the chunk's resets made, codes the chunk as the encoder did. -/
theorem InSync.codesAs {a : Act} {e d : Lane} {n : Nat} {pr : Byte} {payload : List Byte} (h : InSync a e d)
    (hpr : pr = propsEncode e.lz.lc e.lz.lp e.lz.pb) :
    CodesAs (e.win.cur + n) { e with rce := RangeEnc.fresh }
      ((CodedChunk.head (chunkLevel e.l2e) pr (e.win.ahead n) payload).encoder a (e.win.ahead n) d) := by
  obtain ⟨hsmall, hpb⟩ := h.small
  obtain ⟨-, hprops⟩ := propsEncode_spec (lc := e.lz.lc) (lp := e.lz.lp) (pb := e.lz.pb) (by omega) (by omega) hpb
  rw [← hpr] at hprops
  refine ⟨?_, ?_, rfl, ?_⟩
  · show (if 1 ≤ (chunkLevel e.l2e).val then [] else d.prob) = e.prob
    split
    · rename_i hl
      exact (h.fresh (one_le_chunkLevel.mp hl)).1.symm
    · rename_i hl
      rw [one_le_chunkLevel, not_or, Bool.not_eq_true, Bool.not_eq_true] at hl
      exact (h.same hl.1 hl.2).1
  · show (if chunkLevel e.l2e = 0 then d.lz else _) = e.lz
    split
    · rename_i hl
      have hn := mt one_le_chunkLevel.mpr (by rw [hl]; decide)
      rw [not_or, Bool.not_eq_true, Bool.not_eq_true] at hn
      exact (h.same hn.1 hn.2).2
    · rename_i hl
      have h1 : 1 ≤ (chunkLevel e.l2e).val := Nat.one_le_iff_ne_zero.mpr fun hc => hl (Fin.ext hc)
      rw [(h.fresh (one_le_chunkLevel.mp h1)).2]
      simp only [two_le_chunkLevel, hprops, BitVec.ofNat_toNat, BitVec.setWidth_eq]
      cases hp : e.l2e.needProps
      · obtain ⟨h1, h2, h3⟩ := h.props hp
        simp only [Bool.false_eq_true, if_false, h1, h2, h3]
      · simp only [if_true]
  · show ({ (if chunkLevel e.l2e = 3 then _ else d.win : Window) with bytes := _ } : Window) = _
    cases hd : e.l2e.needDict
    · have hl : ¬ chunkLevel e.l2e = 3 := by simp [chunkLevel_eq_three, hd]
      simp only [LzmaHead.start, if_neg hl, h.history hd, Window.behind, Window.ahead, List.take_add]
    · obtain ⟨hcur, hp⟩ := h.atStart hd
      have hl : chunkLevel e.l2e = 3 := chunkLevel_eq_three.mpr ⟨hp, hd⟩
      simp only [LzmaHead.start, if_pos hl, Window.ahead, hcur, h.dictSize.symm, List.nil_append, List.drop_zero, Nat.zero_add]

/-- The lane after the encoder has coded and written an LZMA chunk (R812). -/
def Lane.afterLzma (m : Lane) : Lane :=
  { m with
    rce := { m.rce with cbuf := [] }
    l2e := { m.l2e with needDict := false, needProps := false, needState := false } }

/-- The lane after the encoder has written its bytes uncompressed (R812). -/
def Lane.afterRaw (m : Lane) : Lane :=
  { m.stateReset with rce := { m.rce with cbuf := [] }, l2e := { m.l2e with needDict := false, needState := true } }

section Sequence
variable {a : Act} {e d : Lane} (h : InSync a e d)
include h

/-- Where the decoder waits for a dictionary reset, the encoder's next LZMA chunk makes it (R812, R830). -/
theorem InSync.level_of_needDictReset (hd : d.l2d.needDictReset = true) : chunkLevel e.l2e = 3 :=
  have hdict := h.dictFlag hd
  chunkLevel_eq_three.mpr ⟨(h.atStart hdict).2, hdict⟩

theorem InSync.level_of_needProps (hd : d.l2d.needProps = true) : 2 ≤ (chunkLevel e.l2e).val :=
  two_le_chunkLevel.mpr (h.propsFlag hd)

theorem InSync.inSequence {pr : Byte} {x payload : List Byte} :
    (CodedChunk.head (chunkLevel e.l2e) pr x payload).InSequence d.l2d := by
  constructor
  · cases hd : d.l2d.needDictReset
    · exact .inr rfl
    · exact .inl (h.level_of_needDictReset hd)
  · cases hd : d.l2d.needProps
    · exact .inr rfl
    · exact .inl (h.level_of_needProps hd)

/-- An LZMA chunk of the encoder's next level leaves the decoder waiting for nothing (R830). -/
theorem InSync.flags_after_lzma {pr : Byte} {ys : List Sym} {x payload : List Byte} :
    ((CodedChunk.lzma (chunkLevel e.l2e) pr ys x payload).after a d).l2d.needDictReset = false ∧
    ((CodedChunk.lzma (chunkLevel e.l2e) pr ys x payload).after a d).l2d.needProps = false := by
  simp only [CodedChunk.after, CodedChunk.resetsDictionary, CodedChunk.givesProps]
  constructor
  · cases hd : d.l2d.needDictReset
    · rfl
    · simp [h.level_of_needDictReset hd]
  · cases hd : d.l2d.needProps
    · by_cases hl : chunkLevel e.l2e = 3 <;> simp [hl]
    · simp [h.level_of_needProps hd]

end Sequence

/-- An LZMA chunk of the encoder is legal, and leaves the two in step (R812, R830, R833). -/
theorem InSync.lzma {a : Act} {e d : Lane} {ys : List Sym} {f : MatchFinder} {r : RangeEnc} {payload : List Byte} (h : InSync a e d)
    (hcod : CodableAll ys { e with rce := RangeEnc.fresh })
    (hend : e.win.cur + Sym.total ys ≤ e.win.endPos) (htotal : 1 ≤ Sym.total ys) (hsize : Sym.total ys ≤ Config.uLimit)
    (hends : (codedAll ys { e with rce := RangeEnc.fresh }).rce.EndsAt payload) (hcs : payload.length ≤ 65536) :
    let k := CodedChunk.lzma (chunkLevel e.l2e) (propsEncode e.lz.lc e.lz.lp e.lz.pb) ys (e.win.ahead (Sym.total ys)) payload
    let m := codedAll ys { e with rce := RangeEnc.fresh }
    k.Legal a d ∧ k.wire = lzmaHeader e (Sym.total ys) payload.length ++ payload ∧
      InSync a ({ m with mf := f, rce := r } : Lane).afterLzma (k.after a d) := by
  intro k m
  have hlen : (e.win.ahead (Sym.total ys)).length = Sym.total ys := Window.ahead_length hend
  have hcodes := h.codesAs (n := Sym.total ys) (payload := payload) rfl
  obtain ⟨hall, hafter⟩ := hcodes.codedAll hend hcod (Nat.le_refl _)
  obtain ⟨hsmall, hpb⟩ := h.small
  obtain ⟨h224, hprops⟩ := propsEncode_spec (lc := e.lz.lc) (lp := e.lz.lp) (pb := e.lz.pb) (by omega) (by omega) hpb
  have hpos : 1 ≤ payload.length := by
    rw [hends.1]
    omega
  have huLimit : Config.uLimit = 2 ^ 21 := rfl
  refine ⟨⟨⟨?_, ?_, hpos, hcs⟩, h.inSequence, fun _ => ⟨h224, by rw [hprops]; exact hsmall⟩, hall, hlen.symm, ?_⟩, ?_, ?_⟩
  · show 1 ≤ (e.win.ahead (Sym.total ys)).length
    omega
  · show (e.win.ahead (Sym.total ys)).length ≤ 2 ^ 21
    omega
  · rw [hafter.rce]
    exact hends
  · have hheader := lzmaHeader_eq (l := e) (x := e.win.ahead (Sym.total ys)) (payload := payload) (by omega)
    rw [hlen] at hheader
    rw [hheader]
    rfl
  · obtain ⟨p1, p2, p3⟩ := codedAll_props (ys := ys) (l := { e with rce := RangeEnc.fresh })
    have hwin : (k.after a d).win = m.win.behind := by
      show (codedAll ys _).win = _
      rw [hafter.win, codedAll_win]
      rfl
    have hwin' : ({ m with mf := f, rce := r } : Lane).afterLzma.win = m.win := rfl
    refine ⟨?_, (fun hc => nomatch hc), fun _ => ?_, fun hc => ?_, fun hc => ?_, fun hc => ?_, fun _ => ?_, fun _ _ => ?_, ?_⟩
    · rw [hwin', codedAll_win]
      exact h.dictSize
    · rw [hwin']
      exact hwin
    · exact absurd (h.flags_after_lzma.1.symm.trans hc) Bool.false_ne_true
    · exact absurd (h.flags_after_lzma.2.symm.trans hc) Bool.false_ne_true
    · rcases hc with hc | hc <;> exact nomatch hc
    · have hlz : (k.after a d).lz = m.lz := hafter.lz
      rw [hlz]
      exact ⟨rfl, rfl, rfl⟩
    · exact ⟨hafter.prob, hafter.lz⟩
    · show m.lz.lc.toNat + m.lz.lp.toNat ≤ 4 ∧ m.lz.pb.toNat ≤ 4
      rw [p1, p2, p3]
      exact h.small

/-! ## Uncompressed chunks (R812) -/

/-- Raw chunks of the pieces, only the first of which can reset the dictionary. -/
def rawList : Bool → List (List Byte) → List CodedChunk
  | _, [] => []
  | reset, p :: ps => .raw reset p :: rawList false ps

theorem wires_rawList {reset : Bool} {ps : List (List Byte)} : CodedChunk.wires (rawList reset ps) = rawChunks reset ps := by
  induction ps generalizing reset with
  | nil => rfl
  | cons p ps ih =>
    rw [rawList, CodedChunk.wires_cons, ih]
    rfl

theorem allBytes_rawList {reset : Bool} {ps : List (List Byte)} : CodedChunk.allBytes (rawList reset ps) = ps.flatten := by
  induction ps generalizing reset with
  | nil => rfl
  | cons p ps ih =>
    rw [rawList, CodedChunk.allBytes_cons, ih]
    rfl

theorem flatten_pieces {n fuel : Nat} {bs : List Byte} (hn : 1 ≤ n) (hf : bs.length ≤ fuel) : (pieces n fuel bs).flatten = bs := by
  induction fuel generalizing bs with
  | zero =>
    obtain rfl := List.eq_nil_of_length_eq_zero (Nat.le_zero.mp hf)
    rfl
  | succ fuel ih =>
    rw [pieces]
    split
    · rename_i he
      rw [List.isEmpty_iff.mp he]
      rfl
    · rw [List.flatten_cons, ih (by rw [List.length_drop]; omega), List.take_append_drop]

theorem length_of_mem_pieces {n fuel : Nat} {bs p : List Byte} (hn : 1 ≤ n) (hp : p ∈ pieces n fuel bs) :
    1 ≤ p.length ∧ p.length ≤ n := by
  induction fuel generalizing bs with
  | zero => exact nomatch hp
  | succ fuel ih =>
    rw [pieces] at hp
    split at hp
    · exact nomatch hp
    · rename_i he
      rcases List.mem_cons.mp hp with rfl | hp
      · have : bs.length ≠ 0 := fun h => he (List.isEmpty_iff.mpr (List.eq_nil_of_length_eq_zero h))
        rw [List.length_take]
        omega
      · exact ih hp

theorem exists_pieces {n fuel : Nat} {bs : List Byte} (hn : 1 ≤ n) (hf : bs.length ≤ fuel) (hne : bs ≠ []) :
    ∃ p ps, pieces n fuel bs = p :: ps ∧ p ++ ps.flatten = bs ∧ ∀ q ∈ p :: ps, 1 ≤ q.length ∧ q.length ≤ n := by
  have hflat := flatten_pieces hn hf
  cases hp : pieces n fuel bs with
  | nil =>
    rw [hp] at hflat
    exact absurd hflat.symm hne
  | cons p ps =>
    rw [hp] at hflat
    exact ⟨p, ps, rfl, hflat, fun q hq => length_of_mem_pieces hn (hp ▸ hq)⟩

/-- Raw chunks that reset nothing append their bytes to the window. -/
theorem rawList_false_spec {a : Act} {ps : List (List Byte)} {d : Lane} (hflag : d.l2d.needDictReset = false)
    (hps : ∀ p ∈ ps, 1 ≤ p.length ∧ p.length ≤ 65536) :
    CodedChunk.AllLegal a (rawList false ps) d ∧
    (CodedChunk.afterAll a (rawList false ps) d).win = d.win.append ps.flatten ∧
    (CodedChunk.afterAll a (rawList false ps) d).prob = d.prob ∧ (CodedChunk.afterAll a (rawList false ps) d).lz = d.lz ∧
    (CodedChunk.afterAll a (rawList false ps) d).l2d.needDictReset = false ∧
    (CodedChunk.afterAll a (rawList false ps) d).l2d.needProps = d.l2d.needProps := by
  induction ps generalizing d with
  | nil => exact ⟨trivial, by simp [rawList, Window.append], rfl, rfl, hflag, rfl⟩
  | cons p ps ih =>
    have hnext : ((CodedChunk.raw false p).after a d).l2d.needDictReset = false := by
      simp [CodedChunk.after, hflag]
    obtain ⟨h1, h2, h3, h4, h5, h6⟩ := ih hnext fun q hq => hps q (List.mem_cons_of_mem _ hq)
    refine ⟨⟨⟨.inr hflag, hps p List.mem_cons_self⟩, h1⟩, ?_, h3, h4, h5, ?_⟩
    · rw [rawList, CodedChunk.afterAll_cons, h2]
      simp [CodedChunk.after, Window.append, Nat.add_assoc]
    · rw [rawList, CodedChunk.afterAll_cons, h6]
      simp [CodedChunk.after, CodedChunk.resetsDictionary, CodedChunk.givesProps]

/-- The raw chunks of the encoder are legal, and leave the two in step (R812, R830, R833). -/
theorem InSync.raw {a : Act} {e d m : Lane} {n : Nat} (h : InSync a e d) (hn : 1 ≤ n) (hend : e.win.cur + n ≤ e.win.endPos)
    (hwin : m.win = { e.win with cur := e.win.cur + n }) (hflags : m.l2e = e.l2e)
    (hprops : m.lz.lc = e.lz.lc ∧ m.lz.lp = e.lz.lp ∧ m.lz.pb = e.lz.pb) :
    let ks := rawList e.l2e.needDict (pieces Config.rawMax n (e.win.ahead n))
    CodedChunk.AllLegal a ks d ∧ CodedChunk.allBytes ks = e.win.ahead n ∧ InSync a m.afterRaw (CodedChunk.afterAll a ks d) := by
  intro ks
  have hlen := Window.ahead_length hend
  obtain ⟨p, ps, hpieces, hbytes, hsizes⟩ := exists_pieces (n := Config.rawMax) (fuel := n) (bs := e.win.ahead n) (by decide)
    (Nat.le_of_eq hlen) (Window.ahead_ne_nil hn hend)
  have hks : ks = .raw e.l2e.needDict p :: rawList false ps := by
    simp only [ks, hpieces]
    rfl
  have hreset : e.l2e.needDict = true ∨ d.l2d.needDictReset = false := by
    cases hd : d.l2d.needDictReset
    · exact .inr rfl
    · exact .inl (h.dictFlag hd)
  have hflag : ((CodedChunk.raw e.l2e.needDict p).after a d).l2d.needDictReset = false := by
    rcases hreset with hr | hr <;> simp [CodedChunk.after, CodedChunk.resetsDictionary, hr]
  obtain ⟨h1, h2, h3, h4, h5, h6⟩ := rawList_false_spec (a := a) hflag fun q hq => hsizes q (List.mem_cons_of_mem _ hq)
  have hall : (CodedChunk.afterAll a ks d) =
      CodedChunk.afterAll a (rawList false ps) ((CodedChunk.raw e.l2e.needDict p).after a d) := by
    rw [hks]
    rfl
  have hwin' : (CodedChunk.afterAll a ks d).win = m.win.behind := by
    rw [hall, h2, hwin, ← Window.behind_append hend, ← Window.ahead, ← hbytes]
    cases hd : e.l2e.needDict
    · simp [CodedChunk.after, h.history hd, Window.append, Nat.add_assoc]
    · obtain ⟨hcur, -⟩ := h.atStart hd
      simp [CodedChunk.after, Window.append, Window.behind, hcur, h.dictSize]
  refine ⟨?_, by simp only [ks, allBytes_rawList, hpieces, List.flatten_cons, hbytes], ?_⟩
  · rw [hks]
    exact ⟨⟨hreset, hsizes p List.mem_cons_self⟩, h1⟩
  · obtain ⟨q1, q2, q3⟩ := hprops
    refine ⟨?_, (fun hc => nomatch hc), fun _ => hwin', fun hc => ?_, fun hc => ?_, fun _ => ⟨rfl, rfl⟩, fun hc => ?_,
      (fun _ hc => nomatch hc), ?_⟩
    · show m.win.dictSize = a.dictSize
      rw [hwin]
      exact h.dictSize
    · rw [hall, h5] at hc
      exact nomatch hc
    · rw [hall, h6] at hc
      show m.l2e.needProps = true
      rw [hflags]
      rcases Bool.or_eq_true_iff.mp (Bool.and_eq_true_iff.mp hc).1 with hc | hc
      · exact h.propsFlag hc
      · exact (h.atStart hc).2
    · have hc : e.l2e.needProps = false := by
        rw [← hflags]
        exact hc
      obtain ⟨r1, r2, r3⟩ := h.props hc
      rw [hall, h4]
      exact ⟨r1.trans q1.symm, r2.trans q2.symm, r3.trans q3.symm⟩
    · show m.lz.lc.toNat + m.lz.lp.toNat ≤ 4 ∧ m.lz.pb.toNat ≤ 4
      rw [q1, q2, q3]
      exact h.small

/-! ## The encoder's segment (R810) -/

/-- The encoder's lane stands ready to begin a chunk of the segment (R810). -/
def ChunkReady (b : Build) (a : Act) (segEnd : Nat) (e : Lane) : Prop := EncReady b a segEnd { e with rce := RangeEnc.fresh }

theorem emitChunk_lzma {start cu : Nat} {l : Lane} (h : l.rce.cbuf.length + 2 < cu ∧ l.rce.cbuf.length ≤ 65536) :
    emitChunk start cu l = (lzmaHeader l cu l.rce.cbuf.length ++ l.rce.cbuf, l.afterLzma) := by
  rw [emitChunk, if_pos h]
  rfl

theorem emitChunk_raw {start cu : Nat} {l : Lane} {x : List Byte} (h : ¬ (l.rce.cbuf.length + 2 < cu ∧ l.rce.cbuf.length ≤ 65536))
    (hx : (l.win.bytes.drop start).take cu = x) (hne : x ≠ []) :
    emitChunk start cu l = (rawChunks l.l2e.needDict (pieces Config.rawMax cu x), l.afterRaw) := by
  simp only [emitChunk, if_neg h, hx, List.isEmpty_eq_false_iff.mpr hne, Bool.and_false]
  rfl

/-- A chunk of the encoder: chunks legal for the decoder, for the bytes it coded; and the lane ready for the next (R810, R812). -/
theorem encodeChunk_spec {b : Build} {a : Act} {segEnd : Nat} {e d : Lane} (hr : ChunkReady b a segEnd e) (h : InSync a e d)
    (hlt : e.win.cur < segEnd) :
    ∃ n ks, 1 ≤ n ∧ e.win.cur + n ≤ segEnd ∧
      (encodeChunk b a segEnd e).1 = CodedChunk.wires ks ∧ CodedChunk.AllLegal a ks d ∧ CodedChunk.allBytes ks = e.win.ahead n ∧
      (encodeChunk b a segEnd e).2.win = { e.win with cur := e.win.cur + n } ∧
      (encodeChunk b a segEnd e).2.l2e.active = e.l2e.active ∧ (encodeChunk b a segEnd e).2.l2d = e.l2d ∧
      ChunkReady b a segEnd (encodeChunk b a segEnd e).2 ∧ InSync a (encodeChunk b a segEnd e).2 (CodedChunk.afterAll a ks d) := by
  obtain ⟨ys, f, heq, hcod, hlim, hready, hpos⟩ := codeChunk_spec (fuel := segEnd - e.win.cur) (cu := 0) hr (Nat.zero_le _)
  have hpos := hpos (by omega) hlt (by decide) (show pendingSize RangeEnc.fresh < Config.cSoft by decide)
  rw [Nat.zero_add] at heq hlim
  generalize hm : codedAll ys { e with rce := RangeEnc.fresh } = m at heq hready
  have hmwin : m.win = { e.win with cur := e.win.cur + Sym.total ys } := by rw [← hm, codedAll_win]
  have hm2e : m.l2e = e.l2e := by rw [← hm, codedAll_frame]
  have hm2d : m.l2d = e.l2d := by rw [← hm, codedAll_frame]
  have hmprops : m.lz.lc = e.lz.lc ∧ m.lz.lp = e.lz.lp ∧ m.lz.pb = e.lz.pb := by
    rw [← hm]
    exact codedAll_props
  have hle : e.win.cur + Sym.total ys ≤ segEnd := by
    have := hready.cur_le
    rwa [show ({ m with mf := f } : Lane).win = m.win from rfl, hmwin] at this
  have hend : e.win.cur + Sym.total ys ≤ e.win.endPos := Nat.le_trans hle hr.end_le
  have hends := encFlush_endsAt (show m.rce.Ok from hready.encOk.1)
  have hchunk : encodeChunk b a segEnd e =
      emitChunk e.win.cur (Sym.total ys) { m with mf := f, rce := encFlush m.rce } := by
    simp only [encodeChunk, heq]
  rw [hchunk]
  generalize hflushed : encFlush m.rce = r at hends
  by_cases hcs : r.cbuf.length + 2 < Sym.total ys ∧ r.cbuf.length ≤ 65536
  · rw [emitChunk_lzma hcs]
    obtain ⟨h1, h2, h3⟩ := h.lzma (f := f) (r := r) (payload := r.cbuf) hcod hend hpos hlim (by rw [hm]; exact hends) hcs.2
    rw [hm] at h3
    refine ⟨Sym.total ys, [_], hpos, hle, ?_, ⟨h1, trivial⟩, ?_, hmwin, ?_, hm2d, ?_, h3⟩
    · rw [CodedChunk.wires_cons, h2, CodedChunk.wires_nil, List.append_nil]
      simp only [lzmaHeader, hm2e, hmprops]
    · rw [CodedChunk.allBytes_cons, CodedChunk.allBytes_nil, List.append_nil]
      rfl
    · show m.l2e.active = _
      rw [hm2e]
    · exact ⟨⟨rangeEnc_fresh_ok, hready.encOk.2⟩, hready.lit, hready.cur_le, hready.end_le, hready.finder⟩
  · have hraw : (m.win.bytes.drop e.win.cur).take (Sym.total ys) = e.win.ahead (Sym.total ys) := by
      rw [hmwin]
      rfl
    obtain ⟨h1, h2, h3⟩ := h.raw (m := { m with mf := f, rce := r }) hpos hend hmwin hm2e hmprops
    rw [emitChunk_raw (l := { m with mf := f, rce := r }) hcs hraw (Window.ahead_ne_nil hpos hend)]
    refine ⟨Sym.total ys, _, hpos, hle, ?_, h1, h2, hmwin, ?_, hm2d, ?_, h3⟩
    · rw [wires_rawList, ← hm2e]
    · show m.l2e.active = _
      rw [hm2e]
    · exact ⟨⟨rangeEnc_fresh_ok, cellsOk_nil⟩, .inl (show 0 < 7 by decide), hready.cur_le, hready.end_le, hready.finder⟩

/-- `EncodeSegment` writes chunks legal for the decoder, for all the bytes up to the segment's end (R810). -/
theorem encodeSegmentLoop_spec {b : Build} {a : Act} {segEnd fuel : Nat} {e d : Lane} (hr : ChunkReady b a segEnd e) (h : InSync a e d)
    (hfuel : segEnd - e.win.cur ≤ fuel) :
    ∃ ks, (encodeSegmentLoop b a segEnd fuel e).1 = CodedChunk.wires ks ∧ CodedChunk.AllLegal a ks d ∧
      CodedChunk.allBytes ks = e.win.ahead (segEnd - e.win.cur) ∧
      (encodeSegmentLoop b a segEnd fuel e).2.win = { e.win with cur := segEnd } ∧
      (encodeSegmentLoop b a segEnd fuel e).2.l2e.active = e.l2e.active ∧ (encodeSegmentLoop b a segEnd fuel e).2.l2d = e.l2d ∧
      ChunkReady b a segEnd (encodeSegmentLoop b a segEnd fuel e).2 ∧
      InSync a (encodeSegmentLoop b a segEnd fuel e).2 (CodedChunk.afterAll a ks d) := by
  have hcur : e.win.cur ≤ segEnd := hr.cur_le
  have hdone (hge : segEnd ≤ e.win.cur) : [] = e.win.ahead (segEnd - e.win.cur) ∧ e.win = { e.win with cur := segEnd } := by
    have : e.win.cur = segEnd := by omega
    rw [← this, Nat.sub_self, Window.ahead, List.take_zero]
    exact ⟨rfl, rfl⟩
  induction fuel generalizing e d with
  | zero => exact ⟨[], rfl, trivial, (hdone (by omega)).1, (hdone (by omega)).2, rfl, rfl, hr, h⟩
  | succ fuel ih =>
    simp only [encodeSegmentLoop]
    split
    · rename_i hlt
      obtain ⟨n, ks, hn, hle, h1, h2, h3, h4, h5, h6, h7, h8⟩ := encodeChunk_spec hr h hlt
      have hcur' : (encodeChunk b a segEnd e).2.win.cur = e.win.cur + n := by rw [h4]
      obtain ⟨js, g1, g2, g3, g4, g5, g6, g7, g8⟩ := ih h7 h8 (by omega) (by omega) (fun hge => by
        have : e.win.cur + n = segEnd := by omega
        rw [hcur', this, Nat.sub_self, Window.ahead, List.take_zero]
        exact ⟨rfl, by rw [h4, this]⟩)
      refine ⟨ks ++ js, ?_, CodedChunk.allLegal_append.mpr ⟨h2, g2⟩, ?_, ?_, g5.trans h5, g6.trans h6, g7, ?_⟩
      · rw [CodedChunk.wires_append, h1, g1]
      · rw [CodedChunk.allBytes_append, h3, g3, hcur', h4]
        show e.win.ahead n ++ (e.win.bytes.drop (e.win.cur + n)).take (segEnd - (e.win.cur + n)) = _
        rw [Window.ahead, drop_take_append, Window.ahead]
        congr 1
        omega
      · rw [g4, h4]
      · rw [CodedChunk.afterAll_append]
        exact g8
    · rename_i hge
      exact ⟨[], rfl, trivial, (hdone (by omega)).1, (hdone (by omega)).2, rfl, rfl, hr, h⟩

theorem encodeSegment_spec {b : Build} {a : Act} {segEnd : Nat} {e d : Lane} (hr : ChunkReady b a segEnd e) (h : InSync a e d) :
    ∃ ks, (encodeSegment b a segEnd e).1 = CodedChunk.wires ks ∧ CodedChunk.AllLegal a ks d ∧
      CodedChunk.allBytes ks = e.win.ahead (segEnd - e.win.cur) ∧
      (encodeSegment b a segEnd e).2.win = { e.win with cur := segEnd } ∧
      (encodeSegment b a segEnd e).2.l2e.active = e.l2e.active ∧ (encodeSegment b a segEnd e).2.l2d = e.l2d ∧
      ChunkReady b a segEnd (encodeSegment b a segEnd e).2 ∧
      InSync a (encodeSegment b a segEnd e).2 (CodedChunk.afterAll a ks d) :=
  encodeSegmentLoop_spec hr h (Nat.le_refl _)

end Sys2Proof.Machine
end

section
/-! PROOFS. The LZMA2 decoder on one lane: a legal chunk is read and decoded to its bytes, and L2.DECODE with one thread reads back a row of
legal chunks (R350, R830 to R836, R851). -/

namespace Sys2Proof.Machine

/-! ## The chunk that is read (R350, R830) -/

/-- The chunk as the decoder reads it from the stream (R350, R921). -/
def CodedChunk.toChunk (k : CodedChunk) : Chunk where
  ctl := k.control
  size := k.bytes.length
  props := match k with
    | .raw _ _ => none
    | .lzma level pr _ _ _ => if 2 ≤ level.val then some pr else none
  data := match k with
    | .raw _ x => x
    | .lzma _ _ _ _ payload => payload

section Control
variable {h : LzmaHead}

theorem LzmaHead.control_toNat (hr : h.InRange) : h.control.toNat = 128 + 32 * h.level.val + (h.size - 1) / 65536 := by
  obtain ⟨h1, h2, -⟩ := hr
  have := h.level.isLt
  rw [LzmaHead.control, BitVec.toNat_ofNat]
  omega

theorem LzmaHead.isLzmaChunk_control (hr : h.InRange) : isLzmaChunk h.control = true := by
  simp only [isLzmaChunk, control_toNat hr, decide_eq_true_eq]
  omega

theorem LzmaHead.hasProps_control (hr : h.InRange) : hasProps h.control = decide (2 ≤ h.level.val) := by
  have hctl := control_toNat hr
  obtain ⟨h1, h2, -⟩ := hr
  simp only [hasProps, hctl, decide_eq_decide]
  omega

theorem LzmaHead.resetsState_control (hr : h.InRange) : resetsState h.control = decide (1 ≤ h.level.val) := by
  have hctl := control_toNat hr
  obtain ⟨h1, h2, -⟩ := hr
  simp only [resetsState, hctl, decide_eq_decide]
  omega

theorem LzmaHead.resetsDict_control (hr : h.InRange) : resetsDict h.control = decide (h.level = 3) := by
  have hctl := control_toNat hr
  obtain ⟨h1, h2, -⟩ := hr
  have := h.level.isLt
  simp only [resetsDict, hctl, decide_eq_decide, Fin.ext_iff]
  show _ ↔ h.level.val = 3
  omega

end Control

/-- What of a chunk's legality the decoding of its data asks for: all but its place in the sequence (R830, R835). -/
def CodedChunk.DataOk (k : CodedChunk) (a : Act) (l : Lane) : Prop :=
  match k with
  | .raw _ _ => True
  | .lzma level pr ys x payload =>
    let h := head level pr x payload
    h.InRange ∧ CodableAll ys (h.encoder a x l) ∧ Sym.total ys = x.length ∧ (codedAll ys (h.encoder a x l)).rce.EndsAt payload

theorem CodedChunk.Legal.dataOk {k : CodedChunk} {a : Act} {l : Lane} (h : k.Legal a l) : k.DataOk a l := by
  cases k with
  | raw reset x => trivial
  | lzma level pr ys x payload =>
    obtain ⟨h1, -, -, h2, h3, h4⟩ := h
    exact ⟨h1, h2, h3, h4⟩

/-- The lane between chunks: every cell is a probability, and the window has no lookahead (R117, R836). -/
structure Lane.Between (l : Lane) : Prop where
  cells : CellsOk l.prob
  cur : l.win.cur = l.win.endPos

theorem laneInit_between {a : Act} : (laneInit (some a)).Between := ⟨cellsOk_nil, rfl⟩

section Reading
variable {cap n : Nat} {s : State} {ctl : Byte} {rest : List Byte}

theorem inByte_cons {b : Byte} (h : s.inp = b :: rest) : inByte s = .ok b { s with inp := rest } := by
  rw [inByte, h]

/-- A chunk's data is taken where it is within the capacity (R830, R832). -/
theorem readData_append {f : SeqFlags} {size : Nat} {props : Option Byte} {data : List Byte} (hinp : s.inp = data ++ rest)
    (hcap : f.total + size ≤ cap) :
    readData cap f ctl size data.length props s =
      .ok ({ ctl := ctl, size := size, props := props, data := data }, { f with total := f.total + size })
        { s with inp := rest } := by
  rw [readData, if_neg (Nat.not_lt.mpr hcap), inBytes, if_pos (by rw [hinp, List.length_append]; exact Nat.le_add_right _ _), hinp,
    List.take_left, List.drop_left]
  rfl

/-- A size field gives back the size it was made from (R245, R350). -/
theorem be16_value {n : Nat} (h : 1 ≤ n ∧ n ≤ 65536) :
    (BitVec.ofNat 8 ((n - 1) / 2 ^ 8)).toNat * 2 ^ 8 + (BitVec.ofNat 8 (n - 1)).toNat + 1 = n := by
  simp only [BitVec.toNat_ofNat]
  omega

/-- The sequencing flags the decoder reads a chunk with (R830). -/
def DecSession.flags (d : DecSession) (total : Nat) : SeqFlags where
  needDictReset := d.needDictReset
  needProps := d.needProps
  total := total

theorem readRaw_wire {f : SeqFlags} {x : List Byte} (hctl : ctl.toNat ≤ 2) (hx : 1 ≤ x.length ∧ x.length ≤ 65536)
    (hinp : s.inp = BitVec.ofNat 8 ((x.length - 1) / 2 ^ 8) :: BitVec.ofNat 8 (x.length - 1) :: (x ++ rest))
    (hcap : f.total + x.length ≤ cap) :
    readRaw cap f ctl s = .ok ({ ctl := ctl, size := x.length, props := none, data := x }, { f with total := f.total + x.length })
      { s with inp := rest } := by
  rw [readRaw, if_neg (by omega), inByte_cons hinp, Res.bind_ok, inByte_cons (s := { s with inp := _ }) rfl, Res.bind_ok, be16_value hx]
  exact readData_append (s := { s with inp := _ }) rfl hcap

theorem readLzma_wire {f : SeqFlags} {h : LzmaHead} {payload : List Byte} (hr : h.InRange) (hp : h.PropsOk)
    (hseq : 2 ≤ h.level.val ∨ f.needProps = false) (hcount : h.count = payload.length) (h5 : 5 ≤ payload.length)
    (hinp : s.inp = (h.bytes ++ payload ++ rest).tail) (hcap : f.total + h.size ≤ cap) :
    readLzma cap f h.control s =
      .ok ({ ctl := h.control, size := h.size, props := if 2 ≤ h.level.val then some h.pr else none, data := payload },
        { f with needProps := f.needProps && !decide (2 ≤ h.level.val), total := f.total + h.size }) { s with inp := rest } := by
  have hctl := LzmaHead.control_toNat hr
  have hprops := LzmaHead.hasProps_control hr
  obtain ⟨h1, h2, h3, h4⟩ := hr
  have hlevel := h.level.isLt
  have hsize : h.control.toNat % 2 ^ 5 * 2 ^ 16 + (BitVec.ofNat 8 ((h.size - 1) / 2 ^ 8)).toNat * 2 ^ 8 +
      (BitVec.ofNat 8 (h.size - 1)).toNat + 1 = h.size := by
    have hhigh : h.control.toNat % 2 ^ 5 = (h.size - 1) / 2 ^ 16 := by omega
    rw [hhigh, BitVec.toNat_ofNat, BitVec.toNat_ofNat]
    omega
  have hc : (BitVec.ofNat 8 ((h.count - 1) / 2 ^ 8)).toNat * 2 ^ 8 + (BitVec.ofNat 8 (h.count - 1)).toNat + 1 = payload.length :=
    hcount ▸ be16_value ⟨h3, h4⟩
  have hinp' : s.inp = BitVec.ofNat 8 ((h.size - 1) / 2 ^ 8) :: BitVec.ofNat 8 (h.size - 1) ::
      BitVec.ofNat 8 ((h.count - 1) / 2 ^ 8) :: BitVec.ofNat 8 (h.count - 1) ::
      ((if 2 ≤ h.level.val then [h.pr] else []) ++ (payload ++ rest)) := by
    rw [LzmaHead.bytes] at hinp
    simpa using hinp
  rw [readLzma, inByte_cons hinp', Res.bind_ok, inByte_cons (s := { s with inp := _ }) rfl, Res.bind_ok,
    inByte_cons (s := { s with inp := _ }) rfl, Res.bind_ok, inByte_cons (s := { s with inp := _ }) rfl, Res.bind_ok]
  simp only [hsize, hc, if_neg (Nat.not_lt.mpr h5), hprops]
  by_cases hl : 2 ≤ h.level.val
  · have hok : propsOk h.pr = true := by
      obtain ⟨h6, h7⟩ := hp hl
      simp only [propsOf] at h7
      simp only [propsOk, propsDecode, BitVec.toNat_ofNat, decide_eq_true_eq]
      omega
    simp only [hl, decide_true, if_true, Bool.not_true, Bool.and_false, List.cons_append, List.nil_append]
    rw [inByte_cons (s := { s with inp := _ }) (b := h.pr) (rest := payload ++ rest) rfl, Res.bind_ok, if_pos hok]
    exact readData_append (s := { s with inp := _ }) (f := { f with needProps := false }) rfl hcap
  · have hnp : f.needProps = false := hseq.resolve_left hl
    simp only [hl, decide_false, Bool.false_eq_true, if_false, hnp, Bool.false_and, List.nil_append]
    rw [readData_append (s := { s with inp := _ }) (rest := rest) rfl hcap]
    simp only [← hnp]

/-- The flags after the control byte (R830). -/
def SeqFlags.atControl (f : SeqFlags) (resets : Bool) : SeqFlags where
  needDictReset := f.needDictReset && !resets
  needProps := f.needProps || resets
  total := f.total

theorem SeqFlags.atControl_eq {f : SeqFlags} {resets : Bool} :
    (if resets then { f with needProps := true, needDictReset := false } else f) = f.atControl resets := by
  cases resets <;> simp [atControl]

/-- Reading a chunk of a legal control byte goes on to the rest of it (R830). -/
theorem readChunk_control {f : SeqFlags} {resets : Bool} (hinp : s.inp = ctl :: rest) (hne : ctl ≠ 0#8)
    (hresets : resetsDict ctl = resets) (hseq : (f.needDictReset && !resets) = false) :
    readChunk cap f s = (if isLzmaChunk ctl then readLzma cap (f.atControl resets) ctl { s with inp := rest }
      else readRaw cap (f.atControl resets) ctl { s with inp := rest }).bind fun r s => .ok (some r) s := by
  rw [readChunk, inByte_cons hinp, Res.bind_ok, if_neg hne, hresets]
  simp only [SeqFlags.atControl_eq]
  rw [if_neg (by rw [SeqFlags.atControl, hseq]; exact Bool.false_ne_true)]

/-- A legal chunk's header passes the decoder's checks, and its data is taken from IN (R830, R832). -/
theorem readChunk_wire {a : Act} {k : CodedChunk} {d : Lane} {total : Nat} (hk : k.Legal a d)
    (hcap : total + k.bytes.length ≤ cap) (hinp : s.inp = k.wire ++ rest) :
    readChunk cap (d.l2d.flags total) s =
      .ok (some (k.toChunk, (k.after a d).l2d.flags (total + k.bytes.length))) { s with inp := rest } := by
  cases k with
  | raw reset x =>
    obtain ⟨hseq, hx⟩ := hk
    rw [readChunk_control (resets := reset) (ctl := if reset then 0x01#8 else 0x02#8)
      (rest := BitVec.ofNat 8 ((x.length - 1) / 2 ^ 8) :: BitVec.ofNat 8 (x.length - 1) :: (x ++ rest)) hinp
      (by cases reset <;> decide) (by cases reset <;> decide)
      (by cases hseq <;> simp [DecSession.flags, *]), if_neg (by cases reset <;> decide),
      readRaw_wire (s := { s with inp := _ }) (rest := rest) (by cases reset <;> decide) hx rfl hcap]
    simp [CodedChunk.toChunk, CodedChunk.control, CodedChunk.bytes, CodedChunk.after, DecSession.flags, SeqFlags.atControl,
      CodedChunk.resetsDictionary, CodedChunk.givesProps]
  | lzma level pr ys x payload =>
    obtain ⟨hr, ⟨hd, hp⟩, hpr, -, -, hends, -⟩ := hk
    have hseq : (d.l2d.needDictReset && !decide (level = 3)) = false := by
      rcases hd with (hd : level = 3) | hd <;> simp [hd]
    have hprops : 2 ≤ level.val ∨ (d.l2d.needProps || decide (level = 3)) = false := by
      rcases hp with hp | hp
      · exact .inl hp
      · by_cases hl : level = 3
        · exact .inl (hl ▸ by decide)
        · exact .inr (by simp [hp, hl])
    have hctl := LzmaHead.control_toNat hr
    rw [readChunk_control (resets := decide (level = 3)) (ctl := (CodedChunk.head level pr x payload).control)
      (rest := ((CodedChunk.head level pr x payload).bytes ++ payload ++ rest).tail) hinp
      (fun hc => by simp [hc] at hctl; omega) (LzmaHead.resetsDict_control hr) hseq,
      if_pos (LzmaHead.isLzmaChunk_control hr),
      readLzma_wire (s := { s with inp := ((CodedChunk.head level pr x payload).bytes ++ payload ++ rest).tail })
        (f := (d.l2d.flags total).atControl (level = 3)) hr hpr
        hprops rfl (by simp [RangeEnc.digits] at hends; omega) rfl hcap]
    simp [CodedChunk.toChunk, CodedChunk.control, CodedChunk.bytes, CodedChunk.after, DecSession.flags, SeqFlags.atControl,
      CodedChunk.resetsDictionary, CodedChunk.givesProps]

end Reading

/-! ## Decoding a chunk's data (R833, R835, R836) -/

section Data
variable {a : Act} {m : Lane} {out : List Byte}

theorem applyResets_raw {reset : Bool} {x : List Byte} :
    applyResets a (CodedChunk.raw reset x).toChunk m = if reset then { m with win := Window.empty a.dictSize } else m := by
  cases reset <;> rfl

/-- The resets the decoder makes are the chunk's (R352, R833). -/
theorem applyResets_lzma {level : Fin 4} {pr : Byte} {ys : List Sym} {x payload : List Byte}
    (hr : (CodedChunk.head level pr x payload).InRange) :
    applyResets a (CodedChunk.lzma level pr ys x payload).toChunk m = (CodedChunk.head level pr x payload).start a m := by
  have h1 := LzmaHead.resetsDict_control hr
  have h2 := LzmaHead.resetsState_control hr
  simp only [applyResets, CodedChunk.toChunk, CodedChunk.control, h1, h2, LzmaHead.start]
  match level with
  | 0 => rfl
  | 1 => rfl
  | 2 => rfl
  | 3 => rfl

/-- A payload the encoder ended gives back its bytes (R651, R830, R835). -/
theorem decodePayload_coded {e : Lane} {ys : List Sym} {payload : List Byte} (hfresh : e.rce = RangeEnc.fresh)
    (hcells : CellsOk e.prob) (hprob : m.prob = e.prob) (hlz : m.lz = e.lz) (hwin : m.win = e.win.behind)
    (hcur : e.win.cur ≤ e.win.endPos) (hcod : CodableAll ys e) (hends : (codedAll ys e).rce.EndsAt payload) :
    decodePayload (Sym.total ys) { lane := m, src := payload, out := out } = .ok ()
      { lane := { m with
          prob := (codedAll ys e).prob
          lz := (codedAll ys e).lz
          win := (codedAll ys e).win.behind
          rcd := { range := (codedAll ys e).rce.range, code := 0#32, inited := true, initBad := false } }
        src := []
        out := out ++ (e.win.bytes.drop e.win.cur).take (Sym.total ys) } := by
  have hok : e.EncOk := ⟨hfresh ▸ rangeEnc_fresh_ok, hcells⟩
  have hreach := hends.reaches (codedAll_encOk hok).1
  obtain ⟨code0, hinit, hin⟩ := decInit_inStep (rest := []) (c := { lane := m, src := payload, out := out }) hok hfresh
    (reaches_of_codedAll hok hreach) hprob (List.append_nil _).symm
  have htracks : Tracks payload [] e _ := ⟨hin, hlz, hwin⟩
  obtain ⟨code, src, hexact, hafter⟩ := htracks.exactly (fuel := Sym.total ys) hcur hcod (Nat.le_refl _) hreach
  obtain ⟨hcode, hsrc⟩ := hafter.toInStep.at_end hends
  have hcode : code = 0#32 := hcode
  have hsrc : src = [] := hsrc
  subst hcode hsrc
  rw [decodePayload, hinit, Res.bind_ok, if_neg Bool.false_ne_true, hexact]
  rfl

theorem Window.behind_of_cur {w : Window} (h : w.cur = w.endPos) : w.behind = w := by
  rw [Window.endPos] at h
  simp only [Window.behind, h, List.take_length]
  rw [← h]

section Encoder
variable {h : LzmaHead} {x : List Byte}

theorem LzmaHead.start_between (hm : m.Between) : (h.start a m).Between := by
  obtain ⟨hcells, hcur⟩ := hm
  constructor
  · rw [LzmaHead.start]
    split
    · exact cellsOk_nil
    · exact hcells
  · show (if h.level = 3 then _ else m.win : Window).cur = (if h.level = 3 then _ else m.win : Window).endPos
    split
    · rfl
    · exact hcur

/-- The chunk's bytes are what its encoder has ahead, and the decoder's window what it has behind (R810, R833). -/
theorem LzmaHead.encoder_behind (hm : m.Between) : (h.encoder a x m).win.behind = (h.start a m).win := by
  have hcur : (h.start a m).win.cur = (h.start a m).win.bytes.length := (start_between hm).cur
  rw [← Window.behind_of_cur (start_between hm).cur]
  simp only [LzmaHead.encoder, Window.behind, hcur, List.take_left, List.take_length]

theorem LzmaHead.encoder_cur_le (hm : m.Between) : (h.encoder a x m).win.cur ≤ (h.encoder a x m).win.endPos := by
  have hcur : (h.start a m).win.cur = (h.start a m).win.bytes.length := (start_between hm).cur
  simp only [LzmaHead.encoder, Window.endPos, hcur, List.length_append]
  omega

theorem LzmaHead.encoder_ahead (hm : m.Between) :
    ((h.encoder a x m).win.bytes.drop (h.encoder a x m).win.cur).take x.length = x := by
  have hcur : (h.start a m).win.cur = (h.start a m).win.bytes.length := (start_between hm).cur
  simp only [LzmaHead.encoder, hcur, List.drop_left, List.take_length]

/-- The encoder has nothing ahead when it has coded the chunk's bytes. -/
theorem LzmaHead.codedAll_encoder_cur (hm : m.Between) {ys : List Sym} (htotal : Sym.total ys = x.length) :
    (codedAll ys (h.encoder a x m)).win.cur = (codedAll ys (h.encoder a x m)).win.endPos := by
  have hcur : (h.start a m).win.cur = (h.start a m).win.bytes.length := (start_between hm).cur
  simp only [codedAll_win, LzmaHead.encoder, Window.endPos, hcur, htotal, List.length_append]

end Encoder

/-- A chunk's data decodes to its bytes, and the lane is left as the chunk leaves it (R830, R835, R836). -/
theorem decodeData_coded {k : CodedChunk} (hk : k.DataOk a m) (hm : m.Between) :
    decodeData k.toChunk (applyResets a k.toChunk m) out =
      .ok () { lane := { k.after a m with l2d := m.l2d }, src := [], out := out ++ k.bytes } := by
  cases k with
  | raw reset x =>
    have hctl : ¬ isLzmaChunk (CodedChunk.raw reset x).toChunk.ctl = true := by
      cases reset <;> exact Bool.false_ne_true
    rw [applyResets_raw, decodeData, if_neg hctl]
    cases reset
    · rfl
    · simp [putBytes, Window.empty, Window.append, CodedChunk.after, CodedChunk.toChunk, CodedChunk.bytes]
  | lzma level pr ys x payload =>
    obtain ⟨hr, hcod, htotal, hends⟩ := hk
    have hstart := LzmaHead.start_between (h := CodedChunk.head level pr x payload) (a := a) hm
    have hdec := decodePayload_coded (e := (CodedChunk.head level pr x payload).encoder a x m)
      (m := { (CodedChunk.head level pr x payload).start a m with pb := payload }) (out := out) rfl
      hstart.cells rfl rfl (LzmaHead.encoder_behind hm).symm (LzmaHead.encoder_cur_le hm) hcod hends
    rw [htotal, LzmaHead.encoder_ahead hm, Window.behind_of_cur (LzmaHead.codedAll_encoder_cur hm htotal)] at hdec
    have hctl : isLzmaChunk (CodedChunk.lzma level pr ys x payload).toChunk.ctl = true := LzmaHead.isLzmaChunk_control hr
    rw [applyResets_lzma hr, decodeData, if_pos hctl]
    simp only [CodedChunk.toChunk, CodedChunk.bytes, hdec]
    rfl

/-- A chunk leaves the lane between chunks (R836). -/
theorem CodedChunk.DataOk.after_between {k : CodedChunk} (hk : k.DataOk a m) (hm : m.Between) : (k.after a m).Between := by
  cases k with
  | raw reset x =>
    refine ⟨hm.cells, ?_⟩
    have hcur : m.win.cur = m.win.bytes.length := hm.cur
    cases reset
    · simp [CodedChunk.after, Window.endPos, hcur]
    · rfl
  | lzma level pr ys x payload =>
    obtain ⟨-, -, htotal, -⟩ := hk
    have hcells := (LzmaHead.start_between (h := CodedChunk.head level pr x payload) (a := a) hm).cells
    exact ⟨(codedAll_encOk (l := (CodedChunk.head level pr x payload).encoder a x m) 
      ⟨rangeEnc_fresh_ok, hcells⟩).2,
      LzmaHead.codedAll_encoder_cur hm htotal⟩

end Data

/-! ## L2.DECODE with one thread (R830, R851) -/

/-- `DecodeChunk` on a legal chunk: its bytes go to STAGE, and lane 0 is as the chunk leaves it (R830). -/
theorem decodeChunk_wire {s : State} {a : Act} {k : CodedChunk} {rest : List Byte} (hk : k.Legal a s.lane0) (hs : s.lane0.Between)
    (hcap : s.lane0.l2d.outTotal.toNat + k.bytes.length ≤ a.outCap.toNat) (hinp : s.inp = k.wire ++ rest) :
    decodeChunk a s = .ok (some k.toChunk)
      { s with inp := rest, lane0 := k.after a s.lane0, stage := s.stage ++ k.bytes } := by
  have hread := readChunk_wire hk hcap hinp
  rw [DecSession.flags] at hread
  rw [decodeChunk, hread, Res.bind_ok]
  simp only [decodeData_coded hk.dataOk hs]
  rfl

theorem decodeChunk_endMarker {s : State} {a : Act} {rest : List Byte} (hinp : s.inp = 0#8 :: rest) :
    decodeChunk a s = .ok none { s with inp := rest } := by
  rw [decodeChunk, readChunk, inByte_cons hinp]
  rfl

theorem CodedChunk.outTotal_after {k : CodedChunk} {a : Act} {l : Lane} {cap : BitVec 64}
    (h : l.l2d.outTotal.toNat + k.bytes.length ≤ cap.toNat) :
    (k.after a l).l2d.outTotal.toNat = l.l2d.outTotal.toNat + k.bytes.length := by
  have := cap.isLt
  show (BitVec.ofNat 64 _).toNat = _
  rw [BitVec.toNat_ofNat, Nat.mod_eq_of_lt (by omega)]

/-- `DecodeStream` reads back a row of legal chunks, up to the end marker (R851). -/
theorem decodeStream_wires {s : State} {a : Act} {ks : List CodedChunk} {rest : List Byte} {read fuel : Nat}
    (hk : CodedChunk.AllLegal a ks s.lane0) (hs : s.lane0.Between)
    (hcap : s.lane0.l2d.outTotal.toNat + (CodedChunk.allBytes ks).length ≤ a.outCap.toNat)
    (hinp : s.inp = CodedChunk.wires ks ++ 0x00#8 :: rest) (hfuel : ks.length < fuel) :
    decodeStream a read fuel s = .ok ()
      { s with
        inp := rest, lane0 := CodedChunk.afterAll a ks s.lane0, stage := s.stage ++ CodedChunk.allBytes ks } := by
  induction ks generalizing s fuel with
  | nil =>
    obtain ⟨f, rfl⟩ : ∃ f, fuel = f + 1 := ⟨fuel - 1, by omega⟩
    rw [decodeStream, decodeChunk_endMarker hinp, CodedChunk.allBytes_nil, List.append_nil]
    rfl
  | cons k ks ih =>
    obtain ⟨f, rfl⟩ : ∃ f, fuel = f + 1 := ⟨fuel - 1, by omega⟩
    obtain ⟨hk, hks⟩ := hk
    rw [CodedChunk.allBytes_cons, List.length_append] at hcap
    rw [CodedChunk.wires_cons, List.append_assoc] at hinp
    rw [decodeStream, decodeChunk_wire hk hs (by omega) hinp]
    have hnext := ih (s := { s with
      inp := CodedChunk.wires ks ++ 0x00#8 :: rest, lane0 := k.after a s.lane0, stage := s.stage ++ k.bytes }) (fuel := f) hks
      (hk.dataOk.after_between hs) (by rw [CodedChunk.outTotal_after (cap := a.outCap) (by omega)]; omega) rfl
      (by rw [List.length_cons] at hfuel; omega)
    rw [List.append_assoc] at hnext
    exact hnext

theorem CodedChunk.length_le_wires {ks : List CodedChunk} : ks.length ≤ (CodedChunk.wires ks).length := by
  induction ks with
  | nil => exact Nat.le_refl _
  | cons k ks ih =>
    have : 1 ≤ k.wire.length := by cases k <;> simp [CodedChunk.wire, LzmaHead.bytes]
    rw [CodedChunk.wires_cons, List.length_append, List.length_cons]
    omega

/-- A command that also leaves the workers, the coordinator and the draws as its rule left them. -/
theorem runCommand_completed_units {i : Instr} {body : Body} {s : State} {took v : Nat} {bs : List Byte} {l : Lane} {ws : List Lane}
    {c : Coordinator} {ds : List Nat} (hp : precheck i s = none) (ht : took ≤ s.input.length)
    (hb : body s.begin = .ok (BitVec.ofNat 64 v) { s.working took bs l with workers := ws, coord := c, draws := ds }) :
    runCommand i body s = .next { s.completed took bs v l with workers := ws, coord := c, draws := ds } := by
  have hlen : s.input.length - (s.input.length - took) = took := by omega
  simp [runCommand, hp, hb, finish, complete, State.completed, State.hostRegs, satAdd64, hlen]

/-- L2.DECODE with one thread decodes a row of legal chunks to their bytes and leaves what follows the end marker (R851). -/
theorem exec_l2Decode_one {s : State} {a : Act} {ks : List CodedChunk} {rest : List Byte} (hs : s.unitsFree) (ha : s.act = some a)
    (hthreads : a.threadCount = 1#32) (hk : CodedChunk.AllLegal a ks (laneInit s.act))
    (hcap : (CodedChunk.allBytes ks).length ≤ a.outCap.toNat) (hinput : s.input = CodedChunk.wires ks ++ 0x00#8 :: rest) :
    exec .l2Decode s = .next { s.completed ((CodedChunk.wires ks).length + 1) (CodedChunk.allBytes ks) (CodedChunk.allBytes ks).length
      (laneInit s.act) with workers := s.workers.map fun _ => laneInit s.act } := by
  have hlen : (CodedChunk.wires ks).length + 1 ≤ s.input.length := by
    rw [hinput, List.length_append, List.length_cons]
    omega
  rw [show exec .l2Decode s = execL2Decode s from rfl, execL2Decode]
  refine runCommand_completed_units (precheck_unitsFree hs rfl) hlen ?_
  have hstream := decodeStream_wires (s := s.begin.initLane0) (a := a) (read := s.begin.inp.length)
    (fuel := s.begin.inp.length + 1) (rest := rest) hk (by rw [State.initLane0_lane0, State.begin_act, ha]; exact laneInit_between)
    (by rw [State.initLane0_lane0, State.begin_act, ha]; simpa [laneInit, DecSession.fresh] using hcap) hinput
    (by rw [State.begin_inp]; exact Nat.lt_succ_of_le (Nat.le_trans CodedChunk.length_le_wires (by omega)))
  rw [l2DecodeBody, withAct_some (s := s.begin) ha, if_pos hthreads, hstream, Res.bind_ok, answer]
  have hdrop : s.input.drop ((CodedChunk.wires ks).length + 1) = rest := by
    rw [hinput, ← List.drop_drop, List.drop_left]
    rfl
  simp [State.initLane0, State.initLanes, State.completed, hdrop, State.begin]

end Sys2Proof.Machine
end

section
/-! PROOFS. L2.ENCODE and L2.DECODE: the spans of one lane are rows of chunks, which L2.DECODE with one thread reads back (R814, R850,
R851). -/

namespace Sys2Proof.Machine

/-- A lane at the start of a session, fed its first bytes, is in step with any decoder: its first chunk resets everything (R812, R813). -/
theorem inSync_laneInit {w : Nat} {a : Act} {d : Lane} {x : List Byte} {flags : EncSession} (hok : a.Ok w)
    (h4 : a.lc.toNat + a.lp.toNat ≤ 4) (hdict : flags.needDict = true) (hprops : flags.needProps = true) :
    InSync a { laneInit (some a) with win := (laneInit (some a)).win.feed x, l2e := flags } d where
  dictSize := rfl
  atStart := fun _ => ⟨rfl, hprops⟩
  history := fun h => by simp [hdict] at h
  dictFlag := fun _ => hdict
  propsFlag := fun _ => hprops
  fresh := fun _ => ⟨rfl, rfl⟩
  props := fun h => by simp [hprops] at h
  same := fun h => by simp [hprops] at h
  small := by
    obtain ⟨-, -, -, hlp, hpb, -⟩ := hok
    refine ⟨?_, hpb⟩
    show a.lc.toNat + (a.lp.setWidth 3).toNat ≤ 4
    rw [BitVec.toNat_setWidth]
    omega

/-- A span is coded as chunks that are legal wherever the decoder stands (R814, R910). -/
theorem encodeSpan_spec {w : Nat} {b : Build} {a : Act} {x : List Byte} {d : Lane} (hok : a.Ok w)
    (h4 : a.lc.toNat + a.lp.toNat ≤ 4) :
    ∃ ks, (encodeSpan b a x).1 = CodedChunk.wires ks ∧ CodedChunk.AllLegal a ks d ∧ CodedChunk.allBytes ks = x := by
  obtain ⟨ks, h1, h2, h3, -⟩ := encodeSegment_spec (b := b) (segEnd := x.length)
    (e := { laneInit (some a) with win := (laneInit (some a)).win.feed x }) encReady_laneInit
    (inSync_laneInit (d := d) (flags := EncSession.fresh) hok h4 rfl rfl)
  refine ⟨ks, h1, h2, h3.trans ?_⟩
  show (x.drop 0).take (x.length - 0) = x
  rw [Nat.sub_zero, List.drop_zero, List.take_length]

theorem flatten_spans {span : Nat} {x : List Byte} : (spans span x).flatten = x := by
  rw [spans]
  split
  · rename_i h
    rw [List.isEmpty_iff.mp h]
    rfl
  · split
    · exact List.append_nil x
    · exact flatten_pieces (by omega) (Nat.le_refl _)

/-- Spans in order on lane 0 write a row of chunks for all their bytes (R850). -/
theorem encodeSpans_spec {w : Nat} {a : Act} {xs : List (List Byte)} {t : State} {d : Lane} (hok : a.Ok w)
    (h4 : a.lc.toNat + a.lp.toNat ≤ 4) :
    ∃ (ks : List CodedChunk) (l : Lane),
      encodeSpans a xs t = { t with stage := t.stage ++ CodedChunk.wires ks, lane0 := l } ∧ CodedChunk.AllLegal a ks d ∧
      CodedChunk.allBytes ks = xs.flatten := by
  induction xs generalizing t d with
  | nil => exact ⟨[], t.lane0, by rw [CodedChunk.wires_nil, List.append_nil]; rfl, trivial, rfl⟩
  | cons x xs ih =>
    obtain ⟨ks, h1, h2, h3⟩ := encodeSpan_spec (b := t.build) (x := x) (d := d) hok h4
    obtain ⟨js, l, g1, g2, g3⟩ := ih (t := (t.outBytes (encodeSpan t.build a x).1).withLane0 (encodeSpan t.build a x).2)
      (d := CodedChunk.afterAll a ks d)
    refine ⟨ks ++ js, l, ?_, CodedChunk.allLegal_append.mpr ⟨h2, g2⟩, ?_⟩
    · rw [CodedChunk.wires_append, ← List.append_assoc, ← h1]
      exact g1
    · rw [CodedChunk.allBytes_append, h3, g3, List.flatten_cons]

/-- L2.ENCODE with one thread writes a row of chunks for its input, and the end marker (R850). -/
theorem exec_l2Encode_one {s : State} {a : Act} {d : Lane} (hs : s.unitsFree) (ha : s.act = some a) (hok : a.Ok s.laneCount)
    (hthreads : a.threadCount = 1#32) (h4 : a.lc.toNat + a.lp.toNat ≤ 4) (heof : s.inEof = true) :
    ∃ ks, CodedChunk.AllLegal a ks d ∧ CodedChunk.allBytes ks = s.input ∧
      exec .l2Encode s = .next { s.completed s.input.length (CodedChunk.wires ks ++ [0x00#8]) ((CodedChunk.wires ks).length + 1)
        (laneInit s.act) with workers := s.workers.map fun _ => laneInit s.act } := by
  obtain ⟨ks, l, h1, h2, h3⟩ := encodeSpans_spec (xs := spans a.span.toNat s.input) (t := { s.begin with inp := [] }) (d := d) hok h4
  refine ⟨ks, h2, h3.trans flatten_spans, ?_⟩
  rw [show exec .l2Encode s = execL2Encode s from rfl, execL2Encode]
  refine runCommand_completed_units (precheck_unitsFree hs rfl) (Nat.le_refl _) ?_
  rw [withAct_some (s := s.begin) ha, requireLclp, decide_eq_true h4, require_true, inAll,
    if_pos (show s.begin.inEof = true from heof), Res.bind_ok, State.begin_inp]
  dsimp only at h1 ⊢
  rw [if_pos hthreads]
  simp only [h1]
  simp [answer, State.initLanes, State.outBytes, State.completed, State.begin]

/-- Settles O55: the encoder's spans are rows of legal chunks, and the decoder reads back legal chunks. -/
theorem l2RoundTrip : Obligations.L2RoundTrip := by
  intro s u a rest hs hu hsa hua hok hthreads h4 heof hcap
  obtain ⟨ks, hlegal, hbytes, hexec⟩ := exec_l2Encode_one (d := laneInit u.act) hs hsa hok hthreads h4 heof
  refine ⟨_, _, hexec, rfl, fun hinput => ?_⟩
  rw [List.append_assoc] at hinput
  refine ⟨_, exec_l2Decode_one hu hua hthreads hlegal (by rw [hbytes]; exact hcap) hinput, rfl, ?_, ?_, ?_⟩
  · show u.out ++ CodedChunk.allBytes ks = _
    rw [hbytes]
  · show u.input.drop _ = rest
    rw [hinput, ← List.drop_drop, List.drop_left]
    rfl
  · show BitVec.ofNat 64 (CodedChunk.allBytes ks).length = _
    rw [hbytes]

end Sys2Proof.Machine
end

section
/-! PROOFS. The multi-lane scheduler (R900 to R935): whatever lanes and units the draws choose, units that all succeed are all committed, in
their order. -/

namespace Sys2Proof.Machine

/-! ## What units give (R910, R923) -/

theorem WorkUnit.dependent_congr {u v : WorkUnit} (h : u.input = v.input) : u.dependent = v.dependent := by
  rw [WorkUnit.dependent, WorkUnit.dependent, h]

theorem runUnit_congr {b : Build} {a : Act} {u v : WorkUnit} {p : Option Window} (h : u.input = v.input) :
    runUnit b a u p = runUnit b a v p := by
  rw [runUnit, runUnit, unitLane, unitLane, WorkUnit.dependent_congr h, h]

/-- The input, run after a unit that ended with the window `previous`, gives the bytes and the window `r`, whatever window an
independent unit is handed; and a dependent unit has one before it (R922, R923). -/
def UnitInput.Gives (b : Build) (a : Act) (input : UnitInput) (previous : Option Window) (r : List Byte × Window) : Prop :=
  ((newUnit input).dependent = true → previous.isSome = true) ∧
  ∀ p, ((newUnit input).dependent = true → p = previous) → ∃ l, runUnit b a (newUnit input) p = (l, r.1, .ok r.2)

/-- Units in a row, each given its predecessor's window, give the results `rs`. -/
def UnitsGive (b : Build) (a : Act) : Option Window → List UnitInput → List (List Byte × Window) → Prop
  | _, [], [] => True
  | previous, input :: inputs, r :: rs => input.Gives b a previous r ∧ UnitsGive b a (some r.2) inputs rs
  | _, _, _ => False

/-- The final window of the unit before unit `i`. -/
def windowBefore (previous : Option Window) (rs : List (List Byte × Window)) : Nat → Option Window
  | 0 => previous
  | i + 1 => rs[i]?.map Prod.snd

theorem UnitsGive.length_eq {b : Build} {a : Act} {previous : Option Window} {inputs : List UnitInput}
    {rs : List (List Byte × Window)} (h : UnitsGive b a previous inputs rs) : rs.length = inputs.length := by
  induction inputs generalizing previous rs with
  | nil => cases rs with
    | nil => rfl
    | cons r rs => exact h.elim
  | cons input inputs ih => cases rs with
    | nil => exact h.elim
    | cons r rs => exact congrArg Nat.succ (ih h.2)

theorem UnitsGive.gives {b : Build} {a : Act} {previous : Option Window} {inputs : List UnitInput} {rs : List (List Byte × Window)}
    {i : Nat} {input : UnitInput} {r : List Byte × Window} (h : UnitsGive b a previous inputs rs) (hi : inputs[i]? = some input)
    (hr : rs[i]? = some r) : input.Gives b a (windowBefore previous rs i) r := by
  induction inputs generalizing previous rs i with
  | nil => exact nomatch hi
  | cons input' inputs ih => cases rs with
    | nil => exact h.elim
    | cons r' rs =>
      cases i with
      | zero =>
        obtain rfl := Option.some.inj hi
        obtain rfl := Option.some.inj hr
        exact h.1
      | succ i =>
        have := ih h.2 (i := i) hi hr
        cases i with
        | zero => exact this
        | succ i => exact this

/-! ## Choices and lists -/

/-- A choice is one of the options there are, and spends at most a draw (R903). -/
theorem choice_spec {options : List Nat} {s : State} :
    ∃ (x : Nat) (ds : List Nat), choice options s = (x, { s with draws := ds }) ∧ (options ≠ [] → x ∈ options) := by
  rw [choice]
  split
  · exact ⟨_, s.draws, rfl, fun h => by
      cases options with
      | nil => exact absurd rfl h
      | cons x xs => exact List.mem_cons_self⟩
  · rename_i d ds _
    refine ⟨_, ds, rfl, fun h => ?_⟩
    have hlt := Nat.mod_lt d (List.length_pos_of_ne_nil h)
    rw [List.getD_eq_getElem _ _ hlt]
    exact List.getElem_mem hlt

theorem sum_map_set {α : Type} {f : α → Nat} {l : List α} {i : Nat} {u v : α} (h : l[i]? = some u) :
    ((l.set i v).map f).sum + f u = (l.map f).sum + f v := by
  induction l generalizing i with
  | nil => exact nomatch h
  | cons x l ih =>
    cases i with
    | zero =>
      obtain rfl := Option.some.inj h
      simp
      omega
    | succ i =>
      have := ih (i := i) h
      simp only [List.set_cons_succ, List.map_cons, List.sum_cons]
      omega

theorem State.setLane_eq {s : State} {i : Nat} {l : Lane} :
    ∃ (l0 : Lane) (ws : List Lane), s.setLane i l = { s with lane0 := l0, workers := ws } ∧ ws.length = s.workers.length := by
  cases i with
  | zero => exact ⟨l, s.workers, rfl, rfl⟩
  | succ i => exact ⟨s.lane0, s.workers.set i l, rfl, List.length_set⟩

/-! ## The invariant of the coordinator (R902, R922, R930) -/

/-- The actions a unit still needs before it can be committed. -/
def WorkUnit.todo (u : WorkUnit) : Nat := if u.outcome.isSome then 0 else if u.lane.isSome then 1 else 2

/-- 1 for a unit on a lane. -/
def WorkUnit.load (u : WorkUnit) : Nat := if u.lane.isSome then 1 else 0

/-- A unit on its way to the result `r`: not completed, or completed with it. -/
def WorkUnit.OnWay (u : WorkUnit) (input : UnitInput) (r : List Byte × Window) : Prop :=
  u.input = input ∧ (u.outcome = none ∨ u.outcome = some (.ok r.2) ∧ u.lane = none ∧ u.buffer = r.1)

/-- `t` differs from `s` in what the coordinator writes only. -/
def State.Coordinated (s t : State) : Prop :=
  ∃ (stage : List Byte) (l : Lane) (ws : List Lane) (c : Coordinator) (ds : List Nat),
    t = { s with stage := stage, lane0 := l, workers := ws, coord := c, draws := ds }

theorem State.Coordinated.trans {s t t' : State} (h : s.Coordinated t) (h' : t.Coordinated t') : s.Coordinated t' := by
  obtain ⟨stage, l, ws, c, ds, rfl⟩ := h
  obtain ⟨stage', l', ws', c', ds', rfl⟩ := h'
  exact ⟨stage', l', ws', c', ds', rfl⟩

/-- The coordinator, started from `s` on `inputs`, has come to `t`: so far its units have gone as `rs` says. -/
structure Scheduled (inputs : List UnitInput) (rs : List (List Byte × Window)) (s t : State) : Prop where
  frame : s.Coordinated t
  workers : t.workers.length = s.workers.length
  stage : t.stage = s.stage ++ ((rs.take t.coord.nextCommit).map Prod.fst).flatten
  noError : t.coord.earliest = none
  next : t.coord.refresh = t.coord
  busy : t.coord.busy = (t.coord.units.map WorkUnit.load).sum
  length : t.coord.units.length = inputs.length
  units : ∀ (i : Nat) (u : WorkUnit) (input : UnitInput) (r : List Byte × Window),
    t.coord.units[i]? = some u → inputs[i]? = some input → rs[i]? = some r → u.OnWay input r
  commit_le : t.coord.nextCommit ≤ inputs.length
  committed : ∀ (i : Nat) (u : WorkUnit), i < t.coord.nextCommit → t.coord.units[i]? = some u → u.outcome.isSome = true
  started : ∀ (i : Nat) (u : WorkUnit),
    t.coord.units[i]? = some u → u.lane.isSome = true → u.dependent = true → (t.coord.previousWindow i).isSome = true

/-- The actions that are left. -/
def State.left (t : State) : Nat := t.coord.units.length - t.coord.nextCommit + (t.coord.units.map WorkUnit.todo).sum

/-- The final window of a unit that has completed without error. -/
def WorkUnit.final (u : WorkUnit) : Option Window :=
  match u.outcome with
  | some (.ok w) => some w
  | _ => none

theorem Coordinator.previousWindow_succ {c : Coordinator} {i : Nat} :
    c.previousWindow (i + 1) = (c.units[i]?).bind WorkUnit.final := by
  rw [previousWindow]
  rcases c.units[i]? with _ | ⟨input, lane, buffer, _ | _ | _⟩ <;> rfl

/-- A unit that changes without losing its window takes none from the unit after it. -/
theorem Coordinator.previousWindow_set {c c' : Coordinator} {i k : Nat} {u v : WorkUnit} (hc : c'.units = c.units.set i v)
    (hu : c.units[i]? = some u) (hopen : u.outcome = none) (hk : (c.previousWindow k).isSome = true) :
    (c'.previousWindow k).isSome = true := by
  cases k with
  | zero => exact nomatch hk
  | succ k =>
    rw [previousWindow_succ] at hk ⊢
    rw [hc, List.getElem?_set_ne]
    · exact hk
    · rintro rfl
      rw [hu] at hk
      simp [WorkUnit.final, hopen] at hk

section Steps
variable {a : Act} {inputs : List UnitInput} {rs : List (List Byte × Window)} {s t : State}

/-- What the unit before a unit ended with, where it has ended. -/
theorem Scheduled.previousWindow_eq (h : Scheduled inputs rs s t) (hlen : rs.length = inputs.length) {i : Nat}
    (hi : (t.coord.previousWindow i).isSome = true) : t.coord.previousWindow i = windowBefore none rs i := by
  cases i with
  | zero => rfl
  | succ i =>
    rw [Coordinator.previousWindow_succ] at hi ⊢
    cases hu : t.coord.units[i]? with
    | none => simp [hu] at hi
    | some u =>
      have hlt : i < inputs.length := h.length ▸ (List.getElem?_eq_some_iff.mp hu).1
      obtain ⟨-, hopen | ⟨hok, -, -⟩⟩ := h.units i u _ _ hu (List.getElem?_eq_getElem hlt) (List.getElem?_eq_getElem (hlen ▸ hlt))
      · simp [hu, WorkUnit.final, hopen] at hi
      · simp [WorkUnit.final, hok, windowBefore, List.getElem?_eq_getElem (hlen ▸ hlt : i < rs.length)]

/-- A unit that is not completed goes a step further. -/
theorem Scheduled.setUnit {t' : State} {i : Nat} {u v : WorkUnit} (h : Scheduled inputs rs s t)
    (hu : t.coord.units[i]? = some u) (hopen : u.outcome = none)
    (hframe : t.Coordinated t') (hstage : t'.stage = t.stage)
    (hworkers : t'.workers.length = t.workers.length) (hcommit : t'.coord.nextCommit = t.coord.nextCommit)
    (herror : t'.coord.earliest = none) (hnext : t'.coord.refresh = t'.coord) (hunits : t'.coord.units = t.coord.units.set i v)
    (hbusy : t'.coord.busy + u.load = t.coord.busy + v.load)
    (hv : ∀ (input : UnitInput) (r : List Byte × Window), inputs[i]? = some input → rs[i]? = some r → v.OnWay input r)
    (hstart : v.lane.isSome = true → v.dependent = true → (t.coord.previousWindow i).isSome = true) :
    Scheduled inputs rs s t' ∧ t'.left + u.todo = t.left + v.todo := by
  have hget {j : Nat} {w : WorkUnit} (hw : t'.coord.units[j]? = some w) : i = j ∧ w = v ∨ i ≠ j ∧ t.coord.units[j]? = some w := by
    rw [hunits] at hw
    by_cases hij : i = j
    · subst hij
      rw [List.getElem?_set_self (List.getElem?_eq_some_iff.mp hu).1] at hw
      exact .inl ⟨rfl, (Option.some.inj hw).symm⟩
    · rw [List.getElem?_set_ne hij] at hw
      exact .inr ⟨hij, hw⟩
  have hprev {k : Nat} (hk : (t.coord.previousWindow k).isSome = true) : (t'.coord.previousWindow k).isSome = true :=
    Coordinator.previousWindow_set hunits hu hopen hk
  refine ⟨⟨h.frame.trans hframe, hworkers.trans h.workers, ?_, herror, hnext, ?_, ?_, ?_, hcommit ▸ h.commit_le, ?_, ?_⟩, ?_⟩
  · rw [hstage, hcommit]
    exact h.stage
  · have := sum_map_set (f := WorkUnit.load) (v := v) hu
    rw [hunits]
    have := h.busy
    omega
  · rw [hunits, List.length_set]
    exact h.length
  · intro j w input r hw hinput hr
    rcases hget hw with ⟨rfl, rfl⟩ | ⟨-, hw⟩
    · exact hv input r hinput hr
    · exact h.units j w input r hw hinput hr
  · intro j w hj hw
    rcases hget hw with ⟨rfl, -⟩ | ⟨-, hw⟩
    · have := h.committed i u (hcommit ▸ hj) hu
      simp [hopen] at this
    · exact h.committed j w (hcommit ▸ hj) hw
  · intro j w hw hlane hdep
    rcases hget hw with ⟨rfl, rfl⟩ | ⟨-, hw⟩
    · exact hprev (hstart hlane hdep)
    · exact hprev (h.started j w hw hlane hdep)
  · have := sum_map_set (f := WorkUnit.todo) (v := v) hu
    rw [State.left, State.left, hunits, hcommit, List.length_set]
    omega

/-- A unit that is ready goes to a lane (R902). -/
theorem Scheduled.dispatch (h : Scheduled inputs rs s t) {threads : Nat} (hlt : t.coord.nextDispatch < t.coord.units.length) :
    Scheduled inputs rs s (dispatchUnit threads t.coord.nextDispatch t) ∧
      (dispatchUnit threads t.coord.nextDispatch t).left + 1 = t.left := by
  generalize hi : t.coord.nextDispatch = i at hlt
  have hready : t.coord.ready i = true := by
    have hnext : t.coord.refresh.nextDispatch = i := by rw [h.next, hi]
    rw [Coordinator.refresh] at hnext
    cases hf : (List.range t.coord.units.length).find? t.coord.ready with
    | none =>
      rw [hf] at hnext
      exact absurd hnext (Nat.ne_of_gt hlt)
    | some j =>
      rw [hf] at hnext
      obtain rfl : j = i := hnext
      exact List.find?_some hf
  have hu := List.getElem?_eq_getElem hlt
  generalize t.coord.units[i] = u at hu
  simp only [Coordinator.ready, hu, Bool.and_eq_true, Option.isNone_iff_eq_none, Bool.or_eq_true, Bool.not_eq_true'] at hready
  obtain ⟨⟨⟨hlane, hopen⟩, -⟩, hprev⟩ := hready
  obtain ⟨lane, ds, hchoice, -⟩ := choice_spec (options := t.coord.idleLanes threads) (s := t)
  have hunits : t.coord.units.modify i (fun u => { u with lane := some lane }) = t.coord.units.set i { u with lane := some lane } := by
    rw [List.modify_eq_set_getElem?, hu]
    rfl
  have hstep : dispatchUnit threads i t = { t with
      coord := { t.coord with units := t.coord.units.set i { u with lane := some lane }, busy := t.coord.busy + 1 }.refresh
      draws := ds } := by
    rw [dispatchUnit, hchoice, ← hunits]
  have := h.setUnit (t' := dispatchUnit threads i t) (v := { u with lane := some lane }) hu hopen
    ⟨_, _, _, _, _, hstep⟩ (by rw [hstep]) (by rw [hstep]) (by rw [hstep]; rfl)
    (by rw [hstep]; exact h.noError) (by rw [hstep]; rfl) (by rw [hstep]; rfl)
    (by rw [hstep]; simp [WorkUnit.load, hlane, Coordinator.refresh])
    (fun input r hinput hr => ⟨(h.units i u input r hu hinput hr).1, .inl hopen⟩)
    (fun _ hdep => by
      rcases hprev with hprev | hprev
      · exact absurd (hprev.symm.trans hdep) Bool.false_ne_true
      · exact hprev)
  refine ⟨this.1, ?_⟩
  have := this.2
  simp [WorkUnit.todo, hopen, hlane] at this
  omega

theorem Coordinator.mem_running {c : Coordinator} {i : Nat} :
    i ∈ c.running ↔ ∃ u, c.units[i]? = some u ∧ u.lane.isSome = true := by
  rw [running, List.mem_filter, List.mem_range]
  constructor
  · rintro ⟨hlt, hlane⟩
    exact ⟨c.units[i], List.getElem?_eq_getElem hlt, by simpa [List.getElem?_eq_getElem hlt] using hlane⟩
  · rintro ⟨u, hu, hlane⟩
    exact ⟨(List.getElem?_eq_some_iff.mp hu).1, by simpa [hu] using hlane⟩

/-- A unit on a lane completes, with the result that its input gives (R923). -/
theorem Scheduled.complete (h : Scheduled inputs rs s t) (hgive : UnitsGive s.build a none inputs rs)
    (hrunning : t.coord.running ≠ []) :
    Scheduled inputs rs s (completeUnit a t) ∧ (completeUnit a t).left + 1 = t.left := by
  obtain ⟨i, ds, hchoice, hmem⟩ := choice_spec (options := t.coord.running) (s := t)
  obtain ⟨u, hu, hlane⟩ := Coordinator.mem_running.mp (hmem hrunning)
  have hlen := hgive.length_eq
  have hlt : i < inputs.length := h.length ▸ (List.getElem?_eq_some_iff.mp hu).1
  have hinput := List.getElem?_eq_getElem hlt
  have hr := List.getElem?_eq_getElem (hlen ▸ hlt : i < rs.length)
  generalize inputs[i] = input at hinput
  generalize rs[i] = r at hr
  obtain ⟨heq, hopen | ⟨-, hidle, -⟩⟩ := h.units i u input r hu hinput hr
  · have hbuild : t.build = s.build := by
      obtain ⟨stage, l, ws, c, ds, rfl⟩ := h.frame
      rfl
    obtain ⟨l, hrun⟩ := (hgive.gives hinput hr).2 (t.coord.previousWindow i) fun hdep =>
      h.previousWindow_eq hlen (h.started i u hu hlane (hdep ▸ WorkUnit.dependent_congr heq))
    rw [runUnit_congr (v := u) heq.symm, ← hbuild] at hrun
    obtain ⟨l0, ws, hset, hws⟩ := State.setLane_eq (s := { t with draws := ds }) (i := u.lane.getD 0) (l := l)
    generalize hv : ({ u with lane := none, buffer := r.1, outcome := some (.ok r.2) } : WorkUnit) = v
    have hstep : completeUnit a t = { t with
        lane0 := l0
        workers := ws
        coord := { t.coord with units := t.coord.units.set i v, busy := t.coord.busy - 1, earliest := none }.refresh
        draws := ds } := by
      rw [completeUnit, hchoice]
      simp only [hu, hrun, hset, h.noError, earlier, ← hv]
    have hload : u.load = 1 := if_pos hlane
    have hbusy := h.busy
    have hle : u.load ≤ (t.coord.units.map WorkUnit.load).sum :=
      List.single_le_sum (by simp) _ (List.mem_map_of_mem (List.mem_of_getElem? hu))
    have := h.setUnit (t' := completeUnit a t) (v := v) hu hopen
      ⟨_, _, _, _, _, hstep⟩ (by rw [hstep]) (by rw [hstep]; exact hws) (by rw [hstep]; rfl) (by rw [hstep]; rfl) (by rw [hstep]; rfl)
      (by rw [hstep]; rfl)
      (by
        have hidle : v.load = 0 := by rw [← hv]; rfl
        rw [hstep]
        show t.coord.busy - 1 + u.load = t.coord.busy + v.load
        omega)
      (fun input' r' hinput' hr' => by
        rw [hinput] at hinput'
        rw [hr] at hr'
        obtain rfl := Option.some.inj hinput'
        obtain rfl := Option.some.inj hr'
        exact hv ▸ ⟨heq, .inr ⟨rfl, rfl, rfl⟩⟩)
      (fun hv' => by subst hv; exact nomatch hv')
    refine ⟨this.1, ?_⟩
    have := this.2
    simp [← hv, WorkUnit.todo, hopen, hlane] at this
    omega
  · rw [hidle] at hlane
    exact nomatch hlane

/-- The next unit is committed: its bytes go to STAGE (R930). -/
theorem Scheduled.commit (h : Scheduled inputs rs s t) (hlen : rs.length = inputs.length) {u : WorkUnit}
    (hu : t.coord.committable = some u) : Scheduled inputs rs s (commitUnit u t) ∧ (commitUnit u t).left + 1 = t.left := by
  obtain ⟨hget, hdone⟩ : t.coord.units[t.coord.nextCommit]? = some u ∧ u.outcome.isSome = true := by
    rw [Coordinator.committable] at hu
    split at hu
    · rename_i v hv
      split at hu
      · rename_i w hw
        obtain rfl := Option.some.inj hu
        exact ⟨hv, by rw [hw]; rfl⟩
      · exact nomatch hu
    · exact nomatch hu
  have hlt := (List.getElem?_eq_some_iff.mp hget).1
  have hlt' : t.coord.nextCommit < inputs.length := h.length ▸ hlt
  have hr := List.getElem?_eq_getElem (hlen ▸ hlt' : t.coord.nextCommit < rs.length)
  obtain ⟨-, hopen | ⟨-, -, hbuffer⟩⟩ := h.units _ u _ _ hget (List.getElem?_eq_getElem hlt') hr
  · rw [hopen] at hdone
    exact nomatch hdone
  · refine ⟨⟨h.frame.trans ⟨_, _, _, _, _, rfl⟩, h.workers, ?_, h.noError, ?_, h.busy, h.length, h.units, hlt', ?_,
      h.started⟩, ?_⟩
    · show t.stage ++ u.buffer = _ ++ ((rs.take (t.coord.nextCommit + 1)).map Prod.fst).flatten
      rw [h.stage, List.take_add_one, hr, hbuffer, Option.toList_some, List.map_append, List.flatten_append, List.append_assoc]
      simp only [List.map_cons, List.map_nil, List.flatten_cons, List.flatten_nil, List.append_nil]
    · exact congrArg (fun c : Coordinator => { c with nextCommit := t.coord.nextCommit + 1 }) h.next
    · intro i v hi hv
      rcases Nat.lt_succ_iff_lt_or_eq.mp hi with hi | rfl
      · exact h.committed i v hi hv
      · obtain rfl := Option.some.inj (hget.symm.trans hv)
        exact hdone
    · have hleft : (commitUnit u t).left =
          t.coord.units.length - (t.coord.nextCommit + 1) + (t.coord.units.map WorkUnit.todo).sum := rfl
      rw [hleft, State.left]
      omega

/-- A committed unit hands its window on. -/
theorem Scheduled.previousWindow_committed (h : Scheduled inputs rs s t) (hlen : rs.length = inputs.length) {i : Nat}
    (hi : i < t.coord.nextCommit) : (t.coord.previousWindow (i + 1)).isSome = true := by
  have hlt : i < inputs.length := Nat.lt_of_lt_of_le hi h.commit_le
  have hu := List.getElem?_eq_getElem (h.length ▸ hlt : i < t.coord.units.length)
  have hdone := h.committed i _ hi hu
  rw [Coordinator.previousWindow_succ, hu]
  obtain ⟨-, hopen | ⟨hok, -, -⟩⟩ := h.units i _ _ _ hu (List.getElem?_eq_getElem hlt) (List.getElem?_eq_getElem (hlen ▸ hlt))
  · rw [hopen] at hdone
    exact nomatch hdone
  · simp only [Option.bind_some, WorkUnit.final, hok, Option.isSome_some]

theorem Coordinator.committable_none {c : Coordinator} {u : WorkUnit} (h : c.committable = none)
    (hu : c.units[c.nextCommit]? = some u) (w : Window) : u.outcome ≠ some (.ok w) := by
  intro hok
  simp [committable, hu, hok] at h

/-- Where no unit runs, no lane is taken (R902). -/
theorem Scheduled.idle_lanes (h : Scheduled inputs rs s t) (hempty : t.coord.running.isEmpty = true) :
    (∀ u ∈ t.coord.units, u.lane = none) ∧ t.coord.busy = 0 := by
  have hidle : ∀ u ∈ t.coord.units, u.lane = none := by
    intro u hu
    obtain ⟨i, hi⟩ := List.mem_iff_getElem?.mp hu
    by_contra hl
    have := Coordinator.mem_running.mpr ⟨u, hi, Option.isSome_iff_ne_none.mpr hl⟩
    rw [List.isEmpty_iff.mp hempty] at this
    exact nomatch this
  refine ⟨hidle, ?_⟩
  rw [h.busy, List.sum_eq_zero_iff]
  intro n hn
  obtain ⟨u, hu, rfl⟩ := List.mem_map.mp hn
  rw [WorkUnit.load, hidle u hu]
  rfl

theorem Coordinator.nextDispatch_lt {c : Coordinator} {i : Nat} (hnext : c.refresh = c) (hlt : i < c.units.length)
    (hready : c.ready i = true) : c.nextDispatch < c.units.length := by
  rw [← hnext, refresh]
  cases hf : (List.range c.units.length).find? c.ready with
  | none => exact absurd hready (List.find?_eq_none.mp hf _ (List.mem_range.mpr hlt))
  | some j => exact List.mem_range.mp (List.mem_of_find?_eq_some hf)

/-- The first unit that is not committed is completed, on a lane, or ready (R902, R922). -/
theorem Scheduled.ready_nextCommit (h : Scheduled inputs rs s t) (hgive : UnitsGive s.build a none inputs rs)
    (hlt : t.coord.nextCommit < inputs.length) (hcommit : t.coord.committable = none)
    (hidle : ∀ u ∈ t.coord.units, u.lane = none) : t.coord.ready t.coord.nextCommit = true := by
  have hlen := hgive.length_eq
  have hinput := List.getElem?_eq_getElem hlt
  have hr := List.getElem?_eq_getElem (hlen ▸ hlt : t.coord.nextCommit < rs.length)
  have hlt' : t.coord.nextCommit < t.coord.units.length := h.length ▸ hlt
  have hu := List.getElem?_eq_getElem hlt'
  generalize t.coord.units[t.coord.nextCommit] = u at hu
  obtain ⟨heq, hway⟩ := h.units _ u _ _ hu hinput hr
  have hopen : u.outcome = none := hway.resolve_right fun hok => Coordinator.committable_none hcommit hu _ hok.1
  have hprev : u.dependent = false ∨ (t.coord.previousWindow t.coord.nextCommit).isSome = true := by
    cases hn : t.coord.nextCommit with
    | zero =>
      refine .inl (Bool.eq_false_iff.mpr fun hdep => ?_)
      have hbefore := (hgive.gives hinput hr).1 (hdep ▸ WorkUnit.dependent_congr heq.symm)
      rw [hn] at hbefore
      exact nomatch hbefore
    | succ i => exact .inr (h.previousWindow_committed hlen (by omega))
  simp only [Coordinator.ready, hu, hidle u (List.mem_of_getElem? hu), hopen, Coordinator.wanted, h.noError]
  rcases hprev with hprev | hprev <;> simp [hprev]

/-- Where there is no action, all units are committed: the first that is not would be one to commit, to run or to dispatch (R902). -/
theorem Scheduled.idle (h : Scheduled inputs rs s t) (hgive : UnitsGive s.build a none inputs rs) (hthreads : 1 ≤ a.threadCount.toNat)
    (hnone : coordinatorAction a t = none) : t.coord.nextCommit = inputs.length := by
  by_contra hne
  have hlt : t.coord.nextCommit < inputs.length := Nat.lt_of_le_of_ne h.commit_le hne
  rw [coordinatorAction] at hnone
  split at hnone
  · exact nomatch hnone
  · rename_i hcommit
    split at hnone
    · exact nomatch hnone
    · rename_i hdispatch
      split at hnone
      · rename_i hempty
        obtain ⟨hidle, hbusy⟩ := h.idle_lanes hempty
        have hready := h.ready_nextCommit hgive hlt hcommit hidle
        exact hdispatch ⟨Coordinator.nextDispatch_lt h.next (h.length ▸ hlt) hready, by omega⟩
      · exact nomatch hnone

/-- An action keeps the invariant and leaves one action less (R902, R930). -/
theorem Scheduled.action (h : Scheduled inputs rs s t) (hgive : UnitsGive s.build a none inputs rs) {t' : State}
    (hsome : coordinatorAction a t = some t') : Scheduled inputs rs s t' ∧ t'.left + 1 = t.left := by
  rw [coordinatorAction] at hsome
  split at hsome
  · rename_i u hu
    obtain rfl := Option.some.inj hsome
    exact h.commit hgive.length_eq hu
  · split at hsome
    · rename_i hdispatch
      obtain rfl := Option.some.inj hsome
      exact h.dispatch hdispatch.1
    · split at hsome
      · exact nomatch hsome
      · rename_i hrunning
        obtain rfl := Option.some.inj hsome
        exact h.complete hgive fun hc => hrunning (List.isEmpty_iff.mpr hc)

/-- The coordinator ends with every unit committed. -/
theorem Scheduled.loop (h : Scheduled inputs rs s t) (hgive : UnitsGive s.build a none inputs rs) (hthreads : 1 ≤ a.threadCount.toNat)
    {fuel : Nat} (hfuel : t.left ≤ fuel) :
    Scheduled inputs rs s (coordinatorLoop a fuel t) ∧ (coordinatorLoop a fuel t).coord.nextCommit = inputs.length := by
  induction fuel generalizing t with
  | zero =>
    have hleft : t.coord.units.length - t.coord.nextCommit = 0 := Nat.eq_zero_of_add_eq_zero_right (Nat.le_zero.mp hfuel)
    have := h.commit_le
    have := h.length
    exact ⟨h, by show t.coord.nextCommit = _; omega⟩
  | succ fuel ih =>
    rw [coordinatorLoop]
    split
    · rename_i hnone
      exact ⟨h, h.idle hgive hthreads hnone⟩
    · rename_i t' hsome
      obtain ⟨h', hless⟩ := h.action hgive hsome
      exact ih h' (by omega)

end Steps

/-- The coordinator's start (R902). -/
def Coordinator.start (inputs : List UnitInput) : Coordinator where
  units := inputs.map newUnit
  nextDispatch := 0
  nextCommit := 0
  busy := 0
  earliest := none

theorem scheduled_start {inputs : List UnitInput} {rs : List (List Byte × Window)} {s : State} :
    Scheduled inputs rs s { s with coord := (Coordinator.start inputs).refresh } ∧
      ({ s with coord := (Coordinator.start inputs).refresh } : State).left = 3 * inputs.length := by
  have hnew {i : Nat} {u : WorkUnit} (hu : (inputs.map newUnit)[i]? = some u) :
      ∃ input, inputs[i]? = some input ∧ newUnit input = u := by
    rwa [List.getElem?_map, Option.map_eq_some_iff] at hu
  have hload : ((inputs.map newUnit).map WorkUnit.load).sum = 0 := by
    rw [List.map_map, show WorkUnit.load ∘ newUnit = fun _ => 0 from rfl, List.map_const', List.sum_replicate, smul_zero]
  have htodo : ((inputs.map newUnit).map WorkUnit.todo).sum = 2 * inputs.length := by
    rw [List.map_map, show WorkUnit.todo ∘ newUnit = fun _ => 2 from rfl, List.map_const', List.sum_replicate, smul_eq_mul,
      Nat.mul_comm]
  refine ⟨⟨⟨_, _, _, _, _, rfl⟩, rfl, (List.append_nil _).symm, rfl, rfl, hload.symm, List.length_map _, ?_,
    Nat.zero_le _, ?_, ?_⟩, ?_⟩
  · intro i u input r hu hinput _
    obtain ⟨input', hinput', rfl⟩ := hnew hu
    obtain rfl := Option.some.inj (hinput.symm.trans hinput')
    exact ⟨rfl, .inl rfl⟩
  · exact fun i u hi => absurd hi (Nat.not_lt_zero i)
  · intro i u hu hlane
    obtain ⟨input, -, rfl⟩ := hnew hu
    exact nomatch hlane
  · show (inputs.map newUnit).length - 0 + ((inputs.map newUnit).map WorkUnit.todo).sum = _
    rw [htodo, List.length_map]
    omega

/-- Units that all succeed end with their buffers on STAGE in order and no error, and nothing else of the state changed but lanes, the
coordinator and the draws (R902, R930). -/
theorem runUnits_give {a : Act} {inputs : List UnitInput} {rs : List (List Byte × Window)} {s : State}
    (hgive : UnitsGive s.build a none inputs rs) (hthreads : 1 ≤ a.threadCount.toNat) :
    ∃ (l : Lane) (ws : List Lane) (c : Coordinator) (ds : List Nat), c.earliest = none ∧ ws.length = s.workers.length ∧
      runUnits a inputs none s =
        { s with stage := s.stage ++ (rs.map Prod.fst).flatten, lane0 := l, workers := ws, coord := c, draws := ds } := by
  obtain ⟨hstart, hleft⟩ := scheduled_start (inputs := inputs) (rs := rs) (s := s)
  obtain ⟨hend, hall⟩ := hstart.loop hgive hthreads (Nat.le_of_eq hleft)
  have hrun : runUnits a inputs none s =
      coordinatorLoop a (3 * inputs.length) { s with coord := (Coordinator.start inputs).refresh } := rfl
  rw [← hrun] at hend hall
  obtain ⟨stage, l, ws, c, ds, heq⟩ := hend.frame
  have hstage := hend.stage
  have herror := hend.noError
  have hworkers := hend.workers
  rw [hall, ← hgive.length_eq, List.take_length] at hstage
  rw [heq] at hstage herror hworkers ⊢
  exact ⟨l, ws, c, ds, herror, hworkers, by rw [← hstage]⟩

end Sys2Proof.Machine
end

section
/-! PROOFS. L2.DECODE on many lanes: the coordinator's units of a row of legal chunks decode to their bytes on lanes of their own, and
L2.DECODE reads back the row for every thread count and schedule (R910, R920 to R923, R930, R935). -/

namespace Sys2Proof.Machine

/-! ## A lane of a unit beside the lane that has decoded the whole row -/

/-- The unit's lane `m` has what the next chunk can use of `d`, the lane of the whole row: the window, and the cells and the state machine
where properties have been given (R833, R923). -/
structure UnitSync (m d : Lane) : Prop where
  win : m.win = d.win
  coder : d.l2d.needProps = false → m.prob = d.prob ∧ m.lz = d.lz

/-- The unit's lane `m` has of `d` what chunk `k` does not reset (R352, R833). -/
def CodedChunk.Aligned (k : CodedChunk) (m d : Lane) : Prop :=
  match k with
  | .raw reset _ => reset = true ∨ UnitSync m d
  | .lzma level _ _ _ _ =>
    (level = 3 ∨ m.win = d.win) ∧ (level = 0 → m.prob = d.prob ∧ m.lz = d.lz) ∧
      (level = 1 → m.lz.lc = d.lz.lc ∧ m.lz.lp = d.lz.lp ∧ m.lz.pb = d.lz.pb)

theorem CodedChunk.Legal.aligned {k : CodedChunk} {a : Act} {m d : Lane} (hk : k.Legal a d) (h : UnitSync m d) : k.Aligned m d := by
  cases k with
  | raw reset x => exact .inr h
  | lzma level pr ys x payload =>
    obtain ⟨-, ⟨-, hseq⟩, -⟩ := hk
    have hlow (hl : level.val < 2) : m.prob = d.prob ∧ m.lz = d.lz := h.coder (hseq.resolve_left (Nat.not_le.mpr hl))
    refine ⟨.inr h.win, fun hl => hlow (hl ▸ by decide), fun hl => ?_⟩
    rw [(hlow (hl ▸ by decide)).2]
    exact ⟨rfl, rfl, rfl⟩

/-- Lanes with the same cells, state machine, range encoder and window code alike. -/
theorem codesAs_of_eq {l m : Lane} (hp : m.prob = l.prob) (hl : m.lz = l.lz) (hr : m.rce = l.rce) (hw : m.win = l.win) :
    CodesAs l.win.endPos l m :=
  ⟨hp, hl, hr, by rw [hw, Window.endPos, List.take_length]⟩

theorem CodedChunk.Aligned.start_eq {h : LzmaHead} {a : Act} {ys : List Sym} {x payload : List Byte} {m d : Lane}
    (ha : (CodedChunk.lzma h.level h.pr ys x payload).Aligned m d) :
    (h.start a m).prob = (h.start a d).prob ∧ (h.start a m).lz = (h.start a d).lz ∧ (h.start a m).win = (h.start a d).win := by
  obtain ⟨hwin, h0, h1⟩ := ha
  refine ⟨?_, ?_, ?_⟩
  · show (if 1 ≤ h.level.val then [] else m.prob) = if 1 ≤ h.level.val then [] else d.prob
    split
    · rfl
    · rename_i hl
      exact (h0 (Fin.ext (by simpa using hl))).1
  · show (if h.level = 0 then m.lz else _) = if h.level = 0 then d.lz else _
    split
    · rename_i hl
      exact (h0 hl).2
    · rename_i hl
      by_cases hl2 : 2 ≤ h.level.val
      · simp only [if_pos hl2]
      · have hne : h.level.val ≠ 0 := fun hc => hl (Fin.ext hc)
        obtain ⟨q1, q2, q3⟩ := h1 (Fin.ext (by show h.level.val = 1; omega))
        simp only [if_neg hl2, q1, q2, q3]
  · show (if h.level = 3 then _ else m.win : Window) = if h.level = 3 then _ else d.win
    split
    · rfl
    · rename_i hl
      exact hwin.resolve_left hl

/-- A chunk that is legal in the row decodes on the unit's lane, and keeps the lanes in step (R833, R923). -/
theorem CodedChunk.Legal.onUnit {k : CodedChunk} {a : Act} {m d : Lane} (hk : k.Legal a d) (hd : d.Between) (ha : k.Aligned m d) :
    k.DataOk a m ∧ UnitSync (k.after a m) (k.after a d) := by
  cases k with
  | raw reset x =>
    refine ⟨trivial, ?_⟩
    cases reset
    · obtain ⟨hwin, hcoder⟩ := ha.resolve_left Bool.false_ne_true
      refine ⟨by simp [CodedChunk.after, hwin], fun hnp => hcoder ?_⟩
      simpa [CodedChunk.after, CodedChunk.resetsDictionary, CodedChunk.givesProps] using hnp
    · exact ⟨rfl, fun hnp => by simp [CodedChunk.after, CodedChunk.resetsDictionary, CodedChunk.givesProps] at hnp⟩
  | lzma level pr ys x payload =>
    obtain ⟨hr, -, -, hcod, htotal, hends⟩ := hk
    obtain ⟨hprob, hlz, hwin⟩ := CodedChunk.Aligned.start_eq (h := CodedChunk.head level pr x payload) (a := a) ha
    have hcodes : CodesAs _ ((CodedChunk.head level pr x payload).encoder a x d) ((CodedChunk.head level pr x payload).encoder a x m) :=
      codesAs_of_eq hprob hlz rfl (by simp only [LzmaHead.encoder, hwin])
    have hfit : ((CodedChunk.head level pr x payload).encoder a x d).win.cur + Sym.total ys ≤
        ((CodedChunk.head level pr x payload).encoder a x d).win.endPos := by
      have hcur : ((CodedChunk.head level pr x payload).start a d).win.cur =
        ((CodedChunk.head level pr x payload).start a d).win.bytes.length := (LzmaHead.start_between hd).cur
      simp only [LzmaHead.encoder, Window.endPos, hcur, htotal, List.length_append, Nat.le_refl]
    obtain ⟨hcod', hafter⟩ := hcodes.codedAll (Nat.le_refl _) hcod hfit
    refine ⟨⟨hr, hcod', htotal, by rw [hafter.rce]; exact hends⟩, ?_, fun _ => ⟨hafter.prob, hafter.lz⟩⟩
    show (codedAll ys _).win = (codedAll ys _).win
    rw [hafter.win, codedAll_win, Window.endPos]
    simp only [List.take_length]

/-! ## The lane a unit starts from (R923) -/

/-- The properties in force are the ones of the lane of the row, where it has any (R921, R923). -/
def PropsInForce (inForce : Option Byte) (d : Lane) : Prop :=
  d.l2d.needProps = false → ∃ pr, inForce = some pr ∧
    d.lz.lc = (propsDecode pr).1 ∧ d.lz.lp = (propsDecode pr).2.1 ∧ d.lz.pb = (propsDecode pr).2.2

theorem LzmaHead.start_props {h : LzmaHead} {a : Act} {l : Lane} :
    (h.start a l).lz.lc = (if 2 ≤ h.level.val then (propsDecode h.pr).1 else l.lz.lc) ∧
    (h.start a l).lz.lp = (if 2 ≤ h.level.val then (propsDecode h.pr).2.1 else l.lz.lp) ∧
    (h.start a l).lz.pb = (if 2 ≤ h.level.val then (propsDecode h.pr).2.2 else l.lz.pb) := by
  rw [start]
  by_cases h0 : h.level = 0
  · simp [h0]
  · simp only [if_neg h0]
    exact ⟨rfl, rfl, rfl⟩

theorem PropsInForce.after {inForce : Option Byte} {k : CodedChunk} {a : Act} {d : Lane} (h : PropsInForce inForce d)
    (hk : k.Legal a d) : PropsInForce (k.toChunk.props <|> inForce) (k.after a d) := by
  intro hnp
  cases k with
  | raw reset x =>
    have hnp : (d.l2d.needProps || reset) = false := by
      simpa [CodedChunk.after, CodedChunk.resetsDictionary, CodedChunk.givesProps] using hnp
    exact h (Bool.or_eq_false_iff.mp hnp).1
  | lzma level pr ys x payload =>
    obtain ⟨-, ⟨-, hseq⟩, -⟩ := hk
    obtain ⟨p1, p2, p3⟩ := codedAll_props (ys := ys) (l := (CodedChunk.head level pr x payload).encoder a x d)
    have hlz : ((CodedChunk.lzma level pr ys x payload).after a d).lz =
        (codedAll ys ((CodedChunk.head level pr x payload).encoder a x d)).lz := rfl
    obtain ⟨s1, s2, s3⟩ := (CodedChunk.head level pr x payload).start_props (a := a) (l := d)
    rw [hlz, p1, p2, p3]
    by_cases hl : 2 ≤ level.val
    · refine ⟨pr, by simp [CodedChunk.toChunk, hl], s1.trans (if_pos hl), s2.trans (if_pos hl), s3.trans (if_pos hl)⟩
    · obtain ⟨pr', hpr, q1, q2, q3⟩ := h (hseq.resolve_left hl)
      exact ⟨pr', by simp [CodedChunk.toChunk, hl, hpr], (s1.trans (if_neg hl)).trans q1, (s2.trans (if_neg hl)).trans q2,
        (s3.trans (if_neg hl)).trans q3⟩

section UnitLane
variable {a : Act} {r : ChunkRecord} {g : List ChunkRecord} {p : Option Window}

theorem unitLane_win : (unitLane a (newUnit (.chunks (r :: g))) p).win =
    if (newUnit (.chunks (r :: g))).dependent = true then p.getD (Window.empty a.dictSize) else Window.empty a.dictSize := by
  have hwin : (unitLane a (newUnit (.chunks (r :: g))) p).win =
      (if (newUnit (.chunks (r :: g))).dependent = true
        then { laneInit (some a) with win := p.getD (laneInit (some a)).win } else laneInit (some a)).win := by
    simp only [unitLane, newUnit]
    cases r.inForce <;> rfl
  rw [hwin]
  split <;> rfl

theorem unitLane_prob : (unitLane a (newUnit (.chunks (r :: g))) p).prob = [] := by
  rw [unitLane]
  by_cases hdep : (newUnit (.chunks (r :: g))).dependent = true
  · rw [if_pos hdep]
    simp only [newUnit]
    cases r.inForce <;> rfl
  · rw [if_neg hdep]
    simp only [newUnit]
    cases r.inForce <;> rfl

theorem unitLane_props {pr : Byte} (h : r.inForce = some pr) :
    (unitLane a (newUnit (.chunks (r :: g))) p).lz.lc = (propsDecode pr).1 ∧
    (unitLane a (newUnit (.chunks (r :: g))) p).lz.lp = (propsDecode pr).2.1 ∧
    (unitLane a (newUnit (.chunks (r :: g))) p).lz.pb = (propsDecode pr).2.2 := by
  simp only [unitLane, newUnit, h]
  exact ⟨rfl, rfl, rfl⟩

theorem unitLane_between {d : Lane} (hd : d.Between) (hp : (newUnit (.chunks (r :: g))).dependent = true → p = some d.win) :
    (unitLane a (newUnit (.chunks (r :: g))) p).Between := by
  refine ⟨unitLane_prob ▸ cellsOk_nil, ?_⟩
  rw [unitLane_win]
  split
  · rename_i hdep
    rw [hp hdep]
    exact hd.cur
  · rfl

end UnitLane

/-- A unit's first chunk finds on the unit's lane what it does not reset, where a dependent unit has its predecessor's window (R922,
R923). -/
theorem CodedChunk.Legal.aligned_unitLane {k : CodedChunk} {a : Act} {d : Lane} {r : ChunkRecord} {g : List ChunkRecord}
    {inForce : Option Byte} {p : Option Window} (hk : k.Legal a d) (hstart : startsUnit k.control = true)
    (hforce : PropsInForce inForce d) (hchunk : r.chunk = k.toChunk) (hr : r.inForce = (k.toChunk.props <|> inForce))
    (hp : (newUnit (.chunks (r :: g))).dependent = true → p = some d.win) :
    k.Aligned (unitLane a (newUnit (.chunks (r :: g))) p) d := by
  have hdep : (newUnit (.chunks (r :: g))).dependent = (resetsState k.control && !resetsDict k.control) := by
    show (resetsState r.chunk.ctl && !resetsDict r.chunk.ctl) = _
    rw [hchunk]
    rfl
  cases k with
  | raw reset x =>
    cases reset
    · exact absurd hstart (show ¬ startsUnit 0x02#8 = true by decide)
    · exact .inl rfl
  | lzma level pr ys x payload =>
    obtain ⟨hrange, ⟨-, hseq⟩, -⟩ := hk
    have hstate : resetsState (CodedChunk.lzma level pr ys x payload).control = decide (1 ≤ level.val) :=
      LzmaHead.resetsState_control hrange
    have hdict : resetsDict (CodedChunk.lzma level pr ys x payload).control = decide (level = 3) := LzmaHead.resetsDict_control hrange
    rw [hstate, hdict] at hdep
    have hl1 : 1 ≤ level.val := by
      rw [startsUnit, hstate] at hstart
      by_contra hl
      have hctl := LzmaHead.control_toNat hrange
      have hne : ¬ (CodedChunk.head level pr x payload).control = 0x01#8 := fun hc => by
        rw [hc] at hctl
        simp at hctl
        omega
      rcases Bool.or_eq_true_iff.mp hstart with hc | hc
      · exact hl (of_decide_eq_true hc)
      · exact hne (eq_of_beq hc)
    refine ⟨?_, fun hl => absurd hl1 (by rw [hl]; decide), fun hl => ?_⟩
    · by_cases hl : level = 3
      · exact .inl hl
      · have hdep : (newUnit (.chunks (r :: g))).dependent = true := by simp [hdep, hl, hl1]
        refine .inr ?_
        rw [unitLane_win, if_pos hdep, hp hdep]
        rfl
    · obtain ⟨pr', hpr, q1, q2, q3⟩ := hforce (hseq.resolve_left (show ¬ 2 ≤ level.val by rw [hl]; decide))
      obtain ⟨u1, u2, u3⟩ := unitLane_props (a := a) (g := g) (p := p) (r := r) (pr := pr') (by
        rw [hr, hpr]
        simp [CodedChunk.toChunk, hl])
      exact ⟨u1.trans q1.symm, u2.trans q2.symm, u3.trans q3.symm⟩

/-! ## The coordinator's reading (R921) -/

/-- The record of a chunk at its place (R921). -/
def CodedChunk.record (k : CodedChunk) (place : ChunkPlace) (inForce : Option Byte) : ChunkRecord where
  place := place
  chunk := k.toChunk
  inForce := k.toChunk.props <|> inForce

/-- The records are the chunks' in order, with the properties in force (R921). -/
def Recorded : List ChunkRecord → List CodedChunk → Option Byte → Prop
  | [], [], _ => True
  | r :: rs, k :: ks, inForce => r.chunk = k.toChunk ∧ r.inForce = (k.toChunk.props <|> inForce) ∧ Recorded rs ks r.inForce
  | _, _, _ => False

/-- The coordinator reads a row of legal chunks to the end marker (R921). -/
theorem parseStream_wires {s : State} {a : Act} {ks : List CodedChunk} {d : Lane} {rest : List Byte} {cap read fuel total : Nat}
    {inForce : Option Byte} {done : List ChunkRecord} (hk : CodedChunk.AllLegal a ks d)
    (hcap : total + (CodedChunk.allBytes ks).length ≤ cap) (hinp : s.inp = CodedChunk.wires ks ++ 0x00#8 :: rest)
    (hfuel : ks.length < fuel) :
    ∃ records, parseStream cap read fuel (d.l2d.flags total) inForce done s =
      .ok (done ++ records, none) { s with inp := rest } ∧ Recorded records ks inForce := by
  obtain ⟨f, rfl⟩ : ∃ f, fuel = f + 1 := ⟨fuel - 1, by omega⟩
  induction ks generalizing s d total inForce done f with
  | nil =>
    refine ⟨[], ?_, trivial⟩
    rw [parseStream, readChunk, inByte_cons hinp, Res.bind_ok, if_pos rfl, List.append_nil]
  | cons k ks ih =>
    obtain ⟨hk, hks⟩ := hk
    rw [CodedChunk.allBytes_cons, List.length_append] at hcap
    rw [CodedChunk.wires_cons, List.append_assoc] at hinp
    rw [List.length_cons] at hfuel
    obtain ⟨g, rfl⟩ : ∃ g, f = g + 1 := ⟨f - 1, by omega⟩
    obtain ⟨records, h1, h2⟩ := ih (s := { s with inp := CodedChunk.wires ks ++ 0x00#8 :: rest }) (total := total + k.bytes.length)
      (inForce := k.toChunk.props <|> inForce)
      (done := done ++ [k.record { index := done.length, offset := read - s.inp.length } inForce]) hks (by omega) rfl g (by omega)
    refine ⟨k.record { index := done.length, offset := read - s.inp.length } inForce :: records, ?_, rfl, rfl, h2⟩
    rw [parseStream, readChunk_wire hk (by omega) hinp, List.append_cons (bs := records)]
    exact h1

/-! ## The units of a row (R922, R923) -/

/-- The chunks of a unit decode to the bytes `o` and leave the window `w`, on any lane that has what the first, `k`, does not reset. -/
def UnitDecodes (a : Act) (k : CodedChunk) (d : Lane) (g : List ChunkRecord) (o : List Byte) (w : Window) : Prop :=
  ∀ (m : Lane) (out : List Byte), k.Aligned m d → m.Between →
    ∃ l, runChunks a g m out = (l, out ++ o, none) ∧ l.win = w

/-- A chunk in front of chunks of its unit. -/
theorem runChunks_legal {a : Act} {k : CodedChunk} {m d : Lane} {r : ChunkRecord} {rs : List ChunkRecord} {out : List Byte}
    (hk : k.Legal a d) (hd : d.Between) (ha : k.Aligned m d) (hm : m.Between) (hr : r.chunk = k.toChunk) :
    ∃ l, runChunks a (r :: rs) m out = runChunks a rs l (out ++ k.bytes) ∧ UnitSync l (k.after a d) ∧ l.Between := by
  obtain ⟨hok, hsync⟩ := hk.onUnit hd ha
  obtain ⟨hcells, hcur⟩ := hok.after_between hm
  refine ⟨{ k.after a m with l2d := m.l2d }, ?_, ⟨hsync.win, hsync.coder⟩, ⟨hcells, hcur⟩⟩
  rw [runChunks, hr, decodeData_coded hok hm]

theorem groupUnits_cons {r r' : ChunkRecord} {rs g : List ChunkRecord} {gs : List (List ChunkRecord)}
    (h : groupUnits rs = (r' :: g) :: gs) :
    groupUnits (r :: rs) = if startsUnit r'.chunk.ctl then [r] :: (r' :: g) :: gs else (r :: r' :: g) :: gs := by
  rw [groupUnits, h]

theorem runUnit_chunks {b : Build} {a : Act} {cs : List ChunkRecord} {p : Option Window} {l : Lane} {o : List Byte} {w : Window}
    (hrun : runChunks a cs (unitLane a (newUnit (.chunks cs)) p) [] = (l, [] ++ o, none)) (hwin : l.win = w) :
    runUnit b a (newUnit (.chunks cs)) p = (l, o, .ok w) := by
  have hunit : runUnit b a (newUnit (.chunks cs)) p =
      match runChunks a cs (unitLane a (newUnit (.chunks cs)) p) [] with
      | (l, out, none) => (l, out, .ok l.win)
      | (l, out, some e) => (l, out, .failed e) := by
    simp only [runUnit, newUnit]
    rcases runChunks a cs _ [] with ⟨l, out, _ | e⟩ <;> rfl
  rw [hunit, hrun, ← hwin]
  rfl

/-- The units of a row of legal chunks: the first decodes wherever its first chunk can stand, the others give what they stand for
(R922, R923). -/
theorem groupUnits_give {b : Build} {a : Act} {k : CodedChunk} {ks : List CodedChunk} {rs : List ChunkRecord} {d : Lane}
    {inForce : Option Byte} (hrec : Recorded rs (k :: ks) inForce) (hlegal : CodedChunk.AllLegal a (k :: ks) d) (hd : d.Between)
    (hforce : PropsInForce inForce d) :
    ∃ (r : ChunkRecord) (g : List ChunkRecord) (gs : List (List ChunkRecord)) (o : List Byte) (w : Window)
      (outs : List (List Byte × Window)),
      groupUnits rs = (r :: g) :: gs ∧ r.chunk = k.toChunk ∧ r.inForce = (k.toChunk.props <|> inForce) ∧
      UnitDecodes a k d (r :: g) o w ∧ UnitsGive b a (some w) (gs.map .chunks) outs ∧
      o ++ (outs.map Prod.fst).flatten = CodedChunk.allBytes (k :: ks) := by
  induction ks generalizing k rs d inForce with
  | nil =>
    match rs, hrec with
    | [r], ⟨hchunk, hin, _⟩ =>
      refine ⟨r, [], [], k.bytes, (k.after a d).win, [], rfl, hchunk, hin, fun m out ha hm => ?_, trivial, by simp⟩
      obtain ⟨l, hrun, hsync, -⟩ := runChunks_legal (rs := []) (out := out) hlegal.1 hd ha hm hchunk
      exact ⟨l, hrun, hsync.win⟩
  | cons k' ks ih =>
    match rs, hrec with
    | r :: rs, ⟨hchunk, hin, hrest⟩ =>
      obtain ⟨hk, hks⟩ := hlegal
      have hbetween := hk.dataOk.after_between hd
      obtain ⟨r', g, gs, o, w, outs, hgroup, hchunk', hin', hdec, hgive, hbytes⟩ := ih hrest hks hbetween (hin ▸ hforce.after hk)
      have hnext (l : Lane) (hsync : UnitSync l (k.after a d)) : k'.Aligned l (k.after a d) := hks.1.aligned hsync
      rw [groupUnits_cons hgroup, hchunk']
      by_cases hstart : startsUnit k'.control = true
      · refine ⟨r, [], (r' :: g) :: gs, k.bytes, (k.after a d).win, (o, w) :: outs, if_pos hstart, hchunk, hin, fun m out ha hm => ?_,
          ⟨⟨fun _ => rfl, fun p hp => ?_⟩, hgive⟩, ?_⟩
        · obtain ⟨l, hrun, hsync, -⟩ := runChunks_legal (rs := []) (out := out) hk hd ha hm hchunk
          exact ⟨l, hrun, hsync.win⟩
        · obtain ⟨l, hrun, hwin⟩ := hdec _ [] (hks.1.aligned_unitLane hstart (hin ▸ hforce.after hk) hchunk' hin' hp)
            (unitLane_between hbetween hp)
          exact ⟨l, runUnit_chunks hrun hwin⟩
        · rw [List.map_cons, List.flatten_cons, hbytes]
          rfl
      · refine ⟨r, r' :: g, gs, k.bytes ++ o, w, outs, if_neg hstart, hchunk, hin, fun m out ha hm => ?_, hgive, ?_⟩
        · obtain ⟨l, hrun, hsync, hl⟩ := runChunks_legal (rs := r' :: g) (out := out) hk hd ha hm hchunk
          obtain ⟨l', hrun', hwin⟩ := hdec l (out ++ k.bytes) (hnext l hsync) hl
          exact ⟨l', by rw [hrun, hrun', List.append_assoc], hwin⟩
        · rw [List.append_assoc, hbytes]
          rfl

/-! ## L2.DECODE with any number of threads (R851, R920, R935) -/

/-- The chunk a stream begins with resets the dictionary, and so starts a unit that depends on none (R830, R922). -/
theorem CodedChunk.Legal.first {k : CodedChunk} {a : Act} {d : Lane} (hk : k.Legal a d) (hd : d.l2d.needDictReset = true) :
    resetsDict k.control = true ∧ startsUnit k.control = true := by
  cases k with
  | raw reset x =>
    obtain rfl : reset = true := hk.1.resolve_right (by simp [hd])
    exact ⟨rfl, rfl⟩
  | lzma level pr ys x payload =>
    obtain ⟨hrange, ⟨hseq, -⟩, -⟩ := hk
    have hl : level = 3 := hseq.resolve_right (by simp [hd])
    have hstate : resetsState (CodedChunk.lzma level pr ys x payload).control = decide (1 ≤ level.val) :=
      LzmaHead.resetsState_control hrange
    have hdict : resetsDict (CodedChunk.lzma level pr ys x payload).control = decide (level = 3) := LzmaHead.resetsDict_control hrange
    rw [startsUnit, hstate, hdict, hl]
    exact ⟨rfl, rfl⟩

/-- The units of a stream give the bytes of its chunks (R922, R923). -/
theorem unitsGive_stream {b : Build} {a : Act} {ks : List CodedChunk} {rs : List ChunkRecord} (hrec : Recorded rs ks none)
    (hlegal : CodedChunk.AllLegal a ks (laneInit (some a))) :
    ∃ outs, UnitsGive b a none ((groupUnits rs).map .chunks) outs ∧ (outs.map Prod.fst).flatten = CodedChunk.allBytes ks := by
  cases ks with
  | nil =>
    match rs, hrec with
    | [], _ => exact ⟨[], trivial, rfl⟩
  | cons k ks =>
    obtain ⟨r, g, gs, o, w, outs, hgroup, hchunk, hin, hdec, hgive, hbytes⟩ :=
      groupUnits_give (b := b) hrec hlegal laneInit_between (fun h => nomatch h)
    obtain ⟨hdict, hstart⟩ := hlegal.1.first rfl
    have hindep : (newUnit (.chunks (r :: g))).dependent = false := by
      show (resetsState r.chunk.ctl && !resetsDict r.chunk.ctl) = false
      rw [hchunk, show k.toChunk.ctl = k.control from rfl, hdict, Bool.not_true, Bool.and_false]
    have hnever {q : Prop} (h : (newUnit (.chunks (r :: g))).dependent = true) : q := by
      rw [hindep] at h
      exact nomatch h
    refine ⟨(o, w) :: outs, ?_, by rw [List.map_cons, List.flatten_cons, hbytes]⟩
    rw [hgroup]
    refine ⟨⟨hnever, fun p _ => ?_⟩, hgive⟩
    obtain ⟨l, hrun, hwin⟩ := hdec _ [] (hlegal.1.aligned_unitLane (p := p) hstart (fun h => nomatch h) hchunk hin hnever)
      (unitLane_between (laneInit_between (a := a)) hnever)
    exact ⟨l, runUnit_chunks hrun hwin⟩

/-- `ParallelDecode` of a row of legal chunks stages their bytes (R920, R930). -/
theorem parallelDecode_wires {s : State} {a : Act} {ks : List CodedChunk} {rest : List Byte} {held : Nat}
    (hlegal : CodedChunk.AllLegal a ks (laneInit (some a))) (hthreads : 1 ≤ a.threadCount.toNat)
    (hcap : (CodedChunk.allBytes ks).length ≤ a.outCap.toNat) (hinp : s.inp = CodedChunk.wires ks ++ 0x00#8 :: rest) :
    ∃ (l : Lane) (ws : List Lane) (ds : List Nat), ws.length = s.workers.length ∧ parallelDecode a held s = .ok ()
      { s with
        inp := rest, stage := s.stage ++ CodedChunk.allBytes ks, lane0 := l, workers := ws, coord := Coordinator.idle, draws := ds } := by
  have hfuel : ks.length < s.inp.length + 1 := by
    have := CodedChunk.length_le_wires (ks := ks)
    rw [hinp, List.length_append]
    omega
  obtain ⟨records, hparse, hrec⟩ := parseStream_wires (s := s) (cap := a.outCap.toNat) (read := s.inp.length) (done := [])
    (inForce := none) (total := 0) hlegal (by rw [Nat.zero_add]; exact hcap) hinp hfuel
  obtain ⟨outs, hgive, hbytes⟩ := unitsGive_stream (b := s.build) hrec hlegal
  obtain ⟨l, ws, c, ds, herror, hws, hrun⟩ := runUnits_give (s := { s with inp := rest }) hgive hthreads
  have hflags : (laneInit (some a)).l2d.flags 0 = { needDictReset := true, needProps := true, total := 0 } := rfl
  rw [hflags, List.nil_append] at hparse
  refine ⟨l, ws, ds, hws, ?_⟩
  rw [parallelDecode, hparse, Res.bind_ok]
  simp only [hrun, herror, hbytes]

/-- L2.DECODE decodes a row of legal chunks to their bytes and leaves what follows the end marker, for every thread count and schedule
(R851, R920, R935). -/
theorem exec_l2Decode_wires {s : State} {a : Act} {ks : List CodedChunk} {rest : List Byte} (hs : s.unitsFree) (ha : s.act = some a)
    (hthreads : 1 ≤ a.threadCount.toNat) (hk : CodedChunk.AllLegal a ks (laneInit s.act))
    (hcap : (CodedChunk.allBytes ks).length ≤ a.outCap.toNat) (hinput : s.input = CodedChunk.wires ks ++ 0x00#8 :: rest) :
    ∃ ds, exec .l2Decode s = .next
      { s.completed ((CodedChunk.wires ks).length + 1) (CodedChunk.allBytes ks) (CodedChunk.allBytes ks).length (laneInit s.act) with
        workers := s.workers.map fun _ => laneInit s.act
        coord := if a.threadCount = 1#32 then s.coord else Coordinator.idle
        draws := ds } := by
  by_cases hone : a.threadCount = 1#32
  · exact ⟨s.draws, by rw [if_pos hone]; exact exec_l2Decode_one hs ha hone hk hcap hinput⟩
  · have hlen : (CodedChunk.wires ks).length + 1 ≤ s.input.length := by
      rw [hinput, List.length_append, List.length_cons]
      omega
    have hdrop : s.input.drop ((CodedChunk.wires ks).length + 1) = rest := by
      rw [hinput, ← List.drop_drop, List.drop_left]
      rfl
    obtain ⟨l, ws, ds, hws, hdec⟩ := parallelDecode_wires (s := s.begin) (held := (s.holding.getD []).length) (ha ▸ hk) hthreads hcap
      hinput
    have hmap : (ws.map fun _ => laneInit s.act) = s.workers.map fun _ => laneInit s.act := by
      rw [List.map_const', List.map_const', hws]
      rfl
    refine ⟨ds, ?_⟩
    rw [show exec .l2Decode s = execL2Decode s from rfl, execL2Decode]
    refine runCommand_completed_units (precheck_unitsFree hs rfl) hlen ?_
    rw [l2DecodeBody, withAct_some (s := s.begin) ha, if_neg hone, hdec, Res.bind_ok, answer, if_neg hone]
    simp [State.initLanes, hdrop, State.begin, hmap]

end Sys2Proof.Machine
end

section
/-! PROOFS. A session of L2.ENC_SEGMENT commands: between segments the encoder's lane is in step with the lane of a decoder that has read
the chunks written so far, and L2.DECODE reads back the session (R813, R852, R853). -/

namespace Sys2Proof.Machine

/-! ## A segment is fed (R701, R852) -/

theorem Window.feed_endPos {w : Window} {bs : List Byte} : (w.feed bs).endPos = w.endPos + bs.length := List.length_append

theorem Window.feed_behind {w : Window} {bs : List Byte} (h : w.cur ≤ w.endPos) : (w.feed bs).behind = w.behind := by
  simp only [Window.behind, Window.feed, List.take_append_of_le_length h]

theorem Window.feed_byteAt {w : Window} {bs : List Byte} {p : Nat} (h : p < w.endPos) : (w.feed bs).byteAt p = w.byteAt p := by
  rw [Window.byteAt, Window.byteAt, Window.feed, List.getD_append _ _ _ _ h]

theorem hashesAt_feed {w : Window} {bs : List Byte} {q : Nat} (h : q + 4 ≤ w.endPos) : hashesAt (w.feed bs) q = hashesAt w q := by
  simp only [hashesAt, Window.feed_byteAt (show q < w.endPos by omega), Window.feed_byteAt (show q + 1 < w.endPos by omega),
    Window.feed_byteAt (show q + 2 < w.endPos by omega), Window.feed_byteAt (show q + 3 < w.endPos by omega)]
  rfl

/-- Bytes fed after the filed positions leave the finder sound (R712). -/
theorem MatchFinder.Sound.feed {w : Window} {m : MatchFinder} {p : Nat} {bs : List Byte} (h : m.Sound w p) : m.Sound (w.feed bs) p := by
  obtain ⟨h2, h3, h4, hc⟩ := h
  refine ⟨fun i q hq => ?_, fun i q hq => ?_, h4, hc⟩
  · obtain ⟨hlt, hend, hhash⟩ := h2 i q hq
    exact ⟨hlt, by rw [Window.feed_endPos]; omega, by rw [hashesAt_feed hend]; exact hhash⟩
  · obtain ⟨hlt, hend, hhash⟩ := h3 i q hq
    exact ⟨hlt, by rw [Window.feed_endPos]; omega, by rw [hashesAt_feed hend]; exact hhash⟩

/-- The lane of a session that begins its next segment: the bytes fed, and the segment's end set (R852). -/
def Lane.fed (e : Lane) (x : List Byte) : Lane :=
  { e with win := e.win.feed x, l2e := { e.l2e with segEnd := some (e.win.feed x).endPos } }

/-- The finder stays ready when the next segment is fed (R702, R852). -/
theorem ChunkReady.feed {b : Build} {a : Act} {e : Lane} {x : List Byte} (h : ChunkReady b a e.win.endPos e)
    (hcur : e.win.cur = e.win.endPos) : ChunkReady b a (e.win.feed x).endPos (e.fed x) where
  encOk := h.encOk
  lit := h.lit
  cur_le := by
    show e.win.cur ≤ (e.win.feed x).endPos
    rw [Window.feed_endPos]
    omega
  end_le := Nat.le_refl _
  finder := fun hz => by
    obtain ⟨hok, hsound, hnext, hend, hcached, -⟩ := h.finder hz
    have hend : e.mf.next ≤ e.win.endPos := hend
    refine ⟨hok, hsound.feed, hnext, ?_, fun q list hq => ?_, fun hlt => ?_⟩
    · rw [Window.feed_endPos]
      exact Nat.le_add_right_of_le hend
    · have hlt : q < e.mf.next := (hcached q list hq).1
      refine ⟨hlt, fun hle => ?_⟩
      have hle : e.win.cur ≤ q := hle
      omega
    · have hlt : e.win.cur < e.mf.next := hlt
      omega

theorem InSync.feed {a : Act} {e d : Lane} {x : List Byte} (h : InSync a e d) (hcur : e.win.cur = e.win.endPos) :
    InSync a (e.fed x) d where
  dictSize := h.dictSize
  atStart := h.atStart
  history := fun hd => (h.history hd).trans (Window.feed_behind (Nat.le_of_eq hcur)).symm
  dictFlag := h.dictFlag
  propsFlag := h.propsFlag
  fresh := h.fresh
  props := h.props
  same := h.same
  small := h.small

/-! ## Between the segments of a session (R852) -/

/-- The lane between the segments: the end of the last segment is forgotten (R130). -/
def Lane.segmentDone (l : Lane) : Lane := { l with l2e := { l.l2e with segEnd := none } }

/-- Between two segments: the state's session, open or to be opened, is in step with the decoder's lane `d`. -/
structure SessionAt (a : Act) (s : State) (d : Lane) : Prop where
  act : s.act = some a
  holding : s.holding = none
  noDecoder : s.lane0.l2d.active = false
  cur : (encoderLane s).win.cur = (encoderLane s).win.endPos
  ready : ChunkReady s.build a (encoderLane s).win.endPos (encoderLane s)
  sync : InSync a (encoderLane s) d

theorem encoderLane_of_active {s : State} (h : s.lane0.l2e.active = true) : encoderLane s = s.lane0 := if_pos h

theorem encoderLane_active {s : State} : (encoderLane s).l2e.active = true := by
  rw [encoderLane]
  split
  · assumption
  · rfl

theorem encoderLane_l2d {s : State} (h : s.lane0.l2d.active = false) : (encoderLane s).l2d.active = false := by
  rw [encoderLane]
  split
  · exact h
  · cases s.act <;> rfl

theorem openEncoder_begin {s : State} : openEncoder s.begin = s.begin.withLane0 (encoderLane s) := by
  rw [openEncoder, encoderLane]
  by_cases h : s.lane0.l2e.active = true
  · rw [if_pos h, if_pos (show s.begin.lane0.l2e.active = true from h)]
    rfl
  · rw [if_neg h, if_neg (show ¬ s.begin.lane0.l2e.active = true from h)]
    cases ha : s.act <;> simp [State.initLane0, State.withLane0, State.begin, ha] <;> exact ⟨rfl, rfl, rfl, rfl⟩

/-- A session is to be opened where none is open (R813). -/
theorem sessionAt_start {a : Act} {s : State} {d : Lane} (hs : s.unitsFree) (hh : s.holding = none) (ha : s.act = some a)
    (hok : a.Ok s.laneCount) (h4 : a.lc.toNat + a.lp.toNat ≤ 4) : SessionAt a s d := by
  obtain ⟨-, hl2e, hl2d⟩ := hs
  have hlane : encoderLane s = { laneInit (some a) with
      win := (laneInit (some a)).win.feed [], l2e := { EncSession.fresh with active := true } } := by
    rw [encoderLane, if_neg (by simp [hl2e]), ha]
    rfl
  refine ⟨ha, hh, hl2d, ?_, ?_, ?_⟩ <;> rw [hlane]
  · rfl
  · obtain ⟨h1, h2, h3, h4, h5⟩ := encReady_laneInit (b := s.build) (a := a) (x := [])
    exact ⟨h1, h2, h3, h4, h5⟩
  · exact inSync_laneInit hok h4 rfl rfl

/-- L2.ENC_SEGMENT takes its bytes and codes them as `EncodeSegment` does (R852). -/
theorem exec_l2EncSegment {s : State} {a : Act} {n : BitVec 48} (ha : s.act = some a) (hl2d : s.lane0.l2d.active = false)
    (h4 : a.lc.toNat + a.lp.toNat ≤ 4) (hn : 1 ≤ n.toNat) (hlen : s.input.length = n.toNat) :
    let r := encodeSegment s.build a ((encoderLane s).win.feed s.input).endPos ((encoderLane s).fed s.input)
    exec (.l2EncSegment n) s = .next (s.completed s.input.length r.1 r.1.length r.2.segmentDone) := by
  intro r
  have hpre : precheck (.l2EncSegment n) s = none := by
    simp [precheck, State.configured, ha, operandsOk, Instr.wf, hn, lockOk, lockOf, hl2d, isSys]
  rw [show exec (.l2EncSegment n) s = execL2EncSegment n s from rfl, execL2EncSegment]
  refine runCommand_completed hpre (Nat.le_refl _) ?_
  have htake : inUpTo n.toNat (s.begin.withLane0 (encoderLane s)) =
      .ok s.input { s.begin with lane0 := encoderLane s, inp := [] } := by
    rw [inUpTo, if_pos (show n.toNat ≤ (s.begin.withLane0 (encoderLane s)).inp.length from Nat.le_of_eq hlen.symm), ← hlen]
    show Res.ok (s.input.take s.input.length) { s.begin with lane0 := encoderLane s, inp := s.input.drop s.input.length } = _
    rw [List.take_length, List.drop_length]
  rw [withAct_some (s := s.begin) ha, requireLclp, decide_eq_true h4, require_true, openEncoder_begin, htake, Res.bind_ok,
    State.working, List.drop_length]
  rfl

/-- A segment of a session: chunks legal where the decoder stands, for the segment's bytes, and the session ready for the next (R852). -/
theorem SessionAt.segment {s : State} {a : Act} {d : Lane} {x : List Byte} (h : SessionAt a s d)
    (h4 : a.lc.toNat + a.lp.toNat ≤ 4) (hx : 1 ≤ x.length ∧ x.length < 2 ^ 48) :
    ∃ (ks : List CodedChunk) (m : State), exec (.l2EncSegment (BitVec.ofNat 48 x.length)) { s with inp := x } = .next m ∧
      m.out = s.out ++ CodedChunk.wires ks ∧ CodedChunk.AllLegal a ks d ∧ CodedChunk.allBytes ks = x ∧
      SessionAt a m (CodedChunk.afterAll a ks d) := by
  obtain ⟨ha, hh, hl2d, hcur, hready, hsync⟩ := h
  have hinput : ({ s with inp := x } : State).input = x := by
    simp only [State.input, hh, Option.getD_none, List.nil_append]
  have hn : (BitVec.ofNat 48 x.length).toNat = x.length := by
    rw [BitVec.toNat_ofNat, Nat.mod_eq_of_lt hx.2]
  obtain ⟨ks, h1, h2, h3, hwin, hactive, hdec, hready', hsync'⟩ :=
    encodeSegment_spec (b := s.build) (hready.feed (x := x) hcur) (hsync.feed (x := x) hcur)
  have hexec := exec_l2EncSegment (s := { s with inp := x }) (n := BitVec.ofNat 48 x.length) ha hl2d h4 (by omega) (by rw [hinput, hn])
  rw [hinput] at hexec
  have hlane : encoderLane { s with inp := x } = encoderLane s := rfl
  simp only [hlane, h1] at hexec
  generalize encodeSegment s.build a ((encoderLane s).win.feed x).endPos ((encoderLane s).fed x) = r at *
  have hwin : r.2.win = { (encoderLane s).win.feed x with cur := ((encoderLane s).win.feed x).endPos } := hwin
  have hopen : r.2.segmentDone.l2e.active = true := hactive.trans encoderLane_active
  have hend : r.2.win.endPos = ((encoderLane s).win.feed x).endPos := by
    rw [hwin]
    rfl
  refine ⟨ks, _, hexec, rfl, h2, ?_, ha, rfl, ?_, ?_, ?_, ?_⟩
  · rw [h3]
    show (((encoderLane s).win.bytes ++ x).drop (encoderLane s).win.cur).take
      (((encoderLane s).win.feed x).endPos - (encoderLane s).win.cur) = x
    rw [Window.feed_endPos, hcur, Nat.add_sub_cancel_left, Window.endPos, List.drop_left, List.take_length]
  · show r.2.l2d.active = false
    rw [hdec]
    exact encoderLane_l2d hl2d
  all_goals rw [encoderLane_of_active hopen]
  · show r.2.win.cur = r.2.win.endPos
    rw [hwin]
    rfl
  · show ChunkReady s.build a r.2.win.endPos r.2.segmentDone
    rw [hend]
    obtain ⟨g1, g2, g3, g4, g5⟩ := hready'
    exact ⟨g1, g2, g3, g4, g5⟩
  · obtain ⟨g1, g2, g3, g4, g5, g6, g7, g8, g9⟩ := hsync'
    exact ⟨g1, g2, g3, g4, g5, g6, g7, g8, g9⟩

/-- The segments of a session are coded as a row of chunks for their bytes (R852, R853). -/
theorem SessionAt.segments {s : State} {a : Act} {d : Lane} {xs : List (List Byte)} (h : SessionAt a s d)
    (h4 : a.lc.toNat + a.lp.toNat ≤ 4) (hxs : ∀ x ∈ xs, 1 ≤ x.length ∧ x.length < 2 ^ 48) :
    ∃ (ks : List CodedChunk) (t : State), SegmentsWrite xs s (CodedChunk.wires ks) t ∧ t.out = s.out ++ CodedChunk.wires ks ∧
      CodedChunk.AllLegal a ks d ∧ CodedChunk.allBytes ks = xs.flatten ∧ SessionAt a t (CodedChunk.afterAll a ks d) := by
  induction xs generalizing s d with
  | nil => exact ⟨[], s, ⟨rfl, rfl⟩, (List.append_nil _).symm, trivial, rfl, h⟩
  | cons x xs ih =>
    obtain ⟨ks, m, h1, h2, h3, h5, h6⟩ := h.segment h4 (hxs x List.mem_cons_self)
    obtain ⟨js, t, g1, g2, g3, g5, g6⟩ := ih h6 fun y hy => hxs y (List.mem_cons_of_mem _ hy)
    refine ⟨ks ++ js, t, ⟨_, _, m, h1, h2, CodedChunk.wires_append, g1⟩, ?_, CodedChunk.allLegal_append.mpr ⟨h3, g3⟩, ?_, ?_⟩
    · rw [g2, h2, CodedChunk.wires_append, List.append_assoc]
    · rw [CodedChunk.allBytes_append, h5, g5, List.flatten_cons]
    · rw [CodedChunk.afterAll_append]
      exact g6

/-- L2.ENC_END writes the end marker and leaves no session open (R853). -/
theorem SessionAt.close {s : State} {a : Act} {d : Lane} (h : SessionAt a s d) :
    ∃ t, exec .l2EncEnd s = .next t ∧ t.out = s.out ++ [0x00#8] ∧ t.lane0.l2e.active = false := by
  have hpre : precheck .l2EncEnd s = none := by
    simp [precheck, State.configured, h.act, operandsOk, Instr.wf, lockOk, lockOf, h.noDecoder, isSys]
  rw [show exec .l2EncEnd s = execL2EncEnd s from rfl, execL2EncEnd]
  refine ⟨_, runCommand_completed (took := 0) (v := 1) (bs := [0x00#8])
    (l := if s.lane0.l2e.active then laneInit s.act else s.lane0) hpre (Nat.zero_le _) ?_, rfl, ?_⟩
  · show answer 1 (if s.lane0.l2e.active then (s.begin.outBytes [0x00#8]).initLane0 else s.begin.outBytes [0x00#8]) = _
    cases s.lane0.l2e.active <;> rfl
  · show (if s.lane0.l2e.active then laneInit s.act else s.lane0).l2e.active = false
    cases hactive : s.lane0.l2e.active
    · exact hactive
    · rw [h.act]
      rfl

/-! ## The decoder's configuration -/

/-- Of the configuration, a chunk's place and bytes depend on the dictionary size alone (R113, R833). -/
theorem allLegal_threads {a : Act} {n : BitVec 32} {ks : List CodedChunk} {d : Lane} (h : CodedChunk.AllLegal a ks d) :
    CodedChunk.AllLegal { a with threadCount := n } ks d := by
  induction ks generalizing d with
  | nil => trivial
  | cons k ks ih =>
    obtain ⟨hk, hks⟩ := h
    refine ⟨?_, ?_⟩
    · cases k <;> exact hk
    · have := ih hks
      cases k <;> exact this

/-- Settles O48: the session's segments are one row of legal chunks, the encoder in step with the decoder between them. -/
theorem encoderSessionRoundTrip : Obligations.EncoderSessionRoundTrip := by
  intro s u a n xs rest hs hh ha hok h4 hxs hcap hu hua hn
  obtain ⟨ks, t, hwrite, hout, hlegal, hbytes, hat⟩ :=
    (sessionAt_start (d := laneInit (some a)) hs hh ha hok h4).segments h4 hxs
  obtain ⟨t', hend, hout', hclosed⟩ := hat.close
  refine ⟨CodedChunk.wires ks, t, t', hwrite, hend, by rw [hout', hout], hclosed, fun hinput => ?_⟩
  have hlegal' : CodedChunk.AllLegal { a with threadCount := n } ks (laneInit u.act) := by
    rw [hua]
    exact allLegal_threads hlegal
  obtain ⟨ds, hexec⟩ := exec_l2Decode_wires hu hua hn hlegal' (by rw [hbytes]; exact hcap) hinput
  refine ⟨_, hexec, rfl, ?_, ?_, ?_⟩
  · show u.out ++ CodedChunk.allBytes ks = _
    rw [hbytes]
  · show u.input.drop _ = rest
    rw [hinput, ← List.drop_drop, List.drop_left]
    rfl
  · show BitVec.ofNat 64 (CodedChunk.allBytes ks).length = _
    rw [hbytes]

end Sys2Proof.Machine
end

section
/-! PROOFS. How a computation ends, and what decoding changes whatever the bytes are: a decoder takes bytes from the front of its source,
moves the range decoder, the cells, the state machine and the window of its lane, and nothing else (R230, R233, R420 to R424, R520 to R552,
R630). -/

namespace Sys2Proof.Machine

/-! ## The ends of a computation -/

/-- The computation completes as `Q` says or stops as `E` says. -/
def Res.Ends {σ α : Type} (r : Res σ α) (Q : α → σ → Prop) (E : Stop → σ → Prop) : Prop :=
  match r with
  | .ok a s => Q a s
  | .stop e s => E e s

theorem Res.Ends.bind {σ α β : Type} {r : Res σ α} {f : α → σ → Res σ β} {Q : α → σ → Prop} {Q' : β → σ → Prop}
    {E : Stop → σ → Prop} (h : r.Ends Q E) (hf : ∀ a s, Q a s → (f a s).Ends Q' E) : (r.bind f).Ends Q' E := by
  cases r with
  | ok a s => exact hf a s h
  | stop e s => exact h

theorem Res.Ends.mono {σ α : Type} {r : Res σ α} {Q Q' : α → σ → Prop} {E E' : Stop → σ → Prop} (h : r.Ends Q E)
    (hQ : ∀ a s, Q a s → Q' a s) (hE : ∀ e s, E e s → E' e s) : r.Ends Q' E' := by
  cases r with
  | ok a s => exact hQ a s h
  | stop e s => exact hE e s h

theorem Res.Ends.of_ok {σ α : Type} {r : Res σ α} {Q : α → σ → Prop} {E : Stop → σ → Prop} {a : α} {s : σ}
    (h : r.Ends Q E) (hr : r = .ok a s) : Q a s := by
  rw [hr] at h
  exact h

theorem Res.Ends.of_stop {σ α : Type} {r : Res σ α} {Q : α → σ → Prop} {E : Stop → σ → Prop} {e : Stop} {s : σ}
    (h : r.Ends Q E) (hr : r = .stop e s) : E e s := by
  rw [hr] at h
  exact h

/-- A stop that a decoding computation can come to: its source is empty, its loop does not end, or its bytes are no stream (R1003 to
R1005). -/
def Stop.InStream : Stop → Prop
  | .dry | .noProgress => True
  | .hold => False
  | .raise e => e.cause.cls ≠ .illegal

/-! ## Cells -/

/-- Cells change only below `n`, to values a probability can have (R117). -/
def CellsMoved (n : Nat) (p p' : Memory (BitVec 11)) : Prop :=
  CellsOk p → CellsOk p' ∧ ((∀ x ∈ p, x.1 < n) → ∀ x ∈ p', x.1 < n)

theorem CellsMoved.refl {n : Nat} {p : Memory (BitVec 11)} : CellsMoved n p p := fun h => ⟨h, id⟩

theorem CellsMoved.trans {n : Nat} {p p' p'' : Memory (BitVec 11)} (h : CellsMoved n p p') (h' : CellsMoved n p' p'') :
    CellsMoved n p p'' := fun hp =>
  have h1 := h hp
  have h2 := h' h1.1
  ⟨h2.1, fun hx => h2.2 (h1.2 hx)⟩

/-- `Update` of a cell below `n` (R403). -/
theorem cellsMoved_update {n i : Nat} {b : Bool} {l : Lane} (hi : i < n) :
    CellsMoved n l.prob (l.setCell i (probUpdate b (l.cell i))).prob := fun hp =>
  ⟨hp.write (probUpdate_pos (Lane.cell_pos hp)), fun hx x hm => by
    rcases Memory.mem_write hm with ⟨rfl, -⟩ | hm
    · exact hi
    · exact hx x hm⟩

/-! ## Bits (R422 to R424) -/

/-- `DecNorm` ends with a normalised range, having taken bytes from the front of its source (R424). -/
theorem decNormOn_ends {d d' : RangeDec} {src rest : List Byte} (h : decNormOn d src = some (d', rest)) :
    d'.Ok ∧ rest <:+ src := by
  induction src generalizing d with
  | nil =>
    rw [decNormOn] at h
    split at h
    · exact nomatch h
    · obtain ⟨rfl, rfl⟩ : d = d' ∧ [] = rest := by simpa using h
      exact ⟨by show 2 ^ 24 ≤ _; omega, List.suffix_refl _⟩
  | cons b src ih =>
    rw [decNormOn] at h
    split at h
    · obtain ⟨h1, h2⟩ := ih h
      exact ⟨h1, h2.trans (List.suffix_cons b src)⟩
    · obtain ⟨rfl, rfl⟩ : d = d' ∧ b :: src = rest := by simpa using h
      exact ⟨by show 2 ^ 24 ≤ _; omega, List.suffix_refl _⟩

/-- Reading bits goes from `c` to `c'`: only the range decoder, cells below `n` and the source move. -/
structure BitStep (n : Nat) (c c' : DecCtx) : Prop where
  eq : c' = { c with lane := { c.lane with prob := c'.lane.prob, rcd := c'.lane.rcd }, src := c'.src }
  taken : c'.src <:+ c.src
  rcd : c.lane.rcd.Ok → c'.lane.rcd.Ok
  cells : CellsMoved n c.lane.prob c'.lane.prob

theorem BitStep.refl {n : Nat} {c : DecCtx} : BitStep n c c := ⟨rfl, List.suffix_refl _, id, .refl⟩

theorem BitStep.trans {n : Nat} {c c' c'' : DecCtx} (h : BitStep n c c') (h' : BitStep n c' c'') : BitStep n c c'' where
  eq := by rw [h'.eq, h.eq]
  taken := h'.taken.trans h.taken
  rcd := fun hr => h'.rcd (h.rcd hr)
  cells := h.cells.trans h'.cells

/-- Where a decoding computation from `c` stops. -/
abbrev StopsFrom (c : DecCtx) (e : Stop) (c' : DecCtx) : Prop := e.InStream ∧ c'.src <:+ c.src

/-- The computation reads bits, whose cells are below `n`. -/
abbrev ReadsBits {α : Type} (n : Nat) (c : DecCtx) (r : Res DecCtx α) : Prop := r.Ends (fun _ => BitStep n c) (StopsFrom c)

theorem ReadsBits.pure {α : Type} {n : Nat} {c : DecCtx} {a : α} : ReadsBits n c (.ok a c) := BitStep.refl

theorem ReadsBits.bind {α β : Type} {n : Nat} {c : DecCtx} {r : Res DecCtx α} {f : α → DecCtx → Res DecCtx β}
    (h : ReadsBits n c r) (hf : ∀ a c', ReadsBits n c' (f a c')) : ReadsBits n c (r.bind f) :=
  Res.Ends.bind h fun a c' hc => (hf a c').mono (fun _ _ h' => hc.trans h') fun _ _ h' => ⟨h'.1, h'.2.trans hc.taken⟩

theorem decNorm_readsBits {n : Nat} {c : DecCtx} {l : Lane} (hl : l = { c.lane with prob := l.prob, rcd := l.rcd })
    (hcells : CellsMoved n c.lane.prob l.prob) : ReadsBits n c (decNorm { c with lane := l }) := by
  rw [decNorm]
  split
  · rename_i d rest hd
    obtain ⟨h1, h2⟩ := decNormOn_ends hd
    exact ⟨by rw [hl], h2, fun _ => h1, hcells⟩
  · exact ⟨trivial, List.nil_suffix⟩

/-- A bit with a cell (R422). -/
theorem decBit_readsBits {n i : Nat} {c : DecCtx} (hi : i < n) : ReadsBits n c (decBit i c) := by
  rw [decBit]
  refine ReadsBits.bind (decNorm_readsBits ?_ ?_) fun _ _ => .pure
  · rfl
  · exact cellsMoved_update hi

/-- A direct bit (R423). -/
theorem decDirectBit_readsBits {n : Nat} {c : DecCtx} : ReadsBits n c (decDirectBit c) := by
  rw [decDirectBit]
  refine ReadsBits.bind (decNorm_readsBits ?_ ?_) fun _ _ => .pure
  · rfl
  · exact .refl

theorem decDirectFrom_readsBits {n k r : Nat} {c : DecCtx} : ReadsBits n c (decDirectFrom k r c) := by
  induction k generalizing r c with
  | zero => exact .pure
  | succ k ih => exact decDirectBit_readsBits.bind fun _ _ => ih

theorem takeByte_readsBits {n : Nat} {c : DecCtx} : ReadsBits n c (takeByte c) := by
  obtain ⟨l, src, out⟩ := c
  cases src with
  | nil => exact ⟨trivial, List.suffix_refl _⟩
  | cons b rest => exact ⟨rfl, List.suffix_cons b rest, id, .refl⟩

theorem decInitCode_readsBits {n k : Nat} {code : BitVec 32} {c : DecCtx} : ReadsBits n c (decInitCode k code c) := by
  induction k generalizing code c with
  | zero => exact .pure
  | succ k ih => exact takeByte_readsBits.bind fun _ _ => ih

/-- `DecInit` (R421). -/
theorem decInit_readsBits {n : Nat} {c : DecCtx} : ReadsBits n c (decInit c) :=
  takeByte_readsBits.bind fun _ _ => decInitCode_readsBits.bind fun _ _ =>
    ⟨rfl, List.suffix_refl _, fun _ => show 2 ^ 24 ≤ 0xFFFFFFFF by decide, .refl⟩

/-! ## The coders on the probability store (R520 to R552) -/

/-- With `n + 1` bits to come, a tree that has its nodes below `k` has node `m` and the trees of `m`'s two children below `k` too. -/
theorem node_below {k n m : Nat} (b : Bool) (hk : (m + 1) * 2 ^ (n + 1) ≤ 2 * k) :
    m < k ∧ (2 * m + b.toNat + 1) * 2 ^ n ≤ 2 * k := by
  have hpow : (m + 1) * 2 ^ (n + 1) = (2 * (m + 1)) * 2 ^ n := by ring
  have hpos : 2 * (m + 1) ≤ (2 * (m + 1)) * 2 ^ n := Nat.le_mul_of_pos_right _ (Nat.two_pow_pos n)
  have hchild := Nat.mul_le_mul_right (2 ^ n) (show 2 * m + b.toNat + 1 ≤ 2 * (m + 1) by have := b.toNat_le; omega)
  omega

/-- A forward tree of `n` bits from node `m` (R520). -/
theorem treeDecFrom_readsBits {p base k n m : Nat} {c : DecCtx} (hk : (m + 1) * 2 ^ n ≤ 2 * k) (hp : base + k ≤ p) :
    ReadsBits p c (treeDecFrom base n m c) := by
  induction n generalizing m c with
  | zero => exact .pure
  | succ n ih =>
    have hm := (node_below false hk).1
    exact (decBit_readsBits (by omega)).bind fun b c' => ih (node_below b hk).2

theorem treeDec_readsBits {p base n : Nat} {c : DecCtx} (hp : base + 2 ^ n ≤ p) : ReadsBits p c (treeDec base n c) :=
  (treeDecFrom_readsBits (k := 2 ^ n) (Nat.le_refl _) hp).bind fun _ _ => .pure

theorem rtreeDecFrom_readsBits {p base k n j m r : Nat} {c : DecCtx} (hk : (m + 1) * 2 ^ n ≤ 2 * k) (hp : base + k ≤ p) :
    ReadsBits p c (rtreeDecFrom base n j m r c) := by
  induction n generalizing j m r c with
  | zero => exact .pure
  | succ n ih =>
    have hm := (node_below false hk).1
    exact (decBit_readsBits (by omega)).bind fun b c' => ih (node_below b hk).2

theorem rtreeDec_readsBits {p base n : Nat} {c : DecCtx} (hp : base + 2 ^ n ≤ p) : ReadsBits p c (rtreeDec base n c) :=
  rtreeDecFrom_readsBits (k := 2 ^ n) (Nat.le_refl _) hp

/-- A length coder's cells, for any position state that the width of `pb` lets through (R118, R530). -/
theorem lenDec_readsBits {p base ps : Nat} {c : DecCtx} (hp : base + 1154 ≤ p) (hps : ps < 128) :
    ReadsBits p c (lenDec base ps c) := by
  refine (decBit_readsBits (by omega)).bind fun choice c => ?_
  split
  · refine (decBit_readsBits (by omega)).bind fun choice2 c => ?_
    split
    · exact (treeDec_readsBits (by omega)).bind fun _ _ => .pure
    · exact (treeDec_readsBits (by omega)).bind fun _ _ => .pure
  · exact (treeDec_readsBits (by omega)).bind fun _ _ => .pure

/-- The reverse trees of slots 4 to 13 lie before the align tree (R210, R541). -/
theorem distSpecialBase_le {s : Nat} (h4 : 4 ≤ s) (h14 : s < 14) : distSpecialBase s + 2 ^ footerBits s ≤ 802 := by
  interval_cases s <;> decide

/-- The distance coder's cells lie below the length coders' (R210). -/
theorem distDec_readsBits {p len : Nat} {c : DecCtx} (hp : 818 ≤ p) : ReadsBits p c (distDec len c) := by
  have hlen : lenState len ≤ 3 := Nat.min_le_right _ _
  refine (treeDec_readsBits (by rw [distSlotBase]; omega)).bind fun s c => ?_
  split
  · exact .pure
  · split
    · have := distSpecialBase_le (s := s) (by omega) (by omega)
      exact (rtreeDec_readsBits (by omega)).bind fun _ _ => .pure
    · exact decDirectFrom_readsBits.bind fun _ _ => (rtreeDec_readsBits (by rw [distAlignBase]; omega)).bind fun _ _ => .pure

/-- A literal's sub-coder lies in the store (R210, R550). -/
theorem literalBase_le {l : Lane} : literalBase l + 0x300 ≤ nprob l.lz := by
  have hcur : l.win.cur % 2 ^ l.lz.lp.toNat + 1 ≤ 2 ^ l.lz.lp.toNat := Nat.mod_lt _ (Nat.two_pow_pos _)
  have hprev : l.win.prev.toNat / 2 ^ (8 - l.lz.lc.toNat) < 2 ^ l.lz.lc.toNat := by
    rw [Nat.div_lt_iff_lt_mul (Nat.two_pow_pos _), ← Nat.pow_add]
    exact Nat.lt_of_lt_of_le l.win.prev.isLt (Nat.pow_le_pow_right (by decide) (by omega))
  have hsub := Nat.mul_le_mul_right (2 ^ l.lz.lc.toNat) hcur
  rw [Nat.add_mul, Nat.one_mul, ← Nat.pow_add, Nat.add_comm l.lz.lp.toNat] at hsub
  rw [literalBase, nprob]
  omega

/-- The cells of every coder but the literals' lie in the store, whatever the properties (R117, R210). -/
theorem le_nprob {z : Coder} : 2614 ≤ nprob z := by
  have := Nat.one_le_two_pow (n := z.lc.toNat + z.lp.toNat)
  rw [nprob]
  omega

theorem posState_lt {l : Lane} : l.posState < 128 :=
  Nat.lt_of_lt_of_le (Nat.mod_lt _ (Nat.two_pow_pos _))
    (Nat.pow_le_pow_right (n := 2) (by decide) (show l.lz.pb.toNat ≤ 7 by omega))

theorem litDecMatchedFrom_readsBits {p base mb k off m : Nat} {c : DecCtx} (hoff : off = 0 ∨ off = 0x100)
    (hm : (m + 1) * 2 ^ k ≤ 2 * 0x100) (hp : base + 0x300 ≤ p) : ReadsBits p c (litDecMatchedFrom base mb k off m c) := by
  induction k generalizing off m c with
  | zero => exact .pure
  | succ k ih =>
    have hlt := (node_below (k := 0x100) false hm).1
    exact (decBit_readsBits (by rw [matchedCell]; split <;> omega)).bind fun b c' =>
      ih (by split <;> omega) (node_below (k := 0x100) b hm).2

theorem litDecMatched_readsBits {p base : Nat} {mb : Byte} {c : DecCtx} (hp : base + 0x300 ≤ p) :
    ReadsBits p c (litDecMatched base mb c) :=
  (litDecMatchedFrom_readsBits (.inr rfl) (Nat.le_refl _) hp).bind fun _ _ => .pure

theorem litDec_readsBits {p base : Nat} {c : DecCtx} (hp : base + 0x300 ≤ p) : ReadsBits p c (litDec base c) :=
  (treeDec_readsBits (by omega)).bind fun _ _ => .pure

/-! ## Symbols (R630, R631) -/

/-- Decoding brings a lane from `l` to `l'`: it moves the range decoder, the cells, the state machine's registers, the window, the decoder
session's flags and the payload buffer, and leaves each as sound as it was (R117, R118, R119, R401, R815). -/
structure Lane.DecodesTo (l l' : Lane) : Prop where
  eq : l' = { l with rcd := l'.rcd, prob := l'.prob, lz := l'.lz, win := l'.win, l2d := l'.l2d, pb := l'.pb }
  active : l'.l2d.active = l.l2d.active
  rcd : l.rcd.Ok → l'.rcd.Ok
  lz : l.lz.Ok → l'.lz.Ok
  small : l.lz.lc.toNat + l.lz.lp.toNat ≤ 4 → l'.lz.lc.toNat + l'.lz.lp.toNat ≤ 4
  cells : CellsOk l.prob → CellsOk l'.prob ∧ (l.CellsExist → l'.CellsExist)
  cur_le : l.win.cur ≤ l.win.endPos → l'.win.cur ≤ l'.win.endPos
  cur : l.win.cur = l.win.endPos → l'.win.cur = l'.win.endPos
  pb : l.pb = [] → l'.pb = []

theorem Lane.DecodesTo.refl {l : Lane} : l.DecodesTo l := ⟨rfl, rfl, id, id, id, fun h => ⟨h, id⟩, id, id, id⟩

theorem Lane.DecodesTo.trans {l l' l'' : Lane} (h : l.DecodesTo l') (h' : l'.DecodesTo l'') : l.DecodesTo l'' where
  eq := by rw [h'.eq, h.eq]
  active := h'.active.trans h.active
  rcd := h'.rcd ∘ h.rcd
  lz := h'.lz ∘ h.lz
  small := h'.small ∘ h.small
  cells := fun hp =>
    have h1 := h.cells hp
    have h2 := h'.cells h1.1
    ⟨h2.1, h2.2 ∘ h1.2⟩
  cur_le := h'.cur_le ∘ h.cur_le
  cur := h'.cur ∘ h.cur
  pb := h'.pb ∘ h.pb

/-- Decoding goes from `c` to `c'`: the lane as `Lane.DecodesTo` says, bytes taken from the front of the source. -/
structure DecStep (c c' : DecCtx) : Prop where
  lane : c.lane.DecodesTo c'.lane
  taken : c'.src <:+ c.src

theorem DecStep.refl {c : DecCtx} : DecStep c c := ⟨.refl, List.suffix_refl _⟩

theorem DecStep.trans {c c' c'' : DecCtx} (h : DecStep c c') (h' : DecStep c' c'') : DecStep c c'' :=
  ⟨h.lane.trans h'.lane, h'.taken.trans h.taken⟩

theorem BitStep.decStep {c c' : DecCtx} (h : BitStep (nprob c.lane.lz) c c') : DecStep c c' := by
  have hlane : c'.lane = { c.lane with prob := c'.lane.prob, rcd := c'.lane.rcd } := congrArg DecCtx.lane h.eq
  have hlz : c'.lane.lz = c.lane.lz := by rw [hlane]
  have hwin : c'.lane.win = c.lane.win := by rw [hlane]
  have hl2d : c'.lane.l2d = c.lane.l2d := by rw [hlane]
  have hpb : c'.lane.pb = c.lane.pb := by rw [hlane]
  refine ⟨⟨?_, by rw [hl2d], h.rcd, by rw [hlz]; exact id, by rw [hlz]; exact id, fun hp => ?_, by rw [hwin]; exact id,
    by rw [hwin]; exact id, by rw [hpb]; exact id⟩, h.taken⟩
  · rw [hlz, hwin, hl2d, hpb]
    exact hlane
  · have hc := h.cells hp
    rw [← hlz] at hc
    exact ⟨hc.1, fun hx => hc.2 (hlz ▸ hx)⟩

/-- A decoding computation from `c`. -/
abbrev Decodes {α : Type} (c : DecCtx) (r : Res DecCtx α) : Prop := r.Ends (fun _ => DecStep c) (StopsFrom c)

theorem ReadsBits.decodes {α : Type} {c : DecCtx} {r : Res DecCtx α} (h : ReadsBits (nprob c.lane.lz) c r) : Decodes c r :=
  h.mono (fun _ _ h => h.decStep) fun _ _ h => h

theorem Decodes.pure {α : Type} {c : DecCtx} {a : α} : Decodes c (.ok a c) := DecStep.refl

theorem Decodes.raise {α : Type} {c : DecCtx} {e : Cause} (h : e.cls ≠ .illegal) : Decodes c (.stop (.of e) c : Res DecCtx α) :=
  ⟨h, List.suffix_refl _⟩

theorem DecStep.decodes {α : Type} {c c' : DecCtx} {r : Res DecCtx α} (h : DecStep c c') (hr : Decodes c' r) : Decodes c r :=
  hr.mono (fun _ _ h' => h.trans h') fun _ _ h' => ⟨h'.1, h'.2.trans h.taken⟩

theorem Decodes.bind {α β : Type} {c : DecCtx} {r : Res DecCtx α} {f : α → DecCtx → Res DecCtx β} (h : Decodes c r)
    (hf : ∀ a c', Decodes c' (f a c')) : Decodes c (r.bind f) :=
  Res.Ends.bind h fun a c' hc => hc.decodes (hf a c')

/-- The state machine's registers move, the properties stay. -/
theorem decStep_withLz {c : DecCtx} {z : Coder}
    (h : z.lc = c.lane.lz.lc ∧ z.lp = c.lane.lz.lp ∧ z.pb = c.lane.lz.pb) : DecStep c (c.withLz z) := by
  obtain ⟨h1, h2, h3⟩ := h
  refine ⟨⟨rfl, rfl, id, ?_, ?_, fun hp => ⟨hp, ?_⟩, id, id, id⟩, List.suffix_refl _⟩
  · simp only [DecCtx.withLz, Coder.Ok, h1, h2, h3]
    exact id
  · simp only [DecCtx.withLz, h1, h2]
    exact id
  · simp only [DecCtx.withLz, Lane.CellsExist, nprob, h1, h2]
    exact id

theorem decStep_putBytes {c : DecCtx} {bs : List Byte} : DecStep c (putBytes bs c) := by
  have hend : (c.lane.win.append bs).endPos = c.lane.win.endPos + bs.length := List.length_append
  refine ⟨⟨rfl, rfl, id, id, id, fun hp => ⟨hp, id⟩, fun hc => ?_, fun hc => ?_, id⟩, List.suffix_refl _⟩ <;>
  · simp only [putBytes, Window.append_cur, hend]
    omega

theorem decStep_copyMatch {d n : Nat} {c : DecCtx} : DecStep c (copyMatch d n c) := by
  induction n generalizing c with
  | zero => exact .refl
  | succ n ih => exact decStep_putBytes.trans ih

theorem Coder.promote_props {z : Coder} {r : Nat} :
    (z.promote r).lc = z.lc ∧ (z.promote r).lp = z.lp ∧ (z.promote r).pb = z.pb := by
  rw [Coder.promote.eq_def]
  split <;> exact ⟨rfl, rfl, rfl⟩

/-- The error of a symbol that is too long is no IllegalCommand (R631 d, R633, R661). -/
abbrev SymLimits.InStream (q : SymLimits) : Prop := q.tooLong.cls ≠ .illegal

section
variable {q : SymLimits} (hq : q.InStream)
include hq

theorem decCopy_decodes {kind : SymKind} {len : Nat} {c : DecCtx} : Decodes c (decCopy q kind len c) := by
  rw [decCopy]
  split
  · exact .raise (by decide)
  · split
    · exact .raise hq
    · exact decStep_copyMatch

theorem decLiteral_decodes {s : Fin 12} {c : DecCtx} : Decodes c (decLiteral q s c) := by
  rw [decLiteral]
  split
  · exact .raise (by decide)
  · split
    · exact .raise hq
    · refine Decodes.bind ?_ fun b c => ?_
      · split
        · exact (litDec_readsBits literalBase_le).decodes
        · exact (litDecMatched_readsBits literalBase_le).decodes
      · exact decStep_putBytes.trans (decStep_withLz ⟨rfl, rfl, rfl⟩)

theorem decMatch_decodes {s : Fin 12} {ps : Nat} {c : DecCtx} (hps : ps < 128) : Decodes c (decMatch q s ps c) := by
  have hn (c : DecCtx) := le_nprob (z := c.lane.lz)
  refine (lenDec_readsBits (by rw [matchLenBase]; have := hn c; omega) hps).decodes.bind fun len c => ?_
  refine (distDec_readsBits (by have := hn c; omega)).decodes.bind fun d0 c => ?_
  have hstep : DecStep c (c.withLz { c.lane.lz.pushRep (BitVec.ofNat 32 d0) with state := nextMatch s }) :=
    decStep_withLz ⟨rfl, rfl, rfl⟩
  split
  · split
    · exact hstep
    · exact hstep.decodes (.raise (by decide))
  · exact hstep.decodes (decCopy_decodes hq)

theorem decLongrep_decodes {kind : SymKind} {r : Nat} {s : Fin 12} {ps : Nat} {c : DecCtx} (hps : ps < 128) :
    Decodes c (decLongrep q kind r s ps c) := by
  have hstep : DecStep c (c.withLz (c.lane.lz.promote r)) := decStep_withLz Coder.promote_props
  have hn := le_nprob (z := (c.withLz (c.lane.lz.promote r)).lane.lz)
  refine hstep.decodes ((lenDec_readsBits (by rw [repLenBase]; omega) hps).decodes.bind fun len c => ?_)
  have hstate : DecStep c (c.withLz { c.lane.lz with state := nextLongrep s }) := decStep_withLz ⟨rfl, rfl, rfl⟩
  exact hstate.decodes (decCopy_decodes hq)

omit hq in
/-- A bit that tells a symbol's kind: its cell is below the length coders' (R210). -/
theorem decBit_decodes {i : Nat} {c : DecCtx} (hi : i < 818) : Decodes c (decBit i c) :=
  (decBit_readsBits (by have := le_nprob (z := c.lane.lz); omega)).decodes

theorem decRep_decodes {s : Fin 12} {ps : Nat} {c : DecCtx} (hps : ps < 128) : Decodes c (decRep q s ps c) := by
  have hs := s.isLt
  refine (decBit_decodes (by rw [isRep0Cell]; omega)).bind fun b0 c => ?_
  split
  · refine (decBit_decodes (by rw [isRep1Cell]; omega)).bind fun b1 c => ?_
    split
    · refine (decBit_decodes (by rw [isRep2Cell]; omega)).bind fun b2 c => ?_
      split <;> exact decLongrep_decodes hq hps
    · exact decLongrep_decodes hq hps
  · refine (decBit_decodes (by rw [isRep0LongCell]; omega)).bind fun long c => ?_
    split
    · exact decLongrep_decodes hq hps
    · have hstate : DecStep c (c.withLz { c.lane.lz with state := nextShortrep s }) := decStep_withLz ⟨rfl, rfl, rfl⟩
      exact hstate.decodes (decCopy_decodes hq)

/-- `DecSymbol`, on any bytes (R630). -/
theorem decSymbol_decodes {c : DecCtx} : Decodes c (decSymbol q c) := by
  have hs := c.lane.lz.state.isLt
  have hps := posState_lt (l := c.lane)
  refine (decBit_decodes (by rw [isMatchCell]; omega)).bind fun isMatch c' => ?_
  split
  · refine (decBit_decodes (by rw [isRepCell]; omega)).bind fun isRep c' => ?_
    split
    · exact decRep_decodes hq hps
    · exact decMatch_decodes hq hps
  · exact decLiteral_decodes hq

end

theorem decExactly_decodes {fuel n : Nat} {c : DecCtx} : Decodes c (decExactly fuel n c) := by
  induction fuel generalizing n c with
  | zero => exact .pure
  | succ fuel ih =>
    rw [decExactly]
    split
    · exact .pure
    · exact (decSymbol_decodes (show Cause.overrun.cls ≠ .illegal by decide)).bind fun _ _ => ih

theorem decMarkerLoop_decodes {q : Nat → SymLimits} (hq : ∀ p, (q p).InStream) {fuel n : Nat} {c : DecCtx} :
    Decodes c (decMarkerLoop q fuel n c) := by
  induction fuel generalizing n c with
  | zero => exact ⟨trivial, List.suffix_refl _⟩
  | succ fuel ih =>
    refine (decSymbol_decodes (hq _)).bind fun y c => ?_
    split
    · exact .pure
    · exact ih

theorem decUntilMarker_decodes {q : Nat → SymLimits} (hq : ∀ p, (q p).InStream) {c : DecCtx} : Decodes c (decUntilMarker q c) :=
  decMarkerLoop_decodes hq

/-- The decoding of LZMA.DECODE (R651, R661). -/
theorem decodeRaw_decodes {n : BitVec 48} {cap : Nat} {c : DecCtx} : Decodes c (decodeRaw n cap c) := by
  refine decInit_readsBits.decodes.bind fun _ c => ?_
  split
  · exact .raise (by decide)
  · split
    · refine (decUntilMarker_decodes fun _ => show Cause.capacity.cls ≠ .illegal by decide).bind fun _ c => ?_
      split
      · exact .pure
      · exact .raise (by decide)
    · rw [decodeKnown]
      split
      · exact .raise (by decide)
      · exact decExactly_decodes

end Sys2Proof.Machine
end

section
/-! PROOFS. How the computations of a command end that read IN: bytes are taken from the front of IN, a stop is a hold before IN_EOF or an
error that is no IllegalCommand, and the coordinator changes lanes, units, draws and STAGE alone (R230 to R236, R830 to R836, R920 to
R931). -/

namespace Sys2Proof.Machine

/-! ## Reading IN (R230, R231) -/

/-- A stop that a computation can come to once its command runs from `t`: a hold before IN_EOF, or an error that is no IllegalCommand
(R231, R1000). -/
def Stop.AtIn (t : State) : Stop → Prop
  | .hold => t.inEof = false
  | .dry => False
  | .noProgress => True
  | .raise e => e.cause.cls ≠ .illegal

/-- From `t` to `u` bytes are taken from the front of IN, and nothing else changes. -/
def State.TakesIn (t u : State) : Prop := ∃ rest, rest <:+ t.inp ∧ u = { t with inp := rest }

theorem State.TakesIn.refl {t : State} : t.TakesIn t := ⟨t.inp, List.suffix_refl _, rfl⟩

theorem State.TakesIn.trans {t u v : State} (h : t.TakesIn u) (h' : u.TakesIn v) : t.TakesIn v := by
  obtain ⟨r, hr, rfl⟩ := h
  obtain ⟨r', hr', rfl⟩ := h'
  exact ⟨r', hr'.trans hr, rfl⟩

theorem State.TakesIn.atIn {t u : State} (h : t.TakesIn u) {e : Stop} (he : e.AtIn u) : e.AtIn t := by
  obtain ⟨r, -, rfl⟩ := h
  cases e <;> exact he

/-- The computation from `t` reads IN alone, and its answer is as `P` says. -/
abbrev ReadsInput {α : Type} (t : State) (r : Res State α) (P : α → Prop) : Prop :=
  r.Ends (fun a u => t.TakesIn u ∧ P a) fun e u => t.TakesIn u ∧ e.AtIn t

theorem ReadsInput.bind {α β : Type} {t : State} {r : Res State α} {f : α → State → Res State β} {P : α → Prop} {P' : β → Prop}
    (h : ReadsInput t r P) (hf : ∀ a u, P a → ReadsInput u (f a u) P') : ReadsInput t (r.bind f) P' :=
  Res.Ends.bind h fun a u hu => (hf a u hu.2).mono (fun _ _ h' => ⟨hu.1.trans h'.1, h'.2⟩) fun _ _ h' =>
    ⟨hu.1.trans h'.1, hu.1.atIn h'.2⟩

theorem ReadsInput.pure {α : Type} {t : State} {a : α} {P : α → Prop} (h : P a) : ReadsInput t (.ok a t) P := ⟨.refl, h⟩

theorem ReadsInput.raise {α : Type} {t : State} {c : Cause} {P : α → Prop} (h : c.cls ≠ .illegal) :
    ReadsInput t (.stop (.of c) t) P := ⟨.refl, h⟩

theorem State.inDry_atIn {t : State} : t.inDry.AtIn t := by
  rw [State.inDry]
  split
  · exact (by decide : Cause.truncated.cls ≠ .illegal)
  · rename_i h
    exact Bool.eq_false_iff.mpr h

theorem takesIn_all {t : State} : t.TakesIn { t with inp := [] } := ⟨[], List.nil_suffix, rfl⟩

theorem takesIn_drop {t : State} {n : Nat} : t.TakesIn { t with inp := t.inp.drop n } := ⟨_, List.drop_suffix _ _, rfl⟩

theorem inByte_gives {t : State} : ReadsInput t (inByte t) fun _ => True := by
  rw [inByte]
  split
  · rename_i b rest hb
    exact ⟨⟨rest, by rw [hb]; exact List.suffix_cons b rest, rfl⟩, trivial⟩
  · exact ⟨.refl, State.inDry_atIn⟩

theorem inBytes_gives {n : Nat} {t : State} : ReadsInput t (inBytes n t) fun _ => True := by
  rw [inBytes]
  split
  · exact ⟨takesIn_drop, trivial⟩
  · exact ⟨takesIn_all, State.inDry_atIn⟩

theorem inUpTo_gives {n : Nat} {t : State} : ReadsInput t (inUpTo n t) fun _ => True := by
  rw [inUpTo]
  split
  · exact ⟨takesIn_drop, trivial⟩
  · split
    · exact ⟨takesIn_all, trivial⟩
    · rename_i h
      exact ⟨takesIn_all, Bool.eq_false_iff.mpr h⟩

theorem inAll_gives {t : State} : ReadsInput t (inAll t) fun _ => True := by
  rw [inAll]
  split
  · exact ⟨takesIn_all, trivial⟩
  · rename_i h
    exact ⟨takesIn_all, Bool.eq_false_iff.mpr h⟩

/-! ## Reading a chunk (R830, R834) -/

/-- The chunk's properties byte, where it has one, has passed `PropsOK` (R834). -/
def Chunk.PropsOk (k : Chunk) : Prop := ∀ pr, k.props = some pr → propsOk pr = true

theorem readData_gives {cap : Nat} {f : SeqFlags} {ctl : Byte} {size count : Nat} {props : Option Byte} {t : State}
    (h : ∀ pr, props = some pr → propsOk pr = true) :
    ReadsInput t (readData cap f ctl size count props t) fun r => r.1.PropsOk := by
  rw [readData]
  split
  · exact .raise (by decide)
  · exact inBytes_gives.bind fun _ _ _ => .pure h

theorem readRaw_gives {cap : Nat} {f : SeqFlags} {ctl : Byte} {t : State} :
    ReadsInput t (readRaw cap f ctl t) fun r => r.1.PropsOk := by
  rw [readRaw]
  split
  · exact .raise (by decide)
  · exact inByte_gives.bind fun _ _ _ => inByte_gives.bind fun _ _ _ => readData_gives fun _ h => nomatch h

theorem readLzma_gives {cap : Nat} {f : SeqFlags} {ctl : Byte} {t : State} :
    ReadsInput t (readLzma cap f ctl t) fun r => r.1.PropsOk := by
  refine inByte_gives.bind fun u1 t _ => inByte_gives.bind fun u0 t _ => inByte_gives.bind fun c1 t _ =>
    inByte_gives.bind fun c0 t _ => ?_
  have hdata (f : SeqFlags) (props : Option Byte) (t : State) (h : ∀ pr, props = some pr → propsOk pr = true) :
      ReadsInput t (if c1.toNat * 2 ^ 8 + c0.toNat + 1 < 5 then .stop (.of .shortPayload) t
        else readData cap f ctl (ctl.toNat % 2 ^ 5 * 2 ^ 16 + u1.toNat * 2 ^ 8 + u0.toNat + 1) (c1.toNat * 2 ^ 8 + c0.toNat + 1)
          props t) fun r => r.1.PropsOk := by
    split
    · exact .raise (by decide)
    · exact readData_gives h
  split
  · refine inByte_gives.bind fun pr t _ => ?_
    split
    · rename_i hpr
      exact hdata _ _ _ fun pr' h => by cases h; exact hpr
    · exact .raise (by decide)
  · split
    · exact .raise (by decide)
    · exact hdata _ _ _ fun _ h => nomatch h

/-- A chunk that is read has passed its checks (R830). -/
theorem readChunk_gives {cap : Nat} {f : SeqFlags} {t : State} :
    ReadsInput t (readChunk cap f t) fun r => ∀ k f', r = some (k, f') → k.PropsOk := by
  refine inByte_gives.bind fun ctl t _ => ?_
  split
  · exact .pure fun _ _ h => nomatch h
  · simp only
    generalize (if resetsDict ctl then { f with needProps := true, needDictReset := false } else f) = f1
    split
    · exact .raise (by decide)
    · refine ReadsInput.bind (P := fun r => r.1.PropsOk) ?_ fun r t hr => .pure fun k f' h => by cases h; exact hr
      split
      · exact readLzma_gives
      · exact readRaw_gives

/-! ## Decoding a chunk (R833 to R836) -/

theorem Lane.stateReset_decodesTo {l : Lane} : l.DecodesTo l.stateReset :=
  ⟨rfl, rfl, id, id, id, fun _ => ⟨cellsOk_nil, fun _ _ h => nomatch h⟩, id, id, id⟩

/-- Properties that pass `PropsOK` are in LZMA2's range (R360, R834). -/
theorem propsDecode_small {pr : Byte} (h : propsOk pr = true) :
    (propsDecode pr).1.toNat + (propsDecode pr).2.1.toNat ≤ 4 ∧ (propsDecode pr).2.2.toNat ≤ 4 := by
  simp only [propsOk, decide_eq_true_eq] at h
  obtain ⟨h1, h2⟩ := h
  refine ⟨h2, ?_⟩
  simp only [propsDecode, BitVec.toNat_ofNat]
  omega

theorem Lane.setProps_decodesTo {l : Lane} {pr : Byte} (h : propsOk pr = true) : l.DecodesTo (l.setProps pr) := by
  obtain ⟨h1, h2⟩ := propsDecode_small h
  refine ⟨rfl, rfl, id, fun _ => ?_, fun _ => h1, fun _ => ⟨cellsOk_nil, fun _ _ h => nomatch h⟩, id, id, id⟩
  show (propsDecode pr).1.toNat ≤ 8 ∧ (propsDecode pr).2.1.toNat ≤ 4 ∧ (propsDecode pr).2.2.toNat ≤ 4
  omega

theorem Lane.emptyWindow_decodesTo {l : Lane} {d : BitVec 32} : l.DecodesTo { l with win := Window.empty d } :=
  ⟨rfl, rfl, id, id, id, fun h => ⟨h, id⟩, fun _ => Nat.le_refl _, fun _ => rfl, id⟩

theorem applyResets_decodesTo {a : Act} {k : Chunk} {l : Lane} (hk : k.PropsOk) : l.DecodesTo (applyResets a k l) := by
  have hwin : l.DecodesTo (if resetsDict k.ctl then { l with win := Window.empty a.dictSize } else l) := by
    split
    · exact Lane.emptyWindow_decodesTo
    · exact .refl
  simp only [applyResets]
  split
  · rename_i pr hpr
    exact hwin.trans (Lane.setProps_decodesTo (hk pr hpr))
  · split
    · exact hwin.trans Lane.stateReset_decodesTo
    · exact hwin

/-- A payload's bytes are decoded to the end of the payload (R835). -/
theorem decodePayload_decodes {size : Nat} {c : DecCtx} :
    (decodePayload size c).Ends (fun _ c' => DecStep c c' ∧ c'.src = []) (StopsFrom c) := by
  have hcheck (c : DecCtx) : (if c.src.isEmpty && c.lane.rcd.code == 0#32 then Res.ok () c else .stop (.of .uncleanEnd) c).Ends
      (fun _ c' => DecStep c c' ∧ c'.src = []) (StopsFrom c) := by
    split
    · rename_i h
      exact ⟨.refl, List.isEmpty_iff.mp (Bool.and_eq_true_iff.mp h).1⟩
    · exact ⟨(by decide : Cause.uncleanEnd.cls ≠ .illegal), List.suffix_refl _⟩
  have after {c c' : DecCtx} {r : Res DecCtx Unit} (h : DecStep c c')
      (hr : r.Ends (fun _ c'' => DecStep c' c'' ∧ c''.src = []) (StopsFrom c')) :
      r.Ends (fun _ c'' => DecStep c c'' ∧ c''.src = []) (StopsFrom c) :=
    hr.mono (fun _ _ h' => ⟨h.trans h'.1, h'.2⟩) fun _ _ h' => ⟨h'.1, h'.2.trans h.taken⟩
  refine Res.Ends.bind decInit_readsBits.decodes fun _ c1 h1 => after h1 ?_
  split
  · exact ⟨(by decide : Cause.badFirstByte.cls ≠ .illegal), List.suffix_refl _⟩
  · exact Res.Ends.bind decExactly_decodes fun _ c2 h2 => after h2 (hcheck c2)

/-- The data of a chunk stops only by an error (R232). -/
theorem decodeData_ends {k : Chunk} {l : Lane} {out : List Byte} :
    (decodeData k l out).Ends (fun _ c => l.DecodesTo c.lane) fun e _ => ∀ t : State, e.AtIn t := by
  rw [decodeData]
  split
  · simp only
    have hpay := decodePayload_decodes (size := k.size) (c := { lane := { l with pb := k.data }, src := k.data, out := out })
    generalize decodePayload k.size { lane := { l with pb := k.data }, src := k.data, out := out } = r at *
    cases r with
    | ok _ c =>
      obtain ⟨⟨h, -⟩, hsrc⟩ := hpay
      exact ⟨congrArg (fun m : Lane => { m with pb := c.src }) h.eq, h.active, h.rcd, h.lz, h.small, h.cells, h.cur_le, h.cur,
        fun _ => hsrc⟩
    | stop e c =>
      cases e with
      | dry => exact fun _ => (by decide : Cause.payloadExhausted.cls ≠ .illegal)
      | hold => exact absurd hpay.1 id
      | noProgress => exact fun _ => trivial
      | raise e => exact fun _ => hpay.1
  · exact (decStep_putBytes (c := { lane := l, src := [], out := out }) (bs := k.data)).lane

/-! ## Working on lane 0 -/

/-- A command's rule goes from `t` to `u` on lane 0 alone: bytes are taken from the front of IN, STAGE and lane 0 change. -/
structure State.LaneWork (t u : State) : Prop where
  eq : u = { t with inp := u.inp, stage := u.stage, lane0 := u.lane0 }
  taken : u.inp <:+ t.inp

theorem State.LaneWork.refl {t : State} : t.LaneWork t := ⟨rfl, List.suffix_refl _⟩

theorem State.LaneWork.trans {t u v : State} (h : t.LaneWork u) (h' : u.LaneWork v) : t.LaneWork v :=
  ⟨by rw [h'.eq, h.eq], h'.taken.trans h.taken⟩

theorem State.TakesIn.laneWork {t u : State} (h : t.TakesIn u) : t.LaneWork u := by
  obtain ⟨r, hr, rfl⟩ := h
  exact ⟨rfl, hr⟩

theorem State.LaneWork.atIn {t u : State} (h : t.LaneWork u) {e : Stop} (he : e.AtIn u) : e.AtIn t := by
  rw [h.eq] at he
  cases e <;> exact he

/-- The computation from `t` works on lane 0 and brings it to a lane as decoding does. -/
abbrev DecodesLane {α : Type} (t : State) (r : Res State α) : Prop :=
  r.Ends (fun _ u => t.LaneWork u ∧ t.lane0.DecodesTo u.lane0) fun e u => t.LaneWork u ∧ e.AtIn t

theorem DecodesLane.pure {α : Type} {t : State} {a : α} : DecodesLane t (.ok a t) := ⟨.refl, .refl⟩

theorem DecodesLane.after {α : Type} {t u : State} {r : Res State α} (h : t.LaneWork u) (hl : t.lane0.DecodesTo u.lane0)
    (hr : DecodesLane u r) : DecodesLane t r :=
  hr.mono (fun _ _ h' => ⟨h.trans h'.1, hl.trans h'.2⟩) fun _ _ h' => ⟨h.trans h'.1, h.atIn h'.2⟩

theorem DecodesLane.bind {α β : Type} {t : State} {r : Res State α} {f : α → State → Res State β} (h : DecodesLane t r)
    (hf : ∀ a u, DecodesLane u (f a u)) : DecodesLane t (r.bind f) :=
  Res.Ends.bind h fun a u hu => (hf a u).after hu.1 hu.2

/-- A decoding computation on lane 0 with IN as its source: where IN runs out, R231's action. -/
theorem onIn_ends {α : Type} {f : DecCtx → Res DecCtx α} {t : State} {Q : α → DecCtx → Prop}
    (h : (f { lane := t.lane0, src := t.inp, out := t.stage }).Ends Q
      (StopsFrom { lane := t.lane0, src := t.inp, out := t.stage })) :
    (onIn f t).Ends (fun a u => ∃ c, Q a c ∧ u = { t with lane0 := c.lane, inp := c.src, stage := c.out })
      fun e u => t.LaneWork u ∧ e.AtIn t := by
  rw [onIn]
  generalize f { lane := t.lane0, src := t.inp, out := t.stage } = r at *
  cases r with
  | ok a c => exact ⟨c, h, rfl⟩
  | stop e c =>
    obtain ⟨he, hsrc⟩ := h
    cases e with
    | dry => exact ⟨⟨rfl, hsrc⟩, State.inDry_atIn⟩
    | hold => exact absurd he id
    | noProgress => exact ⟨⟨rfl, hsrc⟩, trivial⟩
    | raise e => exact ⟨⟨rfl, hsrc⟩, he⟩

theorem onIn_decodesLane {α : Type} {f : DecCtx → Res DecCtx α} {t : State}
    (h : Decodes { lane := t.lane0, src := t.inp, out := t.stage } (f { lane := t.lane0, src := t.inp, out := t.stage })) :
    DecodesLane t (onIn f t) :=
  (onIn_ends h).mono (fun _ _ ⟨_, hc, hu⟩ => by
    rw [hu]
    exact ⟨⟨rfl, hc.taken⟩, hc.lane⟩) fun _ _ h' => h'

theorem Lane.withDecSession_decodesTo {l : Lane} {d : DecSession} (h : d.active = l.l2d.active) : l.DecodesTo { l with l2d := d } :=
  ⟨rfl, h, id, id, id, fun hp => ⟨hp, id⟩, id, id, id⟩

/-- `DecodeChunk`, on any bytes (R830). -/
theorem decodeChunk_decodesLane {a : Act} {t : State} : DecodesLane t (decodeChunk a t) := by
  rw [decodeChunk]
  refine Res.Ends.bind (readChunk_gives.mono (fun _ _ h => h) fun _ _ h => ⟨h.1.laneWork, h.2⟩) fun r u ⟨hu, hr⟩ => ?_
  have hlane : u.lane0 = t.lane0 := by
    obtain ⟨_, -, rfl⟩ := hu
    rfl
  have hl : t.lane0.DecodesTo u.lane0 := hlane ▸ .refl
  refine DecodesLane.after hu.laneWork hl ?_
  rcases r with _ | ⟨k, f⟩
  · exact .pure
  · have hdata := decodeData_ends (k := k) (l := applyResets a k u.lane0) (out := u.stage)
    simp only
    generalize decodeData k (applyResets a k u.lane0) u.stage = r at *
    cases r with
    | ok _ c =>
      exact ⟨⟨rfl, List.suffix_refl _⟩,
        ((applyResets_decodesTo (hr k f rfl)).trans hdata).trans (Lane.withDecSession_decodesTo rfl)⟩
    | stop e c => exact ⟨.refl, hdata u⟩

theorem atChunk_decodesLane {α : Type} {p : ChunkPlace} {t : State} {r : Res State α} (h : DecodesLane t r) :
    DecodesLane t (atChunk p r) := by
  rcases r with ⟨a, u⟩ | ⟨_ | _ | _ | e, u⟩ <;> exact h

/-- The loop of L2.DECODE with one thread, on any bytes (R851). -/
theorem decodeStream_decodesLane {a : Act} {read fuel : Nat} {t : State} : DecodesLane t (decodeStream a read fuel t) := by
  induction fuel generalizing t with
  | zero => exact ⟨.refl, trivial⟩
  | succ fuel ih =>
    refine (atChunk_decodesLane decodeChunk_decodesLane).bind fun r u => ?_
    cases r with
    | none => exact .pure
    | some k => exact ih

/-! ## The coordinator (R902, R920 to R931) -/

/-- Lanes beside lane 0 stay in number, and of the rest only what the coordinator writes changes. -/
structure State.UnitWork (t u : State) : Prop where
  frame : t.Coordinated u
  lanes : u.workers.length = t.workers.length

theorem State.UnitWork.refl {t : State} : t.UnitWork t := ⟨⟨t.stage, t.lane0, t.workers, t.coord, t.draws, rfl⟩, rfl⟩

theorem State.UnitWork.trans {t u v : State} (h : t.UnitWork u) (h' : u.UnitWork v) : t.UnitWork v :=
  ⟨h.frame.trans h'.frame, h'.lanes.trans h.lanes⟩

/-- The error the coordinator knows of, if any, is no IllegalCommand (R925). -/
def Coordinator.FaultOk (c : Coordinator) : Prop := ∀ e, c.earliest = some e → e.cause.cls ≠ .illegal

theorem earlier_cases (x y : Option Raised) : earlier x y = x ∨ earlier x y = y := by
  rw [earlier.eq_def]
  split
  · split
    · exact .inr rfl
    · exact .inl rfl
  · exact .inr rfl
  · exact .inl rfl

theorem runChunks_fault {a : Act} {rs : List ChunkRecord} {l : Lane} {out : List Byte} {e : Raised}
    (h : (runChunks a rs l out).2.2 = some e) : e.cause.cls ≠ .illegal := by
  induction rs generalizing l out with
  | nil => exact nomatch h
  | cons r rs ih =>
    have hdata := decodeData_ends (k := r.chunk) (l := applyResets a r.chunk l) (out := out)
    rw [runChunks] at h
    split at h
    · exact ih h
    · rename_i e' c hr
      have := hdata.of_stop hr State.reset
      cases h
      exact this
    · exact nomatch h

theorem runUnit_fault {b : Build} {a : Act} {u : WorkUnit} {p : Option Window} {e : Raised}
    (h : (runUnit b a u p).2.2 = .failed e) : e.cause.cls ≠ .illegal := by
  rw [runUnit] at h
  split at h
  · exact nomatch h
  · simp only at h
    split at h
    · exact nomatch h
    · rename_i e' he
      cases h
      exact runChunks_fault he

/-- The coordinator works on from `t` to `u`, every error it knows of no IllegalCommand. -/
def State.Coordinates (t u : State) : Prop := t.UnitWork u ∧ (t.coord.FaultOk → u.coord.FaultOk)

theorem commitUnit_coordinates {u : WorkUnit} {t : State} : t.Coordinates (commitUnit u t) :=
  ⟨⟨⟨_, _, _, _, _, rfl⟩, rfl⟩, id⟩

theorem dispatchUnit_coordinates {threads i : Nat} {t : State} : t.Coordinates (dispatchUnit threads i t) := by
  obtain ⟨x, ds, hc, -⟩ := choice_spec (options := t.coord.idleLanes threads) (s := t)
  rw [dispatchUnit, hc]
  exact ⟨⟨⟨_, _, _, _, _, rfl⟩, rfl⟩, id⟩

theorem completeUnit_coordinates {a : Act} {t : State} : t.Coordinates (completeUnit a t) := by
  obtain ⟨x, ds, hc, -⟩ := choice_spec (options := t.coord.running) (s := t)
  simp only [completeUnit, hc]
  split
  · exact ⟨⟨⟨_, _, _, _, _, rfl⟩, rfl⟩, id⟩
  · rename_i u hu
    obtain ⟨l0, ws, hset, hlen⟩ := State.setLane_eq (s := { t with draws := ds }) (i := u.lane.getD 0)
      (l := (runUnit t.build a u (t.coord.previousWindow x)).1)
    rw [hset]
    refine ⟨⟨⟨_, _, _, _, _, rfl⟩, hlen⟩, fun hok e he => ?_⟩
    have he : earlier t.coord.earliest
        (match (runUnit t.build a u (t.coord.previousWindow x)).2.2 with
        | .ok _ => none
        | .failed e => some e) = some e := he
    rcases earlier_cases t.coord.earliest _ with hx | hx <;> rw [hx] at he
    · exact hok e he
    · split at he
      · exact nomatch he
      · rename_i e' he'
        cases he
        exact runUnit_fault he'

theorem coordinatorAction_coordinates {a : Act} {t u : State} (h : coordinatorAction a t = some u) : t.Coordinates u := by
  rw [coordinatorAction] at h
  split at h
  · cases h
    exact commitUnit_coordinates
  · split at h
    · cases h
      exact dispatchUnit_coordinates
    · split at h
      · exact nomatch h
      · cases h
        exact completeUnit_coordinates

theorem coordinatorLoop_coordinates {a : Act} {fuel : Nat} {t : State} : t.Coordinates (coordinatorLoop a fuel t) := by
  induction fuel generalizing t with
  | zero => exact ⟨.refl, id⟩
  | succ fuel ih =>
    rw [coordinatorLoop]
    split
    · exact ⟨.refl, id⟩
    · rename_i u hu
      have h := coordinatorAction_coordinates hu
      exact ⟨h.1.trans ih.1, ih.2 ∘ h.2⟩

/-- Whatever its units are, the coordinator changes only what is its own, and knows only errors it was told of or found in a unit. -/
theorem runUnits_works {a : Act} {inputs : List UnitInput} {header : Option Raised} {t : State}
    (h : ∀ e, header = some e → e.cause.cls ≠ .illegal) :
    t.UnitWork (runUnits a inputs header t) ∧ (runUnits a inputs header t).coord.FaultOk := by
  have hloop (c : Coordinator) (hc : c.FaultOk) :
      t.UnitWork (coordinatorLoop a (3 * inputs.length) { t with coord := c }) ∧
        (coordinatorLoop a (3 * inputs.length) { t with coord := c }).coord.FaultOk := by
    obtain ⟨h1, h2⟩ := coordinatorLoop_coordinates (a := a) (fuel := 3 * inputs.length) (t := { t with coord := c })
    exact ⟨State.UnitWork.trans ⟨⟨t.stage, t.lane0, t.workers, c, t.draws, rfl⟩, rfl⟩ h1, h2 hc⟩
  exact hloop _ h

/-- The coordinator's reading of a stream (R921). -/
theorem parseStream_gives {cap read fuel : Nat} {f : SeqFlags} {inForce : Option Byte} {done : List ChunkRecord} {t : State} :
    ReadsInput t (parseStream cap read fuel f inForce done t) fun r => ∀ e, r.2 = some e → e.cause.cls ≠ .illegal := by
  induction fuel generalizing f inForce done t with
  | zero => exact ⟨.refl, trivial⟩
  | succ fuel ih =>
    have hread := readChunk_gives (cap := cap) (f := f) (t := t)
    rw [parseStream]
    generalize readChunk cap f t = r at *
    rcases r with ⟨_ | ⟨k, f'⟩, u⟩ | ⟨_ | _ | _ | e, u⟩
    · exact ⟨hread.1, fun _ h => nomatch h⟩
    · exact ih.mono (fun _ _ h => ⟨hread.1.trans h.1, h.2⟩) fun _ _ h => ⟨hread.1.trans h.1, hread.1.atIn h.2⟩
    · exact hread
    · exact hread
    · exact hread
    · exact ⟨hread.1, fun e' h => by cases h; exact hread.2⟩

/-- A command's rule goes from `t` to `u`: bytes are taken from the front of IN, and STAGE, the lanes, the coordinator and what a schedule
draws on change. -/
structure State.Work (t u : State) : Prop where
  eq : u = { t with
    inp := u.inp, stage := u.stage, lane0 := u.lane0, workers := u.workers, coord := u.coord, draws := u.draws, free := u.free }
  taken : u.inp <:+ t.inp
  lanes : u.workers.length = t.workers.length

theorem State.Work.refl {t : State} : t.Work t := ⟨rfl, List.suffix_refl _, rfl⟩

theorem State.Work.trans {t u v : State} (h : t.Work u) (h' : u.Work v) : t.Work v :=
  ⟨by rw [h'.eq, h.eq], h'.taken.trans h.taken, h'.lanes.trans h.lanes⟩

theorem State.LaneWork.work {t u : State} (h : t.LaneWork u) : t.Work u := by
  obtain ⟨heq, htaken⟩ := h
  rw [heq]
  exact ⟨rfl, htaken, rfl⟩

theorem State.TakesIn.work {t u : State} (h : t.TakesIn u) : t.Work u := h.laneWork.work

theorem State.UnitWork.work {t u : State} (h : t.UnitWork u) : t.Work u := by
  obtain ⟨⟨stage, l, ws, c, ds, rfl⟩, hlen⟩ := h
  exact ⟨rfl, List.suffix_refl _, hlen⟩

/-- `ParallelDecode`, on any bytes: the coordinator is left idle, or an error is raised that is no IllegalCommand (R920, R931). -/
theorem parallelDecode_ends {a : Act} {held : Nat} {t : State} :
    (parallelDecode a held t).Ends (fun _ u => t.Work u ∧ u.coord = Coordinator.idle) fun e u => t.Work u ∧ e.AtIn t := by
  rw [parallelDecode]
  refine Res.Ends.bind (parseStream_gives.mono (fun _ _ h => h) fun _ _ h => ⟨h.1.work, h.2⟩) fun r u ⟨hu, hr⟩ => ?_
  obtain ⟨h1, h2⟩ := runUnits_works (a := a) (inputs := (groupUnits r.1).map .chunks) (t := u) hr
  simp only
  generalize runUnits a ((groupUnits r.1).map .chunks) r.2 u = v at *
  have hv := hu.work.trans h1.work
  split
  · exact ⟨hv.trans ⟨rfl, List.suffix_refl _, rfl⟩, rfl⟩
  · rename_i e he
    refine ⟨?_, h2 e he⟩
    obtain ⟨heq, htaken, hlanes⟩ := hv
    exact ⟨by rw [heq], List.drop_suffix _ _, hlanes⟩

/-- Single-lane spans work on lane 0 (R850). -/
theorem encodeSpans_laneWork {a : Act} {xs : List (List Byte)} {t : State} : t.LaneWork (encodeSpans a xs t) := by
  induction xs generalizing t with
  | nil => exact .refl
  | cons x xs ih =>
    have hspan : t.LaneWork ((t.outBytes (encodeSpan t.build a x).1).withLane0 (encodeSpan t.build a x).2) :=
      ⟨rfl, List.suffix_refl _⟩
    exact hspan.trans ih

theorem parallelEncode_works {a : Act} {xs : List (List Byte)} {t : State} :
    t.Work (parallelEncode a xs t) ∧ (parallelEncode a xs t).coord = Coordinator.idle := by
  have h := (runUnits_works (a := a) (inputs := xs.map .span) (t := t) (header := none) fun _ h => nomatch h).1.work
  exact ⟨h.trans ⟨rfl, List.suffix_refl _, rfl⟩, rfl⟩

end Sys2Proof.Machine
end

section
/-! PROOFS. What encoding changes whatever the window and the finder hold: cells of the store, the range encoder, the state machine, the
coding position, the finder and the session's flags; and every symbol that is chosen has the length it may have (R210, R340, R404 to R408,
R611, R730 to R734, R810 to R813). -/

namespace Sys2Proof.Machine

/-! ## Cells of decisions (R210, R520 to R552) -/

/-- The decision's cell, if it has one, is below `n`. -/
def Decision.Below (n : Nat) : Decision → Prop
  | .cell i _ => i < n
  | .direct _ => True

theorem Decision.code_cellsMoved {n : Nat} {d : Decision} {l : Lane} (h : d.Below n) : CellsMoved n l.prob (d.code l).prob := by
  cases d with
  | cell i b => exact cellsMoved_update h
  | direct b => exact .refl

/-- Coding decisions moves their cells alone (R403). -/
theorem codeDecisions_cellsMoved {n : Nat} {ds : List Decision} {l : Lane} (h : ∀ d ∈ ds, d.Below n) :
    CellsMoved n l.prob (codeDecisions ds l).prob := by
  induction ds generalizing l with
  | nil => exact .refl
  | cons d ds ih =>
    exact (Decision.code_cellsMoved (h d List.mem_cons_self)).trans (ih fun x hx => h x (List.mem_cons_of_mem _ hx))

theorem treeDecisions_below {p base n v : Nat} (hp : base + 2 ^ n ≤ p) : ∀ d ∈ treeDecisions base n v, d.Below p := by
  intro d hd
  obtain ⟨j, hj, rfl⟩ := List.mem_map.mp hd
  have hj : j < n := List.mem_range.mp hj
  have hlt : v % 2 ^ n / 2 ^ (n - j) < 2 ^ j := by
    rw [Nat.div_lt_iff_lt_mul (Nat.two_pow_pos _), ← Nat.pow_add, Nat.add_sub_cancel' (Nat.le_of_lt hj)]
    exact Nat.mod_lt _ (Nat.two_pow_pos n)
  have hpow : 2 ^ (j + 1) ≤ 2 ^ n := Nat.pow_le_pow_right (by decide) hj
  rw [Nat.pow_succ] at hpow
  show base + 2 ^ j + v % 2 ^ n / 2 ^ (n - j) < p
  omega

theorem reverseNode_lt {v j : Nat} : reverseNode v j < 2 ^ (j + 1) := by
  induction j with
  | zero => exact (by decide : 1 < 2)
  | succ j ih =>
    have := (v.testBit j).toNat_le
    rw [reverseNode_succ, Nat.pow_succ]
    omega

theorem reverseDecisions_below {p base n v : Nat} (hp : base + 2 ^ n ≤ p) : ∀ d ∈ reverseDecisions base n v, d.Below p := by
  intro d hd
  obtain ⟨j, hj, rfl⟩ := List.mem_map.mp hd
  have hpow : 2 ^ (j + 1) ≤ 2 ^ n := Nat.pow_le_pow_right (by decide) (List.mem_range.mp hj)
  have := reverseNode_lt (v := v) (j := j)
  show base + reverseNode v j < p
  omega

theorem directDecisions_below {p v n : Nat} : ∀ d ∈ directDecisions v n, d.Below p := by
  intro d hd
  obtain ⟨j, -, rfl⟩ := List.mem_map.mp hd
  trivial

theorem matchedDecisions_below {p base : Nat} {b mb : Byte} (hp : base + 0x300 ≤ p) :
    ∀ d ∈ matchedDecisions base b.toNat mb.toNat, d.Below p := by
  intro d hd
  obtain ⟨j, hj, rfl⟩ := List.mem_map.mp hd
  have hj : j < 8 := List.mem_range.mp hj
  have hlt : b.toNat / 2 ^ (8 - j) < 2 ^ j := by
    rw [Nat.div_lt_iff_lt_mul (Nat.two_pow_pos _), ← Nat.pow_add, Nat.add_sub_cancel' (Nat.le_of_lt hj)]
    exact b.isLt
  have hpow : 2 ^ (j + 1) ≤ 2 ^ 8 := Nat.pow_le_pow_right (by decide) hj
  rw [Nat.pow_succ] at hpow
  simp only [Decision.Below]
  split
  · split <;> omega
  · omega

theorem lengthDecisions_below {p base len ps : Nat} (hp : base + 1154 ≤ p) (hps : ps < 128) :
    ∀ d ∈ lengthDecisions base len ps, d.Below p := by
  have hc (i : Nat) (b : Bool) (h : i < p) : (Decision.cell i b).Below p := h
  rw [lengthDecisions]
  split
  · exact List.forall_mem_cons.mpr ⟨hc _ _ (by omega), treeDecisions_below (by omega)⟩
  · split <;> exact List.forall_mem_cons.mpr ⟨hc _ _ (by omega),
      List.forall_mem_cons.mpr ⟨hc _ _ (by omega), treeDecisions_below (by omega)⟩⟩

theorem distanceDecisions_below {p d0 len : Nat} (hp : 818 ≤ p) : ∀ d ∈ distanceDecisions d0 len, d.Below p := by
  have hlen : min (len - 2) 3 ≤ 3 := Nat.min_le_right _ _
  simp only [distanceDecisions]
  refine List.forall_mem_append.mpr ⟨treeDecisions_below (by omega), ?_⟩
  split
  · exact fun _ h => nomatch h
  · split
    · have := distSpecialBase_le (s := slotOf d0) (by omega) (by omega)
      exact reverseDecisions_below (Nat.le_trans this (by omega))
    · exact List.forall_mem_append.mpr ⟨directDecisions_below, reverseDecisions_below (by omega)⟩

/-- A symbol's decisions have cells of the store (R210, R340). -/
theorem Sym.decisions_below {y : Sym} {l : Lane} : ∀ d ∈ y.decisions l, d.Below (nprob l.lz) := by
  have hn := le_nprob (z := l.lz)
  have hs := l.lz.state.isLt
  have hps : l.win.cur % 2 ^ l.lz.pb.toNat < 128 := posState_lt (l := l)
  have hlit : literalCells l + 0x300 ≤ nprob l.lz := literalBase_le
  have hc (i : Nat) (b : Bool) (h : i < 818) : (Decision.cell i b).Below (nprob l.lz) := show i < _ by omega
  have hlen (base len : Nat) (h : base ≤ 1332) : ∀ d ∈ lengthDecisions base len (l.win.cur % 2 ^ l.lz.pb.toNat),
      d.Below (nprob l.lz) := lengthDecisions_below (by omega) hps
  have hmatch (d0 len : Nat) : ∀ d ∈ Decision.cell (l.lz.state.val * 16 + l.win.cur % 2 ^ l.lz.pb.toNat) true ::
      .cell (192 + l.lz.state.val) false :: (lengthDecisions 818 len (l.win.cur % 2 ^ l.lz.pb.toNat) ++ distanceDecisions d0 len),
      d.Below (nprob l.lz) :=
    List.forall_mem_cons.mpr ⟨hc _ _ (by omega), List.forall_mem_cons.mpr ⟨hc _ _ (by omega),
      List.forall_mem_append.mpr ⟨hlen _ _ (by omega), distanceDecisions_below (by omega)⟩⟩⟩
  cases y with
  | lit =>
    refine List.forall_mem_cons.mpr ⟨hc _ _ (by omega), ?_⟩
    split
    · exact treeDecisions_below (by omega)
    · exact matchedDecisions_below hlit
  | mtch d n => exact hmatch _ _
  | eos => exact hmatch _ _
  | shortrep =>
    simp only [Sym.decisions, List.forall_mem_cons]
    exact ⟨hc _ _ (by omega), hc _ _ (by omega), hc _ _ (by omega), hc _ _ (by omega), fun _ h => nomatch h⟩
  | rep r n =>
    rw [Sym.decisions_rep]
    refine List.forall_mem_cons.mpr ⟨hc _ _ (by rw [Lane.posState]; omega), List.forall_mem_cons.mpr ⟨hc _ _ (by omega),
      List.forall_mem_append.mpr ⟨?_, hlen _ _ (by omega)⟩⟩⟩
    have hps : l.posState < 128 := hps
    rw [repPrefix.eq_def]
    split <;> simp only [List.forall_mem_cons]
    · exact ⟨hc _ _ (by omega), hc _ _ (by omega), fun _ h => nomatch h⟩
    · exact ⟨hc _ _ (by omega), hc _ _ (by omega), fun _ h => nomatch h⟩
    · exact ⟨hc _ _ (by omega), hc _ _ (by omega), hc _ _ (by omega), fun _ h => nomatch h⟩
    · exact ⟨hc _ _ (by omega), hc _ _ (by omega), hc _ _ (by omega), fun _ h => nomatch h⟩

/-! ## What an encoder changes of its lane -/

/-- Encoding brings a lane from `l` to `l'`: it moves the range encoder, the cells, the state machine's registers, the coding position, the
finder and the flags of the session, and leaves each as sound as it was (R117, R118, R401, R812). -/
structure Lane.EncodesTo (l l' : Lane) : Prop where
  eq : l' = { l with rce := l'.rce, prob := l'.prob, lz := l'.lz, win := l'.win, mf := l'.mf, l2e := l'.l2e }
  session : l'.l2e.active = l.l2e.active ∧ l'.l2e.segEnd = l.l2e.segEnd
  flags : (l.l2e.needDict = true → l.l2e.needProps = true) → l'.l2e.needDict = true → l'.l2e.needProps = true
  rce : l.EncOk → l'.rce.Ok
  cells : CellsMoved (nprob l.lz) l.prob l'.prob
  props : l'.lz.lc = l.lz.lc ∧ l'.lz.lp = l.lz.lp ∧ l'.lz.pb = l.lz.pb
  win : l'.win = { l.win with cur := l'.win.cur }
  mf : l.mf.Ok → l'.mf.Ok

theorem Lane.EncodesTo.nprob_eq {l l' : Lane} (h : l.EncodesTo l') : nprob l'.lz = nprob l.lz := by
  obtain ⟨h1, h2, -⟩ := h.props
  rw [nprob, h1, h2, nprob]

theorem Lane.EncodesTo.endPos {l l' : Lane} (h : l.EncodesTo l') : l'.win.endPos = l.win.endPos := by
  rw [h.win]
  rfl

theorem Lane.EncodesTo.refl {l : Lane} : l.EncodesTo l := ⟨rfl, ⟨rfl, rfl⟩, id, And.left, .refl, ⟨rfl, rfl, rfl⟩, rfl, id⟩

theorem Lane.EncodesTo.trans {l l' l'' : Lane} (h : l.EncodesTo l') (h' : l'.EncodesTo l'') : l.EncodesTo l'' where
  eq := by rw [h'.eq, h.eq]
  session := ⟨h'.session.1.trans h.session.1, h'.session.2.trans h.session.2⟩
  flags := h'.flags ∘ h.flags
  rce := fun he => h'.rce ⟨h.rce he, (h.cells he.2).1⟩
  cells := h.cells.trans (h.nprob_eq ▸ h'.cells)
  props := ⟨h'.props.1.trans h.props.1, h'.props.2.1.trans h.props.2.1, h'.props.2.2.trans h.props.2.2⟩
  win := by rw [h'.win, h.win]
  mf := h'.mf ∘ h.mf

theorem codeDecisions_encodesTo {ds : List Decision} {l : Lane} (h : ∀ d ∈ ds, d.Below (nprob l.lz)) :
    l.EncodesTo (codeDecisions ds l) := by
  have hlz : (codeDecisions ds l).lz = l.lz := by rw [codeDecisions_frame]
  have hmf : (codeDecisions ds l).mf = l.mf := by rw [codeDecisions_frame]
  have hl2e : (codeDecisions ds l).l2e = l.l2e := by rw [codeDecisions_frame]
  refine ⟨?_, by simp [hl2e], by rw [hl2e]; exact id, fun he => (codeDecisions_encOk he).1, codeDecisions_cellsMoved h, by simp [hlz],
    by rw [codeDecisions_win], by rw [hmf]; exact id⟩
  rw [hlz, hmf, hl2e, codeDecisions_win]
  exact codeDecisions_frame

/-- Coding a symbol (R611). -/
theorem Sym.coded_encodesTo {y : Sym} {l : Lane} : l.EncodesTo (y.coded l) := by
  have h := codeDecisions_encodesTo (y.decisions_below (l := l))
  have hmf : (y.coded l).mf = l.mf := by rw [Sym.coded_frame]
  have hl2e : (y.coded l).l2e = l.l2e := by rw [Sym.coded_frame]
  refine ⟨?_, h.session, h.flags, h.rce, h.cells, ⟨rfl, rfl, rfl⟩, rfl, h.mf⟩
  rw [hmf, hl2e]
  exact Sym.coded_frame

theorem codedAll_encodesTo {ys : List Sym} {l : Lane} : l.EncodesTo (codedAll ys l) := by
  induction ys generalizing l with
  | nil => exact .refl
  | cons y ys ih => exact y.coded_encodesTo.trans ih

theorem Lane.withMf_encodesTo {l : Lane} {m : MatchFinder} (h : l.mf.Ok → m.Ok) : l.EncodesTo { l with mf := m } :=
  ⟨rfl, ⟨rfl, rfl⟩, id, And.left, .refl, ⟨rfl, rfl, rfl⟩, rfl, h⟩

/-! ## The finder's answers are in the dictionary (R713, R760) -/

theorem probe_le {w : Window} {p d : Nat} {q : Option Nat} (h : probe w p q = some d) : d ≤ w.dictSize.toNat := by
  rw [probe.eq_def] at h
  split at h
  · exact nomatch h
  · simp only at h
    split at h
    · rename_i hd
      cases h
      exact hd.1
    · exact nomatch h

/-- Every candidate's distance is in the dictionary. -/
def InDictionary (w : Window) (list : List (Nat × Nat)) : Prop := ∀ c ∈ list, c.2 ≤ w.dictSize.toNat

theorem InDictionary.append {w : Window} {xs ys : List (Nat × Nat)} (h : InDictionary w xs) (h' : InDictionary w ys) :
    InDictionary w (xs ++ ys) := fun c hc => (List.mem_append.mp hc).elim (h c) (h' c)

theorem inDictionary_nil {w : Window} : InDictionary w [] := fun _ h => nomatch h

theorem inDictionary_singleton {w : Window} {n d : Nat} (h : d ≤ w.dictSize.toNat) : InDictionary w [(n, d)] := fun c hc => by
  rw [List.mem_singleton.mp hc]
  exact h

theorem shortCandidates_inDictionary {w : Window} {p : Nat} {q2 q3 : Option Nat} :
    InDictionary w (shortCandidates w p q2 q3) := by
  simp only [shortCandidates]
  refine InDictionary.append ?_ ?_
  · split
    · exact inDictionary_singleton (probe_le ‹_›)
    · exact inDictionary_nil
  · split
    · exact inDictionary_nil
    · split
      · exact inDictionary_nil
      · split
        · exact inDictionary_singleton (probe_le ‹_›)
        · exact inDictionary_nil

theorem walkChain_inDictionary {w : Window} {chain : Memory (Option Nat)} {p mll nl depth best : Nat} {q : Option Nat}
    {found : List (Nat × Nat)} (h : InDictionary w found) : InDictionary w (walkChain w chain p mll nl depth q best found) := by
  induction depth generalizing q best found with
  | zero => exact h
  | succ depth ih =>
    cases q with
    | none => exact h
    | some q =>
      simp only [walkChain]
      split
      · exact h
      · rename_i hd
        have hadd (len : Nat) := h.append (inDictionary_singleton (n := len) (Nat.le_of_not_lt hd))
        split
        · split
          · split
            · exact hadd _
            · exact ih (hadd _)
          · exact ih h
        · exact ih h

theorem searchAt_inDictionary {a : Act} {w : Window} {m : MatchFinder} {h : Hashes} {p rem : Nat} :
    InDictionary w (searchAt a w m h p rem) := by
  have hshort := shortCandidates_inDictionary (w := w) (p := p) (q2 := entry m.t2 h.h2) (q3 := entry m.t3 h.h3)
  simp only [searchAt]
  split
  · exact walkChain_inDictionary inDictionary_nil
  · rename_i len d hlast
    have hfound (n : Nat) : InDictionary w ((shortCandidates w p (entry m.t2 h.h2) (entry m.t3 h.h3)).dropLast ++ [(n, d)]) :=
      InDictionary.append (fun c hc => hshort c (List.dropLast_subset _ hc))
        (inDictionary_singleton (hshort (len, d) (List.mem_of_getLast? hlast)))
    split
    · exact hfound _
    · exact walkChain_inDictionary (hfound _)

theorem hashChainFind_inDictionary {a : Act} {w : Window} {m : MatchFinder} {p rem : Nat} :
    InDictionary w (hashChainFind a w m p rem).1 := by
  rw [hashChainFind]
  split
  · exact inDictionary_nil
  · exact searchAt_inDictionary

theorem find_inDictionary {b : Build} {a : Act} {w : Window} {m : MatchFinder} {p rem : Nat} :
    InDictionary w (find b a w m p rem).1 := by
  rw [find]
  split
  · rw [binaryTreeFind]
    split
    · exact hashChainFind_inDictionary
    · rename_i which _
      rw [substituteFind]
      simp only
      split
      · intro c hc
        have hok := (keepCandidates_mem hc).2
        simp only [candidateOk, decide_eq_true_eq] at hok
        omega
      · exact inDictionary_nil
  · exact hashChainFind_inDictionary

/-- What the finder has cached for the positions from `cur` on is in the dictionary. -/
def CacheInDictionary (w : Window) (cur : Nat) (m : MatchFinder) : Prop :=
  ∀ q list, m.cache = some (q, list) → cur ≤ q → InDictionary w list

theorem CacheInDictionary.moveOn {w : Window} {cur cur' : Nat} {m : MatchFinder} (h : CacheInDictionary w cur m) (hc : cur ≤ cur') :
    CacheInDictionary w cur' m := fun q list hq hle => h q list hq (Nat.le_trans hc hle)

/-- What a search or a skip keeps of the finder: its tables' form, and the candidates it caches in the dictionary. -/
structure FinderStep (w : Window) (m m' : MatchFinder) : Prop where
  ok : m.Ok → m'.Ok
  cache : ∀ cur, CacheInDictionary w cur m → CacheInDictionary w cur m'

theorem FinderStep.refl {w : Window} {m : MatchFinder} : FinderStep w m m := ⟨id, fun _ => id⟩

theorem FinderStep.trans {w : Window} {m m' m'' : MatchFinder} (h : FinderStep w m m') (h' : FinderStep w m' m'') :
    FinderStep w m m'' := ⟨h'.ok ∘ h.ok, fun cur => h'.cache cur ∘ h.cache cur⟩

theorem searchAndCache_step {b : Build} {a : Act} {w : Window} {m : MatchFinder} {p rem : Nat} :
    FinderStep w m (searchAndCache b a w m p rem).2 ∧ InDictionary w (searchAndCache b a w m p rem).1 :=
  ⟨⟨(filedAt_find (b := b) (a := a)).ok, fun _ _ q list hq _ => by
    cases hq
    exact find_inDictionary⟩, find_inDictionary⟩

theorem skipMany_step {b : Build} {a : Act} {w : Window} {stop n : Nat} {m : MatchFinder} :
    FinderStep w m (skipMany b a w stop n m) := by
  induction n generalizing m with
  | zero => exact .refl
  | succ n ih =>
    have hfiled : FiledAt w m (skip b a w m m.next (stop - m.next)) m.next (stop - m.next) := filedAt_skip
    refine FinderStep.trans (m' := { skip b a w m m.next (stop - m.next) with next := m.next + 1 }) ⟨hfiled.ok, fun cur h => ?_⟩ ih
    intro q list hq
    exact h q list (hfiled.cache.symm.trans hq)

/-- `Cands` (R733). -/
theorem cands_step {b : Build} {a : Act} {segEnd p : Nat} {l : Lane} :
    ∃ m, (cands b a segEnd p l).2 = { l with mf := m } ∧ FinderStep l.win l.mf m ∧
      ∀ cur, cur ≤ p → CacheInDictionary l.win cur l.mf → InDictionary l.win (cands b a segEnd p l).1 := by
  have hsearch := searchAndCache_step (b := b) (a := a) (w := l.win) (m := l.mf) (p := p) (rem := segEnd - p)
  rw [cands]
  split
  · rename_i q list hq
    split
    · rename_i hqp
      exact ⟨l.mf, rfl, .refl, fun cur hcur h => h q list hq (hqp ▸ hcur)⟩
    · exact ⟨_, rfl, hsearch.1, fun _ _ _ => hsearch.2⟩
  · exact ⟨_, rfl, hsearch.1, fun _ _ _ => hsearch.2⟩

/-! ## The parser's choice has the length it may have (R730, R761) -/

/-- The choice codes at least one byte and at most `most`, and its operands can be spelled (R341, R342). -/
def Choice.Formed (most : Nat) : Choice → Prop
  | .lit | .shortrep => True
  | .rep i n => i ≤ 3 ∧ 2 ≤ n ∧ n ≤ most
  | .mtch _ n => 2 ≤ n ∧ n ≤ most

/-- The choice's distance is in the dictionary of `w`. -/
def Choice.InDictionary (w : Window) : Choice → Prop
  | .mtch d _ => d ≤ w.dictSize.toNat
  | .lit | .shortrep | .rep _ _ => True

theorem Choice.Formed.len {most : Nat} {c : Choice} (h : c.Formed most) (hm : 1 ≤ most) : 1 ≤ c.len ∧ c.len ≤ most := by
  cases c with
  | lit | shortrep => exact ⟨Nat.le_refl _, hm⟩
  | rep i n => exact ⟨by have := h.2.1; simp only [Choice.len]; omega, h.2.2⟩
  | mtch d n => exact ⟨by have := h.1; simp only [Choice.len]; omega, h.2⟩

/-- `EncSym` codes the symbol of a choice that is formed, whatever the window (R611, R732). -/
theorem Choice.Formed.encSym_eq {most : Nat} {c : Choice} {l : Lane} (h : c.Formed most) : encSym c l = c.sym.coded l := by
  cases c with
  | lit => exact encLit_eq
  | shortrep => exact encShortrep_eq
  | rep i n => exact encRep_eq h.1 h.2.1
  | mtch d n => exact encMatch_eq h.1

theorem litOrShort_formed {l : Lane} {most : Nat} {w : Window} : (litOrShort l).Formed most ∧ (litOrShort l).InDictionary w := by
  rw [litOrShort]
  split <;> exact ⟨trivial, trivial⟩

theorem repLength_le {l : Lane} {most i : Nat} : repLength l most i ≤ most := by
  rw [repLength]
  split
  · exact matchLength_le
  · exact Nat.zero_le _

theorem longest_inDictionary {w : Window} {list : List (Nat × Nat)} (h : InDictionary w list) : (longest list).2 ≤ w.dictSize.toNat := by
  rw [longest]
  cases hl : list.getLast? with
  | none => exact Nat.zero_le _
  | some c => exact h c (List.mem_of_getLast? hl)

/-- What a parser's answer `r` at lane `l` is: a choice that is formed, and a step of the finder; a match's distance is in the dictionary,
where what the finder has cached is. -/
structure Chosen (most : Nat) (l : Lane) (r : Choice × Lane) (m : MatchFinder) : Prop where
  lane : r.2 = { l with mf := m }
  formed : r.1.Formed most
  step : FinderStep l.win l.mf m
  inDictionary : CacheInDictionary l.win l.win.cur l.mf → r.1.InDictionary l.win

theorem greedyLazy_chosen {b : Build} {a : Act} {most segEnd : Nat} {l : Lane} :
    ∃ m, Chosen most l (greedyLazy b a most segEnd l) m := by
  obtain ⟨m1, hl1, hs1, hd1⟩ := cands_step (b := b) (a := a) (segEnd := segEnd) (p := l.win.cur) (l := l)
  have hlit := litOrShort_formed (l := l) (most := most) (w := l.win)
  have hmatch (hml : 2 ≤ min (longest (cands b a segEnd l.win.cur l).1).1 most) {l' : Lane} {m : MatchFinder}
      (hl : l' = { l with mf := m }) (hs : FinderStep l.win l.mf m) :
      Chosen most l (.mtch (longest (cands b a segEnd l.win.cur l).1).2 (min (longest (cands b a segEnd l.win.cur l).1).1 most), l') m :=
    ⟨hl, ⟨hml, Nat.min_le_right _ _⟩, hs, fun hc => longest_inDictionary (hd1 _ (Nat.le_refl _) hc)⟩
  simp only [greedyLazy]
  split
  · exact ⟨m1, hl1, hlit.1, hs1, fun _ => hlit.2⟩
  · split
    · rename_i hbr
      obtain ⟨h3, h4⟩ := bestRep_spec (l := l) (most := most)
      exact ⟨m1, hl1, ⟨h3, hbr.1, Nat.le_trans h4 repLength_le⟩, hs1, fun _ => trivial⟩
    · split
      · exact ⟨m1, hl1, hlit.1, hs1, fun _ => hlit.2⟩
      · rename_i hml
        split
        · obtain ⟨m2, hl2, hs2, -⟩ := cands_step (b := b) (a := a) (segEnd := segEnd) (p := l.win.cur + 1)
            (l := (cands b a segEnd l.win.cur l).2)
          rw [hl1] at hl2 hs2
          have hs2 := hs1.trans hs2
          simp only [hl1] at hl2 ⊢
          split
          · exact ⟨m2, hl2, hlit.1, hs2, fun _ => hlit.2⟩
          · exact ⟨m2, hmatch (by omega) hl2 hs2⟩
        · exact ⟨m1, hmatch (by omega) hl1 hs1⟩

theorem formed_of_allowed {c : Choice} {l : Lane} {most : Nat} (h : c.allowed l most = true) :
    c.Formed most ∧ c.InDictionary l.win := by
  cases c with
  | lit | shortrep => exact ⟨trivial, trivial⟩
  | rep i n =>
    obtain ⟨h1, h2, h3, -⟩ := of_decide_eq_true h
    exact ⟨⟨h1, h2, h3⟩, trivial⟩
  | mtch d n =>
    obtain ⟨-, h2, h3, h4, -⟩ := of_decide_eq_true (Bool.and_eq_true_iff.mp h).1
    exact ⟨⟨h3, h4⟩, Nat.le_trans h2 (Nat.min_le_right _ _)⟩

theorem askParser_step {which : Nat} {b : Build} {a : Act} {most segEnd turns : Nat} {l : Lane} :
    ∃ m, (askParser which b a most segEnd turns l).2 = { l with mf := m } ∧ FinderStep l.win l.mf m := by
  induction turns generalizing l with
  | zero => exact ⟨l.mf, rfl, .refl⟩
  | succ n ih =>
    simp only [askParser]
    generalize Config.optParser which a.niceLen.toNat a.depth.toNat l most segEnd = r
    have hown : FinderStep l.win l.mf { l.mf with own := { l.mf.own with parser := r.2 } } := ⟨id, fun _ => id⟩
    split
    · exact ⟨_, rfl, hown⟩
    · split
      · obtain ⟨m, hm, hstep⟩ := ih (l := searchAhead b a segEnd { l with mf := { l.mf with own := { l.mf.own with parser := r.2 } } })
        refine ⟨m, hm, (hown.trans ?_).trans hstep⟩
        have hsearch := (searchAndCache_step (b := b) (a := a) (w := l.win)
          (m := { l.mf with own := { l.mf.own with parser := r.2 } }) (p := max l.mf.next l.win.cur)
          (rem := segEnd - max l.mf.next l.win.cur)).1
        exact ⟨hsearch.ok, hsearch.cache⟩
      · exact ⟨_, rfl, hown⟩

/-- Whatever the parser, the window and the finder (R730, R761). -/
theorem choose_chosen {b : Build} {a : Act} {most segEnd : Nat} {l : Lane} : ∃ m, Chosen most l (choose b a most segEnd l) m := by
  rw [choose]
  split
  · rw [optimalParser]
    split
    · exact greedyLazy_chosen
    · rename_i which _
      obtain ⟨m, hm, hstep⟩ := askParser_step (which := which) (b := b) (a := a) (most := most) (segEnd := segEnd)
        (turns := segEnd - l.win.cur + 1) (l := l)
      have hallowed := (askParser_allowed (which := which) (b := b) (a := a) (most := most) (segEnd := segEnd)
        (turns := segEnd - l.win.cur + 1) (l := l)).1
      obtain ⟨h1, h2⟩ := formed_of_allowed hallowed
      rw [hm] at h2
      exact ⟨m, hm, h1, hstep, fun _ => h2⟩
  · exact greedyLazy_chosen

/-! ## Symbols of a chunk (R732, R810, R811) -/

/-- The symbol's distance, if it is a match, is in the dictionary of `w`. -/
def Sym.InDictionary (w : Window) : Sym → Prop
  | .mtch d _ => d ≤ w.dictSize.toNat
  | .lit | .shortrep | .rep _ _ | .eos => True

/-- One symbol of 1 to `most` bytes, whatever the window and the finder (R732, R810). -/
theorem codeSymbol_coded {b : Build} {a : Act} {most segEnd : Nat} {l : Lane} (hm : 1 ≤ most) :
    ∃ (y : Sym) (m : MatchFinder), codeSymbol b a most segEnd l = (y.len, { y.coded l with mf := m }) ∧
      1 ≤ y.len ∧ y.len ≤ most ∧ FinderStep l.win l.mf m ∧ (CacheInDictionary l.win l.win.cur l.mf → y.InDictionary l.win) := by
  obtain ⟨m, hl1, hformed, hstep, hdict⟩ := choose_chosen (b := b) (a := a) (most := most) (segEnd := segEnd) (l := l)
  generalize hr : choose b a most segEnd l = r at *
  obtain ⟨h1, h2⟩ := hformed.len hm
  have henc : encSym r.1 { l with mf := m } = { r.1.sym.coded l with mf := m } := by
    rw [hformed.encSym_eq, Sym.coded_withMf]
  have hskip : FinderStep l.win m (skipMany b a (r.1.sym.coded l).win segEnd ((r.1.sym.coded l).win.cur - m.next) m) := by
    have h := skipMany_step (b := b) (a := a) (w := (r.1.sym.coded l).win) (stop := segEnd)
      (n := (r.1.sym.coded l).win.cur - m.next) (m := m)
    exact ⟨h.ok, h.cache⟩
  refine ⟨r.1.sym, _, ?_, by rw [Choice.sym_len]; exact h1, by rw [Choice.sym_len]; exact h2, hstep.trans hskip, fun hc => ?_⟩
  · simp only [codeSymbol, hr, hl1, henc, Choice.sym_len, advance]
  · have := hdict hc
    cases hs : r.1 <;> rw [hs] at this <;> exact this

/-- The symbols of a chunk: no byte beyond the segment's end and no more than `U_LIMIT` (R810, R811). -/
theorem codeChunk_coded {b : Build} {a : Act} {segEnd fuel cu : Nat} {l : Lane} (hcu : cu ≤ Config.uLimit) (hcur : l.win.cur ≤ segEnd) :
    ∃ ys m, codeChunk b a segEnd fuel cu l = (cu + Sym.total ys, { codedAll ys l with mf := m }) ∧
      cu + Sym.total ys ≤ Config.uLimit ∧ l.win.cur + Sym.total ys ≤ segEnd ∧ FinderStep l.win l.mf m ∧
      (1 ≤ fuel → l.win.cur < segEnd → cu < Config.uLimit → pendingSize l.rce < Config.cSoft → 1 ≤ Sym.total ys) := by
  induction fuel generalizing cu l with
  | zero => exact ⟨[], l.mf, rfl, hcu, hcur, .refl, fun hf => absurd hf (by decide)⟩
  | succ fuel ih =>
    rw [codeChunk]
    split
    · rename_i hgo
      obtain ⟨hlt, hu, -⟩ := hgo
      obtain ⟨y, m, heq, hpos, hlen, hstep, -⟩ := codeSymbol_coded (b := b) (a := a) (segEnd := segEnd) (l := l)
        (most := min Config.matchLenMax (min (Config.uLimit - cu) (segEnd - l.win.cur))) (by rw [Config.matchLenMax]; omega)
      have hcur' : ({ y.coded l with mf := m } : Lane).win.cur = l.win.cur + y.len := rfl
      obtain ⟨ys, m', heq', hlim, hend, hstep', -⟩ := ih (cu := cu + y.len) (l := { y.coded l with mf := m }) (by omega) (by omega)
      rw [codedAll_withMf] at heq'
      refine ⟨y :: ys, m', ?_, by rw [Sym.total_cons]; omega, by rw [Sym.total_cons]; omega, hstep.trans ⟨hstep'.ok, hstep'.cache⟩,
        fun _ _ _ _ => by rw [Sym.total_cons]; omega⟩
      simp only [heq]
      rw [heq', codedAll_cons, Sym.total_cons, Nat.add_assoc]
    · rename_i hstop
      exact ⟨[], l.mf, rfl, hcu, hcur, .refl, fun _ h1 h2 h3 => absurd ⟨h1, h2, h3⟩ hstop⟩

/-! ## The bytes an encoder holds (R405, R408, R411) -/

/-- The bytes shifted out, written or held back (R411). -/
def RangeEnc.shifted (e : RangeEnc) : Nat := e.cbuf.length + e.cacheSize

theorem shiftLow_shifted {e : RangeEnc} : (shiftLow e).shifted = e.shifted + 1 := by
  simp only [shiftLow, RangeEnc.shifted]
  split
  · simp [heldBytes_length]
  · simp only
    omega

theorem encNormLoop_shifted {n : Nat} {e : RangeEnc} :
    e.shifted ≤ (encNormLoop n e).shifted ∧ (encNormLoop n e).shifted ≤ e.shifted + n := by
  induction n generalizing e with
  | zero => exact ⟨Nat.le_refl _, Nat.le_refl _⟩
  | succ n ih =>
    rw [encNormLoop]
    split
    · have h := ih (e := shiftLow { e with range := BitVec.ofNat 32 (e.range.toNat * 2 ^ 8) })
      rw [shiftLow_shifted] at h
      have heq : ({ e with range := BitVec.ofNat 32 (e.range.toNat * 2 ^ 8) } : RangeEnc).shifted = e.shifted := rfl
      omega
    · omega

/-- A decision shifts out at most four bytes. -/
theorem Decision.code_shifted {d : Decision} {l : Lane} :
    l.rce.shifted ≤ (d.code l).rce.shifted ∧ (d.code l).rce.shifted ≤ l.rce.shifted + 4 := by
  cases d with
  | cell i b =>
    have heq : (encSplit (splitPoint l.rce.range (l.cell i)) b l.rce).shifted = l.rce.shifted := by cases b <;> rfl
    have h := encNormLoop_shifted (n := 4) (e := encSplit (splitPoint l.rce.range (l.cell i)) b l.rce)
    rwa [heq] at h
  | direct b =>
    exact encNormLoop_shifted (n := 4) (e := { l.rce with
      range := BitVec.ofNat 32 (l.rce.range.toNat / 2)
      low := if b then BitVec.ofNat 33 (l.rce.low.toNat + l.rce.range.toNat / 2) else l.rce.low })

theorem codeDecisions_shifted {ds : List Decision} {l : Lane} :
    l.rce.shifted ≤ (codeDecisions ds l).rce.shifted ∧ (codeDecisions ds l).rce.shifted ≤ l.rce.shifted + 4 * ds.length := by
  induction ds generalizing l with
  | nil => exact ⟨Nat.le_refl _, Nat.le_refl _⟩
  | cons d ds ih =>
    have h1 := d.code_shifted (l := l)
    have h2 := ih (l := d.code l)
    rw [codeDecisions_cons, List.length_cons]
    omega

theorem codedAll_shifted {ys : List Sym} {l : Lane} : l.rce.shifted ≤ (codedAll ys l).rce.shifted := by
  induction ys generalizing l with
  | nil => exact Nat.le_refl _
  | cons y ys ih => exact Nat.le_trans (codeDecisions_shifted (ds := y.decisions l)).1 (ih (l := y.coded l))

/-- A flush writes as many bytes as are pending, whatever the encoder (R408, R411). -/
theorem encFlush_length {e : RangeEnc} : (encFlush e).cbuf.length = pendingSize e := by
  have hlow (e : RangeEnc) : (shiftLow e).low.toNat = e.low.toNat % 2 ^ 24 * 2 ^ 8 := by
    simp only [shiftLow]
    split <;>
    · simp only [BitVec.toNat_ofNat]
      omega
  have hlast (e : RangeEnc) (h : e.low.toNat = 0) : (shiftLow e).cacheSize = 1 := by
    simp only [shiftLow]
    rw [if_pos (.inl (by omega))]
  have hz : (shiftLow (shiftLow (shiftLow (shiftLow e)))).low.toNat = 0 := by
    simp only [hlow]
    omega
  have h5 : (encFlush e).shifted = e.shifted + 5 := by
    simp only [encFlush, shiftLow_shifted]
  have h1 : (encFlush e).cacheSize = 1 := hlast _ hz
  simp only [RangeEnc.shifted, h1] at h5
  rw [pendingSize]
  omega

end Sys2Proof.Machine
end

section
/-! PROOFS. A segment, whatever the lane holds: it is coded to its end, lane 0 is left as sound as it was, and what is written are chunks
whose headers pass the decoder's checks from the session's flags on (R810 to R813, R830, R852). -/

namespace Sys2Proof.Machine

/-! ## A chunk and a segment (R810, R812) -/

theorem Lane.withRce_encodesTo {l : Lane} {r : RangeEnc} (h : l.EncOk → r.Ok) : l.EncodesTo { l with rce := r } :=
  ⟨rfl, ⟨rfl, rfl⟩, id, h, .refl, ⟨rfl, rfl, rfl⟩, rfl, id⟩

/-- A flushed encoder is sound: its range stays, and nothing is held back (R401, R408). -/
theorem encFlush_ok {e : RangeEnc} (h : e.Ok) : (encFlush e).Ok := by
  obtain ⟨-, -, hrange, -, hlow, hcache, hsize, -⟩ := encFlush_spec h
  have hlt := e.range.isLt
  refine ⟨by rw [hrange]; exact h.1, ?_, Nat.le_of_eq hsize.symm, fun hff => ?_⟩
  · rw [hrange, hlow]
    show 0 + e.range.toNat < 2 ^ 33
    omega
  · rw [hcache] at hff
    exact nomatch hff

theorem Lane.afterLzma_encodesTo {m : Lane} : m.EncodesTo m.afterLzma :=
  ⟨rfl, ⟨rfl, rfl⟩, (fun _ h => nomatch h), And.left, .refl, ⟨rfl, rfl, rfl⟩, rfl, id⟩

theorem Lane.afterRaw_encodesTo {m : Lane} : m.EncodesTo m.afterRaw :=
  ⟨rfl, ⟨rfl, rfl⟩, (fun _ h => nomatch h), And.left, fun _ => ⟨cellsOk_nil, fun _ _ h => nomatch h⟩, ⟨rfl, rfl, rfl⟩, rfl, id⟩

/-- A chunk's symbols are coded from a fresh range encoder and flushed, and then it is written (R810). -/
structure ChunkCoded (b : Build) (a : Act) (segEnd : Nat) (e : Lane) (n : Nat) (m : Lane) : Prop where
  pos : 1 ≤ n
  limit : n ≤ Config.uLimit
  end_le : e.win.cur + n ≤ segEnd
  lane : e.EncodesTo m
  cur : m.win.cur = e.win.cur + n
  flags : m.l2e = e.l2e
  payload : 5 ≤ m.rce.cbuf.length
  eq : encodeChunk b a segEnd e = emitChunk e.win.cur n m
  count : n = (codeChunk b a segEnd (segEnd - e.win.cur) 0 { e with rce := RangeEnc.fresh }).1

theorem encodeChunk_coded {b : Build} {a : Act} {segEnd : Nat} {e : Lane} (hlt : e.win.cur < segEnd) :
    ∃ n m, ChunkCoded b a segEnd e n m := by
  obtain ⟨ys, f, heq, hlim, hend, hstep, hpos⟩ := codeChunk_coded (b := b) (a := a) (segEnd := segEnd)
    (fuel := segEnd - e.win.cur) (cu := 0) (l := { e with rce := RangeEnc.fresh }) (Nat.zero_le _) (Nat.le_of_lt hlt)
  have hpos := hpos (by omega) hlt (by decide) (show pendingSize RangeEnc.fresh < Config.cSoft by decide)
  rw [Nat.zero_add] at heq hlim
  have hcoded := codedAll_encodesTo (ys := ys) (l := { e with rce := RangeEnc.fresh })
  have hshifted := codedAll_shifted (ys := ys) (l := { e with rce := RangeEnc.fresh })
  have hwin := codedAll_win (ys := ys) (l := { e with rce := RangeEnc.fresh })
  have hl2e : (codedAll ys { e with rce := RangeEnc.fresh }).l2e = e.l2e := by rw [codedAll_frame]
  have hmf : (codedAll ys { e with rce := RangeEnc.fresh }).mf = e.mf := by rw [codedAll_frame]
  generalize codedAll ys { e with rce := RangeEnc.fresh } = m at *
  have hcbuf : 5 ≤ (encFlush m.rce).cbuf.length := by
    have : RangeEnc.fresh.shifted ≤ m.rce.shifted := hshifted
    have h1 : RangeEnc.fresh.shifted = 1 := rfl
    rw [h1, RangeEnc.shifted] at this
    rw [encFlush_length, pendingSize]
    omega
  refine ⟨Sym.total ys, { m with mf := f, rce := encFlush m.rce }, hpos, hlim, hend, ?_, by rw [hwin], hl2e, hcbuf, ?_, ?_⟩
  · have hmf' : m.EncodesTo { m with mf := f } := Lane.withMf_encodesTo (by rw [hmf]; exact hstep.ok)
    exact (((Lane.withRce_encodesTo fun _ => rangeEnc_fresh_ok).trans hcoded).trans hmf').trans
      (Lane.withRce_encodesTo fun h => encFlush_ok h.1)
  · simp only [encodeChunk, heq]
  · rw [heq]

section
variable {b : Build} {a : Act} {segEnd n : Nat} {e m : Lane} (h : ChunkCoded b a segEnd e n m) (hend : segEnd ≤ e.win.endPos)
include h

theorem ChunkCoded.ahead : (m.win.bytes.drop e.win.cur).take n = e.win.ahead n := by
  rw [h.lane.win]
  rfl

include hend

/-- The chunk is written as LZMA, or its bytes as uncompressed chunks (R812). -/
theorem ChunkCoded.emitted :
    (m.rce.cbuf.length ≤ 65536 ∧
      encodeChunk b a segEnd e = (lzmaHeader m n m.rce.cbuf.length ++ m.rce.cbuf, m.afterLzma)) ∨
    encodeChunk b a segEnd e = (rawChunks e.l2e.needDict (pieces Config.rawMax n (e.win.ahead n)), m.afterRaw) := by
  have hle := h.end_le
  rw [h.eq]
  by_cases hcs : m.rce.cbuf.length + 2 < n ∧ m.rce.cbuf.length ≤ 65536
  · exact .inl ⟨hcs.2, emitChunk_lzma hcs⟩
  · rw [emitChunk_raw hcs h.ahead (Window.ahead_ne_nil h.pos (by omega)), h.flags]
    exact .inr rfl

/-- The lane after a chunk (R812). -/
theorem ChunkCoded.encodesTo :
    e.EncodesTo (encodeChunk b a segEnd e).2 ∧ (encodeChunk b a segEnd e).2.win.cur = e.win.cur + n := by
  rcases h.emitted hend with ⟨-, heq⟩ | heq <;> rw [heq]
  · exact ⟨h.lane.trans Lane.afterLzma_encodesTo, h.cur⟩
  · exact ⟨h.lane.trans Lane.afterRaw_encodesTo, h.cur⟩

end

/-- A segment is coded to its end, whatever the lane holds (R810). -/
theorem encodeSegmentLoop_encodesTo {b : Build} {a : Act} {segEnd fuel : Nat} {e : Lane} (hcur : e.win.cur ≤ segEnd)
    (hend : segEnd ≤ e.win.endPos) (hfuel : segEnd - e.win.cur ≤ fuel) :
    e.EncodesTo (encodeSegmentLoop b a segEnd fuel e).2 ∧ (encodeSegmentLoop b a segEnd fuel e).2.win.cur = segEnd := by
  induction fuel generalizing e with
  | zero => exact ⟨.refl, show e.win.cur = segEnd by omega⟩
  | succ fuel ih =>
    simp only [encodeSegmentLoop]
    split
    · rename_i hlt
      obtain ⟨n, m, h⟩ := encodeChunk_coded (b := b) (a := a) hlt
      obtain ⟨h1, h2⟩ := h.encodesTo hend
      have hpos := h.pos
      have hle := h.end_le
      obtain ⟨g1, g2⟩ := ih (e := (encodeChunk b a segEnd e).2) (by omega) (by rw [h1.endPos]; exact hend) (by omega)
      exact ⟨h1.trans g1, g2⟩
    · exact ⟨.refl, show e.win.cur = segEnd by omega⟩

theorem encodeSegment_encodesTo {b : Build} {a : Act} {segEnd : Nat} {e : Lane} (hcur : e.win.cur ≤ segEnd)
    (hend : segEnd ≤ e.win.endPos) :
    e.EncodesTo (encodeSegment b a segEnd e).2 ∧ (encodeSegment b a segEnd e).2.win.cur = segEnd :=
  encodeSegmentLoop_encodesTo hcur hend (Nat.le_refl _)

/-! ## Headers that pass the decoder's checks (R350, R830, R834) -/

/-- The chunk's header passes the decoder's checks where the flags are `d`'s: what `CodedChunk.Legal` says of the header alone. -/
def CodedChunk.HeadOk (k : CodedChunk) (d : DecSession) : Prop :=
  match k with
  | .raw reset x => (reset = true ∨ d.needDictReset = false) ∧ 1 ≤ x.length ∧ x.length ≤ 65536
  | .lzma level pr _ x payload =>
    let h := head level pr x payload
    h.InRange ∧ h.InSequence d ∧ h.PropsOk ∧ 5 ≤ payload.length

/-- Chunks in a row, each with a header that passes where the ones before it leave the flags. -/
def CodedChunk.HeadsOk (a : Act) : List CodedChunk → Lane → Prop
  | [], _ => True
  | k :: ks, d => k.HeadOk d.l2d ∧ HeadsOk a ks (k.after a d)

theorem CodedChunk.headsOk_append {a : Act} {ks js : List CodedChunk} {d : Lane} :
    CodedChunk.HeadsOk a (ks ++ js) d ↔ CodedChunk.HeadsOk a ks d ∧ CodedChunk.HeadsOk a js (CodedChunk.afterAll a ks d) := by
  induction ks generalizing d with
  | nil => exact ⟨fun h => ⟨trivial, h⟩, And.right⟩
  | cons k ks ih =>
    rw [List.cons_append, HeadsOk, ih, HeadsOk, and_assoc]
    exact Iff.rfl

/-- A chunk whose header passes is read (R830, R832). -/
theorem readChunk_head {a : Act} {k : CodedChunk} {d : Lane} {cap total : Nat} {s : State} {rest : List Byte} (hk : k.HeadOk d.l2d)
    (hcap : total + k.bytes.length ≤ cap) (hinp : s.inp = k.wire ++ rest) :
    readChunk cap (d.l2d.flags total) s =
      .ok (some (k.toChunk, (k.after a d).l2d.flags (total + k.bytes.length))) { s with inp := rest } := by
  cases k with
  | raw reset x => exact readChunk_wire (k := .raw reset x) hk hcap hinp
  | lzma level pr ys x payload =>
    obtain ⟨hr, ⟨hd, hp⟩, hpr, h5⟩ := hk
    have hseq : (d.l2d.needDictReset && !decide (level = 3)) = false := by
      rcases hd with (hd : level = 3) | hd <;> simp [hd]
    have hprops : 2 ≤ level.val ∨ ((d.l2d.flags total).atControl (level = 3)).needProps = false := by
      rcases hp with hp | hp
      · exact .inl hp
      · by_cases hl : level = 3
        · exact .inl (hl ▸ by decide)
        · exact .inr (by simp [SeqFlags.atControl, DecSession.flags, hp, hl])
    have hctl := LzmaHead.control_toNat hr
    rw [readChunk_control (resets := decide (level = 3)) hinp (fun hc => by simp [hc] at hctl; omega)
      (LzmaHead.resetsDict_control hr) hseq, if_pos (LzmaHead.isLzmaChunk_control hr),
      readLzma_wire (rest := rest) hr hpr hprops rfl h5 rfl hcap]
    simp [CodedChunk.toChunk, CodedChunk.control, CodedChunk.bytes, CodedChunk.after, DecSession.flags, SeqFlags.atControl,
      CodedChunk.resetsDictionary, CodedChunk.givesProps]

/-- The coordinator reads chunks whose headers pass, up to the end marker: as many bytes as they stand for (R921). -/
theorem parseStream_heads {s : State} {a : Act} {ks : List CodedChunk} {d : Lane} {rest : List Byte} {cap read fuel total : Nat}
    {inForce : Option Byte} {done : List ChunkRecord} (hk : CodedChunk.HeadsOk a ks d)
    (hcap : total + (CodedChunk.allBytes ks).length ≤ cap) (hinp : s.inp = CodedChunk.wires ks ++ 0x00#8 :: rest)
    (hfuel : ks.length < fuel) :
    ∃ records, parseStream cap read fuel (d.l2d.flags total) inForce done s =
        .ok (done ++ records, none) { s with inp := rest } ∧
      (records.map fun r => r.chunk.size).sum = (CodedChunk.allBytes ks).length := by
  induction ks generalizing s d total inForce done fuel with
  | nil =>
    obtain ⟨f, rfl⟩ : ∃ f, fuel = f + 1 := Nat.exists_eq_add_of_le' hfuel
    refine ⟨[], ?_, rfl⟩
    rw [parseStream, readChunk, inByte_cons hinp, Res.bind_ok, if_pos rfl, List.append_nil]
  | cons k ks ih =>
    obtain ⟨f, rfl⟩ : ∃ f, fuel = f + 1 := ⟨fuel - 1, by omega⟩
    obtain ⟨hk, hks⟩ := hk
    rw [CodedChunk.allBytes_cons, List.length_append] at hcap ⊢
    rw [CodedChunk.wires_cons, List.append_assoc] at hinp
    obtain ⟨records, h1, h2⟩ := ih (s := { s with inp := CodedChunk.wires ks ++ 0x00#8 :: rest }) (total := total + k.bytes.length)
      (inForce := k.toChunk.props <|> inForce)
      (done := done ++ [k.record { index := done.length, offset := read - s.inp.length } inForce]) hks (by omega) rfl
      (Nat.lt_of_succ_lt_succ hfuel)
    refine ⟨k.record { index := done.length, offset := read - s.inp.length } inForce :: records, ?_, ?_⟩
    · rw [parseStream, readChunk_head hk (by omega) hinp, List.append_cons (bs := records)]
      exact h1
    · rw [List.map_cons, List.sum_cons, h2]
      rfl

/-- The decoder's flags are those of the encoder's session: both wait for the same (R812, R830). -/
structure InFlags (e : EncSession) (d : DecSession) : Prop where
  dict : d.needDictReset = e.needDict
  props : d.needProps = e.needProps
  order : e.needDict = true → e.needProps = true

/-- An LZMA chunk of the session's next level passes, and leaves both waiting for nothing (R812, R830). -/
theorem InFlags.lzma {a : Act} {e m d : Lane} {x payload : List Byte} (h : InFlags e.l2e d.l2d)
    (hsmall : e.lz.lc.toNat + e.lz.lp.toNat ≤ 4 ∧ e.lz.pb.toNat ≤ 4) (hx : 1 ≤ x.length ∧ x.length ≤ Config.uLimit)
    (hpayload : 5 ≤ payload.length ∧ payload.length ≤ 65536) :
    let k := CodedChunk.lzma (chunkLevel e.l2e) (propsEncode e.lz.lc e.lz.lp e.lz.pb) [] x payload
    k.HeadOk d.l2d ∧ k.wire = lzmaHeader e x.length payload.length ++ payload ∧ InFlags m.afterLzma.l2e (k.after a d).l2d := by
  intro k
  obtain ⟨hl, hpb⟩ := hsmall
  obtain ⟨h224, hprops⟩ := propsEncode_spec (lc := e.lz.lc) (lp := e.lz.lp) (pb := e.lz.pb) (by omega) (by omega) hpb
  have huLimit : Config.uLimit = 2 ^ 21 := rfl
  have hdict : (d.l2d.needDictReset && !decide (chunkLevel e.l2e = 3)) = false := by
    rw [h.dict]
    cases hd : e.l2e.needDict
    · rfl
    · simp [chunkLevel_eq_three.mpr ⟨h.order hd, hd⟩]
  have hlevel : e.l2e.needProps = true → 2 ≤ (chunkLevel e.l2e).val := two_le_chunkLevel.mpr
  refine ⟨⟨⟨hx.1, by show x.length ≤ 2 ^ 21; omega, Nat.le_trans (by decide) hpayload.1, hpayload.2⟩, ⟨?_, ?_⟩,
    fun _ => ⟨h224, by rw [hprops]; exact hl⟩, hpayload.1⟩, ?_, hdict, ?_, fun hc => nomatch hc⟩
  · show chunkLevel e.l2e = 3 ∨ d.l2d.needDictReset = false
    by_cases hl : chunkLevel e.l2e = 3
    · exact .inl hl
    · exact .inr (by simpa [hl] using hdict)
  · show 2 ≤ (chunkLevel e.l2e).val ∨ d.l2d.needProps = false
    rw [h.props]
    cases hp : e.l2e.needProps
    · exact .inr rfl
    · exact .inl (hlevel hp)
  · rw [lzmaHeader_eq (by omega)]
    rfl
  · show ((d.l2d.needProps || decide (chunkLevel e.l2e = 3)) && !decide (2 ≤ (chunkLevel e.l2e).val)) = false
    rw [h.props]
    cases hp : e.l2e.needProps
    · have : ¬ chunkLevel e.l2e = 3 := fun hc => by
        rw [(chunkLevel_eq_three.mp hc).1] at hp
        exact nomatch hp
      simp [this]
    · simp [hlevel hp]

/-- Raw chunks that reset nothing pass, and change no flag. -/
theorem rawList_false_heads {a : Act} {ps : List (List Byte)} {d : Lane} (hflag : d.l2d.needDictReset = false)
    (hps : ∀ p ∈ ps, 1 ≤ p.length ∧ p.length ≤ 65536) :
    CodedChunk.HeadsOk a (rawList false ps) d ∧ (CodedChunk.afterAll a (rawList false ps) d).l2d.needDictReset = false ∧
      (CodedChunk.afterAll a (rawList false ps) d).l2d.needProps = d.l2d.needProps := by
  obtain ⟨-, -, -, -, h5, h6⟩ := rawList_false_spec (a := a) hflag hps
  refine ⟨?_, h5, h6⟩
  clear h5 h6
  induction ps generalizing d with
  | nil => trivial
  | cons p ps ih =>
    exact ⟨⟨.inr hflag, hps p List.mem_cons_self⟩, ih (by simp [CodedChunk.after, hflag]) fun q hq => hps q (List.mem_cons_of_mem _ hq)⟩

/-- Uncompressed chunks of the session pass: the first resets the dictionary where the session asks for it (R812, R830). -/
theorem InFlags.raw {a : Act} {e m d : Lane} {n : Nat} (h : InFlags e.l2e d.l2d) (hn : 1 ≤ n) (hend : e.win.cur + n ≤ e.win.endPos)
    (hflags : m.l2e = e.l2e) :
    let ks := rawList e.l2e.needDict (pieces Config.rawMax n (e.win.ahead n))
    CodedChunk.HeadsOk a ks d ∧ CodedChunk.allBytes ks = e.win.ahead n ∧ InFlags m.afterRaw.l2e (CodedChunk.afterAll a ks d).l2d := by
  intro ks
  obtain ⟨p, ps, hpieces, hbytes, hsizes⟩ := exists_pieces (n := Config.rawMax) (fuel := n) (bs := e.win.ahead n) (by decide)
    (Nat.le_of_eq (Window.ahead_length hend)) (Window.ahead_ne_nil hn hend)
  have hks : ks = .raw e.l2e.needDict p :: rawList false ps := by
    simp only [ks, hpieces]
    rfl
  have hflag : ((CodedChunk.raw e.l2e.needDict p).after a d).l2d.needDictReset = false := by
    simp [CodedChunk.after, CodedChunk.resetsDictionary, h.dict]
  have hprops : ((CodedChunk.raw e.l2e.needDict p).after a d).l2d.needProps = e.l2e.needProps := by
    simp only [CodedChunk.after, CodedChunk.resetsDictionary, CodedChunk.givesProps, h.props, Bool.not_false, Bool.and_true]
    cases hd : e.l2e.needDict
    · exact Bool.or_false _
    · rw [h.order hd]
      rfl
  obtain ⟨h1, h2, h3⟩ := rawList_false_heads (a := a) hflag fun q hq => hsizes q (List.mem_cons_of_mem _ hq)
  refine ⟨?_, by simp only [ks, allBytes_rawList, hpieces, List.flatten_cons, hbytes], ?_⟩
  · rw [hks]
    refine ⟨⟨?_, hsizes p List.mem_cons_self⟩, h1⟩
    rw [h.dict]
    cases e.l2e.needDict
    · exact .inr rfl
    · exact .inl rfl
  · rw [hks]
    refine ⟨h2, (h3.trans hprops).trans ?_, fun hc => nomatch hc⟩
    show e.l2e.needProps = m.l2e.needProps
    rw [hflags]

/-- What a chunk of a session writes passes the decoder's checks, and keeps the flags in step (R812, R830). -/
theorem ChunkCoded.heads {b : Build} {a : Act} {segEnd n : Nat} {e m d : Lane} (h : ChunkCoded b a segEnd e n m)
    (hend : segEnd ≤ e.win.endPos) (hsmall : e.lz.lc.toNat + e.lz.lp.toNat ≤ 4 ∧ e.lz.pb.toNat ≤ 4) (hf : InFlags e.l2e d.l2d) :
    ∃ ks, (encodeChunk b a segEnd e).1 = CodedChunk.wires ks ∧ CodedChunk.HeadsOk a ks d ∧ (CodedChunk.allBytes ks).length = n ∧
      InFlags (encodeChunk b a segEnd e).2.l2e (CodedChunk.afterAll a ks d).l2d := by
  have hle : e.win.cur + n ≤ e.win.endPos := Nat.le_trans h.end_le hend
  have hlen := Window.ahead_length hle
  rcases h.emitted hend with ⟨hcs, heq⟩ | heq <;> rw [heq]
  · obtain ⟨h1, h2, h3⟩ := hf.lzma (a := a) (m := m) (x := e.win.ahead n) (payload := m.rce.cbuf) hsmall
      (by rw [hlen]; exact ⟨h.pos, h.limit⟩) ⟨h.payload, hcs⟩
    refine ⟨[_], ?_, ⟨h1, trivial⟩, ?_, h3⟩
    · obtain ⟨p1, p2, p3⟩ := h.lane.props
      rw [CodedChunk.wires_cons, h2, CodedChunk.wires_nil, List.append_nil, hlen]
      simp only [lzmaHeader, h.flags, p1, p2, p3]
    · rw [CodedChunk.allBytes_cons, CodedChunk.allBytes_nil, List.append_nil]
      exact hlen
  · obtain ⟨h1, h2, h3⟩ := hf.raw (a := a) (m := m) h.pos hle h.flags
    exact ⟨_, wires_rawList.symm, h1, by rw [h2, hlen], h3⟩

/-- What a segment writes passes the decoder's checks from the session's flags on, its chunks adding up to the segment (R810, R830). -/
theorem encodeSegmentLoop_heads {b : Build} {a : Act} {segEnd fuel : Nat} {e d : Lane} (hcur : e.win.cur ≤ segEnd)
    (hend : segEnd ≤ e.win.endPos) (hfuel : segEnd - e.win.cur ≤ fuel)
    (hsmall : e.lz.lc.toNat + e.lz.lp.toNat ≤ 4 ∧ e.lz.pb.toNat ≤ 4) (hf : InFlags e.l2e d.l2d) :
    ∃ ks, (encodeSegmentLoop b a segEnd fuel e).1 = CodedChunk.wires ks ∧ CodedChunk.HeadsOk a ks d ∧
      (CodedChunk.allBytes ks).length = segEnd - e.win.cur := by
  induction fuel generalizing e d with
  | zero => exact ⟨[], rfl, trivial, by show 0 = _; omega⟩
  | succ fuel ih =>
    simp only [encodeSegmentLoop]
    split
    · rename_i hlt
      obtain ⟨n, m, h⟩ := encodeChunk_coded (b := b) (a := a) hlt
      obtain ⟨h1, h2⟩ := h.encodesTo hend
      obtain ⟨ks, k1, k2, k3, k4⟩ := h.heads hend hsmall hf
      have hpos := h.pos
      have hle := h.end_le
      obtain ⟨p1, p2, p3⟩ := h1.props
      obtain ⟨js, j1, j2, j3⟩ := ih (e := (encodeChunk b a segEnd e).2) (by omega) (by rw [h1.endPos]; exact hend) (by omega)
        (by rw [p1, p2, p3]; exact hsmall) k4
      refine ⟨ks ++ js, by rw [CodedChunk.wires_append, k1, j1], CodedChunk.headsOk_append.mpr ⟨k2, j2⟩, ?_⟩
      rw [CodedChunk.allBytes_append, List.length_append, k3, j3]
      omega
    · exact ⟨[], rfl, trivial, by show 0 = _; omega⟩

end Sys2Proof.Machine
end

section
/-! PROOFS. What a command leaves sound of lane 0: what the invariant says of a lane, by name, and that each change a command makes to lane 0
keeps it (R117, R118, R119, R401, R701, R801, R813). -/

namespace Sys2Proof.Machine

/-! ## A sound lane -/

/-- What the invariant says of lane 0, a name for each part. -/
structure Lane.Sound (l : Lane) : Prop where
  rce : l.rce.Ok
  rcd : l.rcd.Ok
  cells : CellsOk l.prob
  lz : l.lz.Ok
  cur_le : l.win.cur ≤ l.win.endPos
  mf : l.mf.Ok
  segEnd : l.l2e.segEnd = none
  pb : l.pb = []
  cur : l.l2e.active = true ∨ l.l2d.active = true → l.win.cur = l.win.endPos
  flags : l.l2e.needDict = true → l.l2e.needProps = true
  small : l.l2e.active = true → l.lz.lc.toNat + l.lz.lp.toNat ≤ 4
  oneSession : (l.l2e.active && l.l2d.active) = false

theorem Lane.sound_iff {l : Lane} : l.Sound ↔ l.Ok ∧ (l.l2e.active && l.l2d.active) = false :=
  ⟨fun ⟨h1, h2, h3, h4, h5, h6, h7, h8, h9, h10, h11, h12⟩ => ⟨⟨h1, h2, h3, h4, h5, h6, h7, h8, h9, h10, h11⟩, h12⟩,
    fun ⟨⟨h1, h2, h3, h4, h5, h6, h7, h8, h9, h10, h11⟩, h12⟩ => ⟨h1, h2, h3, h4, h5, h6, h7, h8, h9, h10, h11, h12⟩⟩

/-- The lane stays sound, and its cells inside the store. -/
def Lane.Keeps (l l' : Lane) : Prop := l.Sound → l'.Sound ∧ (l.CellsExist → l'.CellsExist)

theorem Lane.Keeps.refl {l : Lane} : l.Keeps l := fun h => ⟨h, id⟩

theorem Lane.Keeps.trans {l l' l'' : Lane} (h : l.Keeps l') (h' : l'.Keeps l'') : l.Keeps l'' := fun hl =>
  have h1 := h hl
  have h2 := h' h1.1
  ⟨h2.1, h2.2 ∘ h1.2⟩

/-- No session is open on the lane. -/
abbrev Lane.Free (l : Lane) : Prop := l.l2e.active = false ∧ l.l2d.active = false

theorem Lane.Free.not_open {l : Lane} (h : l.Free) : ¬ (l.l2e.active = true ∨ l.l2d.active = true) := by
  rw [h.1, h.2]
  decide

/-! ## LaneInit (R1102) -/

theorem laneReset_sound : Lane.reset.Sound := by
  rw [Lane.sound_iff]
  decide

/-- A configuration that CONFIGURE lets through, or none (R1040). -/
abbrev ActOk (w : Nat) (a : Option Act) : Prop := ∀ b ∈ a, b.Ok w

theorem laneInit_sound {w : Nat} {a : Option Act} (h : ActOk w a) : (laneInit a).Sound := by
  cases a with
  | none => exact laneReset_sound
  | some a =>
    obtain ⟨-, -, hlc, hlp, hpb, -⟩ := h a rfl
    have hlp' : (a.lp.setWidth 3).toNat ≤ 4 := by
      rw [BitVec.toNat_setWidth]
      exact Nat.le_trans (Nat.mod_le _ _) hlp
    exact
      { rce := rangeEnc_fresh_ok
        rcd := (by decide : RangeDec.fresh.Ok)
        cells := cellsOk_nil
        lz := ⟨hlc, hlp', hpb⟩
        cur_le := Nat.le_refl _
        mf := (by decide : MatchFinder.fresh.Ok)
        segEnd := rfl
        pb := rfl
        cur := fun _ => rfl
        flags := fun _ => rfl
        small := fun hc => nomatch hc
        oneSession := rfl }

theorem laneInit_cellsExist {a : Option Act} : (laneInit a).CellsExist := by
  cases a <;> exact fun _ h => nomatch h

theorem laneInit_kept {l : Lane} {w : Nat} {a : Option Act} (h : ActOk w a) : l.Keeps (laneInit a) :=
  fun _ => ⟨laneInit_sound h, fun _ => laneInit_cellsExist⟩

/-! ## Changes to a lane -/

/-- Decoding keeps a lane sound (R630). -/
theorem Lane.DecodesTo.keeps {l l' : Lane} (h : l.DecodesTo l') : l.Keeps l' := fun hl => by
  obtain ⟨hcells, hexist⟩ := h.cells hl.cells
  have hrce : l'.rce = l.rce := by rw [h.eq]
  have hmf : l'.mf = l.mf := by rw [h.eq]
  have hl2e : l'.l2e = l.l2e := by rw [h.eq]
  refine ⟨⟨hrce ▸ hl.rce, h.rcd hl.rcd, hcells, h.lz hl.lz, h.cur_le hl.cur_le, hmf ▸ hl.mf, hl2e ▸ hl.segEnd, h.pb hl.pb,
    fun hopen => h.cur (hl.cur ?_), hl2e ▸ hl.flags, fun hopen => h.small (hl.small (hl2e ▸ hopen)), ?_⟩, hexist⟩
  · rwa [hl2e, h.active] at hopen
  · rw [hl2e, h.active]
    exact hl.oneSession

/-- Encoding keeps a lane sound, where its window stays coded as far as it has to be (R611, R701). -/
theorem Lane.EncodesTo.keeps {l l' : Lane} (h : l.EncodesTo l') (hle : l.win.cur ≤ l.win.endPos → l'.win.cur ≤ l.win.endPos)
    (hcur : l.l2e.active = true ∨ l.l2d.active = true → l.win.cur = l.win.endPos → l'.win.cur = l.win.endPos) : l.Keeps l' := fun hl => by
  obtain ⟨hcells, hexist⟩ := h.cells hl.cells
  obtain ⟨hactive, hsegEnd⟩ := h.session
  obtain ⟨hlc, hlp, hpb⟩ := h.props
  have hrcd : l'.rcd = l.rcd := by rw [h.eq]
  have hl2d : l'.l2d = l.l2d := by rw [h.eq]
  have hbuf : l'.pb = l.pb := by rw [h.eq]
  refine ⟨⟨h.rce ⟨hl.rce, hl.cells⟩, hrcd ▸ hl.rcd, hcells, ?_, h.endPos ▸ hle hl.cur_le, h.mf hl.mf, hsegEnd ▸ hl.segEnd,
    hbuf ▸ hl.pb, fun hopen => ?_, h.flags hl.flags, fun hopen => ?_, ?_⟩, fun hx => ?_⟩
  · rw [Coder.Ok, hlc, hlp, hpb]
    exact hl.lz
  · rw [hactive, hl2d] at hopen
    exact h.endPos ▸ hcur hopen (hl.cur hopen)
  · rw [hlc, hlp]
    exact hl.small (hactive ▸ hopen)
  · rw [hactive, hl2d]
    exact hl.oneSession
  · rw [Lane.CellsExist, h.nprob_eq]
    exact hexist hx

/-- Encoding that does not move the coding position. -/
theorem Lane.EncodesTo.keeps_still {l l' : Lane} (h : l.EncodesTo l') (hcur : l'.win.cur = l.win.cur) : l.Keeps l' :=
  h.keeps (fun hle => hcur ▸ hle) fun _ he => hcur ▸ he

/-- A symbol of bytes that the window holds is coded where no session is open (R621 to R625). -/
theorem Sym.coded_keeps {y : Sym} {l : Lane} (hfree : l.Free) (h : l.win.cur ≤ l.win.endPos → l.win.cur + y.len ≤ l.win.endPos) :
    l.Keeps (y.coded l) :=
  y.coded_encodesTo.keeps h fun hopen => absurd hopen hfree.not_open

theorem Lane.withProb_encodesTo {l : Lane} {p : Memory (BitVec 11)} (h : CellsMoved (nprob l.lz) l.prob p) :
    l.EncodesTo { l with prob := p } := ⟨rfl, ⟨rfl, rfl⟩, id, And.left, h, ⟨rfl, rfl, rfl⟩, rfl, id⟩

/-- A cell of the store is written (R572). -/
theorem cellsMoved_write {n i : Nat} {p : Memory (BitVec 11)} {v : BitVec 11} (hi : i < n) (hv : 1 ≤ v.toNat) :
    CellsMoved n p (Memory.write probMid p i v) := fun hp =>
  ⟨hp.write hv, fun hx x hm => by
    rcases Memory.mem_write hm with ⟨rfl, -⟩ | hm
    · exact hi
    · exact hx x hm⟩

theorem cellsMoved_nil {n : Nat} {p : Memory (BitVec 11)} : CellsMoved n p [] := fun _ => ⟨cellsOk_nil, fun _ _ h => nomatch h⟩

/-- Properties that a properties byte can give are set where no session is open (R360, R670). -/
theorem Lane.setProps_keeps {l : Lane} {x : Byte} (hx : x.toNat ≤ 224) (hfree : l.Free) : l.Keeps (l.setProps x) := fun hl => by
  refine ⟨⟨hl.rce, hl.rcd, cellsOk_nil, ?_, hl.cur_le, hl.mf, hl.segEnd, hl.pb, hl.cur, hl.flags, fun hopen => ?_, hl.oneSession⟩,
    fun _ _ h => nomatch h⟩
  · show (propsDecode x).1.toNat ≤ 8 ∧ (propsDecode x).2.1.toNat ≤ 4 ∧ (propsDecode x).2.2.toNat ≤ 4
    simp only [propsDecode, BitVec.toNat_ofNat]
    omega
  · exact absurd (.inl hopen) hfree.not_open

/-- The window and the finder change where no session is open (R750 to R757). -/
theorem Lane.withWindow_keeps {l : Lane} {w : Window} {m : MatchFinder} (hfree : l.Free)
    (hw : l.win.cur ≤ l.win.endPos → w.cur ≤ w.endPos) (hm : l.mf.Ok → m.Ok) : l.Keeps { l with win := w, mf := m } := fun hl =>
  ⟨⟨hl.rce, hl.rcd, hl.cells, hl.lz, hw hl.cur_le, hm hl.mf, hl.segEnd, hl.pb, fun hopen => absurd hopen hfree.not_open, hl.flags,
    hl.small, hl.oneSession⟩, id⟩

theorem mfReset_ok {w : Window} : (mfReset w).Ok := (by decide : MatchFinder.fresh.Ok)

theorem Window.append_endPos {w : Window} {bs : List Byte} : (w.append bs).endPos = w.endPos + bs.length := List.length_append

end Sys2Proof.Machine
end

section
/-! PROOFS. What every command's own rule can do, session or no session, on any input: the bytes it takes, what it stages, the lanes it leaves,
and how it stops (R231 to R235, R331, R1010). -/

namespace Sys2Proof.Machine

/-! ## The ends of a rule -/

/-- The rule of `i` completes from `t` in `u`. -/
structure Completes (i : Instr) (t u : State) : Prop where
  work : t.Work u
  inp : ReadsIn i ∨ u.inp = t.inp
  stage : WritesOut i ∨ u.stage = t.stage
  sameWorkers : i = .l2Encode ∨ i = .l2Decode ∨ u.workers = t.workers
  workers : u.workers = t.workers ∨ u.workers = t.workers.map fun _ => laneInit t.act
  coord : u.coord = t.coord ∨ u.coord = Coordinator.idle
  lane : ActOk t.laneCount t.act → t.lane0.Keeps u.lane0

/-- The rule of `i` stops from `t` in `u`: it holds before IN_EOF, it is refused with nothing done, or it raises another error. -/
def StopsAt (i : Instr) (t : State) (e : Stop) (u : State) : Prop :=
  match e with
  | .hold => ReadsIn i ∧ t.inEof = false
  | .dry => False
  | .noProgress => True
  | .raise e => e.cause.cls = .illegal ∧ u = t ∨ e.cause.cls ≠ .illegal ∧ t.Work u ∧ (ReadsIn i ∨ u.inp = t.inp)

/-- The rule of `i` from `t` completes or stops as every command's does. -/
abbrev RuleEnds (i : Instr) (t : State) (r : Res State (BitVec 64)) : Prop := r.Ends (fun _ => Completes i t) (StopsAt i t)

/-- The outcome `o` is that of `i` at `s`: after the checks of R1020, a rule that ends as every command's does. -/
def Runs (i : Instr) (s : State) (o : Host.Outcome State Fault Refusal) : Prop :=
  ∃ body, o = runCommand i body s ∧ ∀ t, precheck i t = none → RuleEnds i t (body t)

theorem Runs.of {i : Instr} {body : Body} {s : State} (h : ∀ t, precheck i t = none → RuleEnds i t (body t)) :
    Runs i s (runCommand i body s) := ⟨body, rfl, h⟩

/-- A stop of a computation that reads IN. -/
theorem StopsAt.of_atIn {i : Instr} {t u : State} {e : Stop} (hi : ReadsIn i) (h : t.Work u) (he : e.AtIn t) : StopsAt i t e u := by
  cases e with
  | hold => exact ⟨hi, he⟩
  | dry => exact he
  | noProgress => trivial
  | raise e => exact .inr ⟨he, h, .inl hi⟩

/-- Lane 0, IN and STAGE alone change. -/
theorem State.LaneWork.completes {i : Instr} {t u : State} (h : t.LaneWork u) (hinp : ReadsIn i ∨ u.inp = t.inp)
    (hstage : WritesOut i ∨ u.stage = t.stage) (hlane : ActOk t.laneCount t.act → t.lane0.Keeps u.lane0) : Completes i t u where
  work := h.work
  inp := hinp
  stage := hstage
  sameWorkers := .inr (.inr (by rw [h.eq]))
  workers := .inl (by rw [h.eq])
  coord := .inl (by rw [h.eq])
  lane := hlane

theorem RuleEnds.lane {i : Instr} {t : State} {v : BitVec 64} {l : Lane} (h : t.lane0.Keeps l) :
    RuleEnds i t (.ok v (t.withLane0 l)) :=
  State.LaneWork.completes ⟨rfl, List.suffix_refl _⟩ (.inr rfl) (.inr rfl) fun _ => h

theorem RuleEnds.answer {i : Instr} {t : State} {v : Nat} : RuleEnds i t (answer v t) := RuleEnds.lane .refl

theorem RuleEnds.require {i : Instr} {t : State} {b : Bool} {c : Cause} {r : Res State (BitVec 64)} (hc : c.cls = .illegal)
    (h : b = true → RuleEnds i t r) : RuleEnds i t (require b c t r) := by
  cases b with
  | false => exact .inl ⟨hc, rfl⟩
  | true => exact h rfl

theorem RuleEnds.withAct {i : Instr} {t : State} {k : Act → Res State (BitVec 64)} (h : ∀ a, t.act = some a → RuleEnds i t (k a)) :
    RuleEnds i t (withAct t k) := by
  rw [Machine.withAct]
  cases ha : t.act with
  | none => exact .inl ⟨rfl, rfl⟩
  | some a => exact h a ha

theorem RuleEnds.requireLclp {i : Instr} {t : State} {a : Act} {r : Res State (BitVec 64)}
    (h : a.lc.toNat + a.lp.toNat ≤ 4 → RuleEnds i t r) : RuleEnds i t (requireLclp a t r) := by
  rw [Machine.requireLclp, Machine.require]
  split
  · rename_i h4
    exact h (of_decide_eq_true h4)
  · exact .inr ⟨(show (Cause.lclpSum _).cls ≠ .illegal from fun h => nomatch h), .refl, .inr rfl⟩

/-- A computation that decodes on lane 0, and then answers. -/
theorem RuleEnds.decodes {α : Type} {i : Instr} {t : State} {r : Res State α} {v : α → BitVec 64} (hi : ReadsIn i) (ho : WritesOut i)
    (h : DecodesLane t r) : RuleEnds i t (r.bind fun a u => .ok (v a) u) :=
  Res.Ends.bind (h.mono (fun _ _ h => h) fun _ _ ⟨hw, he⟩ => .of_atIn hi hw.work he) fun _ _ ⟨hw, hl⟩ =>
    hw.completes (.inl hi) (.inl ho) fun _ => hl.keeps

/-- A computation that reads bits on lane 0, and then answers. -/
theorem RuleEnds.readsBits {α : Type} {i : Instr} {t : State} {f : DecCtx → Res DecCtx α} {v : α → BitVec 64} (hi : ReadsIn i)
    (h : ∀ c, c.lane = t.lane0 → ReadsBits (nprob t.lane0.lz) c (f c)) : RuleEnds i t ((onIn f t).bind fun a u => .ok (v a) u) := by
  refine Res.Ends.bind ((onIn_ends (h { lane := t.lane0, src := t.inp, out := t.stage } rfl)).mono (fun _ _ h => h)
    fun _ _ ⟨hw, he⟩ => .of_atIn hi hw.work he) fun _ _ ⟨c, hc, hu⟩ => ?_
  have hstage : c.out = t.stage := by rw [hc.eq]
  have hlane := (BitStep.decStep (c := { lane := t.lane0, src := t.inp, out := t.stage }) hc).lane
  rw [hu]
  exact State.LaneWork.completes ⟨rfl, hc.taken⟩ (.inl hi) (.inr hstage) fun _ => hlane.keeps

/-! ## What the checks before a rule give (R1020 items 4 to 6) -/

theorem precheck_none {i : Instr} {t : State} (h : precheck i t = none) :
    (isSys i = false → t.act.isSome = true) ∧ InRange i t ∧ lockOk i t = true := by
  rw [precheck] at h
  split at h
  · exact nomatch h
  · rename_i hact
    split at h
    · exact nomatch h
    · rename_i hrange
      split at h
      · exact nomatch h
      · rename_i hlock
        refine ⟨fun hi => ?_, operandsOk_iff.mp (by simpa using hrange), by simpa using hlock⟩
        simpa [hi, State.configured, Option.isSome_iff_ne_none] using hact

theorem free_of_lock {i : Instr} {t : State} (h : precheck i t = none) (hi : lockOf i = .either) : t.lane0.Free := by
  have hlock := (precheck_none h).2.2
  simpa [lockOk, hi, State.sessionOpen] using hlock

/-! ## The range coder's and the store's commands (R410 to R425, R570 to R572) -/

theorem rceReset_runs {s : State} : Runs .rceReset s (execRceReset s) :=
  .of fun _ _ => .lane ((Lane.withRce_encodesTo fun _ => rangeEnc_fresh_ok).keeps_still rfl)

theorem rceBit_runs {s : State} {pi : BitVec 24} {b : Bool} : Runs (.rceBit pi b) s (execRceBit pi b s) := .of fun t h => by
  have hpi : pi.toNat < nprob t.lane0.lz := (precheck_none h).2.1
  have hcode : t.lane0.EncodesTo (codeDecisions [.cell pi.toNat b] t.lane0) :=
    codeDecisions_encodesTo (List.forall_mem_singleton.mpr hpi)
  exact .require rfl fun _ => .lane (hcode.keeps_still rfl)

theorem rceDirect_runs {s : State} {v : BitVec 32} {n : BitVec 6} : Runs (.rceDirect v n) s (execRceDirect v n s) := .of fun t _ => by
  rw [encDirect_eq]
  exact .require rfl fun _ => .lane ((codeDecisions_encodesTo directDecisions_below).keeps_still (by rw [codeDecisions_win]))

theorem rceFlush_runs {s : State} : Runs .rceFlush s (execRceFlush s) := .of fun t _ => by
  have hok : t.lane0.EncOk → (encFlush t.lane0.rce).Ok := fun h => encFlush_ok h.1
  simp only
  generalize encFlush t.lane0.rce = e at *
  have hlane : t.lane0.EncodesTo { t.lane0 with rce := { e with cbuf := [], flushed := true } } := Lane.withRce_encodesTo hok
  exact .require rfl fun _ => State.LaneWork.completes ⟨rfl, List.suffix_refl _⟩ (.inr rfl) (.inl trivial) fun _ =>
    hlane.keeps_still rfl

theorem rcePending_runs {s : State} : Runs .rcePending s (execRcePending s) := .of fun _ _ => .require rfl fun _ => .answer

theorem rcdInit_runs {s : State} : Runs .rcdInit s (execRcdInit s) :=
  .of fun _ _ => RuleEnds.readsBits (i := .rcdInit) (v := fun _ => 0#64) trivial fun _ _ => decInit_readsBits

theorem rcdBit_runs {s : State} {pi : BitVec 24} : Runs (.rcdBit pi) s (execRcdBit pi s) := .of fun t h =>
  have hpi : pi.toNat < nprob t.lane0.lz := (precheck_none h).2.1
  .require rfl fun _ => RuleEnds.readsBits (i := .rcdBit pi) (v := fun b : Bool => BitVec.ofNat 64 b.toNat) trivial fun _ _ =>
    decBit_readsBits hpi

theorem rcdDirect_runs {s : State} {n : BitVec 6} : Runs (.rcdDirect n) s (execRcdDirect n s) := .of fun _ _ =>
  .require rfl fun _ => RuleEnds.readsBits (i := .rcdDirect n) (v := BitVec.ofNat 64) trivial fun _ _ => decDirectFrom_readsBits

theorem rcdIsFinished_runs {s : State} : Runs .rcdIsFinished s (execRcdIsFinished s) :=
  .of fun _ _ => .require rfl fun _ => .answer

theorem probReset_runs {s : State} : Runs .probReset s (execProbReset s) :=
  .of fun _ _ => .lane ((Lane.withProb_encodesTo cellsMoved_nil).keeps_still rfl)

theorem probRead_runs {s : State} {pi : BitVec 24} : Runs (.probRead pi) s (execProbRead pi s) := .of fun _ _ => .answer

theorem probWrite_runs {s : State} {pi : BitVec 24} {v : BitVec 12} : Runs (.probWrite pi v) s (execProbWrite pi v s) :=
  .of fun t h => by
    obtain ⟨hpi, hv, hv'⟩ := (precheck_none h).2.1
    have hpos : 1 ≤ (BitVec.ofNat 11 v.toNat).toNat := by
      rw [BitVec.toNat_ofNat]
      omega
    exact .lane ((Lane.withProb_encodesTo (cellsMoved_write hpi hpos)).keeps_still rfl)

/-! ## The state machine's commands (R620 to R633, R670 to R673) -/

theorem lzSetProps_runs {s : State} {x : BitVec 8} : Runs (.lzSetProps x) s (execLzSetProps x s) :=
  .of fun _ h => .lane (Lane.setProps_keeps (precheck_none h).2.1 (free_of_lock h rfl))

theorem lzResetState_runs {s : State} : Runs .lzResetState s (execLzResetState s) :=
  .of fun _ _ => .lane Lane.stateReset_decodesTo.keeps

theorem lzReadState_runs {s : State} : Runs .lzReadState s (execLzReadState s) := .of fun _ _ => .answer

theorem lzReadRep_runs {s : State} {i : BitVec 16} : Runs (.lzReadRep i) s (execLzReadRep i s) := .of fun _ _ => .answer

/-- An LZE command whose data precondition lets the symbol's bytes be coded (R620). -/
theorem encodeOne_ends {i : Instr} {t : State} {pre : Bool} {f : Lane → Lane} {y : Sym} (hfree : t.lane0.Free)
    (hf : f t.lane0 = y.coded t.lane0)
    (hpre : pre = true → t.lane0.win.cur ≤ t.lane0.win.endPos → t.lane0.win.cur + y.len ≤ t.lane0.win.endPos) :
    RuleEnds i t (encodeOne pre f t) :=
  .require rfl fun _ => .require rfl fun hp => by
    rw [hf]
    exact .lane (Sym.coded_keeps hfree (hpre hp))

theorem repeatsAt_le {w : Window} {d len : Nat} (h : repeatsAt w d len = true) : w.cur + len ≤ w.endPos :=
  (of_decide_eq_true (Bool.and_eq_true_iff.mp h).1).2

theorem lzeLit_runs {s : State} : Runs .lzeLit s (execLzeLit s) :=
  .of fun _ h => encodeOne_ends (free_of_lock h rfl) encLit_eq fun hp _ => (of_decide_eq_true hp).1

theorem lzeMatch_runs {s : State} {d : BitVec 32} {l : BitVec 9} : Runs (.lzeMatch d l) s (execLzeMatch d l s) := .of fun _ h => by
  obtain ⟨-, h2, -⟩ := (precheck_none h).2.1
  exact encodeOne_ends (free_of_lock h rfl) (encMatch_eq h2) fun hp _ => repeatsAt_le hp

theorem lzeRep_runs {s : State} {r : BitVec 2} {l : BitVec 9} : Runs (.lzeRep r l) s (execLzeRep r l s) := .of fun _ h => by
  obtain ⟨h2, -⟩ := (precheck_none h).2.1
  exact encodeOne_ends (free_of_lock h rfl) (encRep_eq (Nat.le_of_lt_succ r.isLt) h2) fun hp _ => repeatsAt_le hp

theorem lzeShortrep_runs {s : State} : Runs .lzeShortrep s (execLzeShortrep s) :=
  .of fun _ h => encodeOne_ends (free_of_lock h rfl) encShortrep_eq fun hp _ => repeatsAt_le hp

theorem lzeEos_runs {s : State} : Runs .lzeEos s (execLzeEos s) :=
  .of fun _ h => encodeOne_ends (free_of_lock h rfl) encEos_eq fun _ hle => hle

theorem decoderReady_ends {i : Instr} {t : State} {r : Res State (BitVec 64)} (h : RuleEnds i t r) :
    RuleEnds i t (decoderReady t r) := .require rfl fun _ => .require rfl fun _ => h

theorem symbolLimits_inStream {n : Nat} : (symbolLimits n).InStream := (by decide : Cause.overrun.cls ≠ .illegal)

theorem lzdSymbol_runs {s : State} {n : BitVec 48} : Runs (.lzdSymbol n) s (execLzdSymbol n s) :=
  .of fun _ _ => decoderReady_ends (.decodes (v := fun y => BitVec.ofNat 64 (symbolWord y)) trivial trivial
    (onIn_decodesLane (decSymbol_decodes symbolLimits_inStream)))

theorem lzdRun_runs {s : State} {n : BitVec 48} : Runs (.lzdRun n) s (execLzdRun n s) := .of fun t _ => by
  refine decoderReady_ends ?_
  split
  · exact .decodes (v := BitVec.ofNat 64) trivial trivial (onIn_decodesLane (decUntilMarker_decodes fun _ => symbolLimits_inStream))
  · exact .decodes (v := fun _ => BitVec.ofNat 64 n.toNat) trivial trivial (onIn_decodesLane decExactly_decodes)

/-! ## The window's and the finder's commands (R750 to R757) -/

theorem winReset_runs {s : State} : Runs .winReset s (execWinReset s) :=
  .of fun _ h => .withAct fun _ _ =>
    .lane (Lane.withWindow_keeps (free_of_lock h rfl) (fun _ => Nat.le_refl _) fun _ => mfReset_ok)

theorem winFeed_runs {s : State} {n : BitVec 48} : Runs (.winFeed n) s (execWinFeed n s) := .of fun t h => by
  refine Res.Ends.bind (inUpTo_gives.mono (fun _ _ h => h.1) fun _ _ h => .of_atIn trivial h.1.work h.2) fun bs u hu => ?_
  obtain ⟨rest, hrest, rfl⟩ := hu
  refine State.LaneWork.completes ⟨rfl, hrest⟩ (.inl trivial) (.inr rfl) fun _ => Lane.withWindow_keeps (free_of_lock h rfl)
    (fun hle => ?_) id
  rw [Window.feed_endPos]
  exact Nat.le_add_right_of_le hle

theorem winPut_runs {s : State} {x : BitVec 8} : Runs (.winPut x) s (execWinPut x s) := .of fun t h => by
  refine .require rfl fun _ => .lane (Lane.withWindow_keeps (free_of_lock h rfl) (fun hle => ?_) id)
  rw [Window.append_endPos]
  exact Nat.add_le_add_right hle _

theorem winGet_runs {s : State} {d : BitVec 32} : Runs (.winGet d) s (execWinGet d s) := .of fun t _ => by
  simp only
  split <;> exact .require rfl fun _ => .answer

theorem mfReset_runs {s : State} : Runs .mfReset s (execMfReset s) :=
  .of fun _ h => .lane (Lane.withWindow_keeps (free_of_lock h rfl) id fun _ => mfReset_ok)

theorem mfFind_runs {s : State} : Runs .mfFind s (execMfFind s) :=
  .of fun _ h => .withAct fun _ _ => .require rfl fun _ =>
    .lane (Lane.withWindow_keeps (free_of_lock h rfl) id searchAndCache_step.1.ok)

theorem mfCand_runs {s : State} {i : BitVec 16} : Runs (.mfCand i) s (execMfCand i s) := .of fun t _ => by
  split
  · exact .answer
  · exact .inl ⟨rfl, rfl⟩

theorem mfSkip_runs {s : State} {n : BitVec 48} : Runs (.mfSkip n) s (execMfSkip n s) :=
  .of fun t h => .withAct fun a _ => .require rfl fun _ => .lane (Lane.withWindow_keeps (free_of_lock h rfl) id
    (skipMany_step (b := t.build) (a := a) (w := t.lane0.win) (stop := t.lane0.win.endPos) (n := n.toNat) (m := t.lane0.mf)).ok)

end Sys2Proof.Machine
end

section
/-! PROOFS. The rules of the stream commands, and every command of R303 but SYS's: its rule ends as `Completes` and `StopsAt` say, on any state
and any input (R650 to R661, R850 to R854). -/

namespace Sys2Proof.Machine

/-! ## Commands that leave lanes initialised (R660, R661, R850, R851) -/

/-- A rule that ends with `LaneInit(0)`. -/
theorem State.LaneWork.initialised {i : Instr} {t u : State} (hi : ReadsIn i ∨ u.inp = t.inp) (ho : WritesOut i) (h : t.LaneWork u) :
    Completes i t u.initLane0 := by
  have hact : u.act = t.act := by rw [h.eq]
  exact State.LaneWork.completes ⟨by rw [h.eq]; rfl, h.taken⟩ hi (.inl ho) fun hok => laneInit_kept (hact ▸ hok)

/-- A rule that ends with `LaneInit` of every lane. -/
theorem State.Work.initialised {i : Instr} {t u : State} (hi : i = .l2Encode ∨ i = .l2Decode) (h : t.Work u)
    (hc : u.coord = t.coord ∨ u.coord = Coordinator.idle) : Completes i t u.initLanes := by
  have hact : u.act = t.act := by rw [h.eq]
  have hmap : u.workers.map (fun _ => laneInit u.act) = t.workers.map fun _ => laneInit t.act := by
    rw [List.map_const', List.map_const', h.lanes, hact]
  exact
    { work := ⟨by rw [h.eq]; rfl, h.taken, by rw [State.initLanes_workers, List.length_map, h.lanes]⟩
      inp := .inl (by rcases hi with rfl | rfl <;> trivial)
      stage := .inl (by rcases hi with rfl | rfl <;> trivial)
      sameWorkers := hi.imp_right .inl
      workers := .inr hmap
      coord := hc
      lane := fun hok => laneInit_kept (hact ▸ hok) }

theorem lzmaEncode_runs {s : State} : Runs .lzmaEncode s (execLzmaEncode s) :=
  .of fun _ _ => .withAct fun a _ => Res.Ends.bind (inAll_gives.mono (fun _ _ h => h.1.laneWork) fun _ _ h => .of_atIn trivial h.1.work h.2)
    fun x u hu => State.LaneWork.initialised (u := u.outBytes (encodeRaw u.build a x).rce.cbuf) (.inl trivial) trivial
      (hu.trans ⟨rfl, List.suffix_refl _⟩)

theorem State.LaneWork.initLane0 {t : State} : t.LaneWork t.initLane0 := ⟨rfl, List.suffix_refl _⟩

theorem lzmaDecode_runs {s : State} {n : BitVec 48} : Runs (.lzmaDecode n) s (execLzmaDecode n s) :=
  .of fun t _ => .withAct fun _ _ => Res.Ends.bind
    ((onIn_decodesLane decodeRaw_decodes).mono (fun _ _ h => State.LaneWork.initLane0.trans h.1) fun _ _ h =>
      .of_atIn (t := t) trivial (State.LaneWork.initLane0.trans h.1).work (State.LaneWork.initLane0.atIn h.2))
    fun _ _ hu => hu.initialised (.inl trivial) trivial

/-- The spans are coded on lane 0, or by the coordinator, which ends idle (R850, R910). -/
theorem encodeUnits_work {a : Act} {xs : List (List Byte)} {t : State} :
    let u := if a.threadCount = 1#32 then encodeSpans a xs t else parallelEncode a xs t
    t.Work u ∧ (u.coord = t.coord ∨ u.coord = Coordinator.idle) := by
  simp only
  split
  · have h := encodeSpans_laneWork (a := a) (xs := xs) (t := t)
    exact ⟨h.work, .inl (by rw [h.eq])⟩
  · exact ⟨parallelEncode_works.1, .inr parallelEncode_works.2⟩

theorem l2Encode_runs {s : State} : Runs .l2Encode s (execL2Encode s) := .of fun t _ => by
  refine .withAct fun a _ => .requireLclp fun _ => Res.Ends.bind
    (inAll_gives.mono (fun _ _ h => h.1) fun _ _ h => .of_atIn trivial h.1.work h.2) fun x u hu => ?_
  obtain ⟨hwork, hcoord⟩ := encodeUnits_work (a := a) (xs := spans a.span.toNat x) (t := u)
  simp only
  generalize (if a.threadCount = 1#32 then encodeSpans a (spans a.span.toNat x) u else parallelEncode a (spans a.span.toNat x) u) = v at *
  have hu' : u.coord = t.coord := by rw [hu.laneWork.eq]
  exact State.Work.initialised (u := v.outBytes [0x00#8]) (.inl rfl)
    ((hu.work.trans hwork).trans (State.LaneWork.work ⟨rfl, List.suffix_refl _⟩)) (hu' ▸ hcoord)

/-- What L2.DECODE's rule decodes, on one lane or by the coordinator (R851). -/
theorem decodeUnits_ends {a : Act} {held : Nat} {t : State} :
    (if a.threadCount = 1#32 then decodeStream a t.inp.length (t.inp.length + 1) t.initLane0 else parallelDecode a held t).Ends
      (fun _ u => t.Work u ∧ (u.coord = t.coord ∨ u.coord = Coordinator.idle)) fun e u => t.Work u ∧ e.AtIn t := by
  have hinit := State.LaneWork.initLane0 (t := t)
  split
  · exact decodeStream_decodesLane.mono
      (fun _ _ h => ⟨(hinit.trans h.1).work, .inl (by rw [(hinit.trans h.1).eq])⟩) fun _ _ h => ⟨(hinit.trans h.1).work, hinit.atIn h.2⟩
  · exact parallelDecode_ends.mono (fun _ _ h => ⟨h.1, .inr h.2⟩) fun _ _ h => h

theorem l2Decode_runs {s : State} : Runs .l2Decode s (execL2Decode s) :=
  .of fun _ _ => .withAct fun _ _ => Res.Ends.bind (decodeUnits_ends.mono (fun _ _ h => h) fun _ _ h => .of_atIn trivial h.1 h.2)
    fun _ _ h => h.1.initialised (.inr rfl) h.2

/-! ## An encoder session (R852, R853) -/

theorem openEncoder_eq {t : State} : openEncoder t = t.withLane0 (encoderLane t) := by
  rw [openEncoder, encoderLane]
  split
  · rfl
  · cases ha : t.act <;> simp only [State.initLane0, State.withLane0, ha] <;> rfl

/-- A session that is opened has sound lanes to start with (R801, R815). -/
theorem encoderLane_keeps {w : Nat} {t : State} {a : Act} (ha : t.act = some a) (hok : ActOk w t.act) (h4 : a.lc.toNat + a.lp.toNat ≤ 4) :
    t.lane0.Keeps (encoderLane t) := by
  rw [encoderLane]
  split
  · exact .refl
  · have h := laneInit_sound hok
    have hlp : (a.lp.setWidth 3).toNat ≤ a.lp.toNat := by
      rw [BitVec.toNat_setWidth]
      exact Nat.mod_le _ _
    rw [ha] at h ⊢
    refine fun _ => ⟨⟨h.rce, h.rcd, h.cells, h.lz, h.cur_le, h.mf, rfl, h.pb, fun _ => rfl, fun _ => rfl, fun _ => ?_, rfl⟩,
      fun _ _ hx => nomatch hx⟩
    show a.lc.toNat + (a.lp.setWidth 3).toNat ≤ 4
    omega

/-- A segment that is fed and coded keeps the session's lane sound, all of its window coded (R701, R852). -/
theorem Lane.segment_keeps {b : Build} {a : Act} {e : Lane} {x : List Byte} :
    e.Keeps (encodeSegment b a (e.win.feed x).endPos (e.fed x)).2.segmentDone := fun he => by
  obtain ⟨h, hcur⟩ := encodeSegment_encodesTo (b := b) (a := a) (e := e.fed x) (segEnd := (e.win.feed x).endPos)
    (by show e.win.cur ≤ _; rw [Window.feed_endPos]; exact Nat.le_add_right_of_le he.cur_le) (Nat.le_refl _)
  generalize (encodeSegment b a (e.win.feed x).endPos (e.fed x)).2 = m at *
  have hdone : m.win.cur = m.win.endPos := by
    rw [hcur, h.endPos]
    rfl
  obtain ⟨hcells, hexist⟩ := h.cells he.cells
  obtain ⟨hactive, -⟩ := h.session
  have hactive : m.l2e.active = e.l2e.active := hactive
  obtain ⟨hlc, hlp, hpb⟩ := h.props
  have hrcd : m.rcd = e.rcd := by rw [h.eq]; rfl
  have hl2d : m.l2d = e.l2d := by rw [h.eq]; rfl
  have hbuf : m.pb = e.pb := by rw [h.eq]; rfl
  refine ⟨⟨h.rce ⟨he.rce, he.cells⟩, hrcd ▸ he.rcd, hcells, ?_, Nat.le_of_eq hdone, h.mf he.mf, rfl, hbuf ▸ he.pb, fun _ => hdone,
    h.flags he.flags, fun hopen => ?_, ?_⟩, fun hx => ?_⟩
  · show m.lz.lc.toNat ≤ 8 ∧ m.lz.lp.toNat ≤ 4 ∧ m.lz.pb.toNat ≤ 4
    rw [hlc, hlp, hpb]
    exact he.lz
  · show m.lz.lc.toNat + m.lz.lp.toNat ≤ 4
    rw [hlc, hlp]
    exact he.small (hactive ▸ hopen)
  · show (m.l2e.active && m.l2d.active) = false
    rw [hactive, hl2d]
    exact he.oneSession
  · show ∀ c ∈ m.prob, c.1 < nprob m.lz
    rw [h.nprob_eq]
    exact hexist hx

theorem l2EncSegment_runs {s : State} {n : BitVec 48} : Runs (.l2EncSegment n) s (execL2EncSegment n s) := .of fun t _ => by
  refine .withAct fun a ha => .requireLclp fun h4 => ?_
  have hopen : t.LaneWork (openEncoder t) := by
    rw [openEncoder_eq]
    exact ⟨rfl, List.suffix_refl _⟩
  refine Res.Ends.bind (inUpTo_gives.mono (fun _ _ h => h.1) fun _ _ h =>
    .of_atIn trivial (hopen.trans h.1.laneWork).work (hopen.atIn h.2)) fun bs u hu => ?_
  have hlane : u.lane0 = encoderLane t := by
    obtain ⟨rest, -, rfl⟩ := hu
    rw [openEncoder_eq]
    rfl
  refine State.LaneWork.completes ((hopen.trans hu.laneWork).trans ⟨rfl, List.suffix_refl _⟩) (.inl trivial) (.inl trivial) fun hok => ?_
  have hseg := Lane.segment_keeps (b := u.build) (a := a) (e := u.lane0) (x := bs)
  exact (encoderLane_keeps ha hok h4).trans (hlane ▸ hseg)

theorem l2EncEnd_runs {s : State} : Runs .l2EncEnd s (execL2EncEnd s) := .of fun t _ => by
  have hout : t.LaneWork (t.outBytes [0x00#8]) := ⟨rfl, List.suffix_refl _⟩
  simp only
  split
  · exact hout.initialised (.inr rfl) trivial
  · exact hout.completes (.inr rfl) (.inl trivial) fun _ => .refl

/-! ## A decoder session (R854) -/

theorem openDecoder_eq {t : State} : openDecoder t = t.withLane0 (decoderLane t) := by
  rw [openDecoder, decoderLane]
  split
  · rfl
  · cases ha : t.act <;> simp only [State.initLane0, State.withLane0, ha] <;> rfl

theorem decoderLane_keeps {w : Nat} {t : State} (hok : ActOk w t.act) : t.lane0.Keeps (decoderLane t) := by
  rw [decoderLane]
  split
  · exact .refl
  · have h := laneInit_sound hok
    have hl2e : (laneInit t.act).l2e.active = false := by cases t.act <;> rfl
    have hwin : (laneInit t.act).win.cur = (laneInit t.act).win.endPos := by cases t.act <;> rfl
    refine fun _ => ⟨⟨h.rce, h.rcd, h.cells, h.lz, h.cur_le, h.mf, h.segEnd, h.pb, fun _ => hwin, h.flags, h.small, ?_⟩,
      fun _ => laneInit_cellsExist⟩
    rw [hl2e]
    rfl

theorem l2DecChunk_runs {s : State} : Runs .l2DecChunk s (execL2DecChunk s) := .of fun t _ => by
  refine .withAct fun a _ => ?_
  simp only [openDecoder_eq]
  have hopen : t.LaneWork (t.withLane0 (decoderLane t)) := ⟨rfl, List.suffix_refl _⟩
  refine Res.Ends.bind ((atChunk_decodesLane decodeChunk_decodesLane).mono (fun _ _ h => h) fun _ _ h =>
    .of_atIn trivial (hopen.trans h.1).work (hopen.atIn h.2)) fun r u ⟨hu, hlane⟩ => ?_
  have hwork := hopen.trans hu
  rcases r with _ | k
  · exact hwork.initialised (.inl trivial) trivial
  · exact hwork.completes (.inl trivial) (.inl trivial) fun hok => (decoderLane_keeps hok).trans hlane.keeps

/-! ## Every command -/

/-- Every command but SYS's runs a rule that ends as `Completes` and `StopsAt` say (R1020, R331). -/
theorem exec_runsRule {i : Instr} {s : State} (hi : isSys i = false) : Runs i s (exec i s) := by
  cases i with
  | sysNop | sysSoftReset | sysClearErr | sysConfigure => exact nomatch hi
  | rceReset => exact rceReset_runs
  | rceBit => exact rceBit_runs
  | rceDirect => exact rceDirect_runs
  | rceFlush => exact rceFlush_runs
  | rcePending => exact rcePending_runs
  | rcdInit => exact rcdInit_runs
  | rcdBit => exact rcdBit_runs
  | rcdDirect => exact rcdDirect_runs
  | rcdIsFinished => exact rcdIsFinished_runs
  | probReset => exact probReset_runs
  | probRead => exact probRead_runs
  | probWrite => exact probWrite_runs
  | lzSetProps => exact lzSetProps_runs
  | lzResetState => exact lzResetState_runs
  | lzReadState => exact lzReadState_runs
  | lzReadRep => exact lzReadRep_runs
  | lzeLit => exact lzeLit_runs
  | lzeMatch => exact lzeMatch_runs
  | lzeRep => exact lzeRep_runs
  | lzeShortrep => exact lzeShortrep_runs
  | lzeEos => exact lzeEos_runs
  | lzdSymbol => exact lzdSymbol_runs
  | lzdRun => exact lzdRun_runs
  | winReset => exact winReset_runs
  | winFeed => exact winFeed_runs
  | winPut => exact winPut_runs
  | winGet => exact winGet_runs
  | mfReset => exact mfReset_runs
  | mfFind => exact mfFind_runs
  | mfCand => exact mfCand_runs
  | mfSkip => exact mfSkip_runs
  | l2Encode => exact l2Encode_runs
  | l2Decode => exact l2Decode_runs
  | l2EncSegment => exact l2EncSegment_runs
  | l2EncEnd => exact l2EncEnd_runs
  | l2DecChunk => exact l2DecChunk_runs
  | lzmaEncode => exact lzmaEncode_runs
  | lzmaDecode => exact lzmaDecode_runs

end Sys2Proof.Machine
end

section
/-! PROOFS. A command holds, ends with an error, or ends without one, and what each way can change (R111, R112, R231 to R235, R331, R1010,
R1040 to R1043). -/

namespace Sys2Proof.Machine

/-! ## The checks and the causes -/

/-- The checks read nothing that `State.begin` changes (R1020). -/
theorem precheck_begin {i : Instr} {s : State} : precheck i s.begin = precheck i s := by
  cases i <;> rfl

theorem precheck_illegal {i : Instr} {s : State} {c : Cause} (h : precheck i s = some c) : c.cls = .illegal := by
  rw [precheck] at h
  split at h
  · cases h
    rfl
  · split at h
    · cases h
      rfl
    · split at h
      · cases h
        rfl
      · exact nomatch h

/-- An error's code is not 0: its class byte is that of R1001. -/
theorem Raised.errCode_ne_zero {e : Raised} : e.errCode ≠ 0#32 := by
  have hcls : 1 ≤ e.cause.cls.code ∧ e.cause.cls.code ≤ 6 := by cases e.cause.cls <;> decide
  intro h
  have h0 := congrArg BitVec.toNat h
  rw [Raised.errCode] at h0
  split at h0 <;>
  · simp only [BitVec.toNat_ofNat, workerSub, workerClass] at h0
    omega

theorem satAdd64_toNat {a : BitVec 64} {n : Nat} : (satAdd64 a n).toNat = min (a.toNat + n) (2 ^ 64 - 1) := by
  rw [satAdd64, BitVec.toNat_ofNat]
  omega

/-! ## The ends of a command -/

/-- What is left of a command's input after it took from its front. -/
theorem eq_drop_of_suffix {xs ys : List Byte} (h : ys <:+ xs) : ys = xs.drop (xs.length - ys.length) := by
  obtain ⟨zs, rfl⟩ := h
  rw [List.length_append, Nat.add_sub_cancel, List.drop_left]

/-- How a command but SYS's answers a next state. -/
theorem exec_next {i : Instr} {s t : State} (hi : isSys i = false) (h : exec i s = .next t) :
    (t = suspend s ∧ s.inEof = false ∧ ReadsIn i) ∨
    (∃ e, e.cause.cls = .illegal ∧ t = takeError (encode i) 0 e s.begin) ∨
    (∃ e u, e.cause.cls ≠ .illegal ∧ s.begin.Work u ∧ (ReadsIn i ∨ u.inp = s.input) ∧
      t = takeError (encode i) (s.input.length - u.inp.length) e u) ∨
    (∃ v u, s.act.isSome = true ∧ Completes i s.begin u ∧ t = complete (s.input.length - u.inp.length) v u) := by
  obtain ⟨body, hexec, hends⟩ := exec_runsRule (s := s) hi
  rw [hexec] at h
  rcases runCommand_cases h with ⟨c, hc, ht⟩ | ⟨hp, hf⟩
  · exact .inr (.inl ⟨_, precheck_illegal hc, ht⟩)
  · have hends := hends s.begin (precheck_begin.trans hp)
    rcases finish_cases hf with ⟨v, u, hb, ht⟩ | ⟨e, u, hb, ht⟩ | ⟨ht, u, hb⟩
    · exact .inr (.inr (.inr ⟨v, u, (precheck_none hp).1 hi, hends.of_ok hb, ht⟩))
    · rcases hends.of_stop hb with ⟨hc, rfl⟩ | ⟨hc, hw, hin⟩
      · rw [State.begin_inp, Nat.sub_self] at ht
        exact .inr (.inl ⟨e, hc, ht⟩)
      · exact .inr (.inr (.inl ⟨e, u, hc, hw, hin, ht⟩))
    · rcases hb with hb | hb
      · obtain ⟨hin, heof⟩ := hends.of_stop hb
        exact .inl ⟨ht, heof, hin⟩
      · exact (hends.of_stop hb).elim

/-! ## The SYS commands (R1040 to R1043) -/

theorem exec_sysNop_eq {s : State} : exec .sysNop s = .next (complete 0 0#64 s.begin) := by
  rw [show exec .sysNop s = execSysNop s from rfl, execSysNop, runCommand, precheck_sys rfl, answer]
  simp only [finish, State.begin_inp, Nat.sub_self]

theorem exec_sysClearErr_eq {s : State} : exec .sysClearErr s = .next (complete 0 0#64 (clearError s.begin)) := by
  rw [show exec .sysClearErr s = execSysClearErr s from rfl, execSysClearErr, runCommand, precheck_sys rfl]
  simp only [finish, clearError, State.begin_inp, Nat.sub_self]

theorem exec_sysSoftReset_eq {s : State} : exec .sysSoftReset s = .next (complete 0 0#64 (softReset s.begin)) := by
  rw [show exec .sysSoftReset s = execSysSoftReset s from rfl, execSysSoftReset, runCommand, precheck_sys rfl]
  simp only [finish, softReset, State.begin_inp, Nat.sub_self]

/-- CONFIGURE makes legal fields the configuration (R1040). -/
theorem exec_sysConfigure_ok {s : State} (h : configFault s.laneCount s.cfg.toAct = none) :
    exec .sysConfigure s = .next (complete 0 0#64 { s.begin with act := some s.cfg.toAct }.initLanes) := by
  have hb : configureBody s.begin = .ok 0#64 { s.begin with act := some s.cfg.toAct }.initLanes := by
    rw [configureBody]
    simp only [show s.begin.laneCount = s.laneCount from rfl, State.begin_cfg, h]
  rw [show exec .sysConfigure s = execSysConfigure s from rfl, execSysConfigure, runCommand, precheck_sys rfl, hb]
  simp only [finish, State.initLanes_inp, State.begin_inp, Nat.sub_self]

/-- CONFIGURE leaves no configuration where a field is illegal (R1040). -/
theorem exec_sysConfigure_fails {s : State} {c : Cause} (h : configFault s.laneCount s.cfg.toAct = some c) :
    exec .sysConfigure s = .next (takeError (encode .sysConfigure) 0 { cause := c, wrapped := false, place := none }
      { s.begin with act := none }) := by
  have hb : configureBody s.begin = .stop (.of c) { s.begin with act := none } := by
    rw [configureBody]
    simp only [show s.begin.laneCount = s.laneCount from rfl, State.begin_cfg, h]
  rw [show exec .sysConfigure s = execSysConfigure s from rfl, execSysConfigure, runCommand, precheck_sys rfl, hb]
  simp only [finish, Stop.of, State.begin_inp, Nat.sub_self]

/-- A field that CONFIGURE refuses is a ConfigError (R1002). -/
theorem configFault_cls {w : Nat} {v : Act} {c : Cause} (h : configFault w v = some c) : c.cls = .config := by
  have of_eq {d : Cause} (hd : d.cls = .config) (he : some d = some c) : c.cls = .config := by
    cases he
    exact hd
  rw [configFault] at h
  split at h
  · exact of_eq rfl h
  split at h
  · exact of_eq rfl h
  split at h
  · exact of_eq rfl h
  split at h
  · exact of_eq rfl h
  split at h
  · exact of_eq rfl h
  split at h
  · exact of_eq rfl h
  · exact nomatch h

/-! ## What each way can change -/

/-- `i` ends from `s` in `t` with an error: what the statement says of this way. -/
def EndsWithError (i : Instr) (s t : State) : Prop :=
  ∃ took, took ≤ s.input.length ∧ (ReadsIn i ∨ took = 0) ∧
    t.cq = s.cq.tail ∧ t.inp = s.input.drop took ∧ t.holding = none ∧ t.stage = [] ∧
    t.inCount.toNat = min (s.inCount.toNat + took) (2 ^ 64 - 1) ∧
    t.err = true ∧ t.errCode ≠ 0#32 ∧
    t.out = s.out ∧ t.outCount = s.outCount ∧ t.result = s.result ∧
    t.cfg = s.cfg ∧ t.inEof = s.inEof ∧ t.seen = { inEof := s.inEof, cfg := s.cfg } ∧
    t.cmdLo = s.cmdLo ∧ (i = .sysConfigure ∨ t.act = s.act) ∧ t.agenda = s.agenda ∧ t.build = s.build

/-- `i` ends from `s` in `t` without an error: what the statement says of this way. -/
def EndsWithoutError (i : Instr) (s t : State) : Prop :=
  ∃ took bs, took ≤ s.input.length ∧ (ReadsIn i ∨ took = 0) ∧ (WritesOut i ∨ bs = []) ∧
    t.cq = s.cq.tail ∧ t.inp = s.input.drop took ∧ t.holding = none ∧ t.stage = [] ∧
    t.inCount.toNat = min (s.inCount.toNat + took) (2 ^ 64 - 1) ∧
    t.out = s.out ++ bs ∧ t.outCount.toNat = min (s.outCount.toNat + bs.length) (2 ^ 64 - 1) ∧
    (i = .sysSoftReset ∨ t.cfg = s.cfg ∧ t.inEof = s.inEof ∧ t.cmdLo = s.cmdLo) ∧
    t.seen = { inEof := t.inEof, cfg := t.cfg } ∧
    (i = .sysSoftReset ∨ i = .sysConfigure ∨ t.act = s.act) ∧
    (i = .sysSoftReset ∨ i = .sysClearErr ∨
      t.err = s.err ∧ t.errCode = s.errCode ∧ t.errInfo = s.errInfo ∧ t.errUnit = s.errUnit) ∧
    (i = .sysSoftReset ∨ i = .sysConfigure ∨ i = .l2Encode ∨ i = .l2Decode ∨ t.workers = s.workers) ∧
    t.agenda = s.agenda ∧ t.build = s.build

/-- The state in which a rule raises, as far as the error completion shows it (R1010). -/
def RaisesIn (i : Instr) (s : State) (took : Nat) (u : State) : Prop :=
  ∃ stage lane0 workers coord draws free act,
    u = { s.begin with
      inp := s.input.drop took, stage := stage, lane0 := lane0, workers := workers, coord := coord, draws := draws, free := free
      act := act } ∧ (i = .sysConfigure ∨ act = s.act)

theorem raisesIn_begin {i : Instr} {s : State} : RaisesIn i s 0 s.begin := ⟨_, _, _, _, _, _, _, rfl, .inr rfl⟩

theorem State.Work.inp_eq {s u : State} (h : s.begin.Work u) : u.inp = s.input.drop (s.input.length - u.inp.length) :=
  eq_drop_of_suffix h.taken

theorem State.Work.raisesIn {i : Instr} {s u : State} (h : s.begin.Work u) : RaisesIn i s (s.input.length - u.inp.length) u :=
  ⟨u.stage, u.lane0, u.workers, u.coord, u.draws, u.free, s.act, by rw [← h.inp_eq]; exact h.eq, .inr rfl⟩

theorem takeError_endsWithError {i : Instr} {s u : State} {took : Nat} {e : Raised} (htook : took ≤ s.input.length)
    (hi : ReadsIn i ∨ took = 0) (hu : RaisesIn i s took u) : EndsWithError i s (takeError (encode i) took e u) := by
  obtain ⟨stage, lane0, workers, coord, draws, free, act, rfl, hact⟩ := hu
  refine ⟨took, htook, hi, takeError_cq, takeError_inp, takeError_holding, takeError_stage, ?_, takeError_err, ?_, takeError_out,
    takeError_outCount, takeError_result, takeError_cfg, takeError_inEof, takeError_seen, takeError_cmdLo, ?_, takeError_agenda,
    takeError_build⟩
  · rw [takeError_inCount, satAdd64_toNat]
    rfl
  · rw [takeError_errCode]
    exact Raised.errCode_ne_zero
  · rw [takeError_act]
    exact hact

/-- A rule that completes, as the completion shows it (R331). -/
theorem Completes.endsWithoutError {i : Instr} {s u : State} {v : BitVec 64} (h : Completes i s.begin u) :
    EndsWithoutError i s (complete (s.input.length - u.inp.length) v u) := by
  have hinp := h.work.inp_eq
  have htook : ReadsIn i ∨ s.input.length - u.inp.length = 0 := h.inp.imp_right fun h => by rw [h, State.begin_inp, Nat.sub_self]
  have hworkers : i = .l2Encode ∨ i = .l2Decode ∨ u.workers = s.workers := h.sameWorkers
  have hout : (complete (s.input.length - u.inp.length) v u).outCount.toNat = min (u.outCount.toNat + u.stage.length) (2 ^ 64 - 1) :=
    satAdd64_toNat
  have hin : (complete (s.input.length - u.inp.length) v u).inCount.toNat =
      min (u.inCount.toNat + (s.input.length - u.inp.length)) (2 ^ 64 - 1) := satAdd64_toNat
  refine ⟨_, u.stage, Nat.sub_le _ _, htook, h.stage, ?_⟩
  have hu := h.work.eq
  generalize u.inp = rest, u.stage = stage, u.lane0 = lane0, u.workers = workers, u.coord = coord, u.draws = draws, u.free = free at *
  subst hu
  exact ⟨rfl, hinp, rfl, rfl, hin, rfl, hout, .inr ⟨rfl, rfl, rfl⟩, rfl, .inr (.inr rfl), .inr (.inr ⟨rfl, rfl, rfl, rfl⟩),
    .inr (.inr hworkers), rfl, rfl⟩

/-- A SYS command takes and writes no byte, and leaves the queue, whatever it leaves of the rest (R1040 to R1043). -/
theorem sys_endsWithoutError {i : Instr} {s u : State} {v : BitVec 64} (hcq : u.cq = s.cq) (hinp : u.inp = s.input)
    (hstage : u.stage = []) (hholding : u.holding = none) (hcounts : u.inCount = s.inCount ∧ u.outCount = s.outCount)
    (hout : u.out = s.out) (hregs : i = .sysSoftReset ∨ u.cfg = s.cfg ∧ u.inEof = s.inEof ∧ u.cmdLo = s.cmdLo)
    (hact : i = .sysSoftReset ∨ i = .sysConfigure ∨ u.act = s.act)
    (herr : i = .sysSoftReset ∨ i = .sysClearErr ∨
      u.err = s.err ∧ u.errCode = s.errCode ∧ u.errInfo = s.errInfo ∧ u.errUnit = s.errUnit)
    (hworkers : i = .sysSoftReset ∨ i = .sysConfigure ∨ u.workers = s.workers)
    (hmodel : u.agenda = s.agenda ∧ u.build = s.build) : EndsWithoutError i s (complete 0 v u) := by
  refine ⟨0, [], Nat.zero_le _, .inr rfl, .inr rfl, by rw [complete_cq, hcq], hinp, hholding, rfl, ?_, ?_, ?_, hregs, rfl, hact, herr,
    hworkers.imp_right fun h => h.imp_right fun h => .inr (.inr h), hmodel⟩
  · rw [complete_inCount, satAdd64_toNat, hcounts.1]
  · rw [complete_out, hout, hstage]
  · rw [complete_outCount, satAdd64_toNat, hcounts.2, hstage]

/-- Every SYS command ends with an error, or without one (R1040 to R1043). -/
theorem exec_sys_ends {i : Instr} {s t : State} (hi : isSys i = true) (h : exec i s = .next t) :
    EndsWithError i s t ∨ EndsWithoutError i s t := by
  cases i with
  | sysNop =>
    rw [exec_sysNop_eq] at h
    cases h
    exact .inr (sys_endsWithoutError rfl rfl rfl rfl ⟨rfl, rfl⟩ rfl (.inr ⟨rfl, rfl, rfl⟩) (.inr (.inr rfl))
      (.inr (.inr ⟨rfl, rfl, rfl, rfl⟩)) (.inr (.inr rfl)) ⟨rfl, rfl⟩)
  | sysSoftReset =>
    rw [exec_sysSoftReset_eq] at h
    cases h
    exact .inr (sys_endsWithoutError rfl rfl rfl rfl ⟨rfl, rfl⟩ rfl (.inl rfl) (.inl rfl) (.inl rfl) (.inl rfl) ⟨rfl, rfl⟩)
  | sysClearErr =>
    rw [exec_sysClearErr_eq] at h
    cases h
    exact .inr (sys_endsWithoutError rfl rfl rfl rfl ⟨rfl, rfl⟩ rfl (.inr ⟨rfl, rfl, rfl⟩) (.inr (.inr rfl)) (.inr (.inl rfl))
      (.inr (.inr rfl)) ⟨rfl, rfl⟩)
  | sysConfigure =>
    cases hc : configFault s.laneCount s.cfg.toAct with
    | none =>
      rw [exec_sysConfigure_ok hc] at h
      cases h
      exact .inr (sys_endsWithoutError rfl rfl rfl rfl ⟨rfl, rfl⟩ rfl (.inr ⟨rfl, rfl, rfl⟩) (.inr (.inl rfl))
        (.inr (.inr ⟨rfl, rfl, rfl, rfl⟩)) (.inr (.inl rfl)) ⟨rfl, rfl⟩)
    | some c =>
      rw [exec_sysConfigure_fails hc] at h
      cases h
      exact .inl (takeError_endsWithError (Nat.zero_le _) (.inr rfl) ⟨_, _, _, _, _, _, _, rfl, .inl rfl⟩)
  | _ => exact nomatch hi

/-- Settles O11: each command's rule is followed to its end, a command of SYS by its own equation. -/
theorem everyCommandEndsOneOfThreeWays : Obligations.EveryCommandEndsOneOfThreeWays := by
  intro i s t h
  cases hi : isSys i with
  | true => exact .inr (exec_sys_ends hi h)
  | false =>
    rcases exec_next hi h with ⟨ht, heof, hin⟩ | ⟨e, -, ht⟩ | ⟨e, u, -, hw, hin, ht⟩ | ⟨v, u, -, hu, ht⟩
    · exact .inl ⟨ht, heof, hin⟩
    · rw [ht]
      exact .inr (.inl (takeError_endsWithError (Nat.zero_le _) (.inr rfl) raisesIn_begin))
    · rw [ht]
      refine .inr (.inl (takeError_endsWithError (Nat.sub_le _ _) (hin.imp_right fun h => ?_) hw.raisesIn))
      rw [h, Nat.sub_self]
    · rw [ht]
      exact .inr (.inr hu.endsWithoutError)

end Sys2Proof.Machine
end

section
/-! PROOFS. The invariant: it holds at reset, and every step of the block, the host and the reset input keeps it, and keeps every cell that is
listed inside the store (R117, R118, R119, R140, R234, R401, R701, R801, R813, R1010, R1040, R1102). -/

namespace Sys2Proof.Machine

/-! ## The invariant, by its parts -/

/-- What the invariant says of the lanes and the configuration. -/
structure State.LanesOk (s : State) : Prop where
  lane : s.lane0.Sound
  workers : ∀ l ∈ s.workers, l = laneInit s.act
  act : ActOk s.laneCount s.act
  unconfigured : s.act = none → s.lane0 = Lane.reset

theorem State.inv_iff {s : State} : s.Inv ↔ s.LanesOk ∧ s.stage = [] ∧ s.coord = Coordinator.idle ∧ s.ErrOk ∧
    (s.holding.isSome = true → s.cq ≠ [] ∧ s.err = false) :=
  ⟨fun ⟨h1, h2, h3, h4, h5, h6, h7, h8, h9⟩ => ⟨⟨Lane.sound_iff.mpr ⟨h1, h7⟩, h2, h3, h4⟩, h5, h6, h8, h9⟩,
    fun ⟨⟨h1, h2, h3, h4⟩, h5, h6, h8, h9⟩ => ⟨(Lane.sound_iff.mp h1).1, h2, h3, h4, h5, h6, (Lane.sound_iff.mp h1).2, h8, h9⟩⟩

/-- Between commands: no byte staged, no unit, no command held. -/
theorem State.inv_of_quiet {s : State} (h : s.LanesOk) (hstage : s.stage = []) (hcoord : s.coord = Coordinator.idle) (herr : s.ErrOk)
    (hholding : s.holding = none) : s.Inv :=
  State.inv_iff.mpr ⟨h, hstage, hcoord, herr, fun hc => by rw [hholding] at hc; exact nomatch hc⟩

theorem State.LanesOk.congr {s t : State} (h : s.LanesOk) (hl : t.lane0 = s.lane0) (hw : t.workers = s.workers) (ha : t.act = s.act) :
    t.LanesOk := by
  obtain ⟨h1, h2, h3, h4⟩ := h
  rw [State.laneCount, ← hw] at h3
  rw [← hl] at h1 h4
  rw [← ha] at h2 h3 h4
  exact ⟨h1, hw ▸ h2, h3, h4⟩

/-- LaneInit of every lane gives sound lanes (R1102). -/
theorem lanesOk_initLanes {s : State} (h : ActOk s.laneCount s.act) : s.initLanes.LanesOk where
  lane := laneInit_sound h
  workers := fun l hl => by
    obtain ⟨_, -, rfl⟩ := List.mem_map.mp hl
    rfl
  act := by
    rw [State.laneCount, State.initLanes_workers, List.length_map]
    exact h
  unconfigured := fun hn => by
    rw [State.initLanes_lane0, show s.act = none from hn, laneInit_none]

/-! ## Reset (R160, R1100) -/

theorem lanesOk_resetWith {n : Nat} {b : Build} : (State.resetWith n b).LanesOk where
  lane := laneReset_sound
  workers := fun _ hl => List.eq_of_mem_replicate hl
  act := fun _ ha => nomatch ha
  unconfigured := fun _ => rfl

theorem lanesOk_softReset {s : State} : (softReset s).LanesOk :=
  (lanesOk_resetWith (n := s.workers.length) (b := s.build)).congr rfl rfl rfl

theorem lanesOk_hardReset {s : State} : (hardReset s).LanesOk :=
  (lanesOk_resetWith (n := s.workers.length) (b := s.build)).congr rfl rfl rfl

theorem errOk_clear {s : State} (herr : s.err = false) (hcode : s.errCode = 0#32) (hinfo : s.errInfo = 0#64) (hunit : s.errUnit = 0#32) :
    s.ErrOk :=
  ⟨fun _ => ⟨hcode, hinfo, hunit⟩, fun h => by rw [herr] at h; exact nomatch h⟩

/-- Settles O56: the reset values, part by part. -/
theorem resetMeetsTheInvariant : Obligations.ResetMeetsTheInvariant := fun _ _ =>
  State.inv_of_quiet lanesOk_resetWith rfl rfl (errOk_clear rfl rfl rfl rfl) rfl

/-! ## A step -/

/-- A step from `s` to `t` keeps the invariant, and every listed cell inside the store. -/
def State.StepsTo (s t : State) : Prop := s.Inv → t.Inv ∧ (s.lane0.CellsExist → t.lane0.CellsExist)

theorem State.laneCount_eq {s t : State} (h : t.workers.length = s.workers.length) : t.laneCount = s.laneCount := by
  rw [State.laneCount, h, State.laneCount]

/-- A completion without error (R331). -/
theorem inv_complete {u : State} {n : Nat} {v : BitVec 64} (h : u.LanesOk) (hcoord : u.coord = Coordinator.idle) (herr : u.ErrOk)
    (hholding : u.holding = none) : (complete n v u).Inv :=
  State.inv_of_quiet (h.congr rfl rfl rfl) rfl hcoord herr hholding

theorem errOk_takeError {c : Word} {n : Nat} {e : Raised} {u : State} : (takeError c n e u).ErrOk :=
  ⟨fun h => absurd (takeError_err.symm.trans h) (by decide), fun _ => by rw [takeError_errCode]; exact Raised.errCode_ne_zero⟩

/-- A refusal leaves the lanes as they were (R1010 g). -/
theorem inv_takeError_illegal {c : Word} {n : Nat} {e : Raised} {u : State} (he : e.cause.cls = .illegal) (h : u.LanesOk)
    (hcoord : u.coord = Coordinator.idle) (hholding : u.holding = none) : (takeError c n e u).Inv :=
  State.inv_of_quiet (h.congr (takeError_lane0_illegal he) (takeError_workers_illegal he) takeError_act) takeError_stage
    ((takeError_coord_illegal he).trans hcoord) errOk_takeError (takeError_holding.trans hholding)

/-- Any other error initialises every lane (R1010). -/
theorem inv_takeError_legal {c : Word} {n : Nat} {e : Raised} {u : State} (he : e.cause.cls ≠ .illegal) (h : ActOk u.laneCount u.act)
    (hholding : u.holding = none) : (takeError c n e u).Inv :=
  State.inv_of_quiet
    ((lanesOk_initLanes h).congr (takeError_lane0_legal he) (takeError_workers_legal he) takeError_act)
    takeError_stage (takeError_coord_legal he) errOk_takeError (takeError_holding.trans hholding)

theorem cellsExist_takeError {c : Word} {n : Nat} {e : Raised} {u : State} (h : u.lane0.CellsExist) :
    (takeError c n e u).lane0.CellsExist := by
  by_cases he : e.cause.cls = .illegal
  · rw [takeError_lane0_illegal he]
    exact h
  · rw [takeError_lane0_legal he]
    exact laneInit_cellsExist

/-- A rule that completes leaves sound lanes (R331). -/
theorem Completes.stepsTo {i : Instr} {s u : State} {n : Nat} {v : BitVec 64} (h : Completes i s.begin u) (ha : s.act.isSome = true) :
    s.StepsTo (complete n v u) := fun hinv => by
  obtain ⟨⟨hlane, hworkers, hact, -⟩, -, hcoord, herr, -⟩ := State.inv_iff.mp hinv
  have hactEq : u.act = s.act := by rw [h.work.eq]; rfl
  obtain ⟨hsound, hcells⟩ := h.lane hact hlane
  have hcount : u.laneCount = s.laneCount := State.laneCount_eq h.work.lanes
  refine ⟨inv_complete ⟨hsound, ?_, ?_, ?_⟩ ?_ ?_ ?_, hcells⟩
  · intro l hl
    rw [hactEq]
    rcases h.workers with hw | hw <;> rw [hw] at hl
    · exact hworkers l hl
    · obtain ⟨_, -, rfl⟩ := List.mem_map.mp hl
      rfl
  · rw [hcount, hactEq]
    exact hact
  · intro hn
    rw [← hactEq, hn] at ha
    exact nomatch ha
  · exact h.coord.elim (fun hc => hc.trans hcoord) id
  · rw [h.work.eq]
    exact herr
  · rw [h.work.eq]
    rfl

theorem lanesOk_begin {s : State} (h : s.LanesOk) : s.begin.LanesOk := h.congr rfl rfl rfl

/-- CONFIGURE lets a configuration through where every field is in its range (R1040). -/
theorem configFault_none_iff {w : Nat} {v : Act} : configFault w v = none ↔ v.Ok w := by
  constructor
  · intro h
    rw [configFault] at h
    split at h
    · exact nomatch h
    split at h
    · exact nomatch h
    split at h
    · exact nomatch h
    split at h
    · exact nomatch h
    split at h
    · exact nomatch h
    split at h
    · exact nomatch h
    · refine ⟨?_, ?_, ?_, ?_, ?_, ?_, ?_, ?_, ?_⟩ <;> omega
  · rintro ⟨h1, h2, h3, h4, h5, h6, h7, h8, h9⟩
    rw [configFault, if_neg (not_not.mpr ⟨h1, h2⟩), if_neg (by omega), if_neg (by omega), if_neg (by omega),
      if_neg (not_not.mpr ⟨h6, h7⟩), if_neg (not_not.mpr ⟨h8, h9⟩)]

/-- A SYS command (R1040 to R1043). -/
theorem exec_sys_stepsTo {i : Instr} {s t : State} (hi : isSys i = true) (h : exec i s = .next t) : s.StepsTo t := fun hinv => by
  obtain ⟨hlanes, -, hcoord, herr, -⟩ := State.inv_iff.mp hinv
  cases i with
  | sysNop =>
    rw [exec_sysNop_eq] at h
    cases h
    exact ⟨inv_complete (lanesOk_begin hlanes) hcoord herr rfl, id⟩
  | sysSoftReset =>
    rw [exec_sysSoftReset_eq] at h
    cases h
    exact ⟨inv_complete lanesOk_softReset rfl (errOk_clear rfl rfl rfl rfl) rfl, fun _ _ hx => nomatch hx⟩
  | sysClearErr =>
    rw [exec_sysClearErr_eq] at h
    cases h
    exact ⟨inv_complete (hlanes.congr rfl rfl rfl) hcoord (errOk_clear rfl rfl rfl rfl) rfl, id⟩
  | sysConfigure =>
    cases hc : configFault s.laneCount s.cfg.toAct with
    | none =>
      rw [exec_sysConfigure_ok hc] at h
      cases h
      refine ⟨inv_complete (lanesOk_initLanes (s := { s.begin with act := some s.cfg.toAct }) fun b hb => ?_) hcoord herr rfl,
        fun _ => laneInit_cellsExist⟩
      cases hb
      exact configFault_none_iff.mp hc
    | some c =>
      rw [exec_sysConfigure_fails hc] at h
      cases h
      have hcls : c.cls ≠ .illegal := by
        rw [configFault_cls hc]
        decide
      exact ⟨inv_takeError_legal hcls (fun _ hb => nomatch hb) rfl, fun hx => cellsExist_takeError hx⟩
  | _ => exact nomatch hi

theorem isSys_of_runsUnderError {i : Instr} (h : runsUnderError i = true) : isSys i = true := by
  cases i with
  | sysNop | sysSoftReset | sysClearErr => rfl
  | _ => exact nomatch h

/-- A command that runs, with no error pending or in spite of it (R1011, R1020). -/
theorem exec_stepsTo {i : Instr} {s t : State} (hcq : s.cq ≠ []) (hrun : s.err = false ∨ runsUnderError i = true)
    (h : exec i s = .next t) : s.StepsTo t := by
  cases hi : isSys i with
  | true => exact exec_sys_stepsTo hi h
  | false =>
    have herr : s.err = false := hrun.elim id fun hr => absurd (isSys_of_runsUnderError hr) (by rw [hi]; decide)
    rcases exec_next hi h with ⟨ht, -, -⟩ | ⟨e, he, ht⟩ | ⟨e, u, he, hw, -, ht⟩ | ⟨v, u, ha, hu, ht⟩
    · subst ht
      intro hinv
      obtain ⟨hlanes, hstage, hcoord, hregs, -⟩ := State.inv_iff.mp hinv
      exact ⟨State.inv_iff.mpr ⟨hlanes.congr rfl rfl rfl, hstage, hcoord, hregs, fun _ => ⟨hcq, herr⟩⟩, id⟩
    · subst ht
      intro hinv
      obtain ⟨hlanes, -, hcoord, -⟩ := State.inv_iff.mp hinv
      exact ⟨inv_takeError_illegal he (lanesOk_begin hlanes) hcoord rfl, cellsExist_takeError (u := s.begin)⟩
    · subst ht
      intro hinv
      obtain ⟨⟨-, -, hact, -⟩, -⟩ := State.inv_iff.mp hinv
      have hholding : u.holding = none := by rw [hw.eq]; rfl
      have hactEq : u.act = s.act := by rw [hw.eq]; rfl
      refine ⟨inv_takeError_legal he ?_ hholding, fun _ => ?_⟩
      · rw [State.laneCount_eq hw.lanes, hactEq]
        exact hact
      · rw [takeError_lane0_legal he]
        exact laneInit_cellsExist
    · rw [ht]
      exact hu.stepsTo ha

/-- The head of CQ is discarded under a sticky error, where no command holds (R1011). -/
theorem discard_stepsTo {s : State} (herr : s.err = true) : s.StepsTo (discard s) := fun hinv => by
  obtain ⟨hlanes, hstage, hcoord, hregs, hhold⟩ := State.inv_iff.mp hinv
  refine ⟨State.inv_iff.mpr ⟨hlanes.congr rfl rfl rfl, hstage, hcoord, hregs, fun hh => ?_⟩, id⟩
  have := (hhold hh).2
  rw [herr] at this
  exact nomatch this

/-- A word that is no command is refused (R304). -/
theorem rejectWord_stepsTo {c : Word} {e : DecodeError} {s : State} : s.StepsTo (rejectWord c e s) := fun hinv => by
  obtain ⟨hlanes, -, hcoord, -⟩ := State.inv_iff.mp hinv
  exact ⟨inv_takeError_illegal (by cases e <;> rfl) (lanesOk_begin hlanes) hcoord rfl, cellsExist_takeError (u := s.begin)⟩

/-- The block's move (R330, R1020). -/
theorem blockStep_stepsTo {s t : State} (h : blockStep s = .next t) : s.StepsTo t := by
  rw [blockStep] at h
  split at h
  · cases h
    exact fun hinv => ⟨hinv, id⟩
  · rename_i c rest hc
    have hcq : s.cq ≠ [] := by
      rw [hc]
      exact List.cons_ne_nil _ _
    rw [runWord] at h
    split at h
    · split at h
      · rename_i he
        cases h
        exact discard_stepsTo (Bool.and_eq_true_iff.mp he).1
      · rename_i he
        refine exec_stepsTo hcq ?_ h
        cases hs : s.err with
        | false => exact .inl rfl
        | true => exact .inr (by simpa [hs] using he)
    · split at h
      · rename_i he
        cases h
        exact discard_stepsTo he
      · cases h
        exact rejectWord_stepsTo

/-! ## The host and the reset input (R270, R1100) -/

/-- What the host and the outside world may change: CQ, the streams, the registers the host writes, and the model's own fields. -/
def State.HostSide (s t : State) : Prop :=
  t = { s with
    cq := t.cq, inp := t.inp, out := t.out, inEof := t.inEof, cfg := t.cfg, cmdLo := t.cmdLo
    agenda := t.agenda, draws := t.draws, free := t.free, readData := t.readData } ∧ (s.cq ≠ [] → t.cq ≠ [])

theorem State.HostSide.stepsTo {s t : State} (h : s.HostSide t) : s.StepsTo t := fun hinv => by
  obtain ⟨hlanes, hstage, hcoord, hregs, hhold⟩ := State.inv_iff.mp hinv
  obtain ⟨heq, hcq⟩ := h
  have hlane : t.lane0 = s.lane0 := by rw [heq]
  have herr : t.err = s.err ∧ t.errCode = s.errCode ∧ t.errInfo = s.errInfo ∧ t.errUnit = s.errUnit := by
    rw [heq]
    exact ⟨rfl, rfl, rfl, rfl⟩
  obtain ⟨h1, h2, h3, h4⟩ := herr
  refine ⟨State.inv_iff.mpr ⟨hlanes.congr hlane (by rw [heq]) (by rw [heq]), by rw [heq]; exact hstage, by rw [heq]; exact hcoord, ?_,
    fun hh => ?_⟩, hlane ▸ id⟩
  · rw [State.ErrOk, h1, h2, h3, h4]
    exact hregs
  · rw [heq] at hh
    exact ⟨hcq (hhold hh).1, h1.trans (hhold hh).2⟩

/-- A register write (R103). -/
theorem csrStore_hostSide {o : BitVec 7} {v : CsrWord} {s : State} : s.HostSide (csrStore o v s) := by
  rw [csrStore.eq_def]
  split
  case h_14 => exact ⟨rfl, fun _ => List.append_ne_nil_of_right_ne_nil _ (List.cons_ne_nil _ _)⟩
  all_goals exact ⟨rfl, id⟩

theorem hostAct_hostSide {a : HostAction} {s t : State} (h : hostAct a s = .next t) : s.HostSide t := by
  cases a with
  | csrRead w o =>
    rw [hostAct] at h
    split at h
    · cases h
      exact ⟨rfl, id⟩
    · exact nomatch h
  | csrWrite w o v =>
    rw [hostAct] at h
    split at h
    · cases h
      exact csrStore_hostSide
    · exact nomatch h
  | push b =>
    cases h
    exact ⟨rfl, id⟩
  | pop =>
    cases h
    exact ⟨rfl, id⟩

/-- The turn is taken from the agenda (log 5). -/
theorem agenda_hostSide {s : State} {turns : List Turn} : s.HostSide { s with agenda := turns } := ⟨rfl, id⟩

theorem State.StepsTo.trans {s t u : State} (h : s.StepsTo t) (h' : t.StepsTo u) : s.StepsTo u := fun hinv =>
  have h1 := h hinv
  have h2 := h' h1.1
  ⟨h2.1, h2.2 ∘ h1.2⟩

theorem hardReset_stepsTo {s : State} : s.StepsTo (hardReset s) := fun _ =>
  ⟨State.inv_of_quiet lanesOk_hardReset rfl rfl (errOk_clear rfl rfl rfl rfl) rfl,
    fun _ _ hx => nomatch hx⟩

/-- A step of the block, of the host or of the reset input. -/
theorem step_stepsTo {s t : State} (h : step s = .next t) : s.StepsTo t := by
  rw [step, moveNext] at h
  split at h
  · exact blockStep_stepsTo h
  · exact agenda_hostSide.stepsTo.trans (blockStep_stepsTo h)
  · exact agenda_hostSide.stepsTo.trans (hostAct_hostSide h).stepsTo
  · cases h
    exact agenda_hostSide.stepsTo.trans hardReset_stepsTo

/-- Settles O57: every move keeps the invariant, each command by what its rule leaves of the lanes. -/
theorem stepKeepsTheInvariant : Obligations.StepKeepsTheInvariant := fun _ _ hinv h => (step_stepsTo h hinv).1

/-- Settles O60: no cell is listed at reset, and every command writes cells below NPROB or empties the store. -/
theorem stepStaysInsideTheStore : Obligations.StepStaysInsideTheStore :=
  ⟨fun _ _ => laneInit_cellsExist (a := none), fun _ _ hinv hcells h => (step_stepsTo h hinv).2 hcells⟩

end Sys2Proof.Machine
end

section
/-! PROOFS. The register window, the reset values, CONFIGURE and the probability store's commands (R103 to R110, R160, R246, R570 to R572, R870,
R1040, R1100, R1102). -/

namespace Sys2Proof.Machine

/-! ## Register fields as bits (R108, R245) -/

theorem append_eq_ofNat {m n : Nat} {h : BitVec m} {l : BitVec n} : h ++ l = BitVec.ofNat (m + n) (h.toNat * 2 ^ n + l.toNat) := by
  apply BitVec.eq_of_toNat_eq
  have hlt : h.toNat * 2 ^ n + l.toNat < 2 ^ (m + n) := by
    have h1 := Nat.mul_le_mul_right (2 ^ n) (Nat.succ_le_of_lt h.isLt)
    have h2 := l.isLt
    rw [Nat.pow_add]
    rw [Nat.succ_mul] at h1
    omega
  rw [BitVec.toNat_append, BitVec.toNat_ofNat, Nat.mod_eq_of_lt hlt, ← Nat.shiftLeft_add_eq_or_of_lt l.isLt, Nat.shiftLeft_eq]

theorem extract_eq_ofNat {w lo n : Nat} {v : BitVec w} : v.extractLsb' lo n = BitVec.ofNat n (v.toNat / 2 ^ lo) := by
  apply BitVec.eq_of_toNat_eq
  rw [BitVec.extractLsb'_toNat, BitVec.toNat_ofNat, Nat.shiftRight_eq_div_pow]

/-- The fields CONFIGURE reads, as the statements cut them out of the registers (R108). -/
theorem toAct_eq_cfgFields {c : CfgRegs} : c.toAct = cfgFields c := by
  simp only [CfgRegs.toAct, cfgFields, append_eq_ofNat, extract_eq_ofNat, Nat.pow_zero, Nat.div_one]
  rfl

/-! ## CONFIGURE (R1040) -/

/-- Settles O14: legal fields pass every check, so CONFIGURE makes them the configuration and initialises every lane. -/
theorem configureSucceeds : Obligations.ConfigureSucceeds := by
  intro s v hv hd hd' hlc hlp hpb ht ht' hn hn'
  have hact : s.cfg.toAct = v := by rw [toAct_eq_cfgFields, hv]
  have hok : configFault s.laneCount s.cfg.toAct = none := by
    rw [hact]
    exact configFault_none_iff.mpr ⟨hd, hd', hlc, hlp, hpb, ht, ht', hn, hn'⟩
  rw [exec_sysConfigure_ok hok, hact]
  simp only [complete, State.completed, State.initLanes_out, State.begin_out, State.initLanes_stage, State.begin_stage]
  rfl

/-! ## The reset values (R103, R160, R1100, R1102) -/

theorem laneInit_cell {a : Option Act} {i : Nat} : (laneInit a).cell i = 1024#11 := by
  cases a <;> rfl

/-- Settles O16: the reset input gives the state after reset, whose values are those of R160. -/
theorem resetAndLaneInitValues : Obligations.ResetAndLaneInitValues := by
  refine ⟨fun s => ⟨hardReset s, fun turns h => ?_, ?_, rfl, ?_, rfl⟩, rfl, rfl, fun i => rfl, rfl, by decide, fun a ha => ?_⟩
  · rw [step, moveNext, h]
    rfl
  · rw [List.map_const']
    rfl
  · rw [State.laneCount, State.laneCount, show (hardReset s).workers = List.replicate s.workers.length Lane.reset from rfl,
      List.length_replicate]
  · have hlp : (a.lp.setWidth 3).toNat = a.lp.toNat := by
      rw [BitVec.toNat_setWidth]
      omega
    refine ⟨rfl, rfl, fun i => laneInit_cell, rfl, hlp, rfl, rfl, fun i => ?_, rfl, rfl, rfl, rfl⟩
    rw [Coder.rep.eq_def]
    split <;> rfl

/-! ## What a register reads (R103, R104) -/

/-- A register's value is fixed by the registers shown and by what no host write changes; STATUS by the hold too (R104). -/
theorem csrValue_congr {s t : State} {o : BitVec 7} (hshown : t.shownRegs = s.shownRegs)
    (hrest : t = { s with holding := t.holding, inEof := t.inEof, cfg := t.cfg, seen := t.seen })
    (hstatus : o ≠ 0x04 ∨ t.holding = s.holding) : csrValue t o = csrValue s o := by
  generalize t.holding = h, t.inEof = e, t.cfg = c, t.seen = r at hrest hstatus
  subst hrest
  rw [csrValue.eq_def, csrValue.eq_def, hshown]
  simp only
  split
  case h_2 ho =>
    rcases hstatus with hne | rfl
    · exact absurd (BitVec.eq_of_toNat_eq ho) hne
    · rfl
  all_goals rfl

/-- What the CFG registers `c` show at an offset (R103). -/
def CfgRegs.shownAt (c : CfgRegs) : Nat → CsrWord
  | 0x20 => c.dictSize
  | 0x24 => c.lclppb.setWidth 32
  | 0x28 => c.mode.setWidth 32
  | 0x2C => c.niceLen.setWidth 32
  | 0x30 => c.depth
  | 0x34 => c.preset
  | 0x38 => c.threads
  | 0x3C => c.spanLo
  | 0x40 => c.spanHi.setWidth 32
  | 0x44 => c.outCapLo
  | 0x48 => c.outCapHi
  | _ => 0#32

/-- A register that the CFG registers `c` show as before, or that a hold does not show, reads as before (R104). -/
theorem csrValue_withCfg {s : State} {c : CfgRegs} {o : BitVec 7} (h : s.holding.isSome = true ∨ c.shownAt o.toNat = s.cfg.shownAt o.toNat) :
    csrValue { s with cfg := c } o = csrValue s o := by
  by_cases hs : s.holding.isSome = true
  · exact csrValue_congr ((State.shownRegs_holding (s := { s with cfg := c }) hs).trans (State.shownRegs_holding hs).symm) rfl (.inr rfl)
  · have hh := Option.not_isSome_iff_eq_none.mp hs
    have hc := h.resolve_left hs
    rw [csrValue.eq_def, csrValue.eq_def, State.shownRegs_quiet hh, State.shownRegs_quiet (s := { s with cfg := c }) hh]
    simp only
    split
    case h_9 ho | h_10 ho | h_11 ho | h_12 ho | h_13 ho | h_14 ho | h_15 ho | h_16 ho | h_17 ho | h_18 ho | h_19 ho =>
      rw [ho] at hc
      exact hc
    all_goals rfl

/-! ## Register writes (R103, R108, R109) -/

/-- The low `n` bits of a word, read back as a word, are its bits under the mask (R108). -/
theorem setWidth_eq_mask {n : Nat} {v : CsrWord} (hn : n ≤ 32) : (v.setWidth n).setWidth 32 = v &&& BitVec.ofNat 32 (2 ^ n - 1) := by
  apply BitVec.eq_of_toNat_eq
  have hpow : 2 ^ n ≤ 2 ^ 32 := Nat.pow_le_pow_right (by decide) hn
  have hpos := Nat.two_pow_pos n
  rw [BitVec.toNat_and, BitVec.toNat_ofNat, Nat.mod_eq_of_lt (show 2 ^ n - 1 < 2 ^ 32 by omega), Nat.and_two_pow_sub_one_eq_mod,
    BitVec.toNat_setWidth, BitVec.toNat_setWidth]
  exact Nat.mod_eq_of_lt (Nat.lt_of_lt_of_le (Nat.mod_lt _ hpos) hpow)

theorem hostAct_csrWrite {s : State} {o : BitVec 7} {v : CsrWord} (ho : o.toNat % 4 = 0) :
    hostAct (.csrWrite 32 o v) s = .next (csrStore o v s) := by
  rw [hostAct, if_pos (by simp [alignedAccess, ho])]

/-- A write changes what the CFG registers show at its own offset alone; CFG_PRESET, whose write loads others, apart (R103, R109). At each
offset the registers show what they did, or the offset is the write's own. -/
theorem csrStore_at_other {s : State} {o : BitVec 7} {v : CsrWord} {k : Nat} (ho : o ≠ 0x34) (hk : k ≠ o.toNat) :
    (csrStore o v s).cfg.shownAt k = s.cfg.shownAt k := by
  rw [csrStore.eq_def]
  split <;> rename_i hoff
  case h_7 => exact absurd (BitVec.eq_of_toNat_eq hoff) ho
  case h_1 | h_13 | h_14 | h_15 => rfl
  all_goals
    rw [CfgRegs.shownAt.eq_def, CfgRegs.shownAt.eq_def]
    split <;> first
      | rfl
      | exact absurd hoff.symm hk

/-- A write that leaves the CFG registers showing the bits under the mask (R108). -/
theorem csrWrite_readsBack {s : State} {o : BitVec 7} {v m : CsrWord} (ho : o.toNat % 4 = 0 ∧ o ≠ 0x34)
    (hstore : csrStore o v s = { s with cfg := (csrStore o v s).cfg })
    (hread : csrValue { csrStore o v s with holding := none } o = v &&& m) :
    ∃ t, hostAct (.csrWrite 32 o v) s = .next t ∧ csrValue { t with holding := none } o = v &&& m ∧
      (∀ p, p ≠ o ∨ s.holding.isSome = true → csrValue t p = csrValue s p) ∧ t = { s with cfg := t.cfg } := by
  refine ⟨_, hostAct_csrWrite ho.1, hread, fun p hp => ?_, hstore⟩
  rw [hstore]
  exact csrValue_withCfg (hp.symm.imp_right fun hne => csrStore_at_other ho.2 fun heq => hne (BitVec.eq_of_toNat_eq heq))

/-- Every plain CFG register (R108). -/
theorem cfgWrite_readsBack {s : State} {v : CsrWord} {p : BitVec 7 × CsrWord} (hp : p ∈ cfgMasks) : ∃ t,
    hostAct (.csrWrite 32 p.1 v) s = .next t ∧ csrValue { t with holding := none } p.1 = v &&& p.2 ∧
      (∀ o, o ≠ p.1 ∨ s.holding.isSome = true → csrValue t o = csrValue s o) ∧ t = { s with cfg := t.cfg } := by
  have hfull : v = v &&& 0xFFFFFFFF#32 := (BitVec.and_allOnes (x := v)).symm
  simp only [cfgMasks, List.mem_cons, List.not_mem_nil, or_false] at hp
  rcases hp with rfl | rfl | rfl | rfl | rfl | rfl | rfl | rfl | rfl | rfl
  · exact csrWrite_readsBack (by decide) rfl hfull
  · exact csrWrite_readsBack (by decide) rfl (setWidth_eq_mask (n := 11) (by decide))
  · exact csrWrite_readsBack (by decide) rfl (setWidth_eq_mask (n := 3) (by decide))
  · exact csrWrite_readsBack (by decide) rfl (setWidth_eq_mask (n := 9) (by decide))
  · exact csrWrite_readsBack (by decide) rfl hfull
  · exact csrWrite_readsBack (by decide) rfl hfull
  · exact csrWrite_readsBack (by decide) rfl hfull
  · exact csrWrite_readsBack (by decide) rfl (setWidth_eq_mask (n := 16) (by decide))
  · exact csrWrite_readsBack (by decide) rfl hfull
  · exact csrWrite_readsBack (by decide) rfl hfull

/-- CTRL keeps bit 0 of what is written (R105). -/
theorem ctrl_readsBack {s : State} {v : CsrWord} (h : s.holding = none) : csrValue { s with inEof := v.getLsbD 0 } 0x08 = v &&& 1 := by
  have hshown : ({ s with inEof := v.getLsbD 0 } : State).shownRegs = { inEof := v.getLsbD 0, cfg := s.cfg } := State.shownRegs_quiet h
  rw [csrValue, hshown]
  show BitVec.ofNat 32 (v.getLsbD 0).toNat = v &&& 1
  apply BitVec.eq_of_toNat_eq
  rw [BitVec.toNat_and, show (1 : BitVec 32).toNat = 1 from rfl, Nat.and_one_is_mod, BitVec.toNat_ofNat, BitVec.getLsbD,
    Nat.toNat_testBit]
  omega

/-- Settles O17: each register stores and reads back its bits, and a hold shows what the last completion left (log 24). -/
theorem configurationRegistersReadBack : Obligations.ConfigurationRegistersReadBack := by
  refine ⟨fun s v p hp => cfgWrite_readsBack hp, fun s v => ⟨hostAct_csrWrite (o := 0x08) rfl, ctrl_readsBack⟩, fun s o hh ho => ?_,
    fun s r o hh => ?_⟩
  · exact csrValue_congr (t := s) (State.shownRegs_holding hh) rfl (.inl ho)
  · exact csrValue_congr ((State.shownRegs_quiet (s := { s with seen := r }) hh).trans (State.shownRegs_quiet hh).symm) rfl (.inr rfl)

/-- Settles O18: an offset with no register of its own falls through the table. -/
theorem otherRegisterAccesses : Obligations.OtherRegisterAccesses := by
  refine ⟨fun s o v ho hn => ?_, fun s o ho => ?_, fun s o ho => ?_, fun s w o v h => ?_⟩
  · rw [hostAct_csrWrite ho, csrStore.eq_def]
    have hne {k : Nat} (hk : o.toNat = k) (hmem : BitVec.ofNat 7 k ∈ writableOffsets) : False := by
      rw [← hk, BitVec.ofNat_toNat, BitVec.setWidth_eq] at hmem
      exact hn hmem
    split <;> rename_i hoff
    case h_15 => rfl
    all_goals exact (hne hoff (by decide)).elim
  · simp only [List.mem_cons, List.not_mem_nil, or_false] at ho
    rcases ho with rfl | rfl | rfl | rfl | rfl | rfl <;> rfl
  · rw [hostAct, if_pos (by simp [alignedAccess, ho])]
  · have hal : alignedAccess w o = false := by
      rw [alignedAccess]
      rcases h with h | h <;> simp [h]
    simp only [hostAct, hal]
    exact ⟨rfl, rfl⟩

/-- Settles O19: the two offsets of the command register, and the ends of IN and OUT. -/
theorem hostPushesCommandsAndBytes : Obligations.HostPushesCommandsAndBytes := by
  intro s h lo b
  refine ⟨hostAct_csrWrite rfl, rfl, ?_, rfl, fun x rest hout => ?_⟩
  · rw [hostAct_csrWrite rfl, append_eq_ofNat]
    rfl
  · rw [hostAct, hout]
    rfl

/-! ## The preset table (R109, R870) -/

/-- A row of the table fits the registers it is loaded into (R870). -/
theorem presetTable_row {k : Nat} {row : Nat × Nat × Nat × Nat} (h : presetTable[k]? = some row) :
    k ≤ 9 ∧ row = ((presetOf k).dictSize, (presetOf k).modeMf, (presetOf k).niceLen, (presetOf k).depth) ∧
      row.1 < 2 ^ 32 ∧ row.2.1 < 4 ∧ row.2.2.1 < 2 ^ 9 ∧ row.2.2.2 < 2 ^ 32 := by
  have hrows : ∀ k < 10, let p := presetOf k
      presetTable[k]? = some (p.dictSize, p.modeMf, p.niceLen, p.depth) ∧
        p.dictSize < 2 ^ 32 ∧ p.modeMf < 4 ∧ p.niceLen < 2 ^ 9 ∧ p.depth < 2 ^ 32 := by decide
  obtain ⟨hk, -⟩ := List.getElem?_eq_some_iff.mp h
  have hk : k < 10 := hk
  obtain ⟨h1, h2⟩ := hrows k hk
  obtain rfl := Option.some.inj (h.symm.trans h1)
  exact ⟨Nat.le_of_lt_succ hk, rfl, h2⟩

/-- The low bits of CFG_MODE are loaded, `eos` stays (R109). -/
theorem presetMode {m : BitVec 3} {k : Nat} (hk : k < 4) :
    (BitVec.ofNat 3 (m.toNat / 4 * 4 + k)).toNat % 4 = k ∧ (BitVec.ofNat 3 (m.toNat / 4 * 4 + k)).getLsbD 2 = m.getLsbD 2 := by
  revert m
  interval_cases k <;> decide

/-- Settles O20: a row of the table is loaded whole, and no later write reaches CFG_PRESET. -/
theorem presetLoadsItsRow : Obligations.PresetLoadsItsRow := by
  intro s v
  refine ⟨fun h9 => ?_, fun row hrow => ?_, fun o ho => ?_⟩
  · rw [hostAct_csrWrite rfl]
    show Host.Outcome.next { s with cfg := writePreset v s.cfg } = .next s
    rw [writePreset, if_neg (by omega)]
  · obtain ⟨hk, rfl, hd, hm, hn, hdepth⟩ := presetTable_row hrow
    have hcfg : writePreset v s.cfg = { s.cfg with
        dictSize := BitVec.ofNat 32 (presetOf v.toNat).dictSize
        lclppb := 0x203#11
        mode := BitVec.ofNat 3 (s.cfg.mode.toNat / 4 * 4 + (presetOf v.toNat).modeMf)
        niceLen := BitVec.ofNat 9 (presetOf v.toNat).niceLen
        depth := BitVec.ofNat 32 (presetOf v.toNat).depth
        preset := v } := if_pos hk
    obtain ⟨hmode, heos⟩ := presetMode (m := s.cfg.mode) hm
    refine ⟨{ s with cfg := writePreset v s.cfg }, hostAct_csrWrite rfl, ?_, ?_⟩ <;> rw [hcfg]
    exact ⟨Nat.mod_eq_of_lt hd, hmode, heos, Nat.mod_eq_of_lt hn, Nat.mod_eq_of_lt hdepth, rfl⟩
  · simp only [List.mem_cons, List.not_mem_nil, or_false] at ho
    rcases ho with rfl | rfl | rfl | rfl | rfl <;>
      exact ⟨_, hostAct_csrWrite rfl, csrValue_withCfg (.inr rfl)⟩

/-! ## STATUS (R104) -/

/-- The bits of STATUS, each a flag (R104). -/
theorem status_bits (b0 b1 b2 b3 b4 b5 : Bool) :
    let v := BitVec.ofNat 32 (b0.toNat + b1.toNat * 2 + b2.toNat * 4 + b3.toNat * 8 + b4.toNat * 16 + b5.toNat * 32)
    v.toNat < 2 ^ 6 ∧ v.getLsbD 0 = b0 ∧ v.getLsbD 1 = b1 ∧ v.getLsbD 2 = b2 ∧ v.getLsbD 3 = b3 ∧ v.getLsbD 4 = b4 ∧
      v.getLsbD 5 = b5 := by
  revert b0 b1 b2 b3 b4 b5
  decide

/-- Settles O21: STATUS is six flags, each the part of the state it names. -/
theorem statusFields : Obligations.StatusFields := by
  intro s
  obtain ⟨h, h0, h1, h2, h3, h4, h5⟩ := status_bits s.busy s.err s.configured s.inWait s.lane0.l2e.active s.lane0.l2d.active
  show s.status.toNat < 2 ^ 6 ∧ (s.status.getLsbD 0 = true ↔ s.cq ≠ []) ∧ s.status.getLsbD 1 = s.err ∧
    (s.status.getLsbD 2 = true ↔ s.act ≠ none) ∧ (s.status.getLsbD 3 = true ↔ s.holding ≠ none) ∧
    s.status.getLsbD 4 = s.lane0.l2e.active ∧ s.status.getLsbD 5 = s.lane0.l2d.active
  rw [State.status, h0, h1, h2, h3, h4, h5]
  refine ⟨h, ?_, rfl, Option.isSome_iff_ne_none, Option.isSome_iff_ne_none, rfl, rfl⟩
  rw [State.busy, Bool.not_eq_true', List.isEmpty_eq_false_iff]

/-! ## The probability store (R570 to R572) -/

/-- Settles O29: each PROB command is one operation on lane 0's store. -/
theorem probCommands : Obligations.ProbCommands := by
  refine ⟨fun s hs => ?_, fun s pi hs hr => ?_, fun s pi v hs hr hcells => ?_⟩
  · refine ⟨{ s.lane0 with prob := [] }, ?_, rfl, fun j => rfl⟩
    rw [show exec .probReset s = execProbReset s from rfl, execProbReset]
    exact runCommand_completed (v := 0) (precheck_unitsFree hs rfl) (Nat.zero_le _) rfl
  · rw [show exec (.probRead pi) s = execProbRead pi s from rfl, execProbRead]
    exact runCommand_completed (precheck_reader hs rfl (operandsOk_iff.mpr hr)) (Nat.zero_le _) rfl
  · obtain ⟨-, hv, hv'⟩ := id hr
    have hval : (BitVec.ofNat 11 v.toNat).toNat = v.toNat := by
      rw [BitVec.toNat_ofNat]
      omega
    refine ⟨s.lane0.setCell pi.toNat (BitVec.ofNat 11 v.toNat), ?_, rfl, ?_, fun j hj => Memory.read_write_other hcells.1 hj,
      hcells.write (by rw [hval]; exact hv)⟩
    · rw [show exec (.probWrite pi v) s = execProbWrite pi v s from rfl, execProbWrite]
      exact runCommand_completed (v := 0) (precheck_unitsFree hs (operandsOk_iff.mpr hr)) (Nat.zero_le _) rfl
    · rw [Lane.cell, Lane.setCell_prob, Memory.read_write_same hcells.1, hval]

end Sys2Proof.Machine
end

section
/-! PROOFS. L2.ENC_SEGMENT and L2.ENC_END on any session: what a segment writes, and that one of 1 to 7 bytes is one uncompressed chunk (R130,
R801, R810 to R813, R815, R852, R853). -/

namespace Sys2Proof.Machine

/-! ## A short segment is one chunk (R810 to R812) -/

theorem treeDecisions_length {base n v : Nat} : (treeDecisions base n v).length = n := by
  rw [treeDecisions, List.length_map, List.length_range]

theorem reverseDecisions_length {base n v : Nat} : (reverseDecisions base n v).length = n := by
  rw [reverseDecisions, List.length_map, List.length_range]

theorem directDecisions_length {v n : Nat} : (directDecisions v n).length = n := by
  rw [directDecisions, List.length_map, List.length_range]

theorem lengthDecisions_length {base len ps : Nat} : (lengthDecisions base len ps).length ≤ 10 := by
  rw [lengthDecisions]
  split
  · simp only [List.length_cons, treeDecisions_length]
    omega
  · split <;> simp only [List.length_cons, treeDecisions_length] <;> omega

/-- A distance of 32 bits has a slot below 64, so at most 30 bits below its slot (R540). -/
theorem distanceDecisions_length {d0 len : Nat} (h : d0 < 2 ^ 32) : (distanceDecisions d0 len).length ≤ 36 := by
  have hslot := (slotOf_spec h).1
  simp only [distanceDecisions, List.length_append, treeDecisions_length]
  split
  · simp
  · split
    · rw [reverseDecisions_length]
      omega
    · rw [List.length_append, directDecisions_length, reverseDecisions_length]
      omega

/-- A symbol with its distance in a dictionary takes at most 48 decisions (R340). -/
theorem Sym.decisions_length {y : Sym} {l : Lane} (h : y.InDictionary l.win) : (y.decisions l).length ≤ 48 := by
  have hdict := l.win.dictSize.isLt
  cases y with
  | lit =>
    simp only [Sym.decisions, List.length_cons]
    split
    · rw [treeDecisions_length]
      omega
    · rw [matchedDecisions, List.length_map, List.length_range]
      omega
  | mtch d len =>
    have hd : d ≤ l.win.dictSize.toNat := h
    have h1 := lengthDecisions_length (base := 818) (len := len) (ps := l.win.cur % 2 ^ l.lz.pb.toNat)
    have h2 := distanceDecisions_length (d0 := d - 1) (len := len) (by omega)
    simp only [Sym.decisions, List.length_cons, List.length_append]
    omega
  | eos =>
    have h1 := lengthDecisions_length (base := 818) (len := 2) (ps := l.win.cur % 2 ^ l.lz.pb.toNat)
    have h2 := distanceDecisions_length (d0 := 0xFFFFFFFF) (len := 2) (by decide)
    simp only [Sym.decisions, List.length_cons, List.length_append]
    omega
  | shortrep =>
    simp only [Sym.decisions, List.length_cons, List.length_nil]
    omega
  | rep r len =>
    have h1 := lengthDecisions_length (base := 1332) (len := len) (ps := l.win.cur % 2 ^ l.lz.pb.toNat)
    simp only [Sym.decisions, List.length_append, List.length_cons, List.length_nil]
    split <;> simp only [List.length_cons, List.length_nil] <;> omega

/-- Seven bytes' symbols leave the encoder far below the size at which a chunk is closed: the chunk goes on to the segment's end (R811). -/
theorem codeChunk_short {b : Build} {a : Act} {segEnd fuel cu : Nat} {l : Lane} (hcur : l.win.cur ≤ segEnd)
    (hfuel : segEnd - l.win.cur ≤ fuel) (hshort : cu + (segEnd - l.win.cur) ≤ 7) (hshifted : l.rce.shifted ≤ 1 + 192 * cu)
    (hcache : CacheInDictionary l.win l.win.cur l.mf) :
    (codeChunk b a segEnd fuel cu l).1 = cu + (segEnd - l.win.cur) := by
  induction fuel generalizing cu l with
  | zero =>
    show cu = _
    omega
  | succ fuel ih =>
    rw [codeChunk]
    split
    · rename_i hgo
      obtain ⟨hlt, hu, -⟩ := hgo
      obtain ⟨y, m, heq, hpos, hlen, hstep, hdict⟩ := codeSymbol_coded (b := b) (a := a) (segEnd := segEnd) (l := l)
        (most := min Config.matchLenMax (min (Config.uLimit - cu) (segEnd - l.win.cur))) (by rw [Config.matchLenMax]; omega)
      have hcode : (y.coded l).rce.shifted ≤ l.rce.shifted + 4 * (y.decisions l).length :=
        (codeDecisions_shifted (ds := y.decisions l) (l := l)).2
      have hdecs := Sym.decisions_length (hdict hcache)
      have hcur' : ({ y.coded l with mf := m } : Lane).win.cur = l.win.cur + y.len := rfl
      have hcache' : CacheInDictionary l.win (l.win.cur + y.len) m := (hstep.cache _ hcache).moveOn (Nat.le_add_right _ _)
      simp only [heq]
      rw [ih (l := { y.coded l with mf := m }) (by omega) (by omega) (by omega)
        (show (y.coded l).rce.shifted ≤ _ by omega) hcache', hcur']
      omega
    · rename_i hstop
      have hpending : pendingSize l.rce < Config.cSoft := by
        rw [RangeEnc.shifted] at hshifted
        rw [pendingSize, Config.cSoft]
        omega
      have hu : cu < Config.uLimit := by
        rw [Config.uLimit]
        omega
      have : ¬ l.win.cur < segEnd := fun hlt => hstop ⟨hlt, hu, hpending⟩
      show cu = _
      omega

theorem pieces_of_short {n fuel : Nat} {x : List Byte} (hne : x ≠ []) (hx : x.length ≤ n) (hf : 1 ≤ fuel) : pieces n fuel x = [x] := by
  have hnil (f : Nat) : pieces n f [] = [] := by cases f <;> rfl
  obtain ⟨f, rfl⟩ : ∃ f, fuel = f + 1 := ⟨fuel - 1, by omega⟩
  rw [pieces, if_neg (by simpa using hne), List.take_of_length_le hx, List.drop_of_length_le hx, hnil]

/-- The loop of a segment that is coded to its end (R810). -/
theorem encodeSegmentLoop_done {b : Build} {a : Act} {segEnd fuel : Nat} {l : Lane} (h : segEnd ≤ l.win.cur) :
    encodeSegmentLoop b a segEnd fuel l = ([], l) := by
  cases fuel with
  | zero => rfl
  | succ fuel => rw [encodeSegmentLoop, if_neg (by omega)]

/-- A segment of 1 to 7 bytes is one uncompressed chunk: its payload of 5 bytes or more would not be shorter (R812). -/
theorem encodeSegment_short {b : Build} {a : Act} {segEnd : Nat} {e : Lane} (h1 : 1 ≤ segEnd - e.win.cur) (h7 : segEnd - e.win.cur ≤ 7)
    (hend : segEnd ≤ e.win.endPos) (hcache : CacheInDictionary e.win e.win.cur e.mf) :
    (encodeSegment b a segEnd e).1 = rawChunk e.l2e.needDict (e.win.ahead (segEnd - e.win.cur)) ∧
      (encodeSegment b a segEnd e).2.l2e = { e.l2e with needDict := false, needState := true } := by
  obtain ⟨n, m, h⟩ := encodeChunk_coded (b := b) (a := a) (show e.win.cur < segEnd by omega)
  have hn : n = segEnd - e.win.cur := by
    rw [h.count, codeChunk_short (l := { e with rce := RangeEnc.fresh }) (by show e.win.cur ≤ _; omega) (Nat.le_refl _)
      (by rw [Nat.zero_add]; exact h7) (Nat.le_refl _) hcache, Nat.zero_add]
  have hle : e.win.cur + n ≤ e.win.endPos := Nat.le_trans h.end_le hend
  have hlen := Window.ahead_length hle
  have hne := Window.ahead_ne_nil h.pos hle
  have hpayload := h.payload
  have hemit : encodeChunk b a segEnd e = (rawChunk e.l2e.needDict (e.win.ahead n), m.afterRaw) := by
    rw [h.eq, emitChunk_raw (by omega) h.ahead hne, h.flags,
      pieces_of_short hne (by rw [hlen, Config.rawMax]; omega) h.pos, rawChunks, rawChunks, List.append_nil]
  obtain ⟨f, hf⟩ : ∃ f, segEnd - e.win.cur = f + 1 := ⟨segEnd - e.win.cur - 1, by omega⟩
  have hcur : m.afterRaw.win.cur = e.win.cur + n := h.cur
  have hseg : encodeSegment b a segEnd e = (rawChunk e.l2e.needDict (e.win.ahead n), m.afterRaw) := by
    rw [encodeSegment, hf, encodeSegmentLoop, if_pos (by omega), hemit]
    simp only [encodeSegmentLoop_done (b := b) (a := a) (fuel := f) (show segEnd ≤ m.afterRaw.win.cur by omega), List.append_nil]
  rw [hseg, ← hn]
  refine ⟨rfl, ?_⟩
  show ({ m.l2e with needDict := false, needState := true } : EncSession) = _
  rw [h.flags]

/-- The bytes of a short uncompressed chunk (R350). -/
theorem rawChunk_short {needDict : Bool} {x : List Byte} (h : x.length ≤ 7) :
    rawChunk needDict x = (if needDict then 0x01#8 else 0x02#8) :: 0x00#8 :: BitVec.ofNat 8 (x.length - 1) :: x := by
  rw [rawChunk, be16, Nat.div_eq_of_lt (show x.length - 1 < 2 ^ 8 by omega)]
  rfl

/-! ## L2.ENC_SEGMENT's three ends (R852) -/

/-- The error of properties that LZMA2 cannot carry (R815, R1002). -/
def lclpError (a : Act) : Raised where
  cause := .lclpSum (a.lc.toNat + 16 * a.lp.toNat)
  wrapped := false
  place := none

theorem lclpError_code {a : Act} : (lclpError a).errCode.toNat = 0x0501 := by
  show (BitVec.ofNat 32 (0x05 * 2 ^ 8 + 1)).toNat = 0x0501
  decide

theorem lclpError_unit {a : Act} : (lclpError a).errUnit.toNat = 0 := rfl

theorem lclpError_info {a : Act} {c : Word} {took : Nat} :
    ((lclpError a).errInfo c took).toNat = a.lc.toNat + 16 * a.lp.toNat := by
  have hlc := a.lc.isLt
  have hlp := a.lp.isLt
  show (BitVec.ofNat 64 (a.lc.toNat + 16 * a.lp.toNat)).toNat = _
  rw [BitVec.toNat_ofNat]
  omega

section
variable {s : State} {a : Act} {n : BitVec 48} (ha : s.act = some a) (hl2d : s.lane0.l2d.active = false) (hn : 1 ≤ n.toNat)
include ha hl2d hn

theorem precheck_l2EncSegment : precheck (.l2EncSegment n) s = none := by
  simp [precheck, State.configured, ha, operandsOk, Instr.wf, hn, lockOk, lockOf, hl2d, isSys]

/-- Properties that LZMA2 cannot carry are refused before any byte is taken (R815). -/
theorem exec_l2EncSegment_lclp (h4 : 4 < a.lc.toNat + a.lp.toNat) :
    exec (.l2EncSegment n) s = .next (s.failedWith 0 0x0501 (a.lc.toNat + 16 * a.lp.toNat) 0) := by
  have hbody : execL2EncSegment n s = .next (s.failedWith 0 (lclpError a).errCode.toNat ((lclpError a).errInfo _ 0).toNat
      (lclpError a).errUnit.toNat) :=
    runCommand_failedWith (precheck_l2EncSegment ha hl2d hn) (t := s.begin) (by
      rw [withAct_some (s := s.begin) ha, requireLclp, decide_eq_false (Nat.not_le_of_lt h4), require_false]
      rfl) (fun h => nomatch h) rfl rfl (Nat.zero_le _)
  rw [show exec (.l2EncSegment n) s = execL2EncSegment n s from rfl, hbody, lclpError_code, lclpError_info, lclpError_unit]

/-- Fewer bytes than the segment's before IN_EOF hold the command (R231). -/
theorem exec_l2EncSegment_held (h4 : a.lc.toNat + a.lp.toNat ≤ 4) (hlen : s.input.length < n.toNat) (heof : s.inEof = false) :
    exec (.l2EncSegment n) s = .next s.held := by
  rw [show exec (.l2EncSegment n) s = execL2EncSegment n s from rfl, execL2EncSegment]
  refine runCommand_held (t := { s.begin.withLane0 (encoderLane s) with inp := [] }) (precheck_l2EncSegment ha hl2d hn) ?_
  have htake : inUpTo n.toNat (s.begin.withLane0 (encoderLane s)) = .stop .hold { s.begin.withLane0 (encoderLane s) with inp := [] } := by
    rw [inUpTo, if_neg (show ¬ n.toNat ≤ (s.begin.withLane0 (encoderLane s)).inp.length from Nat.not_le_of_lt hlen),
      if_neg (show ¬ (s.begin.withLane0 (encoderLane s)).inEof = true from Bool.eq_false_iff.mp heof)]
  rw [withAct_some (s := s.begin) ha, requireLclp, decide_eq_true h4, require_true, openEncoder_begin, htake, Res.bind_stop]

/-- The segment's bytes are there, or IN ends before: they are fed and coded (R852). -/
theorem exec_l2EncSegment_takes (h4 : a.lc.toNat + a.lp.toNat ≤ 4) (hin : n.toNat ≤ s.input.length ∨ s.inEof = true) :
    let x := s.input.take (min n.toNat s.input.length)
    let r := encodeSegment s.build a ((encoderLane s).win.feed x).endPos ((encoderLane s).fed x)
    exec (.l2EncSegment n) s = .next (s.completed (min n.toNat s.input.length) r.1 r.1.length r.2.segmentDone) := by
  intro x r
  have htake : inUpTo n.toNat (s.begin.withLane0 (encoderLane s)) =
      .ok x { s.begin with lane0 := encoderLane s, inp := s.input.drop (min n.toNat s.input.length) } := by
    rw [inUpTo]
    by_cases hlen : n.toNat ≤ s.input.length
    · rw [if_pos (show n.toNat ≤ (s.begin.withLane0 (encoderLane s)).inp.length from hlen)]
      simp only [x, Nat.min_eq_left hlen]
      rfl
    · rw [if_neg (show ¬ n.toNat ≤ (s.begin.withLane0 (encoderLane s)).inp.length from hlen),
        if_pos (show (s.begin.withLane0 (encoderLane s)).inEof = true from hin.resolve_left hlen)]
      simp only [x, Nat.min_eq_right (Nat.le_of_not_le hlen), List.take_length, List.drop_length]
      rfl
  rw [show exec (.l2EncSegment n) s = execL2EncSegment n s from rfl, execL2EncSegment]
  refine runCommand_completed (precheck_l2EncSegment ha hl2d hn) (Nat.min_le_right _ _) ?_
  rw [withAct_some (s := s.begin) ha, requireLclp, decide_eq_true h4, require_true, openEncoder_begin, htake, Res.bind_ok]
  rfl

end

/-! ## What a segment leaves and writes (R810 to R813, R852) -/

/-- A segment fed behind a window that is all coded is all coded too, and the decoder's side and the session stay. -/
theorem segment_leaves {b : Build} {a : Act} {l : Lane} {x : List Byte} (hcur : l.win.cur = l.win.endPos) :
    let l' := (encodeSegment b a (l.win.feed x).endPos (l.fed x)).2.segmentDone
    l'.win.bytes = l.win.bytes ++ x ∧ l'.win.cur = l'.win.endPos ∧ l'.win.dictSize = l.win.dictSize ∧
      l'.l2e.active = l.l2e.active ∧ l'.l2e.segEnd = none ∧ l'.l2d = l.l2d ∧ l'.rcd = l.rcd := by
  obtain ⟨h, hdone⟩ := encodeSegment_encodesTo (b := b) (a := a) (e := l.fed x) (segEnd := (l.win.feed x).endPos)
    (by show l.win.cur ≤ _; rw [Window.feed_endPos]; omega) (Nat.le_refl _)
  generalize (encodeSegment b a (l.win.feed x).endPos (l.fed x)).2 = m at *
  refine ⟨?_, ?_, ?_, h.session.1, rfl, ?_, ?_⟩
  · show m.win.bytes = _
    rw [h.win]
    rfl
  · show m.win.cur = m.win.endPos
    rw [hdone, h.endPos]
    rfl
  · show m.win.dictSize = _
    rw [h.win]
    rfl
  · show m.l2d = _
    rw [h.eq]
    rfl
  · show m.rcd = _
    rw [h.eq]
    rfl

theorem segment_empty {b : Build} {a : Act} {l : Lane} (hcur : l.win.cur = l.win.endPos) :
    let r := encodeSegment b a (l.win.feed []).endPos (l.fed [])
    r.1 = [] ∧ r.2.segmentDone = { l with l2e := { l.l2e with segEnd := none } } := by
  have hfeed : l.win.feed [] = l.win := by rw [Window.feed, List.append_nil]
  intro r
  have hr : r = ([], l.fed []) := encodeSegmentLoop_done (by rw [hfeed]; exact Nat.le_of_eq hcur.symm)
  rw [hr]
  refine ⟨rfl, ?_⟩
  rw [Lane.segmentDone, Lane.fed, hfeed]

/-- Between the commands of a session the finder has cached nothing that is still to be coded (R733). -/
theorem cacheInDictionary_of_finderOk {l : Lane} (h : l.FinderOk) (hactive : l.l2e.active = true) :
    CacheInDictionary l.win l.win.cur l.mf := fun q list hq hle => by
  obtain ⟨-, hcache, hnext, -⟩ := h
  have h1 := hcache q list hq
  have h2 := hnext hactive
  omega

/-- A segment of 1 to 7 bytes is one uncompressed chunk (R812). -/
theorem segment_short {b : Build} {a : Act} {l : Lane} {x : List Byte} (hfinder : l.FinderOk) (hactive : l.l2e.active = true)
    (hcur : l.win.cur = l.win.endPos) (h1 : 1 ≤ x.length) (h7 : x.length ≤ 7) :
    let r := encodeSegment b a (l.win.feed x).endPos (l.fed x)
    r.1 = (if l.l2e.needDict then 0x01#8 else 0x02#8) :: 0x00#8 :: BitVec.ofNat 8 (x.length - 1) :: x ∧
      r.2.segmentDone.l2e.needDict = false ∧ r.2.segmentDone.l2e.needState = true := by
  have hlen : (l.win.feed x).endPos - (l.fed x).win.cur = x.length := by
    show (l.win.feed x).endPos - l.win.cur = _
    rw [Window.feed_endPos, hcur]
    omega
  have hahead : (l.fed x).win.ahead x.length = x := by
    show ((l.win.bytes ++ x).drop l.win.cur).take x.length = x
    rw [hcur, Window.endPos, List.drop_left, List.take_length]
  have hcache : CacheInDictionary l.win l.win.cur l.mf := cacheInDictionary_of_finderOk hfinder hactive
  obtain ⟨hbytes, hl2e⟩ := encodeSegment_short (b := b) (a := a) (segEnd := (l.win.feed x).endPos) (e := l.fed x)
    (by rw [hlen]; exact h1) (by rw [hlen]; exact h7) (Nat.le_refl _) hcache
  rw [hlen, hahead] at hbytes
  refine ⟨hbytes.trans (rawChunk_short h7), ?_, ?_⟩
  · show (encodeSegment b a (l.win.feed x).endPos (l.fed x)).2.l2e.needDict = false
    rw [hl2e]
  · show (encodeSegment b a (l.win.feed x).endPos (l.fed x)).2.l2e.needState = true
    rw [hl2e]

/-- A lane whose decoder waits for what the session declares next (R812, R830). -/
def readerOf (e : EncSession) : Lane :=
  { Lane.reset with l2d := { Lane.reset.l2d with needDictReset := e.needDict, needProps := e.needProps } }

theorem readerOf_inFlags {e : EncSession} (h : e.needDict = true → e.needProps = true) : InFlags e (readerOf e).l2d := ⟨rfl, rfl, h⟩

/-- What a session's segment writes is read by the coordinator from the session's flags on, to the last byte (R830, R921). -/
theorem segment_parses {b : Build} {a : Act} {l : Lane} {x : List Byte} (hl : l.Sound) (hactive : l.l2e.active = true)
    (hcap : x.length ≤ 2 ^ 64 - 1) :
    let bs := (encodeSegment b a (l.win.feed x).endPos (l.fed x)).1
    ∃ (records : List ChunkRecord) (u : State),
      parseStream (2 ^ 64 - 1) (bs.length + 1) (bs.length + 2)
        { needDictReset := l.l2e.needDict, needProps := l.l2e.needProps, total := 0 } none []
        { State.reset with inp := bs ++ [0x00#8], inEof := true } = .ok (records, none) u ∧
      u.inp = [] ∧ (records.map fun r => r.chunk.size).sum = x.length := by
  have hcur : l.win.cur = l.win.endPos := hl.cur (.inl hactive)
  have hend : (l.win.feed x).endPos = l.win.endPos + x.length := Window.feed_endPos
  obtain ⟨ks, hks, hheads, hsize⟩ := encodeSegmentLoop_heads (b := b) (a := a) (segEnd := (l.win.feed x).endPos) (e := l.fed x)
    (d := readerOf (l.fed x).l2e) (fuel := (l.win.feed x).endPos - (l.fed x).win.cur) (by show l.win.cur ≤ _; omega) (Nat.le_refl _) (Nat.le_refl _)
    ⟨hl.small hactive, hl.lz.2.2⟩ (readerOf_inFlags hl.flags)
  have hsize : (CodedChunk.allBytes ks).length = x.length := by
    rw [hsize]
    show (l.win.feed x).endPos - l.win.cur = _
    omega
  intro bs
  have hbs : bs = CodedChunk.wires ks := hks
  obtain ⟨records, h1, h2⟩ := parseStream_heads (s := { State.reset with inp := bs ++ [0x00#8], inEof := true }) (rest := [])
    (cap := 2 ^ 64 - 1) (read := bs.length + 1) (fuel := bs.length + 2) (total := 0) (inForce := none) (done := []) hheads
    (by rw [Nat.zero_add, hsize]; exact hcap) (by rw [hbs]) (by
      have := CodedChunk.length_le_wires (ks := ks)
      rw [hbs]
      omega)
  exact ⟨records, _, h1, rfl, h2.trans hsize⟩

/-- L2.ENC_END (R853). -/
theorem exec_l2EncEnd_completes {s : State} (hs : s.ready) (hl2d : s.lane0.l2d.active = false) :
    exec .l2EncEnd s = .next (s.completed 0 [0x00#8] 1 (if s.lane0.l2e.active then laneInit s.act else s.lane0)) := by
  have hpre : precheck .l2EncEnd s = none := by
    simp [precheck, State.configured, hs, operandsOk, Instr.wf, lockOk, lockOf, hl2d, isSys]
  rw [show exec .l2EncEnd s = execL2EncEnd s from rfl, execL2EncEnd]
  refine runCommand_completed (v := 1) hpre (Nat.zero_le _) ?_
  show answer 1 (if s.lane0.l2e.active then (s.begin.outBytes [0x00#8]).initLane0 else s.begin.outBytes [0x00#8]) = _
  cases s.lane0.l2e.active <;> rfl

/-- Settles O47: a segment is coded to its end whatever the lane holds, and its chunks' headers follow the session's flags. -/
theorem l2EncoderSessionCommands : Obligations.L2EncoderSessionCommands := by
  refine ⟨fun s a n ha hl2d hn => ⟨exec_l2EncSegment_lclp ha hl2d hn, exec_l2EncSegment_held ha hl2d hn, fun h4 hin hcur => ?_⟩,
    fun s hs hl2d => exec_l2EncEnd_completes hs hl2d⟩
  intro k l
  have hk : (s.input.take k).length = k := by
    rw [List.length_take]
    exact Nat.min_eq_left (Nat.min_le_right _ _)
  have hactive : l.l2e.active = true := encoderLane_active
  obtain ⟨h1, h2, h3, h5, h6, h7, h8⟩ := segment_leaves (b := s.build) (a := a) (l := l) (x := s.input.take k) hcur
  refine ⟨_, _, exec_l2EncSegment_takes ha hl2d hn h4 hin, h1, h2, h3, h5.trans hactive, h6, h7, h8, fun h0 => ?_, fun hfinder hk1 hk7 => ?_,
    fun hinv => ?_⟩
  · have hnil : s.input.take k = [] := by rw [h0, List.take_zero]
    show (encodeSegment s.build a (l.win.feed (s.input.take k)).endPos (l.fed (s.input.take k))).1 = [] ∧
      (encodeSegment s.build a (l.win.feed (s.input.take k)).endPos (l.fed (s.input.take k))).2.segmentDone = _
    rw [hnil]
    exact segment_empty hcur
  · have h := segment_short (b := s.build) (a := a) (x := s.input.take k) hfinder hactive hcur (by rw [hk]; exact hk1) (by rw [hk]; exact hk7)
    rw [hk] at h
    exact h
  · obtain ⟨⟨hlane, -, hact, -⟩, -⟩ := State.inv_iff.mp hinv
    have hsound : l.Sound := (encoderLane_keeps ha hact h4 hlane).1
    have h := segment_parses (b := s.build) (a := a) (x := s.input.take k) hsound hactive (by
      have := n.isLt
      rw [hk]
      omega)
    rw [hk] at h
    exact h

end Sys2Proof.Machine
end

section
/-! PROOFS. A decoding computation on a source that is cut short, and on one that goes on: whatever it does before its source runs out it
does with more bytes behind, where it runs out it has taken every byte, and every decision takes a part of the range or a byte (R231, R232,
R420 to R424, R520 to R552, R630, R1126). -/

namespace Sys2Proof.Machine

/-! ## More bytes behind the source -/

/-- The context with more bytes behind its source. -/
def DecCtx.more (c : DecCtx) (bs : List Byte) : DecCtx := { c with src := c.src ++ bs }

/-- The result with more bytes behind what it leaves of its source. -/
def Res.more {α : Type} (r : Res DecCtx α) (bs : List Byte) : Res DecCtx α :=
  match r with
  | .ok a c => .ok a (c.more bs)
  | .stop e c => .stop e (c.more bs)

/-- The computation stopped where its source had no byte left, having taken every byte. -/
def Res.Dry {α : Type} (r : Res DecCtx α) : Prop := ∃ c, r = .stop .dry c ∧ c.src = []

/-- The computation completed or raised an error. -/
def Res.Settled {α : Type} (r : Res DecCtx α) : Prop := r.Ends (fun _ _ => True) fun e _ => ∃ x, e = .raise x

/-- From `c` the computation runs dry, or ends as it does with more bytes behind its source. -/
def SteadyAt {α : Type} (f : DecCtx → Res DecCtx α) (c : DecCtx) : Prop :=
  (f c).Settled ∧ (∀ bs, f (c.more bs) = (f c).more bs) ∨ (f c).Dry

theorem SteadyAt.bind {α β : Type} {f : DecCtx → Res DecCtx α} {k : α → DecCtx → Res DecCtx β} {c : DecCtx} (h : SteadyAt f c)
    (hk : ∀ a c', f c = .ok a c' → SteadyAt (k a) c') : SteadyAt (fun c => (f c).bind k) c := by
  rcases h with ⟨hsettled, hmore⟩ | ⟨c', hdry, hsrc⟩
  · cases hf : f c with
    | ok a c' =>
      rw [hf] at hmore
      rcases hk a c' hf with ⟨h1, h2⟩ | h
      · refine .inl ⟨by simpa [hf] using h1, fun bs => ?_⟩
        simp only [hmore, hf, Res.bind_ok]
        exact h2 bs
      · exact .inr (by simpa [hf] using h)
    | stop e c' =>
      rw [hf] at hmore hsettled
      refine .inl ⟨show Res.Settled ((f c).bind k) by rw [hf]; exact hsettled, fun bs => ?_⟩
      simp only [hmore, hf, Res.bind_stop]
      rfl
  · exact .inr ⟨c', by simp [hdry], hsrc⟩

/-- A source cut short: where the computation on all of it takes bytes beyond the cut, it runs dry at the cut. -/
theorem SteadyAt.dry_of_cut {α : Type} {f : DecCtx → Res DecCtx α} {c : DecCtx} {bs : List Byte} (h : SteadyAt f c)
    (hfull : (f (c.more bs)).Ends (fun _ c' => c'.src.length < bs.length) fun _ c' => c'.src.length < bs.length) : (f c).Dry := by
  rcases h with ⟨-, hmore⟩ | h
  · rw [hmore] at hfull
    cases hf : f c with
    | ok a c' =>
      rw [hf] at hfull
      have : (c'.src ++ bs).length < bs.length := hfull
      rw [List.length_append] at this
      omega
    | stop e c' =>
      rw [hf] at hfull
      have : (c'.src ++ bs).length < bs.length := hfull
      rw [List.length_append] at this
      omega
  · exact h

/-! ## Computations that read bits -/

/-- A decoder whose range is normalised and whose cells are probabilities (R117, R401). -/
abbrev Lane.DecOk (l : Lane) : Prop := l.rcd.Ok ∧ CellsOk l.prob

/-- What the decoder has left to take decisions from: its range and the bytes of its source (R1126). -/
def DecCtx.room (c : DecCtx) : Nat := 2 ^ 32 * c.src.length + c.lane.rcd.range.toNat

/-- A decoding computation that is steady everywhere and takes at least `n` from a sound decoder's room. -/
structure Reader {α : Type} (n : Nat) (f : DecCtx → Res DecCtx α) : Prop where
  steady : ∀ c, SteadyAt f c
  spends : ∀ c a c', c.lane.DecOk → f c = .ok a c' → c'.lane.DecOk ∧ c'.room + n ≤ c.room

theorem Reader.weaken {α : Type} {n : Nat} {f : DecCtx → Res DecCtx α} (h : Reader n f) : Reader 0 f where
  steady := h.steady
  spends := fun c a c' hc hf => by
    obtain ⟨h1, h2⟩ := h.spends c a c' hc hf
    exact ⟨h1, by omega⟩

theorem Reader.bind {α β : Type} {n : Nat} {f : DecCtx → Res DecCtx α} {k : α → DecCtx → Res DecCtx β} (hf : Reader n f)
    (hk : ∀ a, Reader 0 (k a)) : Reader n (fun c => (f c).bind k) where
  steady := fun c => (hf.steady c).bind fun a c' _ => (hk a).steady c'
  spends := fun c b c'' hc h => by
    obtain ⟨a, c', h1, h2⟩ := Res.bind_eq_ok h
    obtain ⟨hok, hroom⟩ := hf.spends c a c' hc h1
    obtain ⟨hok', hroom'⟩ := (hk a).spends c' b c'' hok h2
    exact ⟨hok', by omega⟩

theorem Reader.pure {α : Type} {a : α} : Reader 0 (fun c => .ok a c) where
  steady := fun _ => .inl ⟨trivial, fun _ => rfl⟩
  spends := fun _ _ _ hc h => by
    cases h
    exact ⟨hc, Nat.le_refl _⟩

theorem Reader.raise {α : Type} {n : Nat} {e : Cause} : Reader n (fun c => (.stop (.of e) c : Res DecCtx α)) where
  steady := fun _ => .inl ⟨⟨_, rfl⟩, fun _ => rfl⟩
  spends := fun _ _ _ _ h => nomatch h

/-- What a computation reads of its lane is the same with more bytes behind its source. -/
theorem Reader.ofLane {α : Type} {n : Nat} {f : Lane → DecCtx → Res DecCtx α} (h : ∀ l, Reader n (f l)) :
    Reader n (fun c => f c.lane c) where
  steady := fun c => (h c.lane).steady c
  spends := fun c => (h c.lane).spends c

theorem Reader.ite {α : Type} {n : Nat} {p : Prop} [Decidable p] {f g : DecCtx → Res DecCtx α} (hf : Reader n f) (hg : Reader n g) :
    Reader n (fun c => if p then f c else g c) := by
  by_cases hp : p
  · simpa only [if_pos hp] using hf
  · simpa only [if_neg hp] using hg

/-- A change to the context that leaves its source, its cells and its range decoder. -/
structure Quiet (g : DecCtx → DecCtx) : Prop where
  more : ∀ c bs, g (c.more bs) = (g c).more bs
  src : ∀ c, (g c).src = c.src
  prob : ∀ c, (g c).lane.prob = c.lane.prob
  rcd : ∀ c, (g c).lane.rcd = c.lane.rcd

theorem Quiet.decOk {g : DecCtx → DecCtx} (h : Quiet g) {c : DecCtx} (hc : c.lane.DecOk) : (g c).lane.DecOk := by
  rw [Lane.DecOk, h.prob, h.rcd]
  exact hc

theorem Quiet.room {g : DecCtx → DecCtx} (h : Quiet g) {c : DecCtx} : (g c).room = c.room := by
  rw [DecCtx.room, h.src, h.rcd]
  rfl

theorem Reader.after {α : Type} {n : Nat} {f : DecCtx → Res DecCtx α} {g : DecCtx → DecCtx} (hf : Reader n f) (hg : Quiet g) :
    Reader n (fun c => f (g c)) where
  steady := fun c => by
    have h := hf.steady (g c)
    simp only [SteadyAt, ← hg.more] at h ⊢
    exact h
  spends := fun c a c' hc h => by
    have := hf.spends (g c) a c' (hg.decOk hc) h
    rwa [hg.room] at this

theorem quiet_withLz {z : Coder} : Quiet (fun c => c.withLz z) := ⟨fun _ _ => rfl, fun _ => rfl, fun _ => rfl, fun _ => rfl⟩

theorem quiet_putBytes {bs : List Byte} : Quiet (putBytes bs) := ⟨fun _ _ => rfl, fun _ => rfl, fun _ => rfl, fun _ => rfl⟩

theorem quiet_copyMatch {d n : Nat} : Quiet (copyMatch d n) := by
  induction n with
  | zero => exact ⟨fun _ _ => rfl, fun _ => rfl, fun _ => rfl, fun _ => rfl⟩
  | succ n ih =>
    exact ⟨fun c _ => ih.more (putBytes [c.lane.win.back d] c) _, fun c => ih.src (putBytes [c.lane.win.back d] c),
      fun c => ih.prob (putBytes [c.lane.win.back d] c), fun c => ih.rcd (putBytes [c.lane.win.back d] c)⟩

/-! ## Bits (R422 to R424) -/

theorem decNormOn_more {d d' : RangeDec} {src rest bs : List Byte} (h : decNormOn d src = some (d', rest)) :
    decNormOn d (src ++ bs) = some (d', rest ++ bs) := by
  induction src generalizing d with
  | nil =>
    rw [decNormOn] at h
    split at h
    · exact nomatch h
    · rename_i hr
      obtain ⟨rfl, rfl⟩ : d = d' ∧ [] = rest := by simpa using h
      cases bs with
      | nil => rw [List.append_nil, decNormOn, if_neg hr]
      | cons b bs => exact if_neg hr
  | cons b src ih =>
    rw [decNormOn] at h
    rw [List.cons_append, decNormOn]
    split at h
    · rename_i hr
      rw [if_pos hr]
      exact ih h
    · rename_i hr
      obtain ⟨rfl, rfl⟩ : d = d' ∧ b :: src = rest := by simpa using h
      rw [if_neg hr]
      rfl

/-- Normalising takes no more from the room than it had (R424). -/
theorem decNormOn_room {d d' : RangeDec} {src rest : List Byte} (h : decNormOn d src = some (d', rest)) :
    2 ^ 32 * rest.length + d'.range.toNat ≤ 2 ^ 32 * src.length + d.range.toNat := by
  induction src generalizing d with
  | nil =>
    rw [decNormOn] at h
    split at h
    · exact nomatch h
    · obtain ⟨rfl, rfl⟩ : d = d' ∧ [] = rest := by simpa using h
      exact Nat.le_refl _
  | cons b src ih =>
    rw [decNormOn] at h
    split at h
    · have hstep := ih h
      have hrange := (decShift d b).range.isLt
      rw [List.length_cons]
      omega
    · obtain ⟨rfl, rfl⟩ : d = d' ∧ b :: src = rest := by simpa using h
      exact Nat.le_refl _

theorem decNorm_steady {c : DecCtx} : SteadyAt decNorm c := by
  cases hd : decNormOn c.lane.rcd c.src with
  | none => exact .inr ⟨{ c with src := [] }, by simp only [decNorm, hd], rfl⟩
  | some r =>
    obtain ⟨d, rest⟩ := r
    have hc : decNorm c = .ok () { c with lane := { c.lane with rcd := d }, src := rest } := by simp only [decNorm, hd]
    refine .inl ⟨by rw [hc]; trivial, fun bs => ?_⟩
    rw [hc]
    have hmore := decNormOn_more (bs := bs) hd
    simp only [decNorm, DecCtx.more, hmore]
    rfl

/-- A step that narrows the range and normalises: a decision of either kind. -/
theorem Reader.narrow {α : Type} {b : Lane → α} {g : Lane → Lane}
    (hcells : ∀ l, CellsOk l.prob → CellsOk (g l).prob)
    (hrange : ∀ l, l.DecOk → (g l).rcd.range.toNat < l.rcd.range.toNat) :
    Reader 1 (fun c => (decNorm { c with lane := g c.lane }).bind fun _ c' => .ok (b c.lane) c') where
  steady := fun c => by
    have h := decNorm_steady (c := { c with lane := g c.lane })
    exact SteadyAt.bind (f := fun c => decNorm { c with lane := g c.lane }) (k := fun _ => Res.ok (b c.lane)) h
      fun _ c' _ => Reader.pure.steady c'
  spends := fun c a c' hc h => by
    obtain ⟨_, c1, h1, h2⟩ := Res.bind_eq_ok h
    cases h2
    rw [decNorm] at h1
    split at h1
    · rename_i d rest hd
      cases h1
      refine ⟨⟨(decNormOn_ends hd).1, hcells c.lane hc.2⟩, ?_⟩
      have hroom := decNormOn_room hd
      have hlt := hrange c.lane hc
      show 2 ^ 32 * rest.length + d.range.toNat + 1 ≤ 2 ^ 32 * c.src.length + c.lane.rcd.range.toNat
      dsimp only at hroom
      omega
    · exact nomatch h1

theorem decSplit_range_lt {bnd : Nat} {d : RangeDec} (h1 : 1 ≤ bnd) (h2 : bnd < d.range.toNat) :
    (decSplit bnd d).range.toNat < d.range.toNat := by
  have hr := d.range.isLt
  rw [decSplit]
  split <;>
  · simp only [BitVec.toNat_ofNat]
    omega

/-- A bit with a cell (R422). -/
theorem decBit_reader {i : Nat} : Reader 1 (decBit i) := by
  refine Reader.narrow (b := fun l => decChoice (splitPoint l.rcd.range (l.cell i)) l.rcd)
    (g := fun l => { l.setCell i (probUpdate (decChoice (splitPoint l.rcd.range (l.cell i)) l.rcd) (l.cell i)) with
      rcd := decSplit (splitPoint l.rcd.range (l.cell i)) l.rcd })
    (fun l hl => hl.write (probUpdate_pos (Lane.cell_pos hl))) fun l hl => ?_
  obtain ⟨hb, hlt⟩ := splitPoint_bounds hl.1 (Lane.cell_pos (i := i) hl.2)
  exact decSplit_range_lt (by omega) hlt

/-- A direct bit (R423). -/
theorem decDirectBit_reader : Reader 1 decDirectBit := by
  refine Reader.narrow (b := fun l => decide (l.rcd.range.toNat / 2 ≤ l.rcd.code.toNat))
    (g := fun l => { l with rcd := { l.rcd with
      range := BitVec.ofNat 32 (l.rcd.range.toNat / 2)
      code := if decide (l.rcd.range.toNat / 2 ≤ l.rcd.code.toNat) then BitVec.ofNat 32 (l.rcd.code.toNat - l.rcd.range.toNat / 2)
        else l.rcd.code } }) (fun _ => id) fun l hl => ?_
  have h24 : 2 ^ 24 ≤ l.rcd.range.toNat := hl.1
  simp only [BitVec.toNat_ofNat]
  omega

/-- Bits before a computation. -/
theorem Reader.bit {α : Type} {i : Nat} {k : Bool → DecCtx → Res DecCtx α} (hk : ∀ b, Reader 0 (k b)) :
    Reader 0 (fun c => (decBit i c).bind k) := (decBit_reader.bind hk).weaken

/-! ## The coders (R520 to R552) -/

theorem decDirectFrom_reader {n r : Nat} : Reader 0 (decDirectFrom n r) := by
  induction n generalizing r with
  | zero => exact .pure
  | succ n ih => exact (decDirectBit_reader.bind fun _ => ih).weaken

theorem treeDecFrom_reader {base n m : Nat} : Reader 0 (treeDecFrom base n m) := by
  induction n generalizing m with
  | zero => exact .pure
  | succ n ih => exact .bit fun _ => ih

theorem treeDec_reader {base n : Nat} : Reader 0 (treeDec base n) := treeDecFrom_reader.bind fun _ => .pure

theorem rtreeDecFrom_reader {base n k m r : Nat} : Reader 0 (rtreeDecFrom base n k m r) := by
  induction n generalizing k m r with
  | zero => exact .pure
  | succ n ih => exact .bit fun _ => ih

theorem lenDec_reader {base ps : Nat} : Reader 0 (lenDec base ps) :=
  .bit fun _ => .ite (.bit fun _ => .ite (treeDec_reader.bind fun _ => .pure) (treeDec_reader.bind fun _ => .pure))
    (treeDec_reader.bind fun _ => .pure)

theorem distDec_reader {len : Nat} : Reader 0 (distDec len) :=
  treeDec_reader.bind fun _ => .ite .pure (.ite (rtreeDecFrom_reader.bind fun _ => .pure)
    (decDirectFrom_reader.bind fun _ => rtreeDecFrom_reader.bind fun _ => .pure))

theorem litDecMatchedFrom_reader {base mb k off m : Nat} : Reader 0 (litDecMatchedFrom base mb k off m) := by
  induction k generalizing off m with
  | zero => exact .pure
  | succ k ih => exact .bit fun _ => ih

theorem litDecMatched_reader {base : Nat} {mb : Byte} : Reader 0 (litDecMatched base mb) :=
  litDecMatchedFrom_reader.bind fun _ => .pure

theorem litDec_reader {base : Nat} : Reader 0 (litDec base) := treeDec_reader.bind fun _ => .pure

/-! ## Symbols (R630, R631) -/

theorem decCopy_reader {q : SymLimits} {kind : SymKind} {len : Nat} : Reader 0 (decCopy q kind len) :=
  .ofLane (f := fun l c =>
    if l.win.hist < l.lz.dist 0 then .stop (.of .beyondHistory) c
    else if q.exceeded len then .stop (.of q.tooLong) c
    else .ok ({ kind := kind, len := len, x := l.lz.dist 0 } : Symbol) (copyMatch (l.lz.dist 0) len c)) fun _ =>
  .ite .raise (.ite .raise (Reader.pure.after quiet_copyMatch))

theorem decLiteral_reader {q : SymLimits} {s : Fin 12} : Reader 0 (decLiteral q s) :=
  .ofLane (f := fun l c =>
    if 7 ≤ s.val ∧ l.win.hist < l.lz.dist 0 then .stop (.of .beyondHistory) c
    else if q.exceeded 1 then .stop (.of q.tooLong) c
    else
      (if s.val < 7 then litDec (literalBase l) c else litDecMatched (literalBase l) (l.win.back (l.lz.dist 0)) c).bind fun b c =>
      .ok ({ kind := .lit, len := 1, x := b.toNat } : Symbol) ((putBytes [b] c).withLz { c.lane.lz with state := nextLit s })) fun _ =>
  .ite .raise (.ite .raise ((Reader.ite litDec_reader litDecMatched_reader).bind fun b =>
    .ofLane (f := fun l c => .ok ({ kind := .lit, len := 1, x := b.toNat } : Symbol) ((putBytes [b] c).withLz { l.lz with state := nextLit s }))
      fun _ => (Reader.pure.after quiet_withLz).after quiet_putBytes))

theorem decMatch_reader {q : SymLimits} {s : Fin 12} {ps : Nat} : Reader 0 (decMatch q s ps) :=
  lenDec_reader.bind fun len => distDec_reader.bind fun d0 =>
    .ofLane (f := fun l c =>
      if d0 = markerDist then
        if q.eosOk then .ok ({ kind := .eos, len := 0, x := 0 } : Symbol)
          (c.withLz { l.lz.pushRep (BitVec.ofNat 32 d0) with state := nextMatch s })
        else .stop (.of .markerNotPermitted) (c.withLz { l.lz.pushRep (BitVec.ofNat 32 d0) with state := nextMatch s })
      else decCopy q .mtch len (c.withLz { l.lz.pushRep (BitVec.ofNat 32 d0) with state := nextMatch s })) fun _ =>
    .ite (.ite (Reader.pure.after quiet_withLz) (Reader.raise.after quiet_withLz)) (decCopy_reader.after quiet_withLz)

theorem decLongrep_reader {q : SymLimits} {kind : SymKind} {r : Nat} {s : Fin 12} {ps : Nat} : Reader 0 (decLongrep q kind r s ps) :=
  .ofLane (f := fun l c => (lenDec repLenBase ps (c.withLz (l.lz.promote r))).bind fun len c =>
    decCopy q kind len (c.withLz { c.lane.lz with state := nextLongrep s })) fun _ =>
  (lenDec_reader.after quiet_withLz).bind fun len =>
    .ofLane (f := fun l c => decCopy q kind len (c.withLz { l.lz with state := nextLongrep s })) fun _ =>
      decCopy_reader.after quiet_withLz

theorem decRep_reader {q : SymLimits} {s : Fin 12} {ps : Nat} : Reader 0 (decRep q s ps) :=
  .bit fun _ => .ite
    (.bit fun _ => .ite (.bit fun _ => .ite decLongrep_reader decLongrep_reader) decLongrep_reader)
    (.bit fun _ => .ite decLongrep_reader
      (.ofLane (f := fun l c => decCopy q .shortrep 1 (c.withLz { l.lz with state := nextShortrep s })) fun _ =>
        decCopy_reader.after quiet_withLz))

/-- `DecSymbol` takes at least one decision (R630, R1126). -/
theorem decSymbol_reader {q : SymLimits} : Reader 1 (decSymbol q) :=
  .ofLane (f := fun l c => (decBit (isMatchCell l.lz.state l.posState) c).bind fun isMatch c =>
    if isMatch then
      (decBit (isRepCell l.lz.state) c).bind fun isRep c =>
      if isRep then decRep q l.lz.state l.posState c else decMatch q l.lz.state l.posState c
    else decLiteral q l.lz.state c) fun _ =>
  decBit_reader.bind fun _ => .ite (.bit fun _ => .ite decRep_reader decMatch_reader) decLiteral_reader

/-! ## The loops (R633, R661, R830) -/

theorem decExactly_reader {fuel n : Nat} : Reader 0 (decExactly fuel n) := by
  induction fuel generalizing n with
  | zero => exact .pure
  | succ fuel ih => exact .ite .pure (decSymbol_reader.bind fun _ => ih).weaken

/-- The loop until the end marker with turns for all the room: it does not end for want of turns, and with more bytes behind its source and
as many turns or more it does the same (R1126). -/
theorem decMarkerLoop_steady {q : Nat → SymLimits} {fuel produced : Nat} {c : DecCtx} (hc : c.lane.DecOk) (hfuel : c.room < fuel) :
    (decMarkerLoop q fuel produced c).Settled ∧
      (∀ bs fuel', fuel ≤ fuel' → decMarkerLoop q fuel' produced (c.more bs) = (decMarkerLoop q fuel produced c).more bs) ∨
    (decMarkerLoop q fuel produced c).Dry := by
  induction fuel generalizing produced c with
  | zero => exact absurd hfuel (Nat.not_lt_zero _)
  | succ fuel ih =>
    have hsym := decSymbol_reader (q := q c.lane.win.cur)
    have hturn (bs : List Byte) (fuel' : Nat) (hle : fuel + 1 ≤ fuel') : ∃ g, fuel ≤ g ∧
        decMarkerLoop q fuel' produced (c.more bs) = (decSymbol (q c.lane.win.cur) (c.more bs)).bind fun sym c =>
          if sym.kind = .eos then .ok produced c else decMarkerLoop q g (produced + sym.len) c :=
      ⟨fuel' - 1, by omega, by rw [show fuel' = (fuel' - 1) + 1 by omega]; rfl⟩
    rw [decMarkerLoop]
    rcases hsym.steady c with ⟨hsettled, hmore⟩ | ⟨c', hdry, hsrc⟩
    · cases hf : decSymbol (q c.lane.win.cur) c with
      | ok y c' =>
        obtain ⟨hok, hroom⟩ := hsym.spends c y c' hc hf
        rw [hf] at hmore
        rw [Res.bind_ok]
        by_cases hk : y.kind = .eos
        · simp only [if_pos hk]
          refine .inl ⟨trivial, fun bs fuel' hle => ?_⟩
          obtain ⟨g, -, hg⟩ := hturn bs fuel' hle
          rw [hg, hmore]
          exact if_pos hk
        · simp only [if_neg hk]
          refine (ih (produced := produced + y.len) hok (by omega)).imp_left fun ⟨h1, h2⟩ => ⟨h1, fun bs fuel' hle => ?_⟩
          obtain ⟨g, hle', hg⟩ := hturn bs fuel' hle
          rw [hg, hmore, ← h2 bs g hle']
          exact if_neg hk
      | stop e c' =>
        rw [hf] at hmore hsettled
        refine .inl ⟨hsettled, fun bs fuel' hle => ?_⟩
        obtain ⟨g, -, hg⟩ := hturn bs fuel' hle
        rw [hg, hmore]
        rfl
    · exact .inr ⟨c', by rw [hdry]; rfl, hsrc⟩

/-- The turns of `decUntilMarker` are enough for a sound decoder (R1126). -/
theorem decUntilMarker_steady {q : Nat → SymLimits} {c : DecCtx} (hc : c.lane.DecOk) : SteadyAt (decUntilMarker q) c := by
  have hrange := c.lane.rcd.range.isLt
  refine (decMarkerLoop_steady (q := q) (produced := 0) hc (fuel := (c.src.length + 1) * 2 ^ 32) ?_).imp_left
    fun ⟨h1, h2⟩ => ⟨h1, fun bs => h2 bs _ ?_⟩
  · rw [DecCtx.room]
    omega
  · rw [DecCtx.more, List.length_append]
    omega

/-! ## The start of a payload (R421) -/

theorem takeByte_steady {c : DecCtx} : SteadyAt takeByte c := by
  obtain ⟨l, src, out⟩ := c
  cases src with
  | nil => exact .inr ⟨_, rfl, rfl⟩
  | cons b rest => exact .inl ⟨trivial, fun _ => rfl⟩

theorem decInitCode_steady {n : Nat} {code : BitVec 32} {c : DecCtx} : SteadyAt (decInitCode n code) c := by
  induction n generalizing code c with
  | zero => exact Reader.pure.steady c
  | succ n ih => exact takeByte_steady.bind fun _ _ _ => ih

theorem decInit_steady {c : DecCtx} : SteadyAt decInit c :=
  takeByte_steady.bind fun _ c _ => SteadyAt.bind (c := c) decInitCode_steady fun _ _ _ => .inl ⟨trivial, fun _ => rfl⟩

/-- `DecInit` leaves a normalised range, and the cells as they are (R421). -/
theorem decInit_decOk {c c' : DecCtx} (h : decInit c = .ok () c') (hc : CellsOk c.lane.prob) : c'.lane.DecOk := by
  obtain ⟨b0, c1, h1, h⟩ := Res.bind_eq_ok h
  obtain ⟨code, c2, h2, h⟩ := Res.bind_eq_ok h
  cases h
  have hstep : BitStep 0 c c2 := (takeByte_readsBits.of_ok h1).trans (decInitCode_readsBits.of_ok h2)
  exact ⟨show 2 ^ 24 ≤ 0xFFFFFFFF by decide, (hstep.cells hc).1⟩

/-- The decoding of LZMA.DECODE (R651, R661). -/
theorem decodeRaw_steady {n : BitVec 48} {cap : Nat} {c : DecCtx} (hc : CellsOk c.lane.prob) : SteadyAt (decodeRaw n cap) c := by
  refine decInit_steady.bind fun _ c' hinit => ?_
  have hok := decInit_decOk hinit hc
  have hraise (e : Cause) : SteadyAt (fun c => (.stop (.of e) c : Res DecCtx Unit)) c' := Reader.raise.steady (n := 0) c'
  have hmarker : SteadyAt (decodeUnknown cap) c' := by
    refine (decUntilMarker_steady hok).bind fun _ c'' _ => ?_
    have h : Reader 0 fun c : DecCtx => if c.lane.rcd.code = 0#32 then Res.ok () c else .stop (.of .markerUnclean) c :=
      .ofLane (f := fun l c => if l.rcd.code = 0#32 then Res.ok () c else .stop (.of .markerUnclean) c) fun _ => .ite .pure .raise
    exact h.steady c''
  have hknown : SteadyAt (decodeKnown n.toNat cap) c' := (Reader.ite .raise decExactly_reader).steady c'
  by_cases hbad : c'.lane.rcd.initBad = true
  · simp only [SteadyAt, DecCtx.more, hbad, if_true]
    exact hraise _
  · simp only [SteadyAt, DecCtx.more, hbad]
    by_cases hn : n = unknownSize
    · simp only [hn, if_true]
      exact hmarker
    · simp only [hn, if_false]
      exact hknown

end Sys2Proof.Machine
end

section
/-! PROOFS. A command's end from what its computation stopped with: an error raised after bytes taken, and IN run dry (R231, R1000, R1008,
R1010). -/

namespace Sys2Proof.Machine

/-- ERR_CODE of an error that is not wrapped (R106). -/
def Cause.code (c : Cause) : Nat := c.sub * 2 ^ 8 + c.cls.code

theorem failedWith_congr {s : State} {took code code' info info' unit unit' : Nat} (hc : BitVec.ofNat 32 code = BitVec.ofNat 32 code')
    (hi : BitVec.ofNat 64 info = BitVec.ofNat 64 info') (hu : BitVec.ofNat 32 unit = BitVec.ofNat 32 unit') :
    s.failedWith took code info unit = s.failedWith took code' info' unit' := by
  simp only [State.failedWith, hc, hi, hu]

/-- A command whose rule raises an error of a stream, not wrapped, after taking `took` bytes (R1003 to R1005, R1008). -/
theorem runCommand_raises {i : Instr} {body : Body} {s t : State} {c : Cause} {place : Option ChunkPlace} {took : Nat}
    (hp : precheck i s = none) (hb : body s.begin = .stop (.raise { cause := c, wrapped := false, place := place }) t)
    (hill : c.cls ≠ .illegal) (hcfg : c.cls ≠ .config) (hwork : s.begin.LaneWork t) (hin : t.inp = s.input.drop took)
    (hk : took ≤ s.input.length) :
    runCommand i body s = .next (s.failedWith took c.code (place.elim took ChunkPlace.offset)
      (place.elim 0 fun p => min p.index (2 ^ 32 - 1))) := by
  have ht : t = { s.begin with inp := s.input.drop took, stage := t.stage, coord := t.coord, lane0 := t.lane0, workers := t.workers } := by
    rw [← hin, hwork.eq]
  rw [runCommand_failedWith hp hb hill ht (by rw [hwork.eq]; rfl) hk]
  refine congrArg _ (failedWith_congr ?_ ?_ ?_)
  · rw [BitVec.ofNat_toNat, BitVec.setWidth_eq]
    rfl
  · rw [BitVec.ofNat_toNat, BitVec.setWidth_eq]
    cases hcls : c.cls with
    | illegal => exact absurd hcls hill
    | config => exact absurd hcls hcfg
    | corrupt | reference | capacity => cases place <;> simp only [Raised.errInfo, hcls, Option.elim]
  · rw [BitVec.ofNat_toNat, BitVec.setWidth_eq]
    cases place <;> rfl

/-- A command whose rule finds IN empty, all of it taken: it holds before IN_EOF, and raises CorruptStream 0x0A after (R231). -/
theorem runCommand_dry {i : Instr} {body : Body} {s t : State} {place : Option ChunkPlace} (hp : precheck i s = none)
    (hb : body s.begin =
      .stop (if s.inEof then .raise { cause := .truncated, wrapped := false, place := place } else .hold) t)
    (hwork : s.begin.LaneWork t) (hin : t.inp = []) :
    (s.inEof = false → runCommand i body s = .next s.held) ∧
      (s.inEof = true → runCommand i body s = .next (s.failedWith s.input.length 0x0A02
        (place.elim s.input.length ChunkPlace.offset) (place.elim 0 fun p => min p.index (2 ^ 32 - 1)))) := by
  refine ⟨fun heof => runCommand_held hp (t := t) ?_, fun heof => ?_⟩
  · rw [hb, heof]
    rfl
  · refine runCommand_raises (c := .truncated) hp (t := t) ?_ (by decide) (by decide) hwork ?_ (Nat.le_refl _)
    · rw [hb, heof]
      rfl
    · rw [hin, List.drop_length]

/-! ## Decoding computations on lane 0 with IN as their source (R233) -/

/-- What a decoding computation on lane 0 starts from. -/
def State.decCtx (t : State) : DecCtx := { lane := t.lane0, src := t.inp, out := t.stage }

/-- The state after a decoding computation on lane 0. -/
def State.withCtx (t : State) (c : DecCtx) : State := { t with lane0 := c.lane, inp := c.src, stage := c.out }

theorem State.withCtx_laneWork {t : State} {c : DecCtx} (h : c.src <:+ t.inp) : t.LaneWork (t.withCtx c) := ⟨rfl, h⟩

section
variable {α : Type} {f : DecCtx → Res DecCtx α} {t : State} {c : DecCtx}

theorem onIn_ok {a : α} (h : f t.decCtx = .ok a c) : onIn f t = .ok a (t.withCtx c) := by
  rw [State.decCtx] at h
  simp only [onIn, h]
  rfl

theorem onIn_raise {e : Cause} (h : f t.decCtx = .stop (.of e) c) : onIn f t = .stop (.of e) (t.withCtx c) := by
  rw [State.decCtx] at h
  simp only [onIn, h]
  rfl

theorem onIn_dry (h : (f t.decCtx).Dry) : ∃ c, c.src = [] ∧ onIn f t = .stop t.inDry (t.withCtx c) := by
  obtain ⟨c, h, hsrc⟩ := h
  rw [State.decCtx] at h
  refine ⟨c, hsrc, ?_⟩
  simp only [onIn, h]
  rfl

end

/-- A command that runs a decoding computation on lane 0 from `u`, which has IN as it stood, where the computation raises an error. -/
theorem runCommand_onIn_raises {α : Type} {i : Instr} {body : Body} {k : α → Body} {f : DecCtx → Res DecCtx α} {s u : State} {c : DecCtx}
    {e : Cause} {took : Nat} (hp : precheck i s = none) (hb : body s.begin = (onIn f u).bind k) (hu : s.begin.LaneWork u)
    (hf : f u.decCtx = .stop (.of e) c) (hill : e.cls ≠ .illegal) (hcfg : e.cls ≠ .config) (hsrc : c.src = s.input.drop took)
    (hin : u.inp = s.input) (hk : took ≤ s.input.length) : runCommand i body s = .next (s.failedWith took e.code took 0) := by
  rw [onIn_raise hf] at hb
  refine runCommand_raises (place := none) hp hb hill hcfg (hu.trans (State.withCtx_laneWork ?_)) hsrc hk
  rw [hsrc, hin]
  exact List.drop_suffix _ _

/-- Where the computation runs dry. -/
theorem runCommand_onIn_dry {α : Type} {i : Instr} {body : Body} {k : α → Body} {f : DecCtx → Res DecCtx α} {s u : State}
    (hp : precheck i s = none) (hb : body s.begin = (onIn f u).bind k) (hu : s.begin.LaneWork u) (hf : (f u.decCtx).Dry) :
    (s.inEof = false → runCommand i body s = .next s.held) ∧
      (s.inEof = true → runCommand i body s = .next (s.failedWith s.input.length 0x0A02 s.input.length 0)) := by
  obtain ⟨c, hsrc, h⟩ := onIn_dry hf
  rw [h] at hb
  have heof : u.inEof = s.inEof := by rw [hu.eq]; rfl
  refine runCommand_dry (t := u.withCtx c) (place := none) hp ?_ (hu.trans (State.withCtx_laneWork ?_)) hsrc
  · rw [hb, State.inDry, heof]
    rfl
  · rw [hsrc]
    exact List.nil_suffix

end Sys2Proof.Machine
end

section
/-! PROOFS. A symbol that its bits can spell, whether or not it can be decoded: the decoder of R630 reads its decisions, those before the
checks of R631 where it raises, and then raises what R631 says, or completes. -/

namespace Sys2Proof.Machine

/-! ## What the decoder does once it has read a symbol's decisions -/

/-- An error of a stream: CorruptStream, InvalidReference or CapacityExceeded (R1003 to R1005). -/
def Cause.OfStream (e : Cause) : Prop := e.cls ≠ .illegal ∧ e.cls ≠ .config

/-- The computation raises the error `err` with `src` left, or with no error to raise goes on into `src`. -/
def Judged {α : Type} (err : Option Nat) (src : List Byte) (r : Res DecCtx α) : Prop :=
  r.Ends (fun _ c => err = none ∧ c.src <:+ src) fun e c =>
    err = none ∧ c.src <:+ src ∨ ∃ x : Cause, e = .of x ∧ err = some x.code ∧ x.OfStream ∧ c.src = src

theorem Judged.bind {α β : Type} {err : Option Nat} {src : List Byte} {r : Res DecCtx α} {k : α → DecCtx → Res DecCtx β}
    (h : Judged err src r) (hk : ∀ a c, Decodes c (k a c)) : Judged err src (r.bind k) :=
  Res.Ends.bind h fun a c ⟨hn, hsrc⟩ =>
    (hk a c).mono (fun _ _ h' => ⟨hn, h'.taken.trans hsrc⟩) fun _ _ h' => .inl ⟨hn, h'.2.trans hsrc⟩

/-- An error to raise is raised. -/
theorem Judged.raises {α : Type} {code : Nat} {src : List Byte} {r : Res DecCtx α} (h : Judged (some code) src r) :
    ∃ x c, r = .stop (.of x) c ∧ x.code = code ∧ x.OfStream ∧ c.src = src := by
  cases r with
  | ok a c => exact nomatch h.1
  | stop e c =>
    rcases h with ⟨h, -⟩ | ⟨x, rfl, hx, hs, hsrc⟩
    · exact nomatch h
    · exact ⟨x, c, rfl, (Option.some.inj hx).symm, hs, hsrc⟩

/-- Whatever it does, it has read up to `src`. -/
theorem Judged.length_le {α : Type} {err : Option Nat} {src : List Byte} {r : Res DecCtx α} (h : Judged err src r) :
    r.Ends (fun _ c => c.src.length ≤ src.length) fun _ c => c.src.length ≤ src.length :=
  Res.Ends.mono h (fun _ _ h => h.2.length_le) fun _ _ h => by
    rcases h with ⟨-, h⟩ | ⟨_, -, -, -, h⟩
    · exact h.length_le
    · exact Nat.le_of_eq (congrArg _ h)

/-! ## The checks (R631) -/

/-- The limits' error is one of a stream, and its code is `code`. -/
abbrev SymLimits.Raises (q : SymLimits) (code : Nat) : Prop := q.tooLong.OfStream ∧ q.tooLong.code = code

theorem SymLimits.exceeded_eq {q : SymLimits} {n : Nat} : q.exceeded n = q.limit.any fun m => decide (m < n) := by
  rw [SymLimits.exceeded]
  cases q.limit <;> rfl

theorem Sym.errorCode_eq {y : Sym} {l : Lane} {q : SymLimits} {tooLong : Nat} :
    y.errorCode l q.limit q.eosOk tooLong =
      if l.win.hist < y.reach l then some Cause.beyondHistory.code
      else if y = .eos then (if q.eosOk then none else some Cause.markerNotPermitted.code)
      else if q.exceeded y.len then some tooLong
      else none := by
  rw [SymLimits.exceeded_eq]
  rfl

@[simp] theorem copyMatch_src {d n : Nat} {c : DecCtx} : (copyMatch d n c).src = c.src := quiet_copyMatch.src c

section
variable {q : SymLimits} {l : Lane} {tooLong : Nat}

/-- The checks of a match's distance and length, then the copy (R631 c and d). -/
theorem decCopy_judged {y : Sym} {kind : SymKind} {c : DecCtx} (hq : q.Raises tooLong) (hy : y ≠ .eos) (hw : c.lane.win = l.win.behind)
    (hd : c.lane.lz.dist 0 = y.reach l) : Judged (y.errorCode l q.limit q.eosOk tooLong) c.src (decCopy q kind y.len c) := by
  obtain ⟨hstream, rfl⟩ := hq
  rw [Sym.errorCode_eq, decCopy, hw, Window.behind_hist, hd, if_neg hy]
  by_cases h1 : l.win.hist < y.reach l
  · simp only [if_pos h1]
    exact .inr ⟨_, rfl, rfl, ⟨by decide, by decide⟩, rfl⟩
  · simp only [if_neg h1]
    by_cases h2 : q.exceeded y.len = true
    · simp only [if_pos h2]
      exact .inr ⟨_, rfl, rfl, hstream, rfl⟩
    · simp only [if_neg h2]
      exact ⟨rfl, by rw [copyMatch_src]⟩

/-- The decoder reads the decisions and then judges the symbol. -/
def ReadsAndJudges (l : Lane) (ds : List Decision) (err : Option Nat) (f : DecCtx → Res DecCtx Symbol) : Prop :=
  ∃ g, ReadsThen l.lz l.win.behind ds f g ∧ ∀ c : DecCtx, c.lane.lz = l.lz → c.lane.win = l.win.behind → Judged err c.src (g c)

theorem ReadsAndJudges.cell {i : Nat} {b : Bool} {ds : List Decision} {err : Option Nat} {k : Bool → DecCtx → Res DecCtx Symbol}
    (h : ReadsAndJudges l ds err (k b)) : ReadsAndJudges l (.cell i b :: ds) err (fun c => (decBit i c).bind k) := by
  obtain ⟨g, h1, h2⟩ := h
  exact ⟨g, .cell h1, h2⟩

theorem ReadsAndJudges.bind {α : Type} {ds es : List Decision} {err : Option Nat} {f : DecCtx → Res DecCtx α} {v : α}
    {k : α → DecCtx → Res DecCtx Symbol} (hf : Reads ds f v) (h : ReadsAndJudges l es err (k v)) :
    ReadsAndJudges l (ds ++ es) err (fun c => (f c).bind k) := by
  obtain ⟨g, h1, h2⟩ := h
  exact ⟨g, .bind hf h1, h2⟩

theorem ReadsAndJudges.congr {ds : List Decision} {err : Option Nat} {f f' : DecCtx → Res DecCtx Symbol}
    (hf : ∀ c : DecCtx, c.lane.lz = l.lz → c.lane.win = l.win.behind → f c = f' c) (h : ReadsAndJudges l ds err f') :
    ReadsAndJudges l ds err f := by
  obtain ⟨g, h1, h2⟩ := h
  exact ⟨g, .congr hf h1, h2⟩

theorem ReadsAndJudges.done {err : Option Nat} {f : DecCtx → Res DecCtx Symbol}
    (h : ∀ c : DecCtx, c.lane.lz = l.lz → c.lane.win = l.win.behind → Judged err c.src (f c)) : ReadsAndJudges l [] err f :=
  ⟨f, .done fun _ _ _ => rfl, h⟩

/-! ## The branches of `DecSymbol` (R630) -/

/-- A literal: its checks come before its decisions (R631 a and d). -/
theorem decLiteral_judges (hq : q.Raises tooLong) :
    ReadsAndJudges l ((Sym.lit.decisionsRead l (Sym.lit.errorCode l q.limit q.eosOk tooLong)).drop 1)
      (Sym.lit.errorCode l q.limit q.eosOk tooLong) (decLiteral q l.lz.state) := by
  obtain ⟨hstream, rfl⟩ := hq
  have hreach : l.win.hist < Sym.lit.reach l ↔ 7 ≤ l.lz.state.val ∧ l.win.hist < l.lz.dist 0 := by
    rw [Sym.reach]
    split
    · rename_i h7
      exact (and_iff_right h7).symm
    · rename_i h7
      exact ⟨fun h => absurd h (Nat.not_lt_zero _), fun h => absurd h.1 h7⟩
  rw [Sym.errorCode_eq]
  by_cases h1 : l.win.hist < Sym.lit.reach l
  · rw [if_pos h1]
    refine .done fun c hz hw => ?_
    rw [decLiteral, hz, hw, Window.behind_hist, if_pos (hreach.mp h1)]
    exact .inr ⟨_, rfl, rfl, ⟨by decide, by decide⟩, rfl⟩
  rw [if_neg h1, if_neg (show Sym.lit ≠ .eos from Sym.noConfusion)]
  by_cases h2 : q.exceeded 1 = true
  · rw [if_pos (show q.exceeded Sym.lit.len = true from h2)]
    refine .done fun c hz hw => ?_
    rw [decLiteral, hz, hw, Window.behind_hist, if_neg (fun h => h1 (hreach.mpr h)), if_pos h2]
    exact .inr ⟨_, rfl, rfl, hstream, rfl⟩
  rw [if_neg (show ¬ q.exceeded Sym.lit.len = true from h2)]
  have hgo : ∀ c : DecCtx, c.lane.lz = l.lz → c.lane.win = l.win.behind → decLiteral q l.lz.state c =
      (if l.lz.state.val < 7 then litDec (literalCells l) c
        else litDecMatched (literalCells l) (l.win.back (l.lz.rep0.toNat + 1)) c).bind fun b c =>
      .ok ({ kind := .lit, len := 1, x := b.toNat } : Symbol)
        ((putBytes [b] c).withLz { c.lane.lz with state := nextLit l.lz.state }) := by
    intro c hz hw
    have hbase : literalBase c.lane = literalCells l := by
      rw [literalBase, hz, hw, Window.behind_prev]
      rfl
    rw [decLiteral, hbase, hz, hw, Window.behind_hist, if_neg (fun h => h1 (hreach.mpr h)), if_neg h2]
    by_cases h7 : l.lz.state.val < 7
    · simp only [if_pos h7]
    · have hle : l.lz.rep0.toNat + 1 ≤ l.win.hist := by
        by_contra hlt
        exact h1 (hreach.mpr ⟨by omega, Nat.lt_of_not_le hlt⟩)
      simp only [if_neg h7, show l.lz.dist 0 = l.lz.rep0.toNat + 1 from rfl, Window.behind_back (Nat.le_add_left 1 _) hle]
  have hlast (b : Byte) : ReadsAndJudges l [] none fun c => .ok ({ kind := .lit, len := 1, x := b.toNat } : Symbol)
      ((putBytes [b] c).withLz { c.lane.lz with state := nextLit l.lz.state }) := .done fun _ _ _ => ⟨rfl, List.suffix_refl _⟩
  refine .congr hgo ?_
  have hds : (Sym.lit.decisionsRead l none).drop 1 = (if l.lz.state.val < 7 then treeDecisions (literalCells l) 8 (l.win.look 0).toNat
      else matchedDecisions (literalCells l) (l.win.look 0).toNat (l.win.back (l.lz.rep0.toNat + 1)).toNat) ++ [] := by
    rw [List.append_nil]
    rfl
  rw [hds]
  by_cases h7 : l.lz.state.val < 7
  · simp only [if_pos h7]
    exact .bind reads_literal (hlast _)
  · simp only [if_neg h7]
    exact .bind reads_matched (hlast _)

/-- A match of a distance that is not the marker's (R631 c and d). -/
theorem decMatch_judges {d n : Nat} (hq : q.Raises tooLong) (hy : (Sym.mtch d n).Spelled) :
    ReadsAndJudges l (lengthDecisions 818 n l.posState ++ distanceDecisions (d - 1) n)
      ((Sym.mtch d n).errorCode l q.limit q.eosOk tooLong) (decMatch q l.lz.state l.posState) := by
  obtain ⟨hd, h32, h2, h273⟩ := hy
  have hback : (BitVec.ofNat 32 (d - 1)).toNat + 1 = d := by
    rw [BitVec.toNat_ofNat]
    omega
  unfold decMatch
  rw [← List.append_nil (distanceDecisions (d - 1) n)]
  refine .bind (reads_length h2 h273) (.bind (reads_distance (show d - 1 < 2 ^ 32 by omega)) (.done fun c _ hw => ?_))
  rw [if_neg (show ¬ d - 1 = markerDist by rw [markerDist]; omega)]
  exact decCopy_judged (y := .mtch d n) (c := c.withLz _) hq Sym.noConfusion hw hback

/-- The end marker (R631 b, R640). -/
theorem decMarker_judges :
    ReadsAndJudges l (lengthDecisions 818 2 l.posState ++ distanceDecisions 0xFFFFFFFF 2)
      (Sym.eos.errorCode l q.limit q.eosOk tooLong) (decMatch q l.lz.state l.posState) := by
  unfold decMatch
  rw [← List.append_nil (distanceDecisions 0xFFFFFFFF 2)]
  refine .bind (reads_length (by decide) (by decide)) (.bind (reads_distance (by decide)) (.done fun c _ _ => ?_))
  rw [if_pos (show 0xFFFFFFFF = markerDist from rfl), Sym.errorCode_eq, if_neg (show ¬ l.win.hist < Sym.eos.reach l from Nat.not_lt_zero _),
    if_pos rfl]
  by_cases hq : q.eosOk = true
  · simp only [if_pos hq]
    exact ⟨rfl, List.suffix_refl _⟩
  · simp only [if_neg hq]
    exact .inr ⟨_, rfl, rfl, ⟨by decide, by decide⟩, rfl⟩

/-- A repeated distance with a length (R631 c and d). -/
theorem decLongrep_judges {kind : SymKind} {r n : Nat} (hq : q.Raises tooLong) (h2 : 2 ≤ n) (h273 : n ≤ 273) :
    ReadsAndJudges l (lengthDecisions 1332 n l.posState) ((Sym.rep r n).errorCode l q.limit q.eosOk tooLong)
      (decLongrep q kind r l.lz.state l.posState) := by
  rw [← List.append_nil (lengthDecisions 1332 n l.posState)]
  have hread : ReadsThen (l.lz.promote r) l.win.behind (lengthDecisions 1332 n l.posState ++ [])
      (fun c => (lenDec repLenBase l.posState c).bind fun len c =>
        decCopy q kind len (c.withLz { c.lane.lz with state := nextLongrep l.lz.state }))
      (fun c => decCopy q kind n (c.withLz { c.lane.lz with state := nextLongrep l.lz.state })) :=
    .bind (reads_length h2 h273) (.done fun _ _ _ => rfl)
  refine ⟨_, .congr (fun c hz _ => ?_) (hread.withLz (z := l.lz)), fun c hz hw => ?_⟩
  · rw [decLongrep, hz]
  · exact decCopy_judged (y := .rep r n) (c := (c.withLz _).withLz _) hq Sym.noConfusion hw Coder.promote_dist

theorem decRep_judges {r n : Nat} (hq : q.Raises tooLong) (hy : (Sym.rep r n).Spelled) :
    ReadsAndJudges l (repPrefix r l.lz.state.val l.posState ++ lengthDecisions 1332 n l.posState)
      ((Sym.rep r n).errorCode l q.limit q.eosOk tooLong) (decRep q l.lz.state l.posState) := by
  obtain ⟨hr, h2, h273⟩ := hy
  have hlong (kind : SymKind) := decLongrep_judges (l := l) (kind := kind) (r := r) hq h2 h273
  unfold decRep
  obtain rfl | rfl | rfl | rfl : r = 0 ∨ r = 1 ∨ r = 2 ∨ r = 3 := by omega
  · exact .cell (.cell (hlong _))
  · exact .cell (.cell (hlong _))
  · exact .cell (.cell (.cell (hlong _)))
  · exact .cell (.cell (.cell (hlong _)))

theorem decShortrep_judges (hq : q.Raises tooLong) :
    ReadsAndJudges l [.cell (204 + l.lz.state.val) false, .cell (240 + l.lz.state.val * 16 + l.posState) false]
      (Sym.shortrep.errorCode l q.limit q.eosOk tooLong) (decRep q l.lz.state l.posState) := by
  unfold decRep
  refine .cell (.cell (.done fun c hz hw => ?_))
  rw [if_neg (by decide)]
  refine decCopy_judged (y := .shortrep) (c := c.withLz _) hq Sym.noConfusion hw ?_
  rw [hz]
  rfl

/-- `DecSymbol` on the decisions of a symbol that its bits can spell: R631 in its order. -/
theorem decSymbol_judges {y : Sym} (hq : q.Raises tooLong) (hy : y.Spelled) :
    ReadsAndJudges l (y.decisionsRead l (y.errorCode l q.limit q.eosOk tooLong)) (y.errorCode l q.limit q.eosOk tooLong)
      (decSymbol q) := by
  have hgo : ∀ c : DecCtx, c.lane.lz = l.lz → c.lane.win = l.win.behind → decSymbol q c =
      (decBit (isMatchCell l.lz.state l.posState) c).bind fun isMatch c =>
      if isMatch then
        (decBit (isRepCell l.lz.state) c).bind fun isRep c =>
        if isRep then decRep q l.lz.state l.posState c else decMatch q l.lz.state l.posState c
      else decLiteral q l.lz.state c := by
    intro c hz hw
    have hps : c.lane.posState = l.posState := by
      rw [Lane.posState, hz, hw]
      rfl
    rw [decSymbol, hz, hps]
  refine .congr hgo ?_
  have hall (hne : y ≠ .lit) {err : Option Nat} : y.decisionsRead l err = y.decisions l := if_neg fun h => hne h.1
  cases y with
  | lit =>
    have hds (err : Option Nat) : Sym.lit.decisionsRead l err =
        .cell (l.lz.state.val * 16 + l.posState) false :: (Sym.lit.decisionsRead l err).drop 1 := by
      cases err <;> rfl
    rw [hds]
    exact .cell (decLiteral_judges hq)
  | mtch d n =>
    rw [hall Sym.noConfusion]
    exact .cell (.cell (decMatch_judges hq hy))
  | shortrep =>
    rw [hall Sym.noConfusion]
    exact .cell (.cell (decShortrep_judges hq))
  | rep r n =>
    rw [hall Sym.noConfusion, Sym.decisions_rep]
    exact .cell (.cell (decRep_judges hq hy))
  | eos =>
    rw [hall Sym.noConfusion]
    exact .cell (.cell decMarker_judges)

end

/-- From where the encoder stood the decoder reads the symbol's decisions and judges it (R630, R631). -/
theorem Tracks.judged {payload rest : List Byte} {l : Lane} {c : DecCtx} {q : SymLimits} {y : Sym} {tooLong : Nat}
    (h : Tracks payload rest l c) (hq : q.Raises tooLong) (hy : y.Spelled) :
    let err := y.errorCode l q.limit q.eosOk tooLong
    let e := (codeDecisions (y.decisionsRead l err) l).rce
    e.Reaches payload → Judged err (payload.drop (e.digits.length + 4) ++ rest) (decSymbol q c) := by
  intro err e hp
  obtain ⟨g, hread, hjudge⟩ := decSymbol_judges (l := l) hq hy
  obtain ⟨p, r, code, src, h1, h2⟩ := hread payload rest l c h.lz h.win h.toInStep hp
  have := hjudge (c.reading p r code src) h.lz h.win
  rwa [← h1, h2.src] at this

end Sys2Proof.Machine
end

section
/-! PROOFS. The loops of R633 and R661 up to a symbol that follows symbols which decode, and the commands that run them: the errors of
R631 and R231. -/

namespace Sys2Proof.Machine

/-! ## Symbols, then one more -/

/-- Coding shifts bytes out. -/
theorem codeDecisions_digits_le {ds : List Decision} {l : Lane} (h : l.EncOk) :
    l.rce.digits.length ≤ (codeDecisions ds l).rce.digits.length := by
  have hturns := codeDecisions_turns (ds := ds) h
  have hrange := l.rce.range.isLt
  omega

theorem codedAll_digits_le {ys : List Sym} {l : Lane} (h : l.EncOk) :
    l.rce.digits.length ≤ (codedAll ys l).rce.digits.length := by
  have hturns := codedAll_turns (ys := ys) h
  have hrange := l.rce.range.isLt
  omega

section
variable {payload rest : List Byte} {l : Lane} {c : DecCtx} {ys : List Sym}

/-- `while produced < n` past symbols that fit (R633, R661, R830). -/
theorem Tracks.exactly_past {fuel n : Nat} (h : Tracks payload rest l c) (hcur : l.win.cur ≤ l.win.endPos) (hcod : CodableAll ys l)
    (hn : Sym.total ys ≤ n) (hfuel : n ≤ fuel) (hp : (codedAll ys l).rce.Reaches payload) :
    ∃ c' fuel', decExactly fuel n c = decExactly fuel' (n - Sym.total ys) c' ∧ n - Sym.total ys ≤ fuel' ∧
      Tracks payload rest (codedAll ys l) c' := by
  induction ys generalizing l c fuel n with
  | nil => exact ⟨c, fuel, rfl, hfuel, h⟩
  | cons y ys ih =>
    obtain ⟨hne, hy, hys⟩ := hcod
    have hpos := hy.len_pos hne
    rw [Sym.total_cons] at hn ⊢
    obtain ⟨f, rfl⟩ : ∃ f, fuel = f + 1 := ⟨fuel - 1, by omega⟩
    obtain ⟨code, src, h1, h2⟩ := h.symbol (q := { limit := some n, eosOk := false, tooLong := .overrun }) hcur hy
      ⟨decide_eq_false (by omega), fun he => absurd he hne⟩ (reaches_of_codedAll (Sym.coded_encOk h.encOk) hp)
    obtain ⟨c', fuel', h3, h4, h5⟩ := ih (n := n - y.len) (fuel := f) h2 (hy.end_le hcur) hys (by omega) (by omega) hp
    rw [Nat.sub_sub] at h3 h4
    refine ⟨c', fuel', ?_, h4, h5⟩
    rw [decExactly, if_neg (by omega), h1, Res.bind_ok]
    exact h3

/-- The loop until the end marker past symbols that the limits allow (R633, R661). -/
theorem Tracks.markerLoop_past {q : Nat → SymLimits} {fuel produced : Nat} (h : Tracks payload rest l c)
    (hcur : l.win.cur ≤ l.win.endPos) (hcod : CodableAll ys l) (hfuel : ys.length < fuel)
    (hq : ∀ p y, p + y.len ≤ l.win.cur + Sym.total ys → (q p).Admit y) (hp : (codedAll ys l).rce.Reaches payload) :
    ∃ c' fuel' produced', decMarkerLoop q fuel produced c = decMarkerLoop q (fuel' + 1) produced' c' ∧
      Tracks payload rest (codedAll ys l) c' := by
  induction ys generalizing l c fuel produced with
  | nil =>
    obtain ⟨f, rfl⟩ : ∃ f, fuel = f + 1 := ⟨fuel - 1, by omega⟩
    exact ⟨c, f, produced, rfl, h⟩
  | cons y ys ih =>
    obtain ⟨hne, hy, hys⟩ := hcod
    rw [Sym.total_cons] at hq
    rw [List.length_cons] at hfuel
    obtain ⟨f, rfl⟩ : ∃ f, fuel = f + 1 := ⟨fuel - 1, by omega⟩
    have hat : c.lane.win.cur = l.win.cur := by rw [h.win]; rfl
    obtain ⟨code, src, h1, h2⟩ := h.symbol hcur hy (hq l.win.cur y (by omega)) (reaches_of_codedAll (Sym.coded_encOk h.encOk) hp)
    obtain ⟨c', f', p', h3, h4⟩ := ih (fuel := f) (produced := produced + y.len) h2 (hy.end_le hcur) hys (by omega)
      (fun p z hz => hq p z (by rw [Sym.coded_win, Nat.add_assoc] at hz; exact hz)) hp
    refine ⟨c', f', p', ?_, h4⟩
    rw [decMarkerLoop, hat, h1, Res.bind_ok, if_neg (show ¬ (y.answer l).kind = .eos from Sym.kind_ne_eos hne)]
    exact h3

/-- The limits of `while produced < n` with `n` bytes to go (R633, R661, R830). -/
abbrev exactLimits (n : Nat) : SymLimits := { limit := some n, eosOk := false, tooLong := .overrun }

/-- The error past a size (R631 d). -/
theorem exactLimits_raises {n : Nat} : (exactLimits n).Raises 0x0902 :=
  show Cause.overrun.OfStream ∧ Cause.overrun.code = 0x0902 from ⟨⟨by decide, by decide⟩, by decide⟩

/-- `while produced < n`, on symbols that fit and one more that may be read (R633, R661, R830). -/
theorem Tracks.exactly_judged {n : Nat} {y : Sym} (h : Tracks payload rest l c) (hcur : l.win.cur ≤ l.win.endPos)
    (hcod : CodableAll ys l) (hn : Sym.total ys < n) (hy : y.Spelled) :
    let err := y.errorCode (codedAll ys l) (some (n - Sym.total ys)) false 0x0902
    let e := (codedToError ys y err l).rce
    e.Reaches payload → Judged err (payload.drop (e.digits.length + 4) ++ rest) (decExactly n n c) := by
  intro err e hp
  obtain ⟨c', fuel, h1, h2, h3⟩ := h.exactly_past hcur hcod (Nat.le_of_lt hn) (Nat.le_refl n)
    (reaches_of_codeDecisions (codedAll_encOk h.encOk) hp)
  obtain ⟨f, rfl⟩ : ∃ f, fuel = f + 1 := ⟨fuel - 1, by omega⟩
  rw [h1, decExactly, if_neg (by omega)]
  have hjudged := h3.judged (q := exactLimits (n - Sym.total ys)) exactLimits_raises hy
  exact (hjudged hp).bind fun _ _ => decExactly_decodes

/-- The loop until the end marker, on symbols that the limits allow and one more that may be read (R633, R661). -/
theorem Tracks.untilMarker_judged {q : Nat → SymLimits} {y : Sym} {tooLong : Nat} (h : Tracks payload rest l c)
    (hcur : l.win.cur ≤ l.win.endPos) (hcod : CodableAll ys l) (hq : ∀ p y, p + y.len ≤ l.win.cur + Sym.total ys → (q p).Admit y)
    (hr : ∀ p, (q p).Raises tooLong) (hy : y.Spelled) :
    let ql := q (l.win.cur + Sym.total ys)
    let err := y.errorCode (codedAll ys l) ql.limit ql.eosOk tooLong
    let e := (codedToError ys y err l).rce
    e.Reaches payload → Judged err (payload.drop (e.digits.length + 4) ++ rest) (decUntilMarker q c) := by
  intro ql err e hp
  have hreach := reaches_of_codeDecisions (codedAll_encOk h.encOk) hp
  obtain ⟨c', f, produced, h1, h2⟩ := h.markerLoop_past (fuel := (c.src.length + 1) * 2 ^ 32) (produced := 0) hcur hcod
    (h.turns hreach) hq hreach
  have hat : c'.lane.win.cur = l.win.cur + Sym.total ys := by
    rw [h2.win, codedAll_win]
    rfl
  rw [decUntilMarker, h1, decMarkerLoop, hat]
  refine (h2.judged (hr _) hy hp).bind fun y' c'' => ?_
  split
  · exact .pure
  · exact decMarkerLoop_decodes fun p => (hr p).1.1

end

/-! ## A command on a source judged to its end -/

/-- A command that runs a decoding computation with IN as its source: on a source on which the computation raises or goes on after `took`
bytes, it raises with those bytes taken, and on less of it runs dry (R231, R1008). -/
theorem runCommand_judged {α : Type} {i : Instr} {body : Body} {k : α → Body} {f : DecCtx → Res DecCtx α} {s u : State}
    {err : Option Nat} {src : List Byte} {took : Nat} (hp : precheck i s = none) (hb : body s.begin = (onIn f u).bind k)
    (hu : s.begin.LaneWork u) (hin : u.inp = s.input) (hsteady : SteadyAt f u.decCtx)
    (hjudged : Judged err (src.drop took) (f { u.decCtx with src := src })) (htook : took ≤ src.length) :
    (∀ code, err = some code → s.input = src → runCommand i body s = .next (s.failedWith took code took 0)) ∧
      (∀ m, m < took → s.input = src.take m →
        (s.inEof = false → runCommand i body s = .next s.held) ∧
        (s.inEof = true → runCommand i body s = .next (s.failedWith m 0x0A02 m 0))) := by
  refine ⟨fun code hcode hinput => ?_, fun m hm hinput => ?_⟩
  · subst hcode
    obtain ⟨x, c, hf, rfl, ⟨hill, hcfg⟩, hsrc⟩ := hjudged.raises
    rw [← hinput, ← hin] at hf
    exact runCommand_onIn_raises hp hb hu hf hill hcfg (hinput ▸ hsrc) hin (hinput ▸ htook)
  · have hlen : s.input.length = m := by
      rw [hinput, List.length_take]
      omega
    have hmore : u.decCtx.more (src.drop m) = { u.decCtx with src := src } := by
      simp only [DecCtx.more, State.decCtx, hin, hinput, List.take_append_drop]
    have hdry : (f u.decCtx).Dry := by
      refine hsteady.dry_of_cut (bs := src.drop m) ?_
      rw [hmore]
      have hlt : (src.drop took).length < (src.drop m).length := by
        rw [List.length_drop, List.length_drop]
        omega
      exact hjudged.length_le.mono (fun _ _ h => Nat.lt_of_le_of_lt h hlt) fun _ _ h => Nat.lt_of_le_of_lt h hlt
    have hends := runCommand_onIn_dry hp hb hu hdry
    rwa [hlen] at hends

/-! ## LZD.SYMBOL and LZD.RUN (R631 to R633) -/

/-- The error of LZD.SYMBOL past its limit (R632). -/
theorem symbolLimits_raises {n : Nat} : (symbolLimits n).Raises 0x0902 :=
  show Cause.overrun.OfStream ∧ Cause.overrun.code = 0x0902 from ⟨⟨by decide, by decide⟩, by decide⟩

theorem symbolLimits_limit {n : BitVec 48} : (symbolLimits n.toNat).limit = if n = 0#48 then none else some n.toNat := by
  by_cases hn : n = 0#48
  · subst hn
    rfl
  · rw [if_neg hn]
    exact if_neg fun h => hn (BitVec.eq_of_toNat_eq h)

/-- The checks of the LZD commands pass where the decoder is initialised and nothing is looked ahead at (R632, R633). -/
theorem decoderReady_passes {t : State} {k : Res State (BitVec 64)} (hinit : t.lane0.rcd.inited = true)
    (hend : t.lane0.win.endPos = t.lane0.win.cur) : decoderReady t k = k := by
  rw [decoderReady, hinit, require_true, decide_eq_true hend, require_true]

section
variable {s : State} {l : Lane} {payload src : List Byte}

/-- A decoder that mirrors the encoder, on the source that is left of the payload (R630). -/
theorem tracks_of_mirrors {m : Lane} {out : List Byte} (h : Mirrors m l) (hok : l.EncOk) (hf : m.rcd.Follows l.rce payload src) :
    Tracks payload [] l { lane := m, src := src, out := out } := by
  obtain ⟨hprob, hlz, hwin, -⟩ := h
  have hsrc := hf.2.1
  exact ⟨⟨hok, hprob, hsrc ▸ hf, by rw [List.append_nil]; exact hsrc⟩, hlz, hwin⟩

theorem cur_le_of_mirrors {m : Lane} (h : Mirrors m l) : l.win.cur ≤ l.win.endPos := by
  obtain ⟨-, -, hwin, hend⟩ := h
  rw [hwin] at hend
  have hlen : (l.win.bytes.take l.win.cur).length = l.win.cur := hend
  rw [List.length_take] at hlen
  show l.win.cur ≤ l.win.bytes.length
  omega

theorem decOk_of_mirrors {m : Lane} (h : Mirrors m l) (hok : l.EncOk) (hf : m.rcd.Follows l.rce payload src) : m.DecOk := by
  refine ⟨?_, by rw [h.1]; exact hok.2⟩
  rw [RangeDec.Ok, hf.1]
  exact hok.1.1

/-- What is left of the payload after the bytes taken. -/
theorem RangeDec.Follows.drop {d : RangeDec} {e e' : RangeEnc} (h : d.Follows e payload src)
    (hle : e.digits.length ≤ e'.digits.length) (hp : e'.Reaches payload) :
    src.drop (e'.digits.length - e.digits.length) = payload.drop (e'.digits.length + 4) ∧
      e'.digits.length - e.digits.length ≤ src.length := by
  obtain ⟨-, hsrc, -, -⟩ := h
  have hlen := hp.firstBytes.1
  subst hsrc
  rw [List.drop_drop, List.length_drop, show e.digits.length + 4 + (e'.digits.length - e.digits.length) = e'.digits.length + 4 by omega]
  exact ⟨rfl, by omega⟩

end

/-- Settles O38: the decoder reads the symbol's decisions and judges it; a source cut before them runs dry. -/
theorem lzdCommandsRaise : Obligations.LzdCommandsRaise := by
  intro s n l ys y payload src i err hs hinit hrce hcells hcod hy hmir hf hi e took hp
  have hok : l.EncOk := ⟨hrce, hcells⟩
  have htracks := tracks_of_mirrors (out := []) hmir hok hf
  obtain ⟨hdrop, htook⟩ : src.drop took = payload.drop (e.digits.length + 4) ∧ took ≤ src.length :=
    hf.drop (Nat.le_trans (codedAll_digits_le hok) (codeDecisions_digits_le (codedAll_encOk (ys := ys) hok))) hp
  have hready (k : Res State (BitVec 64)) : decoderReady s.begin k = k := decoderReady_passes hinit hmir.2.2.2
  rw [← List.append_nil (payload.drop _)] at hdrop
  rcases hi with ⟨rfl, rfl, herr⟩ | ⟨rfl, hn, herr⟩
  · have hjudged : Judged err (src.drop took) (decSymbol (symbolLimits n.toNat) { lane := s.lane0, src := src, out := [] }) := by
      rw [hdrop]
      rw [← symbolLimits_limit] at herr
      subst herr
      exact htracks.judged symbolLimits_raises hy hp
    rw [show exec (.lzdSymbol n) s = execLzdSymbol n s from rfl, execLzdSymbol]
    exact runCommand_judged (precheck_unitsFree hs rfl) (hready _) .refl rfl (decSymbol_reader.steady _) hjudged htook
  · rw [show exec (.lzdRun n) s = execLzdRun n s from rfl, execLzdRun]
    by_cases hzero : n = 0#48
    · have hjudged : Judged err (src.drop took)
          (decUntilMarker (fun _ => symbolLimits 0) { lane := s.lane0, src := src, out := [] }) := by
        rw [hdrop]
        simp only [hzero, if_true, decide_true] at herr
        subst herr
        exact htracks.untilMarker_judged (q := fun _ => symbolLimits 0) (cur_le_of_mirrors hmir) hcod
          (fun _ _ _ => ⟨rfl, fun _ => rfl⟩) (fun _ => symbolLimits_raises) hy hp
      exact runCommand_judged (precheck_unitsFree hs rfl) ((hready _).trans (if_pos hzero)) .refl rfl
        (decUntilMarker_steady (decOk_of_mirrors hmir hok hf)) hjudged htook
    · have hjudged : Judged err (src.drop took) (decExactly n.toNat n.toNat { lane := s.lane0, src := src, out := [] }) := by
        rw [hdrop]
        simp only [hzero, if_false, decide_false] at herr
        subst herr
        exact htracks.exactly_judged (cur_le_of_mirrors hmir) hcod (hn.resolve_left hzero) hy hp
      exact runCommand_judged (precheck_unitsFree hs rfl) ((hready _).trans (if_neg hzero)) .refl rfl
        (decExactly_reader.steady _) hjudged htook

end Sys2Proof.Machine
end

section
/-! PROOFS. The raw LZMA stream where it cannot be decoded: LZMA.DECODE's errors (R421, R631, R640, R651, R661, R231). -/

namespace Sys2Proof.Machine

/-! ## The start of a payload (R421) -/

theorem cons_five {bs : List Byte} (h : 5 ≤ bs.length) :
    ∃ b0 b1 b2 b3 b4 tail, bs = b0 :: b1 :: b2 :: b3 :: b4 :: tail := by
  match bs, h with
  | b0 :: b1 :: b2 :: b3 :: b4 :: tail, _ => exact ⟨b0, b1, b2, b3, b4, tail, rfl⟩

/-- `DecInit` on five bytes or more (R421). -/
theorem decInit_ok {c : DecCtx} (h : 5 ≤ c.src.length) :
    decInit c = .ok () { c with
      lane := { c.lane with
        rcd := {
          range := 0xFFFFFFFF#32
          code := BitVec.ofNat 32 (bytesValue ((c.src.drop 1).take 4))
          inited := true
          initBad := c.src.getD 0 0#8 != 0#8 } }
      src := c.src.drop 5 } := by
  obtain ⟨l, src, out⟩ := c
  obtain ⟨b0, b1, b2, b3, b4, tail, rfl⟩ := cons_five h
  simp only [decInit, takeByte, decInitCode, Res.bind_ok, shiftIn]
  rfl

/-- `DecInit` on fewer than five bytes (R421, R231). -/
theorem decInit_dry {c : DecCtx} (h : c.src.length < 5) : (decInit c).Dry := by
  obtain ⟨l, src, out⟩ := c
  match src, h with
  | [], _ => exact ⟨_, rfl, rfl⟩
  | [_], _ => exact ⟨_, rfl, rfl⟩
  | [_, _], _ => exact ⟨_, rfl, rfl⟩
  | [_, _, _], _ => exact ⟨_, rfl, rfl⟩
  | [_, _, _, _], _ => exact ⟨_, rfl, rfl⟩

theorem Res.Dry.bind {α β : Type} {r : Res DecCtx α} {k : α → DecCtx → Res DecCtx β} (h : r.Dry) : (r.bind k).Dry := by
  obtain ⟨c, rfl, hsrc⟩ := h
  exact ⟨c, rfl, hsrc⟩

/-- The first byte is 0x00, as the decoder reads it (R421, R651). -/
theorem getD_bne_zero {bs : List Byte} (h : 5 ≤ bs.length) : (bs.getD 0 0#8 != 0#8) = decide (bs.head? ≠ some 0x00#8) := by
  obtain ⟨b0, b1, b2, b3, b4, tail, rfl⟩ := cons_five h
  simp [bne, BEq.beq]

/-! ## The computation of LZMA.DECODE (R651, R661) -/

theorem decodeRaw_badFirstByte {n : BitVec 48} {cap : Nat} {c : DecCtx} (h : 5 ≤ c.src.length) (hne : c.src.head? ≠ some 0x00#8) :
    ∃ c', decodeRaw n cap c = .stop (.of .badFirstByte) c' ∧ c'.src = c.src.drop 5 := by
  rw [decodeRaw, decInit_ok h, Res.bind_ok, getD_bne_zero h, decide_eq_true hne]
  exact ⟨_, rfl, rfl⟩

theorem decodeRaw_overCap {n : BitVec 48} {cap : Nat} {c : DecCtx} (h : 5 ≤ c.src.length) (h0 : c.src.head? = some 0x00#8)
    (hn : n ≠ unknownSize) (hcap : cap < n.toNat) :
    ∃ c', decodeRaw n cap c = .stop (.of .capacity) c' ∧ c'.src = c.src.drop 5 := by
  rw [decodeRaw, decInit_ok h, Res.bind_ok, getD_bne_zero h, decide_eq_false (fun hne => hne h0), if_neg Bool.false_ne_true, if_neg hn,
    decodeKnown, if_pos hcap]
  exact ⟨_, rfl, rfl⟩

/-- A decoder on lane `m` starts where the encoder on lane `e` did: a fresh range encoder, the cells and state machine alike, and the
decoder's window what the encoder has behind. -/
structure Lane.StartsAt (e m : Lane) : Prop where
  fresh : e.rce = RangeEnc.fresh
  cells : CellsOk e.prob
  cur_le : e.win.cur ≤ e.win.endPos
  prob : m.prob = e.prob
  lz : m.lz = e.lz
  win : m.win = e.win.behind

theorem rawLane_startsAt {a : Act} {x : List Byte} : (rawLane a x).StartsAt (laneInit (some a)) :=
  ⟨rfl, cellsOk_nil, Nat.zero_le _, rfl, rfl, rfl⟩

section
variable {e m : Lane} {payload rest out : List Byte} {ys : List Sym} {cap : Nat}

theorem Lane.StartsAt.encOk (h : e.StartsAt m) : e.EncOk := ⟨h.fresh ▸ rangeEnc_fresh_ok, h.cells⟩

/-- A payload that continues the encoder's, from its start: the decoder stands where the encoder did, and goes on by the size given. -/
theorem Lane.StartsAt.decodeRaw_tracks {n : BitVec 48} (h : e.StartsAt m) (hp : e.rce.Reaches payload) :
    ∃ c, Tracks payload rest e c ∧ c.out = out ∧
      decodeRaw n cap { lane := m, src := payload ++ rest, out := out } =
        if n = unknownSize then decodeUnknown cap c else decodeKnown n.toNat cap c := by
  obtain ⟨code, hinit, hin⟩ := decInit_inStep (rest := rest) h.encOk h.fresh hp
    (c := { lane := m, src := payload ++ rest, out := out }) h.prob rfl
  refine ⟨_, ⟨hin, h.lz, h.win⟩, rfl, ?_⟩
  rw [decodeRaw, hinit, Res.bind_ok, if_neg Bool.false_ne_true]

/-- The error of a stream of unknown size past its bound (R661). -/
theorem unknownSizeLimits_raises {p : Nat} : (unknownSizeLimits cap p).Raises 0x0104 :=
  show Cause.capacity.OfStream ∧ Cause.capacity.code = 0x0104 from ⟨⟨by decide, by decide⟩, by decide⟩

theorem unknownSizeLimits_allows {p k : Nat} {y : Sym} (hp : p + y.len ≤ k) (hk : k ≤ cap) : (unknownSizeLimits cap p).Admit y :=
  ⟨decide_eq_false (by omega), fun _ => rfl⟩

/-- A stream of known size, on symbols that fit and one more that may be read (R631, R661). -/
theorem Lane.StartsAt.decodeRaw_known_judged {n : BitVec 48} {y : Sym} (h : e.StartsAt m) (hn : n ≠ unknownSize) (hcap : n.toNat ≤ cap)
    (hcod : CodableAll ys e) (htotal : Sym.total ys < n.toNat) (hy : y.Spelled) :
    let err := y.errorCode (codedAll ys e) (some (n.toNat - Sym.total ys)) false 0x0902
    let r := (codedToError ys y err e).rce
    r.Reaches payload →
    Judged err (payload.drop (r.digits.length + 4) ++ rest) (decodeRaw n cap { lane := m, src := payload ++ rest, out := out }) := by
  intro err r hp
  obtain ⟨c, htracks, -, hraw⟩ := h.decodeRaw_tracks (n := n) (cap := cap) (rest := rest) (out := out)
    (reaches_of_codedAll h.encOk (reaches_of_codeDecisions (codedAll_encOk h.encOk) hp))
  rw [hraw, if_neg hn, decodeKnown, if_neg (Nat.not_lt.mpr hcap)]
  exact htracks.exactly_judged h.cur_le hcod htotal hy hp

end

section
variable {a : Act} {x payload : List Byte} {ys : List Sym} {cap : Nat}

/-- A stream of unknown size, on symbols within the bound and one more that may be read (R631, R661). -/
theorem decodeRaw_unknown_judged {y : Sym} (hcod : CodableAll ys (rawLane a x)) (htotal : Sym.total ys ≤ cap) (hy : y.Spelled) :
    let err := y.errorCode (codedAll ys (rawLane a x)) (some (cap - Sym.total ys)) true 0x0104
    let e := (codedToError ys y err (rawLane a x)).rce
    e.Reaches payload →
    Judged err (payload.drop (e.digits.length + 4) ++ [])
      (decodeRaw unknownSize cap { lane := laneInit (some a), src := payload ++ [], out := [] }) := by
  intro err e hp
  obtain ⟨c, htracks, -, hraw⟩ := rawLane_startsAt.decodeRaw_tracks (n := unknownSize) (cap := cap) (rest := []) (out := [])
    (reaches_of_codedAll rawLane_encOk (reaches_of_codeDecisions (codedAll_encOk rawLane_encOk) hp))
  have hjudged := htracks.untilMarker_judged (q := unknownSizeLimits cap) (Nat.zero_le _) hcod
    (fun p z hz => unknownSizeLimits_allows hz (by rw [show (rawLane a x).win.cur = 0 from rfl]; omega))
    (fun _ => unknownSizeLimits_raises) hy
  rw [show (rawLane a x).win.cur + Sym.total ys = Sym.total ys from Nat.zero_add _] at hjudged
  rw [hraw, if_pos rfl]
  refine (hjudged hp).bind fun _ c' => ?_
  split
  · exact .pure
  · exact .raise (by decide)

/-- The end marker where the code is not 0 (R640, R661). -/
theorem decodeRaw_markerUnclean (hcod : CodableAll ys (rawLane a x)) (htotal : Sym.total ys ≤ cap) :
    let e := (Sym.eos.coded (codedAll ys (rawLane a x))).rce
    e.Reaches payload → bytesValue (payload.take (e.digits.length + 4)) ≠ e.value →
    ∃ c, decodeRaw unknownSize cap { lane := laneInit (some a), src := payload ++ [], out := [] } = .stop (.of .markerUnclean) c ∧
      c.src = payload.drop (e.digits.length + 4) := by
  intro e hp hne
  have hcodedAll := reaches_of_coded (codedAll_encOk rawLane_encOk) hp
  obtain ⟨c, htracks, -, hraw⟩ := rawLane_startsAt.decodeRaw_tracks (n := unknownSize) (cap := cap) (rest := []) (out := [])
    (reaches_of_codedAll rawLane_encOk hcodedAll)
  obtain ⟨code, src, h1, h2⟩ := htracks.markerLoop (q := unknownSizeLimits cap) (fuel := (c.src.length + 1) * 2 ^ 32) (produced := 0)
    (Nat.zero_le _) hcod (htracks.turns hcodedAll)
    (fun p z hz => unknownSizeLimits_allows hz (by rw [show (rawLane a x).win.cur = 0 from rfl]; omega)) hp
  have hcode : code ≠ 0#32 := by
    rintro rfl
    have hval : bytesValue (payload.take (e.digits.length + 4)) = e.value + (0#32).toNat := h2.follows.2.2.2
    exact hne (hval.trans (Nat.add_zero e.value))
  rw [hraw, if_pos rfl, decodeUnknown, decUntilMarker, h1, Res.bind_ok, if_neg (by exact hcode)]
  exact ⟨_, rfl, by rw [h2.src, List.append_nil]⟩

end

/-! ## The command -/

/-- Settles O53: the symbols decode up to the one that is judged; a source cut before its decisions runs dry. -/
theorem lzmaDecodeErrors : Obligations.LzmaDecodeErrors := by
  intro s a n hs ha
  rw [show exec (.lzmaDecode n) s = execLzmaDecode n s from rfl, execLzmaDecode]
  have hpre : precheck (.lzmaDecode n) s = none := precheck_unitsFree hs rfl
  have hwork : s.begin.LaneWork s.begin.initLane0 := .initLane0
  have hctx (src : List Byte) : { s.begin.initLane0.decCtx with src := src } = { lane := laneInit (some a), src := src ++ [], out := [] } := by
    rw [← ha, List.append_nil]
    rfl
  have hbody (k : Unit → Act → Body) : withAct s.begin (fun a => (onIn (decodeRaw n a.outCap.toNat) s.begin.initLane0).bind fun x => k x a) =
      (onIn (decodeRaw n a.outCap.toNat) s.begin.initLane0).bind fun x => k x a := withAct_some ha
  have hdry (hlen : s.input.length < 5) : (decodeRaw n a.outCap.toNat s.begin.initLane0.decCtx).Dry := (decInit_dry hlen).bind
  refine ⟨fun hlen hne => ?_, fun hlen h0 hn hcap => ?_, fun hlen => (runCommand_onIn_dry hpre (hbody _) hwork (hdry hlen)).2,
    fun hlen => (runCommand_onIn_dry hpre (hbody _) hwork (hdry hlen)).1, fun x ys payload => ?_⟩
  · obtain ⟨c, hf, hc⟩ := decodeRaw_badFirstByte (n := n) (cap := a.outCap.toNat) (c := s.begin.initLane0.decCtx) hlen hne
    exact runCommand_onIn_raises hpre (hbody _) hwork hf (by decide) (by decide) hc rfl hlen
  · obtain ⟨c, hf, hc⟩ := decodeRaw_overCap (c := s.begin.initLane0.decCtx) hlen h0 hn hcap
    exact runCommand_onIn_raises hpre (hbody _) hwork hf (by decide) (by decide) hc rfl hlen
  · intro l
    have hl : l = rawLane a x := by
      show ({ laneInit s.act with win := _ } : Lane) = _
      rw [ha]
      rfl
    clear_value l
    subst hl
    intro unknown bound hcod hcap
    have hcase : n = unknownSize ∧ unknown = true ∧ bound = a.outCap.toNat ∨
        n ≠ unknownSize ∧ unknown = false ∧ bound = n.toNat := by
      by_cases hn : n = unknownSize
      · exact .inl ⟨hn, beq_iff_eq.mpr hn, if_pos (beq_iff_eq.mpr hn)⟩
      · exact .inr ⟨hn, beq_eq_false_iff_ne.mpr hn, if_neg fun h => hn (beq_iff_eq.mp h)⟩
    clear_value bound unknown
    have hsteady : SteadyAt (decodeRaw n a.outCap.toNat) s.begin.initLane0.decCtx := decodeRaw_steady (by
      show CellsOk (laneInit s.act).prob
      rw [ha]
      exact cellsOk_nil)
    refine ⟨?_, ?_⟩
    · intro y hy htotal err e took hp
      refine runCommand_judged hpre (hbody _) hwork rfl hsteady ?_ hp.firstBytes.1
      rw [hctx, ← List.append_nil (payload.drop took)]
      rcases hcase with ⟨rfl, rfl, rfl⟩ | ⟨hn, rfl, rfl⟩
      · exact decodeRaw_unknown_judged hcod htotal hy hp
      · exact rawLane_startsAt.decodeRaw_known_judged hn hcap hcod htotal hy hp
    · intro hu htotal e took hp hne hinput
      obtain ⟨rfl, -, rfl⟩ := hcase.resolve_right fun h => Bool.false_ne_true (h.2.1.symm.trans hu)
      obtain ⟨c, hf, hc⟩ := decodeRaw_markerUnclean hcod htotal hp hne
      rw [← hctx] at hf
      subst hinput
      exact runCommand_onIn_raises hpre (hbody _) hwork hf (by decide) (by decide) hc rfl hp.firstBytes.1

end Sys2Proof.Machine
end

section
/-! PROOFS. The reading of a chunk's header and data where it fails: IN ends inside them, or a check of R830 does not pass (R231, R350, R830,
R832, R834, R837). -/

namespace Sys2Proof.Machine

section
variable {cap n : Nat} {t : State} {ctl : Byte} {f : SeqFlags} {rest : List Byte}

/-! ## IN ends (R231) -/

theorem inByte_nil (h : t.inp = []) : inByte t = .stop t.inDry { t with inp := [] } := by
  rw [inByte, h]
  simp only [← h]

/-- A chunk's data beyond what IN has. -/
theorem readData_dry {size : Nat} {props : Option Byte} (hcap : f.total + size ≤ cap) (h : t.inp.length < n) :
    readData cap f ctl size n props t = .stop t.inDry { t with inp := [] } := by
  rw [readData, if_neg (Nat.not_lt.mpr hcap), inBytes, if_neg (Nat.not_le.mpr h)]
  rfl

/-- A chunk's data that IN has (R832). -/
theorem readData_within {size : Nat} {props : Option Byte} (hcap : f.total + size ≤ cap) (h : n ≤ t.inp.length) :
    readData cap f ctl size n props t =
      .ok ({ ctl := ctl, size := size, props := props, data := t.inp.take n }, { f with total := f.total + size })
        { t with inp := t.inp.drop n } := by
  rw [readData, if_neg (Nat.not_lt.mpr hcap), inBytes, if_pos h]
  rfl

theorem readData_overCap {size : Nat} {props : Option Byte} (hcap : cap < f.total + size) :
    readData cap f ctl size n props t = .stop (.of .capacity) t := by
  rw [readData, if_pos hcap]

theorem readRaw_short (hctl : ctl.toNat ≤ 2) (h : t.inp.length < 2) : readRaw cap f ctl t = .stop t.inDry { t with inp := [] } := by
  rw [readRaw, if_neg (Nat.not_lt.mpr hctl)]
  match hinp : t.inp, h with
  | [], _ => rw [inByte_nil hinp, Res.bind_stop]
  | [_], _ =>
    rw [inByte_cons hinp, Res.bind_ok, inByte_nil rfl]
    rfl

/-- The sizes of an LZMA chunk, or its properties byte, beyond what IN has. -/
theorem readLzma_short (h : t.inp.length < 4 ∨ hasProps ctl = true ∧ t.inp.length < 5) :
    readLzma cap f ctl t = .stop t.inDry { t with inp := [] } := by
  have h5 : t.inp.length < 5 := by omega
  rw [readLzma]
  match hinp : t.inp, h5 with
  | [], _ => rw [inByte_nil hinp, Res.bind_stop]
  | [_], _ =>
    rw [inByte_cons hinp, Res.bind_ok, inByte_nil rfl]
    rfl
  | [_, _], _ =>
    rw [inByte_cons hinp, Res.bind_ok, inByte_cons rfl, Res.bind_ok, inByte_nil rfl]
    rfl
  | [_, _, _], _ =>
    rw [inByte_cons hinp, Res.bind_ok, inByte_cons rfl, Res.bind_ok, inByte_cons rfl, Res.bind_ok, inByte_nil rfl]
    rfl
  | [_, _, _, _], _ =>
    rw [hinp] at h
    have hprops : hasProps ctl = true := h.elim (fun h => absurd h (Nat.lt_irrefl 4)) And.left
    rw [inByte_cons hinp, Res.bind_ok, inByte_cons rfl, Res.bind_ok, inByte_cons rfl, Res.bind_ok, inByte_cons rfl, Res.bind_ok]
    simp only [hprops, if_true]
    rw [inByte_nil rfl]
    rfl

/-! ## A header of an LZMA chunk (R350, R830) -/

/-- The properties byte, where the chunk has one. -/
def LzmaHead.props (h : LzmaHead) : Option Byte := if 2 ≤ h.level.val then some h.pr else none

/-- The chunk with its data. -/
def LzmaHead.chunk (h : LzmaHead) (data : List Byte) : Chunk where
  ctl := h.control
  size := h.size
  props := h.props
  data := data

theorem propsOk_iff {pr : Byte} : propsOk pr = true ↔ pr.toNat ≤ 224 ∧ (propsOf pr).1 + (propsOf pr).2.1 ≤ 4 := by
  simp only [propsOk, propsDecode, propsOf, BitVec.toNat_ofNat, decide_eq_true_eq]
  omega

/-- The checks that follow an LZMA chunk's header (R830). -/
theorem readLzma_head {h : LzmaHead} {data : List Byte} (hr : h.InRange) (hseq : 2 ≤ h.level.val ∨ f.needProps = false)
    (hinp : t.inp = (h.bytes ++ data).tail) :
    readLzma cap f h.control t =
      if h.PropsOk then
        if h.count < 5 then .stop (.of .shortPayload) { t with inp := data }
        else readData cap { f with needProps := f.needProps && !decide (2 ≤ h.level.val) } h.control h.size h.count h.props
          { t with inp := data }
      else .stop (.of .badProps) { t with inp := data } := by
  have hctl := LzmaHead.control_toNat hr
  have hprops := LzmaHead.hasProps_control hr
  obtain ⟨h1, h2, h3, h4⟩ := hr
  have hlevel := h.level.isLt
  have hsize : h.control.toNat % 2 ^ 5 * 2 ^ 16 + (BitVec.ofNat 8 ((h.size - 1) / 2 ^ 8)).toNat * 2 ^ 8 +
      (BitVec.ofNat 8 (h.size - 1)).toNat + 1 = h.size := by
    have hhigh : h.control.toNat % 2 ^ 5 = (h.size - 1) / 2 ^ 16 := by omega
    rw [hhigh, BitVec.toNat_ofNat, BitVec.toNat_ofNat]
    omega
  have hinp' : t.inp = BitVec.ofNat 8 ((h.size - 1) / 2 ^ 8) :: BitVec.ofNat 8 (h.size - 1) ::
      BitVec.ofNat 8 ((h.count - 1) / 2 ^ 8) :: BitVec.ofNat 8 (h.count - 1) ::
      ((if 2 ≤ h.level.val then [h.pr] else []) ++ data) := hinp
  rw [readLzma, inByte_cons hinp', Res.bind_ok, inByte_cons rfl, Res.bind_ok, inByte_cons rfl, Res.bind_ok, inByte_cons rfl,
    Res.bind_ok]
  simp only [hsize, be16_value ⟨h3, h4⟩, hprops]
  by_cases hl : 2 ≤ h.level.val
  · have hok : h.PropsOk ↔ propsOk h.pr = true := by rw [propsOk_iff, LzmaHead.PropsOk, forall_prop_of_true hl]
    simp only [LzmaHead.props, hl, decide_true, if_true, Bool.not_true, Bool.and_false, List.cons_append, List.nil_append, hok]
    rw [inByte_cons rfl, Res.bind_ok]
  · have hnp : f.needProps = false := hseq.resolve_left hl
    have hok : h.PropsOk := fun h2 => absurd h2 hl
    rw [if_pos hok]
    simp only [LzmaHead.props, hl, decide_false, Bool.false_eq_true, if_false, hnp, Bool.false_and, List.nil_append]
    simp only [← hnp]

end

/-! ## The chunk (R830) -/

section
variable {cap : Nat} {t : State} {d : DecSession} {total : Nat} {ctl : Byte} {rest : List Byte}

theorem readChunk_empty {f : SeqFlags} (h : t.inp = []) : readChunk cap f t = .stop t.inDry { t with inp := [] } := by
  rw [readChunk, inByte_nil h, Res.bind_stop]

/-- A chunk before the dictionary has been reset (R837). -/
theorem readChunk_missingDictReset {f : SeqFlags} (hinp : t.inp = ctl :: rest) (hd : f.needDictReset = true) (h2 : 2 ≤ ctl.toNat)
    (hlt : ctl.toNat < 0xE0) : readChunk cap f t = .stop (.of .missingDictReset) { t with inp := rest } := by
  have hne : ctl ≠ 0#8 := by
    rintro rfl
    exact absurd h2 (by decide)
  have hreset : resetsDict ctl = false := decide_eq_false (by omega)
  rw [readChunk, inByte_cons hinp, Res.bind_ok, if_neg hne]
  simp only [hreset, Bool.false_eq_true, if_false, hd, if_true]

/-- A control byte of no chunk (R350). -/
theorem readChunk_reservedControl {f : SeqFlags} (hinp : t.inp = ctl :: rest) (hd : f.needDictReset = false) (h3 : 3 ≤ ctl.toNat)
    (hlt : ctl.toNat < 0x80) : readChunk cap f t = .stop (.of .reservedControl) { t with inp := rest } := by
  have hne : ctl ≠ 0#8 := by
    rintro rfl
    exact absurd h3 (by decide)
  rw [readChunk_control (resets := false) hinp hne (decide_eq_false (by omega)) (by rw [hd]; rfl),
    if_neg (by rw [isLzmaChunk, decide_eq_true_eq]; omega), readRaw, if_pos (show 2 < ctl.toNat by omega)]
  rfl

/-- A chunk without properties before any were given (R837). -/
theorem readChunk_missingProps {f : SeqFlags} (hinp : t.inp = ctl :: rest) (hd : f.needDictReset = false) (hp : f.needProps = true)
    (h80 : 0x80 ≤ ctl.toNat) (hlt : ctl.toNat < 0xC0) (hrest : 4 ≤ rest.length) :
    readChunk cap f t = .stop (.of .missingProps) { t with inp := rest.drop 4 } := by
  have hne : ctl ≠ 0#8 := by
    rintro rfl
    exact absurd h80 (by decide)
  have hnone : hasProps ctl = false := decide_eq_false (by omega)
  obtain ⟨u1, u0, c1, c0, tail, rfl⟩ : ∃ u1 u0 c1 c0 tail, rest = u1 :: u0 :: c1 :: c0 :: tail := by
    match rest, hrest with
    | u1 :: u0 :: c1 :: c0 :: tail, _ => exact ⟨u1, u0, c1, c0, tail, rfl⟩
  rw [readChunk_control (resets := false) hinp hne (decide_eq_false (by omega)) (by rw [hd]; rfl),
    if_pos (show isLzmaChunk ctl = true from decide_eq_true h80), readLzma,
    inByte_cons rfl, Res.bind_ok, inByte_cons rfl, Res.bind_ok, inByte_cons rfl, Res.bind_ok, inByte_cons rfl, Res.bind_ok]
  simp only [hnone, Bool.false_eq_true, if_false, SeqFlags.atControl, hp, Bool.true_or, if_true]
  rfl

/-- The control byte of a raw chunk (R350). -/
abbrev rawControl (reset : Bool) : Byte := if reset then 0x01#8 else 0x02#8

section Raw
variable {reset : Bool} {x : List Byte} {a : Act} {l : Lane}

/-- A raw chunk's control byte is read (R350, R830). -/
theorem readChunk_raw (hk : (CodedChunk.raw reset x).Legal a l) (hinp : t.inp = (rawControl reset) :: rest) :
    readChunk cap (l.l2d.flags total) t =
      (readRaw cap ((l.l2d.flags total).atControl reset) (rawControl reset) { t with inp := rest }).bind
        fun r s => .ok (some r) s := by
  obtain ⟨hseq, -⟩ := hk
  rw [readChunk_control (resets := reset) hinp (by cases reset <;> decide) (by cases reset <;> decide)
    (by cases hseq <;> simp [DecSession.flags, *]), if_neg (by cases reset <;> decide)]

/-- A raw chunk's sizes are read (R350, R830). -/
theorem readRaw_sizes {f : SeqFlags} (hk : (CodedChunk.raw reset x).Legal a l)
    (hinp : t.inp = BitVec.ofNat 8 ((x.length - 1) / 2 ^ 8) :: BitVec.ofNat 8 (x.length - 1) :: rest) :
    readRaw cap f (rawControl reset) t =
      readData cap f (rawControl reset) x.length x.length none { t with inp := rest } := by
  rw [readRaw, if_neg (by cases reset <;> decide), inByte_cons hinp, Res.bind_ok, inByte_cons rfl, Res.bind_ok, be16_value hk.2]

/-- A raw chunk past the capacity (R830). -/
theorem readChunk_raw_overCap (hk : (CodedChunk.raw reset x).Legal a l) (hinp : t.inp = (CodedChunk.raw reset x).wire ++ rest)
    (hcap : cap < total + x.length) :
    readChunk cap (l.l2d.flags total) t = .stop (.of .capacity) { t with inp := x ++ rest } := by
  rw [readChunk_raw hk hinp, readRaw_sizes hk rfl, readData_overCap hcap]
  rfl

/-- IN ends inside a raw chunk (R231, R830). -/
theorem readChunk_raw_dry {m : Nat} (hk : (CodedChunk.raw reset x).Legal a l) (hm : m < (CodedChunk.raw reset x).wire.length)
    (hinp : t.inp = (CodedChunk.raw reset x).wire.take m) (hcap : m < 3 ∨ total + x.length ≤ cap) :
    readChunk cap (l.l2d.flags total) t = .stop t.inDry { t with inp := [] } := by
  have hctl : (rawControl reset).toNat ≤ 2 := by cases reset <;> decide
  match m with
  | 0 => exact readChunk_empty hinp
  | 1 =>
    rw [readChunk_raw hk hinp, readRaw_short hctl (by exact Nat.two_pos)]
    rfl
  | 2 =>
    rw [readChunk_raw hk hinp, readRaw_short hctl (by exact Nat.one_lt_two)]
    rfl
  | k + 3 =>
    have hlen : (x.take k).length < x.length := by
      have hm : k + 3 < x.length + 3 := hm
      rw [List.length_take]
      omega
    rw [readChunk_raw hk hinp, readRaw_sizes (rest := x.take k) hk rfl,
      readData_dry (hcap.resolve_left (by omega)) hlen]
    rfl

end Raw

section Lzma
variable {h : LzmaHead} {data : List Byte} (hr : h.InRange) (hseq : h.InSequence d)
include hr hseq

/-- An LZMA chunk's control byte is read (R350, R830). -/
theorem readChunk_lzma (hinp : t.inp = h.control :: rest) :
    readChunk cap (d.flags total) t =
      (readLzma cap ((d.flags total).atControl (h.level = 3)) h.control { t with inp := rest }).bind fun r s => .ok (some r) s := by
  have hctl := LzmaHead.control_toNat hr
  rw [readChunk_control (resets := decide (h.level = 3)) hinp (fun hc => by simp [hc] at hctl; omega) (LzmaHead.resetsDict_control hr)
    (by obtain ⟨hd | hd, -⟩ := hseq <;> simp [DecSession.flags, hd]), if_pos (LzmaHead.isLzmaChunk_control hr)]

omit hr in
theorem LzmaHead.InSequence.needProps : 2 ≤ h.level.val ∨ ((d.flags total).atControl (h.level = 3)).needProps = false := by
  obtain ⟨-, hp⟩ := hseq
  by_cases hl : 2 ≤ h.level.val
  · exact .inl hl
  · have hne : h.level ≠ 3 := fun h3 => hl (h3 ▸ by decide)
    exact .inr (by simp [SeqFlags.atControl, DecSession.flags, hp.resolve_left hl, hne])

/-- IN ends inside an LZMA chunk's header (R231, R830). -/
theorem readChunk_header_dry {m : Nat} (hm : m < h.bytes.length) (hinp : t.inp = h.bytes.take m) :
    readChunk cap (d.flags total) t = .stop t.inDry { t with inp := [] } := by
  cases m with
  | zero => exact readChunk_empty hinp
  | succ k =>
    have hlen : (h.bytes.tail.take k).length < 4 ∨ hasProps h.control = true ∧ (h.bytes.tail.take k).length < 5 := by
      rw [LzmaHead.hasProps_control hr, List.length_take]
      rw [LzmaHead.bytes] at hm
      by_cases hl : 2 ≤ h.level.val
      · simp [hl] at hm ⊢
        omega
      · simp [hl] at hm ⊢
        omega
    rw [readChunk_lzma hr hseq (rest := h.bytes.tail.take k) hinp, readLzma_short hlen]
    rfl

/-- The checks after an LZMA chunk's header (R830, R834). -/
theorem readChunk_checks (hinp : t.inp = h.bytes ++ data) :
    readChunk cap (d.flags total) t =
      if h.PropsOk then
        if h.count < 5 then .stop (.of .shortPayload) { t with inp := data }
        else if cap < total + h.size then .stop (.of .capacity) { t with inp := data }
        else if data.length < h.count then .stop t.inDry { t with inp := [] }
        else .ok (some (h.chunk (data.take h.count), 
          { needDictReset := d.needDictReset && !decide (h.level = 3)
            needProps := (d.needProps || decide (h.level = 3)) && !decide (2 ≤ h.level.val)
            total := total + h.size })) { t with inp := data.drop h.count }
      else .stop (.of .badProps) { t with inp := data } := by
  rw [readChunk_lzma hr hseq (rest := (h.bytes ++ data).tail) hinp, readLzma_head hr hseq.needProps rfl]
  by_cases hp : h.PropsOk
  · rw [if_pos hp, if_pos hp]
    by_cases h5 : h.count < 5
    · rw [if_pos h5, if_pos h5]
      rfl
    rw [if_neg h5, if_neg h5]
    by_cases hcap : cap < total + h.size
    · rw [if_pos hcap, readData_overCap hcap]
      rfl
    rw [if_neg hcap]
    by_cases hlen : data.length < h.count
    · rw [if_pos hlen, readData_dry (Nat.not_lt.mp hcap) hlen]
      rfl
    rw [if_neg hlen, readData_within (Nat.not_lt.mp hcap) (Nat.not_lt.mp hlen)]
    rfl
  · rw [if_neg hp, if_neg hp]
    rfl

end Lzma

end

end Sys2Proof.Machine
end

section
/-! PROOFS. L2.DEC_CHUNK where it raises or runs dry: the checks of R830 in their order, a payload whose first byte is not 0x00, a symbol
that cannot be decoded, a payload that ends too early and one that ends uncleanly (R231, R350, R830 to R837, R1008). -/

namespace Sys2Proof.Machine

/-! ## A payload that cannot be decoded (R651, R830, R835) -/

/-- A payload that continues the encoder's, cut where the encoder's bytes are all in it. -/
theorem RangeEnc.Reaches.front {e : RangeEnc} {p q : List Byte} (h : e.Reaches (p ++ q)) (hlen : e.digits.length + 4 ≤ p.length) :
    e.Reaches p := by
  obtain ⟨k, hk, hlo, hhi⟩ := h
  have hq := bytesValue_lt q
  rw [List.length_append] at hk
  have hpow : 2 ^ (8 * k) = 2 ^ (8 * (p.length - (e.digits.length + 4))) * 2 ^ (8 * q.length) := by
    rw [← Nat.pow_add]
    congr 1
    omega
  have hpos : 0 < 2 ^ (8 * q.length) := Nat.two_pow_pos _
  rw [bytesValue_append, hpow, ← Nat.mul_assoc] at hlo hhi
  refine ⟨p.length - (e.digits.length + 4), by omega, ?_, ?_⟩
  · refine Nat.le_of_lt_succ (Nat.lt_of_mul_lt_mul_right (a := 2 ^ (8 * q.length)) (Nat.lt_of_le_of_lt hlo ?_))
    rw [Nat.succ_mul (bytesValue p)]
    omega
  · exact Nat.lt_of_mul_lt_mul_right (a := 2 ^ (8 * q.length)) (Nat.lt_of_le_of_lt (Nat.le_add_right _ _) hhi)

/-- A chunk's size is a known size (R350, R661). -/
theorem size_known {size : Nat} (hsize : size ≤ 2 ^ 21) :
    (BitVec.ofNat 48 size).toNat = size ∧ BitVec.ofNat 48 size ≠ unknownSize := by
  have hnat : (BitVec.ofNat 48 size).toNat = size := by
    rw [BitVec.toNat_ofNat]
    omega
  refine ⟨hnat, fun h => ?_⟩
  have := congrArg BitVec.toNat h
  rw [hnat, unknownSize, BitVec.toNat_allOnes] at this
  omega

/-- A chunk's payload is decoded as a stream of known size is, and then its end is checked (R830, R835). -/
theorem decodePayload_eq {size : Nat} {c : DecCtx} (hsize : size ≤ 2 ^ 21) :
    decodePayload size c = (decodeRaw (BitVec.ofNat 48 size) size c).bind fun _ c =>
      if c.src.isEmpty && c.lane.rcd.code == 0#32 then .ok () c else .stop (.of .uncleanEnd) c := by
  obtain ⟨hnat, hne⟩ := size_known hsize
  rw [decodePayload, decodeRaw]
  cases decInit c with
  | stop e c => rfl
  | ok _ c =>
    simp only [Res.bind_ok]
    split
    · rfl
    · rw [decodeKnown, hnat, if_neg (Nat.lt_irrefl size)]

/-- Decoding the payload raises the error `code` (R830, R835). -/
def PayloadFails (size : Nat) (c : DecCtx) (code : Nat) : Prop :=
  ∃ x c', orExhausted (decodePayload size c) = .stop (.of x) c' ∧ x.OfStream ∧ x.code = code

section
variable {size : Nat}

theorem PayloadFails.of_raw {c c' : DecCtx} {x : Cause} (hsize : size ≤ 2 ^ 21)
    (h : decodeRaw (BitVec.ofNat 48 size) size c = .stop (.of x) c') (hx : x.OfStream) : PayloadFails size c x.code := by
  refine ⟨x, c', ?_, hx, rfl⟩
  rw [decodePayload_eq hsize, h]
  rfl

/-- A first byte that is not 0x00 (R651, R830). -/
theorem payloadFails_badFirstByte {c : DecCtx} (hsize : size ≤ 2 ^ 21) (h5 : 5 ≤ c.src.length) (hne : c.src.head? ≠ some 0x00#8) :
    PayloadFails size c 0x0602 := by
  obtain ⟨c', h, -⟩ := decodeRaw_badFirstByte (n := BitVec.ofNat 48 size) (cap := size) h5 hne
  exact .of_raw hsize h ⟨by decide, by decide⟩

/-- A payload that ends before the bytes it needs (R232, R830). -/
theorem payloadFails_exhausted {c : DecCtx} (hsize : size ≤ 2 ^ 21) (h : (decodeRaw (BitVec.ofNat 48 size) size c).Dry) :
    PayloadFails size c 0x0702 := by
  obtain ⟨c', h, -⟩ := h
  refine ⟨.payloadExhausted, c', ?_, ⟨by decide, by decide⟩, rfl⟩
  rw [decodePayload_eq hsize, h]
  rfl

variable {e m : Lane} {ys : List Sym} {payload sent more out : List Byte} (hstart : e.StartsAt m) (hsize : size ≤ 2 ^ 21)
  (hcod : CodableAll ys e)
include hstart hsize hcod

/-- After symbols that decode, one that cannot be decoded, or the end of the payload before its decisions (R631, R830). -/
theorem payloadFails_symbol {y : Sym} (hy : y.Spelled) (htotal : Sym.total ys < size) :
    let err := y.errorCode (codedAll ys e) (some (size - Sym.total ys)) false 0x0902
    let r := (codedToError ys y err e).rce
    r.Reaches payload → payload = sent ++ more ∨ sent = payload ++ more →
      (sent.length < r.digits.length + 4 → PayloadFails size { lane := m, src := sent, out := out } 0x0702) ∧
      (∀ code, err = some code → r.digits.length + 4 ≤ sent.length →
        PayloadFails size { lane := m, src := sent, out := out } code) := by
  intro err r hp hmore
  obtain ⟨hnat, hne⟩ := size_known hsize
  have hjudged (p rest : List Byte) (hp : r.Reaches p) : Judged err (p.drop (r.digits.length + 4) ++ rest)
      (decodeRaw (BitVec.ofNat 48 size) size { lane := m, src := p ++ rest, out := out }) := by
    have := hstart.decodeRaw_known_judged (rest := rest) (out := out) (payload := p) hne (Nat.le_of_eq hnat) hcod (hnat.symm ▸ htotal) hy
    rw [hnat] at this
    exact this hp
  have hlen := hp.firstBytes.1
  refine ⟨fun hshort => payloadFails_exhausted hsize ?_, fun code hcode hlong => ?_⟩
  · obtain rfl | rfl := hmore
    · refine (decodeRaw_steady (by rw [hstart.prob]; exact hstart.cells)).dry_of_cut (bs := more) ?_
      have hlt : ((sent ++ more).drop (r.digits.length + 4) ++ []).length < more.length := by
        rw [List.length_append] at hlen
        rw [List.append_nil, List.length_drop, List.length_append]
        omega
      have hfull := hjudged _ [] hp
      rw [List.append_nil (sent ++ more)] at hfull
      exact hfull.length_le.mono (fun _ _ h => Nat.lt_of_le_of_lt h hlt) fun _ _ h => Nat.lt_of_le_of_lt h hlt
    · rw [List.length_append] at hshort
      omega
  · obtain ⟨p, rest, hsent, hp⟩ : ∃ p rest, sent = p ++ rest ∧ r.Reaches p := by
      obtain rfl | rfl := hmore
      · exact ⟨sent, [], (List.append_nil sent).symm, hp.front hlong⟩
      · exact ⟨payload, more, rfl, hp⟩
    have := hjudged p rest hp
    rw [hcode] at this
    obtain ⟨x, c, hraw, rfl, hx, -⟩ := this.raises
    rw [← hsent] at hraw
    exact .of_raw hsize hraw hx

/-- All the symbols decode, and the payload does not end with them (R425, R835). -/
theorem payloadFails_unclean (htotal : Sym.total ys = size) (hp : (codedAll ys e).rce.Reaches sent)
    (hends : ¬ (codedAll ys e).rce.EndsAt sent) : PayloadFails size { lane := m, src := sent, out := out } 0x0802 := by
  obtain ⟨c, htracks, -, hraw⟩ := hstart.decodeRaw_tracks (n := BitVec.ofNat 48 size) (cap := size) (rest := []) (out := out)
    (reaches_of_codedAll hstart.encOk hp)
  obtain ⟨hnat, hne⟩ := size_known hsize
  obtain ⟨code, src, hexact, hafter⟩ := htracks.exactly (fuel := size) hstart.cur_le hcod (Nat.le_of_eq htotal) hp
  rw [htotal] at hexact hafter
  rw [List.append_nil, if_neg hne, decodeKnown, hnat, if_neg (Nat.lt_irrefl size), hexact] at hraw
  generalize c.movedTo _ code src _ = c' at *
  have hunclean : ¬ (c'.src.isEmpty && c'.lane.rcd.code == 0#32) = true := by
    intro hclean
    obtain ⟨hsrc, hcode⟩ := Bool.and_eq_true_iff.mp hclean
    have hnil : sent.drop ((codedAll ys e).rce.digits.length + 4) = [] := by
      have := hafter.src
      rw [List.isEmpty_iff.mp hsrc, List.append_nil] at this
      exact this.symm
    obtain ⟨-, -, hle, hval⟩ := hafter.follows
    have hlen : sent.length = (codedAll ys e).rce.digits.length + 4 := Nat.le_antisymm (List.drop_eq_nil_iff.mp hnil) hle
    rw [← hlen, List.take_length, beq_iff_eq.mp hcode] at hval
    exact hends ⟨hlen, hval.trans (Nat.add_zero _)⟩
  refine ⟨.uncleanEnd, c', ?_, ⟨by decide, by decide⟩, rfl⟩
  rw [decodePayload_eq hsize, hraw, Res.bind_ok, if_neg hunclean]
  rfl

end

/-! ## The chunk's data on its lane (R833, R836) -/

section
variable {a : Act} {l : Lane} {h : LzmaHead} {data out : List Byte}

/-- The resets the decoder makes are those of the header's level (R352, R833). -/
theorem applyResets_chunk (hr : h.InRange) : applyResets a (h.chunk data) l = h.start a l := by
  have h1 := LzmaHead.resetsDict_control hr
  have h2 := LzmaHead.resetsState_control hr
  simp only [applyResets, LzmaHead.chunk, LzmaHead.props, h1, h2, LzmaHead.start]
  obtain ⟨level, pr, size, count⟩ := h
  match level with
  | 0 => rfl
  | 1 => rfl
  | 2 => rfl
  | 3 => rfl

/-- The decoding of the chunk's payload starts where its encoder does (R810, R833). -/
theorem LzmaHead.encoder_startsAt {x : List Byte} (hl : l.Between) :
    (h.encoder a x l).StartsAt { h.start a l with pb := data } where
  fresh := rfl
  cells := (start_between (a := a) (h := h) hl).cells
  cur_le := encoder_cur_le hl
  prob := rfl
  lz := rfl
  win := (encoder_behind hl).symm

theorem decodeData_fails {code : Nat} (hr : h.InRange)
    (hf : PayloadFails h.size { lane := { h.start a l with pb := data }, src := data, out := out } code) :
    ∃ x c, decodeData (h.chunk data) (applyResets a (h.chunk data) l) out = .stop (.of x) c ∧ x.OfStream ∧ x.code = code := by
  obtain ⟨x, c, hstop, hx, hcode⟩ := hf
  refine ⟨x, c, ?_, hx, hcode⟩
  rw [applyResets_chunk hr, decodeData, if_pos (show isLzmaChunk (h.chunk data).ctl = true from LzmaHead.isLzmaChunk_control hr)]
  simp only [LzmaHead.chunk, hstop]
  rfl

end

/-! ## The command (R854, R1008) -/

/-- The state that L2.DEC_CHUNK decodes its chunk in: its session open (R854). -/
def State.decoding (s : State) : State := s.begin.withLane0 (decoderLane s)

theorem State.decoding_laneWork {s : State} : s.begin.LaneWork s.decoding := ⟨rfl, List.suffix_refl _⟩

section
variable {s : State} {a : Act} (ha : s.act = some a) (he : s.lane0.l2e.active = false)
include ha he

theorem precheck_l2DecChunk : precheck .l2DecChunk s = none := by
  simp [precheck, State.configured, ha, isSys, operandsOk, Instr.wf, lockOk, lockOf, he]

omit he in
/-- L2.DEC_CHUNK stops as the decoding of its chunk does, with an error given the chunk's place (R854, R1008). -/
theorem exec_l2DecChunk_stops {e : Stop} {t : State}
    (h : atChunk { index := (decoderLane s).l2d.chunkIndex.toNat, offset := 0 } (decodeChunk a s.decoding) = .stop e t) :
    ∃ body : Body, exec .l2DecChunk s = runCommand .l2DecChunk body s ∧ body s.begin = .stop e t := by
  have hexec : exec .l2DecChunk s = execL2DecChunk s := rfl
  rw [execL2DecChunk] at hexec
  refine ⟨_, hexec, ?_⟩
  rw [withAct_some (a := a) (by exact ha)]
  simp only [openDecoder_eq]
  exact congrArg (fun r => Res.bind r _) h

/-- The decoding of the chunk raises (R1003 to R1005, R1008). -/
theorem exec_l2DecChunk_raises {x : Cause} {t : State} {took : Nat} (hx : x.OfStream) (h : decodeChunk a s.decoding = .stop (.of x) t)
    (hwork : s.decoding.LaneWork t) (hin : t.inp = s.input.drop took) (hk : took ≤ s.input.length) :
    exec .l2DecChunk s = .next (s.failedWith took x.code 0 (decoderLane s).l2d.chunkIndex.toNat) := by
  obtain ⟨body, hexec, hbody⟩ := exec_l2DecChunk_stops ha (congrArg (atChunk _) h)
  have hindex := (decoderLane s).l2d.chunkIndex.isLt
  rw [hexec, runCommand_raises (precheck_l2DecChunk ha he) hbody hx.1 hx.2 (State.decoding_laneWork.trans hwork) hin hk]
  simp only [Option.elim]
  rw [Nat.min_eq_left (by omega)]

/-- The decoding of the chunk finds IN empty (R231). -/
theorem exec_l2DecChunk_dry {t : State} (h : decodeChunk a s.decoding = .stop s.decoding.inDry t)
    (hwork : s.decoding.LaneWork t) (hin : t.inp = []) :
    (s.inEof = false → exec .l2DecChunk s = .next s.held) ∧
      (s.inEof = true →
        exec .l2DecChunk s = .next (s.failedWith s.input.length 0x0A02 0 (decoderLane s).l2d.chunkIndex.toNat)) := by
  obtain ⟨body, hexec, hbody⟩ := exec_l2DecChunk_stops (e := if s.inEof then .raise
      { cause := .truncated, wrapped := false, place := some { index := (decoderLane s).l2d.chunkIndex.toNat, offset := 0 } } else .hold)
      ha (t := t) (by
    rw [h, State.inDry, show s.decoding.inEof = s.inEof from rfl]
    cases s.inEof <;> rfl)
  have hindex := (decoderLane s).l2d.chunkIndex.isLt
  have hends := runCommand_dry (precheck_l2DecChunk ha he) hbody (State.decoding_laneWork.trans hwork) hin
  simp only [Option.elim] at hends
  rw [Nat.min_eq_left (by omega)] at hends
  rwa [hexec]

/-- The flags that the chunk is read with (R830). -/
abbrev State.chunkFlags (s : State) : SeqFlags := (decoderLane s).l2d.flags (decoderLane s).l2d.outTotal.toNat

omit ha he in
theorem decodeChunk_of_read {e : Stop} {t : State} (h : readChunk a.outCap.toNat s.chunkFlags s.decoding = .stop e t) :
    decodeChunk a s.decoding = .stop e t := by
  rw [decodeChunk]
  exact congrArg (fun r => Res.bind r _) h

/-- The reading of the chunk raises. -/
theorem exec_l2DecChunk_unread {x : Cause} {rest : List Byte} {took : Nat} (hx : x.OfStream)
    (h : readChunk a.outCap.toNat s.chunkFlags s.decoding = .stop (.of x) { s.decoding with inp := rest })
    (hrest : rest = s.input.drop took) (hk : took ≤ s.input.length) :
    exec .l2DecChunk s = .next (s.failedWith took x.code 0 (decoderLane s).l2d.chunkIndex.toNat) :=
  exec_l2DecChunk_raises ha he hx (decodeChunk_of_read h) ⟨rfl, hrest ▸ List.drop_suffix _ _⟩ hrest hk

/-- The reading of the chunk finds IN empty. -/
theorem exec_l2DecChunk_cut (h : readChunk a.outCap.toNat s.chunkFlags s.decoding = .stop s.decoding.inDry { s.decoding with inp := [] }) :
    (s.inEof = false → exec .l2DecChunk s = .next s.held) ∧
      (s.inEof = true →
        exec .l2DecChunk s = .next (s.failedWith s.input.length 0x0A02 0 (decoderLane s).l2d.chunkIndex.toNat)) :=
  exec_l2DecChunk_dry ha he (decodeChunk_of_read h) ⟨rfl, List.nil_suffix⟩ rfl

section
variable {h : LzmaHead} {data : List Byte} (hr : h.InRange) (hseq : h.InSequence (decoderLane s).l2d) (hp : h.PropsOk)
  (h5 : 5 ≤ h.count) (hcap : (decoderLane s).l2d.outTotal.toNat + h.size ≤ a.outCap.toNat) (hinput : s.input = h.bytes ++ data)
include hr hseq hp h5 hcap hinput

/-- A chunk whose data IN does not have. -/
theorem exec_l2DecChunk_dataCut (hlen : data.length < h.count) :
    (s.inEof = false → exec .l2DecChunk s = .next s.held) ∧
      (s.inEof = true → exec .l2DecChunk s =
        .next (s.failedWith (h.bytes.length + data.length) 0x0A02 0 (decoderLane s).l2d.chunkIndex.toNat)) := by
  rw [← List.length_append, ← hinput]
  refine exec_l2DecChunk_cut ha he ?_
  rw [readChunk_checks hr hseq (t := s.decoding) hinput, if_pos hp, if_neg (Nat.not_lt.mpr h5), if_neg (Nat.not_lt.mpr hcap),
    if_pos hlen]

/-- A chunk whose payload cannot be decoded: all of it was taken (R832, R1008). -/
theorem exec_l2DecChunk_payload {code : Nat} (hlen : h.count ≤ data.length)
    (hf : PayloadFails h.size
      { lane := { h.start a (decoderLane s) with pb := data.take h.count }, src := data.take h.count, out := [] } code) :
    exec .l2DecChunk s =
      .next (s.failedWith (h.bytes.length + h.count) code 0 (decoderLane s).l2d.chunkIndex.toNat) := by
  obtain ⟨x, c, hstop, hx, rfl⟩ := decodeData_fails hr hf
  have hread := readChunk_checks (total := (decoderLane s).l2d.outTotal.toNat) hr hseq (t := s.decoding) hinput
    (cap := a.outCap.toNat)
  rw [if_pos hp, if_neg (Nat.not_lt.mpr h5), if_neg (Nat.not_lt.mpr hcap), if_neg (Nat.not_lt.mpr hlen)] at hread
  have hrest : data.drop h.count = s.input.drop (h.bytes.length + h.count) := by
    rw [hinput, List.drop_append, List.drop_eq_nil_of_le (Nat.le_add_right _ _), Nat.add_sub_cancel_left]
    rfl
  refine exec_l2DecChunk_raises ha he hx (t := { s.decoding with inp := data.drop h.count }) ?_ ⟨rfl, ?_⟩ hrest ?_
  · rw [decodeChunk]
    refine (congrArg (fun r => Res.bind r _) hread).trans ?_
    rw [Res.bind_ok]
    simp only [show s.decoding.lane0 = decoderLane s from rfl, show s.decoding.stage = [] from rfl, hstop]
  · rw [hrest]
    exact List.drop_suffix _ _
  · rw [hinput, List.length_append]
    omega

end

end

/-- Settles O50: the reading of the chunk fails at the first of R830's checks, or its payload's decoding does. -/
theorem l2DecChunkErrors : Obligations.L2DecChunkErrors := by
  intro s a ha he l d fails dry
  have hcut {took : Nat} (hlen : s.input.length = took)
      (h : readChunk a.outCap.toNat s.chunkFlags s.decoding = .stop s.decoding.inDry { s.decoding with inp := [] }) : dry took := by
    have := exec_l2DecChunk_cut ha he h
    rwa [hlen] at this
  refine ⟨fun hinput => hcut (by rw [hinput]; rfl) (readChunk_empty hinput), fun ctl rest hinput => ⟨?_, ?_, ?_⟩,
    fun reset x rest hk => ⟨?_, ?_⟩, fun h data hr hseq => ⟨?_, ?_⟩⟩
  · intro hd h2 hlt
    exact exec_l2DecChunk_unread ha he ⟨by decide, by decide⟩ (readChunk_missingDictReset (t := s.decoding) hinput hd h2 hlt)
      (by rw [hinput]; rfl) (by rw [hinput]; exact Nat.succ_pos _)
  · intro hd h3 hlt
    exact exec_l2DecChunk_unread ha he ⟨by decide, by decide⟩ (readChunk_reservedControl (t := s.decoding) hinput hd h3 hlt)
      (by rw [hinput]; rfl) (by rw [hinput]; exact Nat.succ_pos _)
  · intro hd hp h80 hlt hrest
    exact exec_l2DecChunk_unread ha he ⟨by decide, by decide⟩ (readChunk_missingProps (t := s.decoding) hinput hd hp h80 hlt hrest)
      (by rw [hinput]; rfl) (by rw [hinput]; exact Nat.succ_le_succ hrest)
  · intro hinput hcap
    exact exec_l2DecChunk_unread ha he ⟨by decide, by decide⟩ (readChunk_raw_overCap (t := s.decoding) hk hinput hcap)
      (by rw [hinput]; rfl) (by rw [hinput]; exact Nat.le_add_left 3 _)
  · intro m hm hinput hcap
    exact hcut (by rw [hinput, List.length_take, Nat.min_eq_left (Nat.le_of_lt hm)])
      (readChunk_raw_dry (t := s.decoding) hk hm hinput hcap)
  · intro m hm hinput
    exact hcut (by rw [hinput, List.length_take, Nat.min_eq_left (Nat.le_of_lt hm)])
      (readChunk_header_dry (t := s.decoding) hr hseq hm hinput)
  · intro hinput n
    have hread := readChunk_checks (total := d.outTotal.toNat) hr hseq (t := s.decoding) hinput (cap := a.outCap.toNat)
    have hunread {x : Cause} (hx : x.OfStream)
        (h : readChunk a.outCap.toNat s.chunkFlags s.decoding = .stop (.of x) { s.decoding with inp := data }) : fails n x.code :=
      exec_l2DecChunk_unread ha he hx h (by rw [hinput, List.drop_left]) (by rw [hinput, List.length_append]; exact Nat.le_add_right _ _)
    refine ⟨fun hp => ?_, fun hp h5 => ?_, fun hp h5 hcap => ?_, fun hp h5 hcap => ⟨?_, ?_, ?_⟩⟩
    · rw [if_neg hp] at hread
      exact hunread ⟨by decide, by decide⟩ hread
    · rw [if_pos hp, if_pos h5] at hread
      exact hunread ⟨by decide, by decide⟩ hread
    · rw [if_pos hp, if_neg (Nat.not_lt.mpr h5), if_pos hcap] at hread
      exact hunread ⟨by decide, by decide⟩ hread
    · exact exec_l2DecChunk_dataCut ha he hr hseq hp h5 hcap hinput
    · intro hlen hne
      refine exec_l2DecChunk_payload ha he hr hseq hp h5 hcap hinput hlen (payloadFails_badFirstByte hr.2.1 ?_ ?_)
      · rw [List.length_take]
        omega
      · rwa [List.head?_take, if_neg (by omega)]
    · intro hlen hcells hcur sent x ys m hcod
      have hsent : sent.length = h.count := List.length_take_of_le hlen
      have hstart : m.StartsAt { h.start a l with pb := sent } := LzmaHead.encoder_startsAt ⟨hcells, hcur⟩
      have hfails {code : Nat} (hf : PayloadFails h.size { lane := { h.start a l with pb := sent }, src := sent, out := [] } code) :
          fails (n + h.count) code := exec_l2DecChunk_payload ha he hr hseq hp h5 hcap hinput hlen hf
      refine ⟨?_, fun htotal hreach hends => hfails (payloadFails_unclean hstart hr.2.1 hcod htotal hreach hends)⟩
      intro y payload hy htotal err e hreach hmore
      obtain ⟨more, hmore⟩ := hmore
      obtain ⟨h1, h2⟩ := payloadFails_symbol (out := []) hstart hr.2.1 hcod hy htotal hreach hmore
      exact ⟨fun hshort => hfails (h1 (hsent ▸ hshort)), fun code hcode hlong => hfails (h2 code hcode (hsent.symm ▸ hlong))⟩

end Sys2Proof.Machine
end

section
/-! PROOFS. Every command's rule answers: its reading of IN takes bytes and comes to an end, a decoding computation settles or runs dry, and
the loops over a stream's chunks have a turn for every byte (R230 to R232, R330, R331, R830, R851, R921, R1126). -/

namespace Sys2Proof.Machine

/-! ## Computations that come to an end -/

/-- The computation does not stop for want of progress. -/
def Res.Goes {σ α : Type} (r : Res σ α) : Prop := r.Ends (fun _ _ => True) fun e _ => e ≠ .noProgress

section
variable {σ α β : Type}

theorem Res.Goes.ok {a : α} {s : σ} : (Res.ok a s).Goes := trivial

theorem Res.Goes.raise {c : Cause} {s : σ} : (.stop (.of c) s : Res σ α).Goes := nofun

theorem Res.Goes.bind {r : Res σ α} {k : α → σ → Res σ β} (h : r.Goes) (hk : ∀ a s, (k a s).Goes) : (r.bind k).Goes :=
  Res.Ends.bind h fun a s _ => hk a s

theorem Res.Goes.require {b : Bool} {c : Cause} {s : σ} {k : Res σ α} (h : k.Goes) : (require b c s k).Goes := by
  cases b
  · exact .raise
  · exact h

theorem Res.Goes.ite {p : Prop} [Decidable p] {r r' : Res σ α} (h : r.Goes) (h' : r'.Goes) : (if p then r else r').Goes := by
  split
  · exact h
  · exact h'

end

theorem Res.Goes.answer {v : Nat} {t : State} : (answer v t).Goes := .ok

theorem Res.Goes.withAct {t : State} {k : Act → Res State (BitVec 64)} (h : ∀ a, (k a).Goes) : (withAct t k).Goes := by
  rw [Machine.withAct]
  split
  · exact h _
  · exact .raise

/-- A decoding computation that is steady settles or runs dry. -/
theorem SteadyAt.goes {α : Type} {f : DecCtx → Res DecCtx α} {c : DecCtx} (h : SteadyAt f c) : (f c).Goes := by
  rcases h with ⟨h, -⟩ | ⟨c', h, -⟩
  · exact Res.Ends.mono h (fun _ _ _ => trivial) fun _ _ ⟨_, he⟩ => he ▸ nofun
  · rw [h]
    exact nofun

theorem onIn_goes {α : Type} {f : DecCtx → Res DecCtx α} {t : State} (h : SteadyAt f t.decCtx) : (onIn f t).Goes := by
  have hgoes := h.goes
  rw [onIn]
  rw [State.decCtx] at hgoes
  generalize f { lane := t.lane0, src := t.inp, out := t.stage } = r at *
  rcases r with ⟨a, c⟩ | ⟨_ | _ | _ | _, c⟩
  · exact .ok
  · simp only [State.inDry]
    split <;> exact nofun
  · exact nofun
  · exact hgoes
  · exact nofun

/-! ## Reading IN (R231, R830) -/

/-- The computation from `t` comes to an end, and takes at least `n` bytes of IN where it completes. -/
def TakesBytes {α : Type} (n : Nat) (t : State) (r : Res State α) : Prop :=
  r.Ends (fun _ u => u.inp.length + n ≤ t.inp.length) fun e _ => e ≠ .noProgress

section
variable {α β : Type} {n : Nat} {t : State} {r : Res State α}

theorem TakesBytes.goes (h : TakesBytes n t r) : r.Goes := Res.Ends.mono h (fun _ _ _ => trivial) fun _ _ => id

theorem TakesBytes.weaken (h : TakesBytes n t r) : TakesBytes 0 t r := Res.Ends.mono h (fun _ _ => by omega) fun _ _ => id

theorem TakesBytes.pure {a : α} : TakesBytes 0 t (.ok a t) := Nat.le_refl _

theorem TakesBytes.raise {c : Cause} : TakesBytes n t (.stop (.of c) t : Res State α) := nofun

theorem TakesBytes.bind {k : α → State → Res State β} (h : TakesBytes n t r) (hk : ∀ a u, TakesBytes 0 u (k a u)) :
    TakesBytes n t (r.bind k) :=
  Res.Ends.bind h fun a u hu => (hk a u).mono (fun _ _ h' => by omega) fun _ _ => id

theorem inDry_ne {t : State} : t.inDry ≠ .noProgress := by
  rw [State.inDry]
  split <;> exact nofun

theorem inByte_takes : TakesBytes 1 t (inByte t) := by
  rw [inByte]
  split
  · rename_i b rest h
    show rest.length + 1 ≤ t.inp.length
    rw [h]
    exact Nat.le_refl _
  · exact inDry_ne

theorem inBytes_takes : TakesBytes 0 t (inBytes n t) := by
  rw [inBytes]
  split
  · show (t.inp.drop n).length ≤ t.inp.length
    rw [List.length_drop]
    omega
  · exact inDry_ne

theorem inUpTo_goes : (inUpTo n t).Goes := by
  rw [inUpTo]
  exact .ite .ok (.ite .ok nofun)

theorem inAll_goes : (inAll t).Goes := by
  rw [inAll]
  exact .ite .ok nofun

end

section
variable {cap : Nat} {f : SeqFlags} {ctl : Byte} {t : State}

theorem readData_takes {size count : Nat} {props : Option Byte} : TakesBytes 0 t (readData cap f ctl size count props t) := by
  rw [readData]
  split
  · exact .raise
  · exact inBytes_takes.bind fun _ _ => .pure

theorem readRaw_takes : TakesBytes 0 t (readRaw cap f ctl t) := by
  rw [readRaw]
  split
  · exact .raise
  · exact inByte_takes.weaken.bind fun _ _ => inByte_takes.weaken.bind fun _ _ => readData_takes

theorem readLzma_takes : TakesBytes 0 t (readLzma cap f ctl t) := by
  refine inByte_takes.weaken.bind fun u1 t => inByte_takes.weaken.bind fun u0 t => inByte_takes.weaken.bind fun c1 t =>
    inByte_takes.weaken.bind fun c0 t => ?_
  have hdata (f : SeqFlags) (props : Option Byte) (t : State) :
      TakesBytes 0 t (if c1.toNat * 2 ^ 8 + c0.toNat + 1 < 5 then .stop (.of .shortPayload) t
        else readData cap f ctl (ctl.toNat % 2 ^ 5 * 2 ^ 16 + u1.toNat * 2 ^ 8 + u0.toNat + 1) (c1.toNat * 2 ^ 8 + c0.toNat + 1)
          props t) := by
    split
    · exact .raise
    · exact readData_takes
  split
  · refine inByte_takes.weaken.bind fun pr t => ?_
    split
    · exact hdata _ _ _
    · exact .raise
  · split
    · exact .raise
    · exact hdata _ _ _

/-- A chunk, or the end marker, is a byte or more (R350). -/
theorem readChunk_takes : TakesBytes 1 t (readChunk cap f t) := by
  refine inByte_takes.bind fun ctl t => ?_
  split
  · exact .pure
  · simp only
    generalize (if resetsDict ctl then { f with needProps := true, needDictReset := false } else f) = f1
    split
    · exact .raise
    · refine TakesBytes.bind ?_ fun _ _ => .pure
      split
      · exact readLzma_takes
      · exact readRaw_takes

end

/-! ## The chunks of a stream (R830, R851, R921) -/

theorem decodePayload_goes {size : Nat} {c : DecCtx} : (decodePayload size c).Goes :=
  decInit_steady.goes.bind fun _ c => .ite .raise ((decExactly_reader.steady c).goes.bind fun _ _ => .ite .ok .raise)

theorem decodeData_goes {k : Chunk} {l : Lane} {out : List Byte} : (decodeData k l out).Goes := by
  rw [decodeData]
  split
  · have hpay := decodePayload_goes (size := k.size) (c := { lane := { l with pb := k.data }, src := k.data, out := out })
    refine Res.Goes.bind ?_ fun _ _ => .ok
    simp only
    generalize decodePayload k.size { lane := { l with pb := k.data }, src := k.data, out := out } = r at *
    rcases r with ⟨a, c⟩ | ⟨_ | _ | _ | _, c⟩
    · exact .ok
    · exact .raise
    · exact nofun
    · exact hpay
    · exact nofun
  · exact .ok

theorem decodeChunk_takes {a : Act} {t : State} : TakesBytes 1 t (decodeChunk a t) := by
  refine Res.Ends.bind readChunk_takes fun r u hu => ?_
  split
  · exact hu
  · rename_i k f
    have hdata := decodeData_goes (k := k) (l := applyResets a k u.lane0) (out := u.stage)
    split
    · rename_i he
      exact hdata.of_stop he
    · exact hu

theorem atChunk_takes {α : Type} {n : Nat} {t : State} {p : ChunkPlace} {r : Res State α} (h : TakesBytes n t r) :
    TakesBytes n t (atChunk p r) := by
  rcases r with ⟨a, u⟩ | ⟨_ | _ | _ | _, u⟩
  · exact h
  · exact h
  · exact h
  · exact h
  · exact nofun

/-- The loop of single-lane L2.DECODE, with a turn more than IN has bytes (R851). -/
theorem decodeStream_goes {a : Act} {read fuel : Nat} {t : State} (h : t.inp.length < fuel) : (decodeStream a read fuel t).Goes := by
  induction fuel generalizing t with
  | zero => exact absurd h (Nat.not_lt_zero _)
  | succ fuel ih =>
    refine Res.Ends.bind (atChunk_takes decodeChunk_takes) fun r u hu => ?_
    split
    · exact trivial
    · exact ih (by omega)

/-- The coordinator's reading of a stream, with a turn more than IN has bytes (R921). -/
theorem parseStream_goes {cap read fuel : Nat} {f : SeqFlags} {inForce : Option Byte} {done : List ChunkRecord} {t : State}
    (h : t.inp.length < fuel) : (parseStream cap read fuel f inForce done t).Goes := by
  induction fuel generalizing f inForce done t with
  | zero => exact absurd h (Nat.not_lt_zero _)
  | succ fuel ih =>
    have hread := readChunk_takes (cap := cap) (f := f) (t := t)
    rw [parseStream]
    generalize readChunk cap f t = r at *
    rcases r with ⟨_ | ⟨k, f'⟩, u⟩ | ⟨_ | _ | _ | e, u⟩
    · exact trivial
    · have hless : u.inp.length + 1 ≤ t.inp.length := hread
      exact ih (by omega)
    · exact nofun
    · exact nofun
    · exact hread
    · exact trivial

theorem parallelDecode_goes {a : Act} {held : Nat} {t : State} : (parallelDecode a held t).Goes := by
  refine (parseStream_goes (Nat.lt_succ_self _)).bind fun r u => ?_
  simp only
  split
  · exact trivial
  · exact nofun

theorem l2DecodeBody_goes {held : Nat} {t : State} : (l2DecodeBody held t).Goes :=
  .withAct fun _ => (Res.Goes.ite (decodeStream_goes (Nat.lt_succ_self _)) parallelDecode_goes).bind fun _ _ => .answer

/-! ## The commands -/

theorem encodeOne_goes {pre : Bool} {f : Lane → Lane} {t : State} : (encodeOne pre f t).Goes := .require (.require .ok)

theorem decoderReady_goes {t : State} {r : Res State (BitVec 64)} (h : r.Goes) : (decoderReady t r).Goes := .require (.require h)

theorem requireLclp_goes {a : Act} {t : State} {r : Res State (BitVec 64)} (h : r.Goes) : (requireLclp a t r).Goes := .require h

theorem configureBody_goes {t : State} : (configureBody t).Goes := by
  rw [configureBody]
  split
  · exact .raise
  · exact .ok

/-- The outcome is a next state. -/
def Answers (o : Host.Outcome State Fault Refusal) : Prop := ∃ t, o = .next t

/-- A command whose rule comes to an end completes, ends with an error, or holds (R330, R331). -/
theorem runCommand_answers {i : Instr} {body : Body} {s : State} (h : (body s.begin).Goes) : Answers (runCommand i body s) := by
  have hfinish {r : Res State (BitVec 64)} (h : r.Goes) : Answers (finish i s r) := by
    rcases r with ⟨v, u⟩ | ⟨_ | _ | _ | _, u⟩
    · exact ⟨_, rfl⟩
    · exact ⟨_, rfl⟩
    · exact ⟨_, rfl⟩
    · exact absurd rfl h
    · exact ⟨_, rfl⟩
  rw [runCommand]
  split
  · exact hfinish .raise
  · exact hfinish h

/-- Every command answers where the decoder of lane 0 is sound (R330, R1126). -/
theorem exec_answers {i : Instr} {s : State} (h : s.lane0.DecOk) : Answers (exec i s) := by
  cases i with
  | sysNop => exact show Answers (execSysNop s) from runCommand_answers .answer
  | sysSoftReset => exact show Answers (execSysSoftReset s) from runCommand_answers .ok
  | sysClearErr => exact show Answers (execSysClearErr s) from runCommand_answers .ok
  | sysConfigure => exact show Answers (execSysConfigure s) from runCommand_answers configureBody_goes
  | rceReset => exact show Answers (execRceReset s) from runCommand_answers .ok
  | rceBit pi b => exact show Answers (execRceBit pi b s) from runCommand_answers (.require .ok)
  | rceDirect v n => exact show Answers (execRceDirect v n s) from runCommand_answers (.require .ok)
  | rceFlush => exact show Answers (execRceFlush s) from runCommand_answers (.require .ok)
  | rcePending => exact show Answers (execRcePending s) from runCommand_answers (.require .answer)
  | rcdInit => exact show Answers (execRcdInit s) from runCommand_answers ((onIn_goes decInit_steady).bind fun _ _ => .ok)
  | rcdBit pi => exact show Answers (execRcdBit pi s) from
      runCommand_answers (.require ((onIn_goes (decBit_reader.steady _)).bind fun _ _ => .answer))
  | rcdDirect n => exact show Answers (execRcdDirect n s) from
      runCommand_answers (.require ((onIn_goes (decDirectFrom_reader.steady _)).bind fun _ _ => .answer))
  | rcdIsFinished => exact show Answers (execRcdIsFinished s) from runCommand_answers (.require .answer)
  | probReset => exact show Answers (execProbReset s) from runCommand_answers .ok
  | probRead pi => exact show Answers (execProbRead pi s) from runCommand_answers .answer
  | probWrite pi v => exact show Answers (execProbWrite pi v s) from runCommand_answers .ok
  | lzSetProps x => exact show Answers (execLzSetProps x s) from runCommand_answers .ok
  | lzResetState => exact show Answers (execLzResetState s) from runCommand_answers .ok
  | lzReadState => exact show Answers (execLzReadState s) from runCommand_answers .answer
  | lzReadRep i => exact show Answers (execLzReadRep i s) from runCommand_answers .answer
  | lzeLit => exact show Answers (execLzeLit s) from runCommand_answers encodeOne_goes
  | lzeMatch d l => exact show Answers (execLzeMatch d l s) from runCommand_answers encodeOne_goes
  | lzeRep r l => exact show Answers (execLzeRep r l s) from runCommand_answers encodeOne_goes
  | lzeShortrep => exact show Answers (execLzeShortrep s) from runCommand_answers encodeOne_goes
  | lzeEos => exact show Answers (execLzeEos s) from runCommand_answers encodeOne_goes
  | lzdSymbol n =>
    exact show Answers (execLzdSymbol n s) from
      runCommand_answers (decoderReady_goes ((onIn_goes (decSymbol_reader.steady _)).bind fun _ _ => .answer))
  | lzdRun n =>
    have hmarker : (onIn (decUntilMarker fun _ => symbolLimits 0) s.begin).Goes := onIn_goes (decUntilMarker_steady h)
    exact show Answers (execLzdRun n s) from runCommand_answers (decoderReady_goes
      (.ite (hmarker.bind fun _ _ => .answer) ((onIn_goes (decExactly_reader.steady _)).bind fun _ _ => .answer)))
  | winReset => exact show Answers (execWinReset s) from runCommand_answers (.withAct fun _ => .ok)
  | winFeed n => exact show Answers (execWinFeed n s) from runCommand_answers (inUpTo_goes.bind fun _ _ => .answer)
  | winPut x => exact show Answers (execWinPut x s) from runCommand_answers (.require .ok)
  | winGet d => exact show Answers (execWinGet d s) from runCommand_answers (.ite (.require .answer) (.require .answer))
  | mfReset => exact show Answers (execMfReset s) from runCommand_answers .ok
  | mfFind => exact show Answers (execMfFind s) from runCommand_answers (.withAct fun _ => .require .answer)
  | mfCand i =>
    refine show Answers (execMfCand i s) from runCommand_answers ?_
    split
    · exact .answer
    · exact .raise
  | mfSkip n => exact show Answers (execMfSkip n s) from runCommand_answers (.withAct fun _ => .require .ok)
  | l2Encode => exact show Answers (execL2Encode s) from
      runCommand_answers (.withAct fun _ => requireLclp_goes (inAll_goes.bind fun _ _ => .answer))
  | l2Decode => exact show Answers (execL2Decode s) from runCommand_answers l2DecodeBody_goes
  | l2EncSegment n => exact show Answers (execL2EncSegment n s) from
      runCommand_answers (.withAct fun _ => requireLclp_goes (inUpTo_goes.bind fun _ _ => .answer))
  | l2EncEnd => exact show Answers (execL2EncEnd s) from runCommand_answers .answer
  | l2DecChunk =>
    refine show Answers (execL2DecChunk s) from
      runCommand_answers (.withAct fun _ => (atChunk_takes decodeChunk_takes).goes.bind fun r t => ?_)
    split <;> exact .answer
  | lzmaEncode => exact show Answers (execLzmaEncode s) from runCommand_answers (.withAct fun _ => inAll_goes.bind fun _ _ => .answer)
  | lzmaDecode n =>
    refine show Answers (execLzmaDecode n s) from
      runCommand_answers (.withAct fun _ => (onIn_goes (decodeRaw_steady ?_)).bind fun _ _ => .answer)
    show CellsOk (laneInit s.act).prob
    cases s.act <;> exact cellsOk_nil

/-! ## The steps -/

theorem runWord_answers {c : Word} {s : State} (h : s.lane0.DecOk) : Answers (runWord c s) := by
  rw [runWord]
  split
  · split
    · exact ⟨_, rfl⟩
    · exact exec_answers h
  · split <;> exact ⟨_, rfl⟩

theorem blockStep_answers {s : State} (h : s.lane0.DecOk) : Answers (blockStep s) := by
  rw [blockStep]
  split
  · exact ⟨_, rfl⟩
  · exact runWord_answers h

/-- A register access is refused where it is not an aligned 32-bit one, and no other host action is (R246, R270). -/
theorem hostAct_answers {act : HostAction} {s : State} :
    Answers (hostAct act s) ∨ hostAct act s = .refused .csrAccess ∧
      ∃ w o, (w ≠ 32 ∨ o.toNat % 4 ≠ 0) ∧ (act = .csrRead w o ∨ ∃ v, act = .csrWrite w o v) := by
  have hmis {w : Nat} {o : BitVec 7} (h : ¬ alignedAccess w o = true) : w ≠ 32 ∨ o.toNat % 4 ≠ 0 := by
    by_contra hc
    simp only [not_or, not_not] at hc
    exact h (Bool.and_eq_true_iff.mpr ⟨beq_iff_eq.mpr hc.1, beq_iff_eq.mpr hc.2⟩)
  cases act with
  | csrRead w o =>
    rw [hostAct]
    split
    · exact .inl ⟨_, rfl⟩
    · rename_i h
      exact .inr ⟨rfl, w, o, hmis h, .inl rfl⟩
  | csrWrite w o v =>
    rw [hostAct]
    split
    · exact .inl ⟨_, rfl⟩
    · rename_i h
      exact .inr ⟨rfl, w, o, hmis h, .inr ⟨v, rfl⟩⟩
  | push b => exact .inl ⟨_, rfl⟩
  | pop => exact .inl ⟨_, rfl⟩

/-- A step answers, or is a misaligned register access. -/
theorem step_answers {s : State} (h : s.lane0.DecOk) :
    Answers (step s) ∨ step s = .refused .csrAccess ∧ ∃ w o turns, (w ≠ 32 ∨ o.toNat % 4 ≠ 0) ∧
      (s.agenda = .host (.csrRead w o) :: turns ∨ ∃ v, s.agenda = .host (.csrWrite w o v) :: turns) := by
  rw [step, moveNext]
  split
  · exact .inl (blockStep_answers h)
  · exact .inl (blockStep_answers h)
  · rename_i act turns hagenda
    refine hostAct_answers.imp_right fun ⟨hrefused, w, o, hmis, hact⟩ => ⟨hrefused, w, o, turns, hmis, ?_⟩
    rcases hact with rfl | ⟨v, rfl⟩
    · exact .inl hagenda
    · exact .inr ⟨v, hagenda⟩
  · exact .inl ⟨_, rfl⟩

/-- Settles O58: each rule comes to an end, the loops by R1126's bound on the bytes and the range. -/
theorem stepAlwaysAnswers : Obligations.StepAlwaysAnswers := by
  intro s hinv
  obtain ⟨-, hrcd, hcells, -⟩ := hinv.1
  rcases step_answers (s := s) ⟨hrcd, hcells⟩ with ⟨t, ht⟩ | ⟨hrefused, hwhere⟩
  · rw [ht]
    exact ⟨nofun, nofun⟩
  · rw [hrefused]
    refine ⟨nofun, fun r hr => ?_⟩
    cases hr
    exact ⟨rfl, hwhere⟩

end Sys2Proof.Machine
end

section
/-! PROOFS. A held command: the bytes it took and those that follow are its input when it runs again (R231, R252). -/

namespace Sys2Proof.Machine

/-! ## What a command sees of the state -/

/-- Every command but L2.DECODE has one rule for all states (R330). -/
theorem exec_body {i : Instr} (hi : i ≠ .l2Decode) : ∃ body, ∀ s, exec i s = runCommand i body s := by
  cases i with
  | l2Decode => exact absurd rfl hi
  | _ =>
    simp only [exec, execSysNop, execSysSoftReset, execSysClearErr, execSysConfigure, execRceReset, execRceBit, execRceDirect,
      execRceFlush, execRcePending, execRcdInit, execRcdBit, execRcdDirect, execRcdIsFinished, execProbReset, execProbRead,
      execProbWrite, execLzSetProps, execLzResetState, execLzReadState, execLzReadRep, execLzeLit, execLzeMatch, execLzeRep,
      execLzeShortrep, execLzeEos, execLzdSymbol, execLzdRun, execWinReset, execWinFeed, execWinPut, execWinGet, execMfReset,
      execMfFind, execMfCand, execMfSkip, execL2Encode, execL2EncSegment, execL2EncEnd, execL2DecChunk, execLzmaEncode,
      execLzmaDecode]
    exact ⟨_, fun _ => rfl⟩

/-- A command's outcome depends on the state it starts in and on what a hold leaves. -/
theorem runCommand_congr {i : Instr} {body : Body} {s u : State} (hbegin : s.begin = u.begin) (hheld : s.held = u.held) :
    runCommand i body s = runCommand i body u := by
  have hinput : s.input = u.input := congrArg State.inp hbegin
  have hpre : precheck i s = precheck i u := by rw [← precheck_begin, hbegin, precheck_begin]
  have hfinish {r : Res State (BitVec 64)} : finish i s r = finish i u r := by
    rcases r with ⟨v, t⟩ | ⟨_ | _ | _ | _, t⟩
    · simp only [finish, hinput]
    · exact congrArg Host.Outcome.next hheld
    · exact congrArg Host.Outcome.next hheld
    · rfl
    · simp only [finish, hinput]
  simp only [runCommand, hpre, hbegin, hfinish]

/-- A held state that gets bytes, and the state before the hold that gets them: the same input (R231). -/
theorem held_append_begin {s : State} {bs : List Byte} :
    State.begin { s.held with inp := bs } = State.begin { s with inp := s.inp ++ bs } := by
  simp only [State.begin, State.held, State.input, Option.getD_some, List.append_assoc]

theorem held_append_held {s : State} {bs : List Byte} :
    State.held { s.held with inp := bs } = State.held { s with inp := s.inp ++ bs } := by
  simp only [State.held, State.input, Option.getD_some, List.append_assoc]

theorem held_begin {s : State} : s.held.begin = s.begin := by
  simp only [State.begin, State.held, State.input, Option.getD_some, List.append_nil]

theorem held_held {s : State} : s.held.held = s.held := by
  simp only [State.held, State.input, Option.getD_some, List.append_nil]

/-! ## L2.DECODE (R851, R932) -/

theorem l2DecodeBody_ends {n : Nat} {t : State} : RuleEnds .l2Decode t (l2DecodeBody n t) :=
  .withAct fun _ _ => Res.Ends.bind (decodeUnits_ends.mono (fun _ _ h => h) fun _ _ h => .of_atIn trivial h.1 h.2)
    fun _ _ h => h.1.initialised (.inr rfl) h.2

/-- Where `ParallelDecode` holds, it has not looked at the bytes it held before (R932, R933). -/
theorem parallelDecode_hold {a : Act} {n m : Nat} {t u : State} (h : parallelDecode a n t = .stop .hold u) :
    parallelDecode a m t = .stop .hold u := by
  rw [parallelDecode] at h ⊢
  cases hparse : parseStream a.outCap.toNat t.inp.length (t.inp.length + 1) { needDictReset := true, needProps := true, total := 0 } none
      [] t with
  | stop e v =>
    rw [hparse] at h
    exact h
  | ok r v =>
    rw [hparse, Res.bind_ok] at h
    simp only at h
    split at h
    · exact nomatch h
    · exact nomatch h

theorem l2DecodeBody_hold {n m : Nat} {t u : State} (h : l2DecodeBody n t = .stop .hold u) : l2DecodeBody m t = .stop .hold u := by
  rw [l2DecodeBody, withAct] at h ⊢
  cases hact : t.act with
  | none =>
    rw [hact] at h
    exact nomatch h
  | some a =>
    rw [hact] at h
    simp only at h ⊢
    by_cases hone : a.threadCount = 1#32
    · rw [if_pos hone] at h ⊢
      exact h
    · rw [if_neg hone] at h ⊢
      cases hpar : parallelDecode a n t with
      | ok _ v =>
        rw [hpar] at h
        exact nomatch h
      | stop e v =>
        rw [hpar] at h
        obtain ⟨rfl, rfl⟩ : e = .hold ∧ v = u := by simpa using h
        rw [parallelDecode_hold hpar]
        rfl

/-- L2.DECODE holds again (R231, R933). -/
theorem exec_l2Decode_held {s : State} (h : exec .l2Decode s = .next s.held) : exec .l2Decode s.held = .next s.held := by
  rw [show exec .l2Decode s = execL2Decode s from rfl, execL2Decode] at h
  have hholding {t : State} (ht : s.held = t) : t.holding ≠ none := ht ▸ nofun
  rw [show exec .l2Decode s.held = execL2Decode s.held from rfl, execL2Decode,
    runCommand_congr (u := s) (held_begin) held_held]
  rcases runCommand_cases h with ⟨c, -, ht⟩ | ⟨hp, hf⟩
  · exact absurd takeError_holding (hholding ht)
  have hends := l2DecodeBody_ends (n := (s.holding.getD []).length) (t := s.begin)
  rcases finish_cases hf with ⟨v, u, hb, ht⟩ | ⟨e, u, hb, ht⟩ | ⟨-, u, hb⟩
  · have hwork := (hends.of_ok hb).work
    exact absurd (by rw [hwork.eq]; rfl) (hholding ht)
  · have hnone : u.holding = none := by
      rcases hends.of_stop hb with ⟨-, rfl⟩ | ⟨-, hwork, -⟩
      · rfl
      · rw [hwork.eq]
        rfl
    exact absurd (takeError_holding.trans hnone) (hholding ht)
  · rcases hb with hb | hb
    · exact runCommand_held hp (l2DecodeBody_hold hb)
    · exact (hends.of_stop hb).elim

/-- Settles O12: a hold leaves the command's input and its rule's start as they were. -/
theorem heldCommandWaitsAndResumes : Obligations.HeldCommandWaitsAndResumes := by
  refine ⟨fun i s h => ?_, fun i s bs hi => ?_⟩
  · by_cases hi : i = .l2Decode
    · subst hi
      exact exec_l2Decode_held h
    · obtain ⟨body, hbody⟩ := exec_body hi
      rw [hbody] at h
      rw [hbody, runCommand_congr (u := s) held_begin held_held, h]
  · obtain ⟨body, hbody⟩ := exec_body hi
    rw [hbody, hbody]
    exact runCommand_congr held_append_begin held_append_held

end Sys2Proof.Machine
end

section
/-! PROOFS. The range decoder's commands on IN: RCD.INIT, RCD.BIT, RCD.DIRECT and RCD.IS_FINISHED (R402, R403, R421 to R425, R231). -/

namespace Sys2Proof.Machine

/-- A command that runs a decoding computation on lane 0 which stages nothing, where the computation completes. -/
theorem runCommand_onIn_completes {α : Type} {i : Instr} {body : Body} {k : α → Body} {f : DecCtx → Res DecCtx α} {s : State} {a : α}
    {l : Lane} {took v : Nat} (hp : precheck i s = none) (hb : body s.begin = (onIn f s.begin).bind k)
    (hf : f s.begin.decCtx = .ok a { s.begin.decCtx with lane := l, src := s.input.drop took })
    (hk : ∀ u, k a u = .ok (BitVec.ofNat 64 v) u) (htook : took ≤ s.input.length) :
    runCommand i body s = .next (s.completed took [] v l) := by
  refine runCommand_completed hp htook ?_
  rw [hb, onIn_ok hf, Res.bind_ok, hk]
  rfl

/-! ## Normalising (R424) -/

/-- Normalising after a step to range `r` and code `code`: as many bytes as the range needs, or the source runs dry. -/
theorem decNorm_reading {c : DecCtx} {p : Memory (BitVec 11)} {r code k : Nat} (hr : 1 ≤ r) (hr32 : r < 2 ^ 32) (hcode : code < 2 ^ 32)
    (hk : Normalises r k) :
    (k ≤ c.src.length → ∃ d, c.lane.rcd.Takes d r code k c.src ∧
      decNorm (c.reading p (BitVec.ofNat 32 r) (BitVec.ofNat 32 code) c.src) =
        .ok () { c with lane := { c.lane with prob := p, rcd := d }, src := c.src.drop k }) ∧
    (c.src.length < k → (decNorm (c.reading p (BitVec.ofNat 32 r) (BitVec.ofNat 32 code) c.src)).Dry) := by
  have hrn : (BitVec.ofNat 32 r).toNat = r := by rw [BitVec.toNat_ofNat, Nat.mod_eq_of_lt hr32]
  have hcn : (BitVec.ofNat 32 code).toNat = code := by rw [BitVec.toNat_ofNat, Nat.mod_eq_of_lt hcode]
  refine ⟨fun hlen => ?_, fun hlen => ?_⟩
  · obtain ⟨d, hd, htakes⟩ := decNormOn_some
      (d := { c.lane.rcd with range := BitVec.ofNat 32 r, code := BitVec.ofNat 32 code }) (hrn.symm ▸ hr) (hrn.symm ▸ hk) hlen
    rw [hrn, hcn] at htakes
    exact ⟨d, htakes, by simp only [decNorm, DecCtx.reading, hd]⟩
  · have hd := decNormOn_none
      (d := { c.lane.rcd with range := BitVec.ofNat 32 r, code := BitVec.ofNat 32 code }) (hrn.symm ▸ hr) (hrn.symm ▸ hk) hlen
    exact ⟨{ c.reading p (BitVec.ofNat 32 r) (BitVec.ofNat 32 code) c.src with src := [] },
      by simp only [decNorm, DecCtx.reading, hd], rfl⟩

/-! ## RCD.INIT (R421) -/

/-- Settles O26: `DecInit` on five bytes or more, and on fewer. -/
theorem rcdInitTakesFiveBytes : Obligations.RcdInitTakesFiveBytes := by
  intro s hs
  rw [show exec .rcdInit s = execRcdInit s from rfl, execRcdInit]
  have hpre : precheck .rcdInit s = none := precheck_unitsFree hs rfl
  have hdry (hlen : s.input.length < 5) := runCommand_onIn_dry (body := fun t => (onIn decInit t).bind fun _ t => .ok 0#64 t) hpre rfl
    .refl (decInit_dry (c := s.begin.decCtx) hlen)
  exact ⟨fun hlen => runCommand_onIn_completes hpre rfl (decInit_ok (c := s.begin.decCtx) hlen) (fun _ => rfl) hlen,
    fun hlen => (hdry hlen).1, fun hlen => (hdry hlen).2⟩

/-! ## RCD.BIT (R422) -/

section
variable {c : DecCtx} {i k : Nat}

/-- The interval step of a bit, on the registers' values (R422). -/
theorem decSplit_eq {bnd : Nat} {d : RangeDec} :
    decSplit bnd d = { d with
      range := BitVec.ofNat 32 (if decChoice bnd d then d.range.toNat - bnd else bnd)
      code := BitVec.ofNat 32 (if decChoice bnd d then d.code.toNat - bnd else d.code.toNat) } := by
  rw [decSplit]
  cases decChoice bnd d <;> simp

/-- A bit's step before it normalises, and how many bytes normalising takes (R422, R424). -/
theorem decBit_takes (hok : c.lane.rcd.Ok) (hp : 1 ≤ (c.lane.cell i).toNat) :
    let bnd := splitPoint c.lane.rcd.range (c.lane.cell i)
    let b := decChoice bnd c.lane.rcd
    let r := if b then c.lane.rcd.range.toNat - bnd else bnd
    let code := if b then c.lane.rcd.code.toNat - bnd else c.lane.rcd.code.toNat
    Normalises r k →
    (k ≤ c.src.length → ∃ d, c.lane.rcd.Takes d r code k c.src ∧
      decBit i c = .ok b { c with
        lane := { c.lane with rcd := d, prob := Memory.write probMid c.lane.prob i (probUpdate b (c.lane.cell i)) }
        src := c.src.drop k }) ∧
    (c.src.length < k → (decBit i c).Dry) := by
  intro bnd b r code hk
  obtain ⟨hb, hlt⟩ := splitPoint_bounds hok hp
  have hrange := c.lane.rcd.range.isLt
  have hcode := c.lane.rcd.code.isLt
  have hr : 1 ≤ r ∧ r < 2 ^ 32 := by
    show 1 ≤ (if b then c.lane.rcd.range.toNat - bnd else bnd) ∧ (if b then c.lane.rcd.range.toNat - bnd else bnd) < 2 ^ 32
    split <;> omega
  have hc : code < 2 ^ 32 := by
    show (if b then c.lane.rcd.code.toNat - bnd else c.lane.rcd.code.toNat) < 2 ^ 32
    split <;> omega
  have hbit : decBit i c = (decNorm (c.reading (Memory.write probMid c.lane.prob i (probUpdate b (c.lane.cell i))) (BitVec.ofNat 32 r)
      (BitVec.ofNat 32 code) c.src)).bind fun _ c => .ok b c := by
    rw [decBit, decSplit_eq]
    rfl
  rw [hbit]
  obtain ⟨htakes, hdry⟩ := decNorm_reading (c := c) (p := Memory.write probMid c.lane.prob i (probUpdate b (c.lane.cell i))) hr.1 hr.2 hc hk
  refine ⟨fun hlen => ?_, fun hlen => (hdry hlen).bind⟩
  obtain ⟨d, ht, hd⟩ := htakes hlen
  exact ⟨d, ht, by rw [hd]; rfl⟩

end

/-- Settles O27: the bit is decided by the split point, and normalising takes the bytes that the new range needs. -/
theorem rcdBitDecidesByTheSplitPoint : Obligations.RcdBitDecidesByTheSplitPoint := by
  intro s pi k hs hrange d p bound b r c hok hp hk
  rw [show exec (.rcdBit pi) s = execRcdBit pi s from rfl, execRcdBit]
  have hpre : precheck (.rcdBit pi) s = none := precheck_unitsFree hs (operandsOk_iff.mpr hrange)
  have hbody (hinit : d.inited = true) (k : Res State (BitVec 64)) :
      require s.begin.lane0.rcd.inited .coderCondition s.begin k = k := by
    rw [show s.begin.lane0.rcd.inited = true from hinit, require_true]
  obtain ⟨htakes, hdry⟩ := decBit_takes (c := s.begin.decCtx) (i := pi.toNat) (k := k) hok hp hk
  have hcell : probUpdate b (s.lane0.cell pi.toNat) = BitVec.ofNat 11 (if b then p - p / 2 ^ 5 else p + (2048 - p) / 2 ^ 5) := by
    rw [probUpdate]
    cases b <;> rfl
  refine ⟨fun hinit hlen => ?_, fun hinit hlen => (runCommand_onIn_dry hpre (hbody hinit _) .refl (hdry hlen)).1,
    fun hinit hlen => (runCommand_onIn_dry hpre (hbody hinit _) .refl (hdry hlen)).2, fun hinit => ?_⟩
  · obtain ⟨d', ht, hf⟩ := htakes hlen
    refine ⟨d', ht, ?_⟩
    rw [← hcell]
    exact runCommand_onIn_completes hpre (hbody hinit _) hf (fun _ => rfl) hlen
  · refine runCommand_refusedBy (c := .coderCondition) rfl (.inr ⟨hpre, ?_⟩)
    rw [show s.begin.lane0.rcd.inited = false from hinit, require_false]

/-! ## RCD.DIRECT and RCD.IS_FINISHED (R423, R425) -/

/-- The bytes that one direct bit takes (R423, R424). -/
def directByte (r : Nat) : Nat := if r / 2 < 2 ^ 24 then 1 else 0

theorem directBytes_succ {n r : Nat} : directBytes (n + 1) r = directByte r + directBytes n (r / 2 * 2 ^ (8 * directByte r)) := by
  rw [directBytes, directByte]
  split
  · rfl
  · rw [Nat.mul_zero, Nat.pow_zero, Nat.mul_one, Nat.zero_add]

theorem directByte_normalises {r : Nat} (h : 2 ^ 24 ≤ r) : Normalises (r / 2) (directByte r) := by
  rw [directByte]
  split
  · refine ⟨?_, .inr ?_⟩ <;> omega
  · refine ⟨?_, .inl rfl⟩
    omega

/-- A byte for eight direct bits at most: a range of `j` bits above 2^24 is halved `j` times before it needs one. -/
theorem directBytes_le {n r j : Nat} (hj : j ≤ 7) (h : 2 ^ 24 * 2 ^ j ≤ r) : directBytes n r ≤ (n + 7 - j) / 8 := by
  induction n generalizing r j with
  | zero => exact Nat.zero_le _
  | succ n ih =>
    have hpos : 1 ≤ 2 ^ j := Nat.one_le_two_pow
    rw [directBytes]
    split
    · rename_i hlt
      obtain rfl : j = 0 := by
        by_contra hne
        obtain ⟨m, rfl⟩ : ∃ m, j = m + 1 := ⟨j - 1, by omega⟩
        rw [Nat.pow_succ] at h hpos
        have : 1 ≤ 2 ^ m := Nat.one_le_two_pow
        omega
      have := ih (r := r / 2 * 2 ^ 8) (j := 7) (Nat.le_refl 7) (by omega)
      omega
    · rename_i hge
      cases j with
      | zero =>
        have := ih (r := r / 2) (j := 0) (Nat.zero_le 7) (by omega)
        omega
      | succ m =>
        rw [Nat.pow_succ] at h
        have := ih (r := r / 2) (j := m) (by omega) (by omega)
        omega

section
variable {c : DecCtx}

/-- A direct bit's step (R423, R424). -/
theorem decDirectBit_takes (hok : c.lane.rcd.Ok) :
    let d := c.lane.rcd
    let r := d.range.toNat / 2
    let k := directByte d.range.toNat
    (k ≤ c.src.length → ∃ m, d.Takes m r (if r ≤ d.code.toNat then d.code.toNat - r else d.code.toNat) k c.src ∧
      m.range.toNat = r * 2 ^ (8 * k) ∧
      decDirectBit c = .ok (decide (r ≤ d.code.toNat)) { c with lane := { c.lane with rcd := m }, src := c.src.drop k }) ∧
    (c.src.length < k → (decDirectBit c).Dry) := by
  intro d r k
  have hrange := d.range.isLt
  have hcode := d.code.isLt
  have hok : 2 ^ 24 ≤ d.range.toNat := hok
  have hbit : decDirectBit c = (decNorm (c.reading c.lane.prob (BitVec.ofNat 32 r)
      (BitVec.ofNat 32 (if r ≤ d.code.toNat then d.code.toNat - r else d.code.toNat)) c.src)).bind fun _ c =>
      .ok (decide (r ≤ d.code.toNat)) c := by
    rw [decDirectBit]
    by_cases hb : r ≤ d.code.toNat
    · simp only [show c.lane.rcd.range.toNat / 2 ≤ c.lane.rcd.code.toNat from hb, hb, decide_true, if_true]
      rfl
    · simp only [show ¬ c.lane.rcd.range.toNat / 2 ≤ c.lane.rcd.code.toNat from hb, hb, decide_false, if_false, Bool.false_eq_true,
        BitVec.ofNat_toNat, BitVec.setWidth_eq]
      rfl
  obtain ⟨htakes, hdry⟩ := decNorm_reading (c := c) (p := c.lane.prob) (r := r)
    (code := if r ≤ d.code.toNat then d.code.toNat - r else d.code.toNat) (by omega) (by omega) (by split <;> omega)
    (directByte_normalises hok)
  rw [hbit]
  refine ⟨fun hlen => ?_, fun hlen => (hdry hlen).bind⟩
  obtain ⟨m, ht, hd⟩ := htakes hlen
  refine ⟨m, ht, ?_, by rw [hd]; rfl⟩
  rw [show m = _ from ht, BitVec.toNat_ofNat, Nat.mod_eq_of_lt]
  show r * 2 ^ (8 * directByte d.range.toNat) < 2 ^ 32
  rw [directByte]
  split <;> omega

/-- Direct bits one after another (R423): the source has their bytes. -/
theorem decDirectFrom_decoded {n r : Nat} (hok : c.lane.rcd.Ok) :
    let k := directBytes n c.lane.rcd.range.toNat
    k ≤ c.src.length → ∃ v d, DirectDecoded n c.lane.rcd c.src v d (c.src.drop k) ∧ v < 2 ^ n ∧
      decDirectFrom n r c = .ok (r * 2 ^ n + v) { c with lane := { c.lane with rcd := d }, src := c.src.drop k } := by
  induction n generalizing r c with
  | zero =>
    intro k _
    exact ⟨0, c.lane.rcd, ⟨rfl, rfl, rfl⟩, Nat.one_pos, by simp [decDirectFrom, k, directBytes]⟩
  | succ n ih =>
    intro k hlen
    have hsucc : k = _ := directBytes_succ
    have hnorm := directByte_normalises hok
    obtain ⟨m, ht, hm, hbit⟩ := (decDirectBit_takes hok).1 (by omega)
    have hmok : m.Ok := by
      rw [RangeDec.Ok, hm]
      exact hnorm.1
    rw [← hm] at hsucc
    obtain ⟨v, d, hdec, hv, hrun⟩ := ih
      (c := { c with lane := { c.lane with rcd := m }, src := c.src.drop (directByte c.lane.rcd.range.toNat) })
      (r := 2 * r + (decide (c.lane.rcd.range.toNat / 2 ≤ c.lane.rcd.code.toNat)).toNat) hmok
      (by simp only [List.length_drop]; omega)
    simp only [List.drop_drop, ← hsucc] at hdec hrun
    refine ⟨(if c.lane.rcd.range.toNat / 2 ≤ c.lane.rcd.code.toNat then 2 ^ n else 0) + v, d,
      ⟨_, m, v, hnorm, by omega, ht, rfl, hdec⟩, ?_, ?_⟩
    · rw [Nat.pow_succ]
      split <;> omega
    · rw [decDirectFrom, hbit, Res.bind_ok, hrun, Nat.pow_succ]
      congr 1
      by_cases hb : c.lane.rcd.range.toNat / 2 ≤ c.lane.rcd.code.toNat
      · simp only [hb, decide_true, if_true, Bool.toNat_true]
        ring
      · simp only [hb, decide_false, if_false, Bool.toNat_false]
        ring

/-- Direct bits whose bytes the source does not have (R423, R231). -/
theorem decDirectFrom_dry {n r : Nat} (hok : c.lane.rcd.Ok) (hlen : c.src.length < directBytes n c.lane.rcd.range.toNat) :
    (decDirectFrom n r c).Dry := by
  induction n generalizing r c with
  | zero => exact absurd hlen (Nat.not_lt_zero _)
  | succ n ih =>
    rw [directBytes_succ] at hlen
    obtain ⟨htakes, hdry⟩ := decDirectBit_takes hok
    by_cases hfirst : c.src.length < directByte c.lane.rcd.range.toNat
    · exact (hdry hfirst).bind
    · obtain ⟨m, -, hm, hbit⟩ := htakes (Nat.not_lt.mp hfirst)
      have hmok : m.Ok := by
        rw [RangeDec.Ok, hm]
        exact (directByte_normalises hok).1
      rw [← hm] at hlen
      rw [decDirectFrom, hbit, Res.bind_ok]
      refine ih hmok ?_
      simp only [List.length_drop]
      omega

end

/-- Settles O28: the direct bits one by one, with a byte for eight of them at most; and the end state's two flags. -/
theorem rcdDirectAndIsFinished : Obligations.RcdDirectAndIsFinished := by
  constructor
  · intro s n hs hrange hok k
    rw [show exec (.rcdDirect n) s = execRcdDirect n s from rfl, execRcdDirect]
    have hpre : precheck (.rcdDirect n) s = none := precheck_unitsFree hs (operandsOk_iff.mpr hrange)
    have hbody (hinit : s.lane0.rcd.inited = true) (k : Res State (BitVec 64)) :
        require s.begin.lane0.rcd.inited .coderCondition s.begin k = k := by
      rw [show s.begin.lane0.rcd.inited = true from hinit, require_true]
    have hdry (hlen : s.input.length < k) : (decDirect n.toNat s.begin.decCtx).Dry := decDirectFrom_dry (c := s.begin.decCtx) hok hlen
    refine ⟨directBytes_le (Nat.zero_le 7) (by exact hok), fun hinit hlen => ?_,
      fun hinit hlen => (runCommand_onIn_dry hpre (hbody hinit _) .refl (hdry hlen)).1,
      fun hinit hlen => (runCommand_onIn_dry hpre (hbody hinit _) .refl (hdry hlen)).2, fun hinit => ?_⟩
    · obtain ⟨v, d, hdec, hv, hf⟩ := decDirectFrom_decoded (c := s.begin.decCtx) (r := 0) hok hlen
      rw [Nat.zero_mul, Nat.zero_add] at hf
      exact ⟨v, d, hdec, hv, runCommand_onIn_completes hpre (hbody hinit _) hf (fun _ => rfl) hlen⟩
    · refine runCommand_refusedBy (c := .coderCondition) rfl (.inr ⟨hpre, ?_⟩)
      rw [show s.begin.lane0.rcd.inited = false from hinit, require_false]
  · intro s hs
    rw [show exec .rcdIsFinished s = execRcdIsFinished s from rfl, execRcdIsFinished]
    have hpre : precheck .rcdIsFinished s = none := precheck_reader hs rfl rfl
    refine ⟨fun hinit => runCommand_completed hpre (Nat.zero_le _) ?_, fun hinit =>
      runCommand_refusedBy (c := .coderCondition) rfl (.inr ⟨hpre, ?_⟩)⟩
    · have hvalue : (s.lane0.rcd.code == 0#32).toNat + s.lane0.rcd.initBad.toNat * 2 =
          (if s.lane0.rcd.code = 0#32 then 1 else 0) + if s.lane0.rcd.initBad then 2 else 0 := by
        by_cases hcode : s.lane0.rcd.code = 0#32 <;> cases s.lane0.rcd.initBad <;> simp [hcode]
      rw [← hvalue, show s.begin.lane0.rcd.inited = true from hinit, require_true]
      rfl
    · rw [show s.begin.lane0.rcd.inited = false from hinit, require_false]

end Sys2Proof.Machine
end

section
/-! PROOFS. The window's commands (R240, R241, R702, R750 to R753), LZMA.ENCODE's completion (R660), and the LZ commands (R670 to R673). -/

namespace Sys2Proof.Machine

/-! ## WIN (R750 to R753) -/

/-- WIN.FEED takes what IN gives, up to its operand (R751). -/
theorem inUpTo_ok {n : Nat} {t : State} (h : n ≤ t.inp.length ∨ t.inEof = true) :
    inUpTo n t = .ok (t.inp.take (min n t.inp.length)) { t with inp := t.inp.drop (min n t.inp.length) } := by
  rw [inUpTo]
  by_cases hlen : n ≤ t.inp.length
  · rw [if_pos hlen, Nat.min_eq_left hlen]
  · rw [if_neg hlen, if_pos (h.resolve_left hlen), Nat.min_eq_right (Nat.le_of_not_le hlen), List.take_length, List.drop_length]

theorem exec_winReset {s : State} {a : Act} (hs : s.unitsFree) (ha : s.act = some a) :
    exec .winReset s = .next (s.completed 0 [] 0 { s.lane0 with
      win := Window.empty a.dictSize, mf := mfReset (Window.empty a.dictSize) }) := by
  rw [show exec .winReset s = execWinReset s from rfl, execWinReset]
  refine runCommand_completed (precheck_unitsFree hs rfl) (Nat.zero_le _) ?_
  rw [withAct_some (a := a) (by exact ha)]
  rfl

theorem exec_winFeed {s : State} {n : BitVec 48} (hs : s.unitsFree) (h : n.toNat ≤ s.input.length ∨ s.inEof = true) :
    let k := min n.toNat s.input.length
    exec (.winFeed n) s = .next (s.completed k [] k { s.lane0 with win := s.lane0.win.feed (s.input.take k) }) := by
  intro k
  rw [show exec (.winFeed n) s = execWinFeed n s from rfl, execWinFeed]
  refine runCommand_completed (precheck_unitsFree hs rfl) (Nat.min_le_right _ _) ?_
  rw [inUpTo_ok (t := s.begin) h, Res.bind_ok]
  have hlen : (s.input.take k).length = k := List.length_take_of_le (Nat.min_le_right _ _)
  show answer (s.input.take k).length _ = _
  rw [hlen]
  rfl

theorem exec_winFeed_held {s : State} {n : BitVec 48} (hs : s.unitsFree) (hlen : s.input.length < n.toNat) (heof : s.inEof = false) :
    exec (.winFeed n) s = .next s.held := by
  rw [show exec (.winFeed n) s = execWinFeed n s from rfl, execWinFeed]
  refine runCommand_held (t := { s.begin with inp := [] }) (precheck_unitsFree hs rfl) ?_
  have hup : inUpTo n.toNat s.begin = .stop .hold { s.begin with inp := [] } := by
    rw [inUpTo, if_neg (show ¬ n.toNat ≤ s.begin.inp.length from Nat.not_le.mpr hlen),
      if_neg (by rw [State.begin_inEof, heof]; exact Bool.false_ne_true)]
  rw [hup]
  rfl

/-- A command whose rule is one check and then its effect on lane 0 (R330). -/
theorem runCommand_checked {i : Instr} {body : Body} {s : State} {p : Prop} [Decidable p] {v : Nat} {l : Lane}
    (hp : precheck i s = none)
    (hb : body s.begin = require (decide p) .precondition s.begin (.ok (BitVec.ofNat 64 v) (s.begin.withLane0 l))) :
    (p → runCommand i body s = .next (s.completed 0 [] v l)) ∧ (¬ p → runCommand i body s = .next (s.refusedBy i 0x05)) := by
  refine ⟨fun h => runCommand_completed hp (Nat.zero_le _) ?_, fun h => runCommand_refusedBy (c := .precondition) rfl (.inr ⟨hp, ?_⟩)⟩
  · rw [hb, decide_eq_true h, require_true]
    rfl
  · rw [hb, decide_eq_false h, require_false]

/-- WIN.GET reads the lookahead at distance 0 and the history at any other (R753). -/
theorem exec_winGet {s : State} {d : BitVec 32} (hs : s.ready) :
    let w := s.lane0.win
    (d = 0#32 →
      (w.cur < w.endPos → exec (.winGet d) s = .next (s.completed 0 [] (w.look 0).toNat s.lane0)) ∧
      (¬ w.cur < w.endPos → exec (.winGet d) s = .next (s.refusedBy (.winGet d) 0x05))) ∧
    (d ≠ 0#32 →
      (d.toNat ≤ w.hist → exec (.winGet d) s = .next (s.completed 0 [] (w.back d.toNat).toNat s.lane0)) ∧
      (¬ d.toNat ≤ w.hist → exec (.winGet d) s = .next (s.refusedBy (.winGet d) 0x05))) := by
  rw [show exec (.winGet d) s = execWinGet d s from rfl, execWinGet]
  have hpre : precheck (.winGet d) s = none := precheck_reader hs rfl rfl
  constructor
  · intro hd
    refine runCommand_checked hpre ?_
    rw [if_pos hd]
    rfl
  · intro hd
    refine runCommand_checked hpre ?_
    rw [if_neg hd]
    rfl

/-- Settles O39: each command's rule, on the window as it stands. -/
theorem winCommands : Obligations.WinCommands := by
  refine ⟨fun s a hs ha => exec_winReset hs ha, ?_, fun s x hs => ?_, ?_⟩
  · intro s n hs k
    exact ⟨fun h => exec_winFeed hs h, fun hlen heof => exec_winFeed_held hs hlen heof⟩
  · exact runCommand_checked (body := fun t => require (decide (t.lane0.win.endPos = t.lane0.win.cur)) .precondition t <|
      .ok 0#64 (t.withLane0 { t.lane0 with win := t.lane0.win.append [x] })) (precheck_unitsFree hs rfl) rfl
  · intro s d hs w
    obtain ⟨hahead, hback⟩ := exec_winGet (d := d) hs
    exact ⟨fun hz => (hahead hz).1, fun hz hle => (hahead hz).2 (Nat.not_lt.mpr hle),
      fun hz => (hback hz).1, fun hz hlt => (hback hz).2 (Nat.not_le.mpr hlt)⟩

/-! ## LZMA.ENCODE (R660) -/

/-- A payload of a fresh encoder is five bytes or more, the first 0x00 (R343, R421). -/
theorem RangeEnc.Reaches.head {e : RangeEnc} {p : List Byte} (h : e.Reaches p) (he : e = RangeEnc.fresh) :
    5 ≤ p.length ∧ p.head? = some 0x00#8 := by
  subst he
  obtain ⟨hlen, -, hhi⟩ := h.firstBytes
  obtain ⟨b0, b1, b2, b3, b4, tail, rfl⟩ := cons_five (bs := p) hlen
  have hhi : bytesValue [b0, b1, b2, b3, b4] < 0xFFFFFFFF := hhi
  rw [bytesValue_five] at hhi
  have h0 : b0 = 0#8 := BitVec.eq_of_toNat_eq (by rw [BitVec.toNat_zero]; omega)
  exact ⟨hlen, by rw [h0]; rfl⟩

/-- Settles O51: the payload is the flush of a fresh encoder's symbols. -/
theorem lzmaEncodeCompletes : Obligations.LzmaEncodeCompletes := by
  intro s hs
  obtain ⟨a, ha⟩ := Option.isSome_iff_exists.mp hs.1
  refine ⟨fun heof => ?_, fun heof => ⟨_, exec_lzmaEncode_eof hs ha heof, ?_⟩⟩
  · rw [show exec .lzmaEncode s = execLzmaEncode s from rfl, execLzmaEncode]
    refine runCommand_held (t := { s.begin with inp := [] }) (precheck_unitsFree hs rfl) ?_
    rw [withAct_some (a := a) (by exact ha), inAll, if_neg (by rw [State.begin_inEof, heof]; exact Bool.false_ne_true)]
    rfl
  · obtain ⟨ys, hcod, -, hrce⟩ := encodeRaw_spec (b := s.build) (a := a) (x := s.input)
    have hok := rawEnd_encOk (a := a) (x := s.input) (ys := ys) (marked := a.eos)
    have hreach := (encFlush_endsAt hok.1).reaches hok.1
    rw [hrce]
    have hraw : (rawLane a s.input).rce.Reaches (encFlush (rawEnd a s.input ys a.eos).rce).cbuf := by
      generalize (encFlush (rawEnd a s.input ys a.eos).rce).cbuf = p at hreach ⊢
      rw [rawEnd] at hreach
      split at hreach
      · exact reaches_of_codedAll rawLane_encOk (reaches_of_coded (codedAll_encOk rawLane_encOk) hreach)
      · exact reaches_of_codedAll rawLane_encOk hreach
    exact hraw.head rfl

/-! ## LZ (R670 to R673) -/

/-- The packed state word's fields do not overlap (R672). -/
theorem stateWord_eq {z : Coder} :
    stateWord z = z.state.val ||| z.lc.toNat <<< 8 ||| z.lp.toNat <<< 12 ||| z.pb.toNat <<< 16 := by
  have hstate := z.state.isLt
  have hlc := z.lc.isLt
  have hlp := z.lp.isLt
  have pack {a b i : Nat} (h : a < 2 ^ i) : a ||| b <<< i = a + b * 2 ^ i := by
    rw [Nat.shiftLeft_eq, Nat.or_comm, Nat.mul_comm, ← Nat.two_pow_add_eq_or_of_lt h, Nat.add_comm]
  rw [pack (i := 8) (by omega), pack (i := 12) (by omega), pack (i := 16) (by omega)]
  rfl

/-- Settles O31: each command's rule, with the properties byte taken apart. -/
theorem lzCommands : Obligations.LzCommands := by
  refine ⟨fun s x hs hx => ?_, fun s hs => ?_, fun s hs => ?_, fun s i hs hi => ?_⟩
  · have hexec : exec (.lzSetProps x) s = .next (s.completed 0 [] 0 (s.lane0.setProps x)) := by
      rw [show exec (.lzSetProps x) s = execLzSetProps x s from rfl, execLzSetProps]
      exact runCommand_completed (precheck_unitsFree hs (operandsOk_iff.mpr hx)) (Nat.zero_le _) rfl
    refine ⟨_, hexec, rfl, fun _ => rfl, rfl, fun i => ?_, ?_, ?_, ?_⟩
    · match i with
      | 0 | 1 | 2 => rfl
      | _ + 3 => rfl
    all_goals
      simp only [Lane.setProps, propsDecode, BitVec.toNat_ofNat]
      omega
  · refine ⟨s.lane0.stateReset, ?_, rfl, fun _ => rfl⟩
    rw [show exec .lzResetState s = execLzResetState s from rfl, execLzResetState]
    exact runCommand_completed (precheck_unitsFree hs rfl) (Nat.zero_le _) rfl
  · rw [← stateWord_eq, show exec .lzReadState s = execLzReadState s from rfl, execLzReadState]
    exact runCommand_completed (precheck_reader hs rfl rfl) (Nat.zero_le _) rfl
  · have hrep : s.lane0.lz.rep i.toNat =
        [s.lane0.lz.rep0, s.lane0.lz.rep1, s.lane0.lz.rep2, s.lane0.lz.rep3].getD i.toNat 0#32 := by
      obtain h | h | h | h : i.toNat = 0 ∨ i.toNat = 1 ∨ i.toNat = 2 ∨ i.toNat = 3 := by omega
      all_goals rw [h]; rfl
    rw [← hrep, show exec (.lzReadRep i) s = execLzReadRep i s from rfl, execLzReadRep]
    exact runCommand_completed (precheck_reader hs rfl (operandsOk_iff.mpr hi)) (Nat.zero_le _) rfl

end Sys2Proof.Machine
end

section
/-! PROOFS. Command words: the encoder's words decode to their commands, a word that decodes is its command's, and every other word is
rejected for its opcode or for its reserved bits (R300 to R305). -/

namespace Sys2Proof

open Laws.EncodedOpcode (opcodeOf)

/-! ## The operand bits of a word (R300, R302) -/

/-- `c[55:0]` (R300). -/
def operandBits (c : Word) : Nat := c.toNat % 2 ^ 56

/-- The operand bits of a command's word, each operand where its format has it (R302). -/
def operandsOf : Instr → Nat
  | .rceBit pi b => b.toNat * 2 ^ 24 + pi.toNat
  | .rceDirect v n => n.toNat * 2 ^ 32 + v.toNat
  | .rcdBit pi | .probRead pi => pi.toNat
  | .rcdDirect n => n.toNat * 2 ^ 32
  | .probWrite pi v => v.toNat * 2 ^ 24 + pi.toNat
  | .lzSetProps x | .winPut x => x.toNat
  | .lzReadRep i | .mfCand i => i.toNat
  | .lzeMatch d l => l.toNat * 2 ^ 32 + d.toNat
  | .lzeRep r l => l.toNat * 2 ^ 32 + r.toNat
  | .winGet d => d.toNat
  | .lzdSymbol n | .lzdRun n | .winFeed n | .mfSkip n | .l2EncSegment n | .lzmaDecode n => n.toNat
  | _ => 0

theorem encode_eq_word (i : Instr) : encode i = word (opcodeOf i) (operandsOf i) := by cases i <;> rfl

theorem opcodeOf_lt (i : Instr) : opcodeOf i < 2 ^ 8 := by cases i <;> simp only [opcodeOf] <;> omega

theorem operandsOf_lt (i : Instr) : operandsOf i < 2 ^ 56 := by
  cases i with
  | rceBit pi b =>
    have := Bool.toNat_lt b
    simp only [operandsOf]
    omega
  | _ =>
    simp only [operandsOf]
    omega

theorem opcodeField_encode (i : Instr) : opcodeField (encode i) = opcodeOf i := by
  rw [encode_eq_word, opcodeField_word (opcodeOf_lt i) (operandsOf_lt i)]

theorem operandBits_encode (i : Instr) : operandBits (encode i) = operandsOf i := by
  have := operandsOf_lt i
  rw [encode_eq_word, operandBits, word_toNat (opcodeOf_lt i) (operandsOf_lt i)]
  omega

/-- A word is its opcode and its operand bits. -/
theorem word_fields (c : Word) : word (opcodeField c) (operandBits c) = c := by
  refine BitVec.eq_of_toNat_eq ?_
  rw [word, BitVec.toNat_ofNat, opcodeField, operandBits]
  omega

/-! ## The formats (R302) -/

section
variable {c : Word} {i : Instr}

/-- A format that reads the operands `x` gives `i` exactly where the operand bits are those of operands that make `i`: the operand bits
determine the operands, and are theirs alone where the reserved bits are 0. -/
theorem reserving_eq_ok {α : Type} {zero : List (Nat × Nat)} {f : α → Instr} {x : α} {pack : α → Nat}
    (hx : ∀ y, operandBits c = pack y → x = y) (hzero : (∀ z ∈ zero, field z.1 z.2 c = 0) ↔ operandBits c = pack x) :
    reserving c zero (f x) = .ok i ↔ ∃ y, f y = i ∧ operandBits c = pack y := by
  constructor
  · intro h
    obtain ⟨hi, hz⟩ := reserving_inv h
    exact ⟨x, hi.symm, hzero.mp hz⟩
  · rintro ⟨y, rfl, hy⟩
    obtain rfl := hx y hy
    exact reserving_ok (hzero.mpr hy)

/-- A field below the opcode is read from the operand bits. -/
theorem field_eq {lo w : Nat} (h : lo + w ≤ 56) : field lo w c = operandBits c / 2 ^ lo % 2 ^ w := by
  conv_lhs => rw [← word_fields c]
  exact field_word (by have := c.isLt; rw [opcodeField]; omega) (Nat.mod_lt _ (by decide)) h

/-- The operand bits above a format's fields are 0 exactly where the fields are all there is. -/
theorem field_high_eq_zero {w r : Nat} (h : w + r = 56) : field w r c = 0 ↔ operandBits c = operandBits c % 2 ^ w := by
  have hlt : operandBits c < 2 ^ w * 2 ^ r := by
    rw [← Nat.pow_add, h]
    exact Nat.mod_lt _ (by decide)
  rw [field_eq (Nat.le_of_eq h), Nat.mod_eq_of_lt (Nat.div_lt_of_lt_mul hlt), Nat.div_eq_zero_iff_lt (by positivity), eq_comm,
    Nat.mod_eq_iff_lt (by positivity)]

theorem formatZ_eq_ok {f : Instr} : formatZ c f = .ok i ↔ f = i ∧ operandBits c = 0 := by
  refine (reserving_eq_ok (f := fun _ : Unit => f) (x := ()) (pack := fun _ => 0) (fun _ _ => rfl) ?_).trans
    ⟨fun ⟨_, h⟩ => h, fun h => ⟨(), h⟩⟩
  simp only [List.forall_mem_singleton, field, operandBits, Nat.pow_zero, Nat.div_one]

/-- A format with one operand, in the low bits. -/
theorem lowField_eq_ok {w r : Nat} (h : w + r = 56) {f : BitVec w → Instr} :
    reserving c [(w, r)] (f (BitVec.ofNat w (field 0 w c))) = .ok i ↔ ∃ n, f n = i ∧ operandBits c = n.toNat := by
  have hfield : field 0 w c = operandBits c % 2 ^ w := by rw [field_eq (by omega), Nat.pow_zero, Nat.div_one]
  refine reserving_eq_ok (pack := BitVec.toNat) (fun n hn => BitVec.eq_of_toNat_eq ?_) ?_
  · rw [BitVec.toNat_ofNat, hfield, hn, Nat.mod_mod, Nat.mod_eq_of_lt n.isLt]
  · rw [List.forall_mem_singleton, BitVec.toNat_ofNat, hfield, Nat.mod_mod]
    exact field_high_eq_zero h

/-- A format with two operands, side by side in the low bits. -/
theorem twoFields_eq_ok {v w r : Nat} (h : v + w + r = 56) {f : BitVec v → BitVec w → Instr} :
    reserving c [(v + w, r)] (f (BitVec.ofNat v (field 0 v c)) (BitVec.ofNat w (field v w c))) = .ok i ↔
      ∃ x y, f x y = i ∧ operandBits c = y.toNat * 2 ^ v + x.toNat := by
  have hlow : field 0 v c = operandBits c % 2 ^ v := by rw [field_eq (by omega), Nat.pow_zero, Nat.div_one]
  have hhigh : field v w c = operandBits c / 2 ^ v % 2 ^ w := field_eq (by omega)
  refine (reserving_eq_ok (f := fun p : BitVec v × BitVec w => f p.1 p.2)
    (x := (BitVec.ofNat v (field 0 v c), BitVec.ofNat w (field v w c)))
    (pack := fun p => p.2.toNat * 2 ^ v + p.1.toNat) ?_ ?_).trans Prod.exists
  · rintro ⟨x, y⟩ hxy
    refine Prod.ext (BitVec.eq_of_toNat_eq ?_) (BitVec.eq_of_toNat_eq ?_)
    · rw [BitVec.toNat_ofNat, hlow, hxy, Nat.mod_mod, fields_low x.isLt (Nat.le_refl v), Nat.mod_eq_of_lt x.isLt]
    · rw [BitVec.toNat_ofNat, hhigh, hxy, Nat.mod_mod, fields_high x.isLt, Nat.mod_eq_of_lt y.isLt]
  · rw [List.forall_mem_singleton, BitVec.toNat_ofNat, BitVec.toNat_ofNat, hlow, hhigh, Nat.mod_mod, Nat.mod_mod,
      field_high_eq_zero h, Nat.pow_add, Nat.mod_mul, Nat.add_comm, Nat.mul_comm]

theorem formatP_eq_ok {f : BitVec 24 → Instr} : formatP c f = .ok i ↔ ∃ pi, f pi = i ∧ operandBits c = pi.toNat :=
  lowField_eq_ok rfl

theorem formatB8_eq_ok {f : BitVec 8 → Instr} : formatB8 c f = .ok i ↔ ∃ x, f x = i ∧ operandBits c = x.toNat :=
  lowField_eq_ok rfl

theorem formatC48_eq_ok {f : BitVec 48 → Instr} : formatC48 c f = .ok i ↔ ∃ n, f n = i ∧ operandBits c = n.toNat :=
  lowField_eq_ok rfl

theorem formatI_eq_ok {f : BitVec 16 → Instr} : formatI c f = .ok i ↔ ∃ j, f j = i ∧ operandBits c = j.toNat :=
  lowField_eq_ok rfl

theorem formatD32_eq_ok {f : BitVec 32 → Instr} : formatD32 c f = .ok i ↔ ∃ d, f d = i ∧ operandBits c = d.toNat :=
  lowField_eq_ok rfl

theorem formatPV_eq_ok {f : BitVec 24 → BitVec 12 → Instr} :
    formatPV c f = .ok i ↔ ∃ pi v, f pi v = i ∧ operandBits c = v.toNat * 2 ^ 24 + pi.toNat :=
  twoFields_eq_ok (v := 24) (w := 12) rfl

theorem formatNV_eq_ok {f : BitVec 32 → BitVec 6 → Instr} :
    formatNV c f = .ok i ↔ ∃ v n, f v n = i ∧ operandBits c = n.toNat * 2 ^ 32 + v.toNat :=
  twoFields_eq_ok (v := 32) (w := 6) rfl

theorem formatDL_eq_ok {f : BitVec 32 → BitVec 9 → Instr} :
    formatDL c f = .ok i ↔ ∃ d l, f d l = i ∧ operandBits c = l.toNat * 2 ^ 32 + d.toNat :=
  twoFields_eq_ok (v := 32) (w := 9) rfl

theorem formatPB_eq_ok {f : BitVec 24 → Bool → Instr} :
    formatPB c f = .ok i ↔ ∃ pi b, f pi b = i ∧ operandBits c = b.toNat * 2 ^ 24 + pi.toNat := by
  have hbit : (field 24 1 c == 1).toNat = field 24 1 c := by
    have hlt : field 24 1 c < 2 := Nat.mod_lt _ (by decide)
    interval_cases field 24 1 c <;> rfl
  refine (reserving_eq_ok (f := fun x : BitVec 24 × Bool => f x.1 x.2) (x := (BitVec.ofNat 24 (field 0 24 c), field 24 1 c == 1))
    (pack := fun x => x.2.toNat * 2 ^ 24 + x.1.toNat) ?_ ?_).trans Prod.exists
  · rintro ⟨pi, b⟩ h
    have hb := Bool.toNat_lt b
    have hfield : field 24 1 c = b.toNat := by
      simp only [field, operandBits] at *
      omega
    refine Prod.ext ?_ (show (field 24 1 c == 1) = b by rw [hfield]; cases b <;> rfl)
    simp only [field, operandBits] at *
    bv_omega
  · simp only [List.forall_mem_singleton, hbit, BitVec.toNat_ofNat]
    simp only [field, operandBits]
    omega

theorem formatN_eq_ok {f : BitVec 6 → Instr} : formatN c f = .ok i ↔ ∃ n, f n = i ∧ operandBits c = n.toNat * 2 ^ 32 := by
  refine reserving_eq_ok (pack := fun n : BitVec 6 => n.toNat * 2 ^ 32) (fun n h => ?_) ?_
  · simp only [field, operandBits] at *
    bv_omega
  · simp only [List.forall_mem_cons, List.not_mem_nil, false_imp_iff, implies_true, and_true, field, operandBits]
    bv_omega

theorem formatRL_eq_ok {f : BitVec 2 → BitVec 9 → Instr} :
    formatRL c f = .ok i ↔ ∃ r l, f r l = i ∧ operandBits c = l.toNat * 2 ^ 32 + r.toNat := by
  refine (reserving_eq_ok (f := fun x : BitVec 2 × BitVec 9 => f x.1 x.2)
    (x := (BitVec.ofNat 2 (field 0 2 c), BitVec.ofNat 9 (field 32 9 c)))
    (pack := fun x => x.2.toNat * 2 ^ 32 + x.1.toNat) ?_ ?_).trans Prod.exists
  · rintro ⟨r, l⟩ h
    simp only [Prod.mk.injEq, field, operandBits] at *
    bv_omega
  · simp only [List.forall_mem_cons, List.not_mem_nil, false_imp_iff, implies_true, and_true, field, operandBits]
    bv_omega

end

/-! ## The opcode map (R303) -/

/-- A word decodes to the command that has its opcode and its operand bits, and to no other. -/
theorem decode_eq_ok {c : Word} {i : Instr} : decode c = .ok i ↔ opcodeField c = opcodeOf i ∧ operandBits c = operandsOf i := by
  constructor
  · intro h
    rw [decode] at h
    split at h
    case h_6 hop => obtain ⟨pi, b, rfl, hx⟩ := formatPB_eq_ok.mp h; exact ⟨hop, hx⟩
    case h_7 hop => obtain ⟨v, n, rfl, hx⟩ := formatNV_eq_ok.mp h; exact ⟨hop, hx⟩
    case h_11 hop | h_15 hop => obtain ⟨pi, rfl, hx⟩ := formatP_eq_ok.mp h; exact ⟨hop, hx⟩
    case h_12 hop => obtain ⟨n, rfl, hx⟩ := formatN_eq_ok.mp h; exact ⟨hop, hx⟩
    case h_16 hop => obtain ⟨pi, v, rfl, hx⟩ := formatPV_eq_ok.mp h; exact ⟨hop, hx⟩
    case h_17 hop | h_30 hop => obtain ⟨x, rfl, hx⟩ := formatB8_eq_ok.mp h; exact ⟨hop, hx⟩
    case h_20 hop | h_34 hop => obtain ⟨i, rfl, hx⟩ := formatI_eq_ok.mp h; exact ⟨hop, hx⟩
    case h_22 hop => obtain ⟨d, l, rfl, hx⟩ := formatDL_eq_ok.mp h; exact ⟨hop, hx⟩
    case h_23 hop => obtain ⟨r, l, rfl, hx⟩ := formatRL_eq_ok.mp h; exact ⟨hop, hx⟩
    case h_31 hop => obtain ⟨d, rfl, hx⟩ := formatD32_eq_ok.mp h; exact ⟨hop, hx⟩
    case h_26 hop | h_27 hop | h_29 hop | h_35 hop | h_38 hop | h_42 hop =>
      obtain ⟨n, rfl, hx⟩ := formatC48_eq_ok.mp h; exact ⟨hop, hx⟩
    case h_43 => exact nomatch h
    all_goals
      rename_i hop
      obtain ⟨rfl, hx⟩ := formatZ_eq_ok.mp h
      exact ⟨hop, hx⟩
  · rintro ⟨hop, hx⟩
    rw [decode, hop]
    cases i with
    | rceBit pi b => exact formatPB_eq_ok.mpr ⟨pi, b, rfl, hx⟩
    | rceDirect v n => exact formatNV_eq_ok.mpr ⟨v, n, rfl, hx⟩
    | rcdBit pi | probRead pi => exact formatP_eq_ok.mpr ⟨pi, rfl, hx⟩
    | rcdDirect n => exact formatN_eq_ok.mpr ⟨n, rfl, hx⟩
    | probWrite pi v => exact formatPV_eq_ok.mpr ⟨pi, v, rfl, hx⟩
    | lzSetProps x | winPut x => exact formatB8_eq_ok.mpr ⟨x, rfl, hx⟩
    | lzReadRep i | mfCand i => exact formatI_eq_ok.mpr ⟨i, rfl, hx⟩
    | lzeMatch d l => exact formatDL_eq_ok.mpr ⟨d, l, rfl, hx⟩
    | lzeRep r l => exact formatRL_eq_ok.mpr ⟨r, l, rfl, hx⟩
    | winGet d => exact formatD32_eq_ok.mpr ⟨d, rfl, hx⟩
    | lzdSymbol n | lzdRun n | winFeed n | mfSkip n | l2EncSegment n | lzmaDecode n =>
      exact formatC48_eq_ok.mpr ⟨n, rfl, hx⟩
    | _ => exact formatZ_eq_ok.mpr ⟨rfl, hx⟩

/-- Settles O1: a command's word has its opcode and its operand bits. -/
theorem decodeOfEncodeIsTheCommand : Obligations.DecodeOfEncodeIsTheCommand := fun i =>
  decode_eq_ok.mpr ⟨opcodeField_encode i, operandBits_encode i⟩

/-- Settles O2: the opcode and the operand bits are all of a word. -/
theorem encodeOfDecodeIsTheWord : Obligations.EncodeOfDecodeIsTheWord := by
  intro c i h
  obtain ⟨hop, hx⟩ := decode_eq_ok.mp h
  rw [encode_eq_word, ← hop, ← hx, word_fields]

/-- Settles O3: each listed word is the word of the command beside it. -/
theorem listedWordsDecode : Obligations.ListedWordsDecode :=
  have h := decodeOfEncodeIsTheCommand
  ⟨h .sysNop, h .sysConfigure, h (.rceBit 1 true), h .rcdInit, h (.probWrite 1 2000), h .lzReadState, h (.lzeMatch 1 3),
    h (.lzdSymbol 0), h (.winFeed 1), h (.winGet 1), h .l2Decode, h (.lzmaDecode 4)⟩

/-! ## Words that are no commands (R304) -/

/-- The bits of the fields `(lo, width)` as a mask. -/
def maskOf : List (Nat × Nat) → Nat
  | [] => 0
  | z :: zs => (2 ^ z.2 - 1) <<< z.1 ||| maskOf zs

theorem and_field_mask {c : Word} {lo w : Nat} : c.toNat &&& (2 ^ w - 1) <<< lo = field lo w c <<< lo := by
  rw [field]
  refine Nat.eq_of_testBit_eq fun j => ?_
  simp only [Nat.testBit_and, Nat.testBit_shiftLeft, Nat.testBit_two_pow_sub_one, Nat.testBit_mod_two_pow,
    Nat.testBit_div_two_pow]
  by_cases h : lo ≤ j
  · rw [Nat.sub_add_cancel h, Bool.and_comm, Bool.and_assoc]
  · simp [h]

/-- A format's fields are 0 exactly where the word has no bit of their mask. -/
theorem and_maskOf_eq_zero {c : Word} {zs : List (Nat × Nat)} : c.toNat &&& maskOf zs = 0 ↔ ∀ z ∈ zs, field z.1 z.2 c = 0 := by
  induction zs with
  | nil => simp [maskOf]
  | cons z zs ih =>
    rw [maskOf, Nat.and_or_distrib_left, Nat.or_eq_zero_iff, ih, List.forall_mem_cons, and_field_mask, Nat.shiftLeft_eq_zero_iff]

/-- Each opcode R303 lists has a format, whose reserved fields are those of its mask; and no other opcode has one. -/
theorem decode_cases (c : Word) :
    (∃ zero i, decode c = reserving c zero i ∧ reservedBitsOf.lookup (opcodeField c) = some (maskOf zero)) ∨
      decode c = .error .undefinedOpcode ∧ reservedBitsOf.lookup (opcodeField c) = none := by
  rw [decode]
  split
  case h_43 =>
    refine .inr ⟨rfl, ?_⟩
    rw [List.lookup_eq_none_iff]
    simp_all [reservedBitsOf]
  all_goals
    rename_i hop
    rw [hop]
    exact .inl ⟨_, _, rfl, rfl⟩

/-- Settles O4: a listed opcode's format looks at the bits of its mask. -/
theorem everyWordIsACommandOrRejected : Obligations.EveryWordIsACommandOrRejected := by
  intro c
  have hop : c.toNat / 2 ^ 56 = opcodeField c := rfl
  rcases decode_cases c with ⟨zero, i, hdec, hmask⟩ | ⟨hdec, hmask⟩
  · simp only [hop, hmask, hdec, and_maskOf_eq_zero]
    split
    · rename_i hz
      exact ⟨i, reserving_ok hz⟩
    · rename_i hz
      rw [reserving, if_neg (by simpa only [List.all_eq_true, beq_iff_eq] using hz)]
  · simp only [hop, hmask]
    exact hdec

end Sys2Proof
end

section
/-! PROOFS. The sequencer on a word of CQ: a command is executed, with its checks in R1020's order, and a word that is no command is
rejected (R304, R330, R802, R1006, R1010, R1020). -/

namespace Sys2Proof.Machine

/-! ## The word at the head of CQ (R330, R1020) -/

theorem runWord_executes {s : State} {c : Word} {i : Instr} (hdec : decode c = .ok i)
    (hrun : s.err = false ∨ runsUnderError i = true) : runWord c s = exec i s := by
  simp only [runWord, hdec]
  rcases hrun with h | h <;> simp [h]

theorem runWord_rejects {s : State} {c : Word} {e : DecodeError} (hdec : decode c = .error e) (herr : s.err = false) :
    runWord c s = .next (rejectWord c e s) := by
  simp [runWord, hdec, herr]

theorem blockStep_cons {s : State} {c : Word} {rest : List Word} (h : s.cq = c :: rest) : blockStep s = runWord c s := by
  rw [blockStep, h]

theorem step_of_idleAgenda {s : State} (h : s.agenda = []) : step s = blockStep s := by
  rw [step, moveNext, h]

theorem step_of_blockTurn {s : State} {turns : List Turn} (h : s.agenda = .block :: turns) :
    step s = blockStep { s with agenda := turns } := by
  rw [step, moveNext, h]

/-- Settles O5: the agenda gives the block its move, and the sequencer runs the command. -/
theorem stepRunsTheDecodedCommand : Obligations.StepRunsTheDecodedCommand := by
  intro s c rest i hcq hdec herr
  have hrun : s.err = false ∨ runsUnderError i = true := by
    rcases herr with h | rfl | rfl | rfl
    · exact .inl h
    · exact .inr rfl
    · exact .inr rfl
    · exact .inr rfl
  refine ⟨fun hagenda => ?_, fun turns hagenda => ?_⟩
  · rw [step_of_idleAgenda hagenda, blockStep_cons hcq, runWord_executes hdec hrun]
  · rw [step_of_blockTurn hagenda, blockStep_cons (s := { s with agenda := turns }) hcq,
      runWord_executes (s := { s with agenda := turns }) hdec hrun]

/-- Settles O7: a rejected word raises the IllegalCommand of its sub-cause before anything has changed. -/
theorem rejectedWordsRaiseIllegalCommand : Obligations.RejectedWordsRaiseIllegalCommand := by
  intro s c rest e hagenda herr hcq hdec
  rw [step_of_idleAgenda hagenda, blockStep_cons hcq, runWord_rejects hdec herr]
  cases e <;>
    simp [rejectWord, takeError, Cause.cls, Raised.errCode, Raised.errInfo, Raised.errUnit, State.begin, State.hostRegs, satAdd64_zero,
      Cause.sub, ErrClass.code, hcq]

/-! ## The checks of a command (R1020 items 4 to 6) -/

/-- A command whose check finds an IllegalCommand is refused with it, whatever its rule. -/
theorem exec_refusedBy_check {i : Instr} {s : State} {c : Cause} (hc : c.cls = .illegal) (h : precheck i s = some c) :
    exec i s = .next (s.refusedBy i c.sub) := by
  obtain ⟨body, hbody⟩ := exec_runs i s
  rw [hbody, runCommand_refusedBy hc (.inl h)]

/-- Settles O8: each clause is the first of the three checks that fails. -/
theorem checksComeInOrder : Obligations.ChecksComeInOrder := by
  intro i s
  refine ⟨fun hsys hact => ?_, fun hact hrange => ?_, fun hact hrange hlock => ?_⟩
  · have hsys : isSys i = false := Bool.eq_false_iff.mpr fun h => hsys (isSys_iff.mp h)
    exact exec_refusedBy_check (c := .notConfigured) rfl (precheck_notConfigured hact hsys)
  · have hrange : operandsOk i s = false := Bool.eq_false_iff.mpr fun h => hrange (operandsOk_iff.mp h)
    exact exec_refusedBy_check (c := .operandRange) rfl (precheck_operandRange hact hrange)
  · exact exec_refusedBy_check (c := .precondition) rfl
      (precheck_locked hact (operandsOk_iff.mpr hrange) (lockOk_false_iff.mpr hlock))

end Sys2Proof.Machine
end

section
/-! PROOFS. The LZE commands: where a symbol can be coded, its command codes the decisions of the symbol's row (R340, R601, R602, R610,
R620 to R625). -/

namespace Sys2Proof.Machine

/-! ## Repeated bytes (R622 to R624) -/

/-- Bytes that repeat are all in the length of the match. -/
theorem extendMatch_of_repeats {w : Window} {p d n len : Nat} (h : w.Repeats p d (len + n)) : extendMatch w p d n len = len + n := by
  induction n generalizing len with
  | zero => rfl
  | succ n ih =>
    rw [extendMatch, if_pos (h len (by omega)).symm, ih (by rwa [Nat.add_assoc, Nat.add_comm 1]), Nat.add_assoc, Nat.add_comm 1]

theorem repeatsAt_iff {w : Window} {d len : Nat} :
    repeatsAt w d len = true ↔ d ≤ w.hist ∧ w.cur + len ≤ w.endPos ∧ w.Repeats w.cur d len := by
  have hlen : matchLength w w.cur d 0 len = len ↔ w.Repeats w.cur d len := by
    refine ⟨fun h => h ▸ matchLength_repeats repeats_zero, fun h => ?_⟩
    have := extendMatch_of_repeats (len := 0) (n := len) (by rwa [Nat.zero_add])
    rwa [Nat.zero_add] at this
  rw [repeatsAt, Bool.and_eq_true, decide_eq_true_iff, beq_iff_eq, hlen, and_assoc]

theorem repeats_one {w : Window} {p d : Nat} : w.Repeats p d 1 ↔ w.byteAt p = w.byteAt (p - d) := by
  simp [Window.Repeats]

/-! ## The commands (R620 to R625) -/

/-- An LZE command whose preconditions hold codes with its encoder on lane 0 (R620). -/
theorem runCommand_encodeOne {i : Instr} {s : State} {pre : State → Bool} {f : Lane → Lane} (hs : s.unitsFree)
    (hflushed : s.lane0.rce.flushed = false) (hi : operandsOk i s = true) (hpre : pre s.begin = true) :
    runCommand i (fun t => encodeOne (pre t) f t) s = .next (s.completed 0 [] 0 (f s.lane0)) := by
  refine runCommand_completed (precheck_unitsFree hs hi) (Nat.zero_le _) ?_
  rw [encodeOne, hpre, show s.begin.lane0.rce.flushed = false from hflushed]
  rfl

/-- Settles O33: each command's precondition is that its symbol can be coded, and its encoder codes the symbol. -/
theorem lzeCommandsCodeTheirSymbol : Obligations.LzeCommandsCodeTheirSymbol := by
  intro s hs hflushed
  refine ⟨fun h => ?_, fun d n h => ?_, fun r n h => ?_, fun h => ?_, ?_⟩
  · rw [← encLit_eq, show exec .lzeLit s = execLzeLit s from rfl, execLzeLit]
    exact runCommand_encodeOne hs hflushed rfl (decide_eq_true (by exact h))
  · obtain ⟨h1, h2, h273, hhist, hend, hrep⟩ := h
    rw [← encMatch_eq h2, show exec (.lzeMatch d n) s = execLzeMatch d n s from rfl, execLzeMatch]
    refine runCommand_encodeOne hs hflushed (operandsOk_iff.mpr ⟨h1, h2, h273⟩) ?_
    exact repeatsAt_iff.mpr ⟨hhist, hend, hrep⟩
  · obtain ⟨hr, h2, h273, hhist, hend, hrep⟩ := h
    rw [← encRep_eq hr h2, show exec (.lzeRep r n) s = execLzeRep r n s from rfl, execLzeRep]
    refine runCommand_encodeOne hs hflushed (operandsOk_iff.mpr ⟨h2, h273⟩) ?_
    exact repeatsAt_iff.mpr ⟨hhist, hend, hrep⟩
  · obtain ⟨hhist, hend, hbyte⟩ := h
    rw [← encShortrep_eq, show exec .lzeShortrep s = execLzeShortrep s from rfl, execLzeShortrep]
    refine runCommand_encodeOne hs hflushed rfl ?_
    exact repeatsAt_iff.mpr ⟨hhist, hend, repeats_one.mpr hbyte⟩
  · rw [← encEos_eq, show exec .lzeEos s = execLzeEos s from rfl, execLzeEos]
    exact runCommand_encodeOne (pre := fun _ => true) hs hflushed rfl rfl

end Sys2Proof.Machine
end

section
/-! PROOFS. The stream decoders on what symbols code: LZMA.DECODE on a flushed payload, and L2.DEC_CHUNK on a legal chunk and on the end
marker (R350, R640, R650, R661, R830 to R836, R854). -/

namespace Sys2Proof.Machine

/-! ## LZMA.DECODE (R661) -/

/-- Settles O52: a flush ends the payload of any symbols, and the decoder reads such a payload back. -/
theorem lzmaDecodeDecodesWhatWasCoded : Obligations.LzmaDecodeDecodesWhatWasCoded := by
  intro s a n x rest ys hs ha _ _ _ l hcod htotal hcap _ hn e payload hinput
  have hlane : l = rawLane a x := by
    simp only [l, rawLane, ha]
  have hend : e = rawEnd a x ys (n = BitVec.allOnes 48) := by
    simp only [e, rawEnd, hlane, decide_eq_true_eq]
  refine exec_lzmaDecode_coded hs ha (hlane ▸ hcod) htotal hcap (fun hne => hn.resolve_right hne) ?_ hinput
  rw [← hend]
  exact encFlush_endsAt (hend ▸ rawEnd_encOk.1)

/-! ## L2.DEC_CHUNK (R854) -/

/-- The end of L2.DEC_CHUNK's rule, once its chunk is decoded or the end marker read (R854). -/
def chunkAnswer (r : Option Chunk) (t : State) : Res State (BitVec 64) :=
  match r with
  | none => answer 0 t.initLane0
  | some k => answer (k.ctl.toNat + k.size * 2 ^ 8) t

/-- L2.DEC_CHUNK's rule: the decoding of its chunk, and its answer (R854). -/
theorem exec_l2DecChunk_rule {s : State} {a : Act} (ha : s.act = some a) :
    ∃ body : Body, exec .l2DecChunk s = runCommand .l2DecChunk body s ∧
      body s.begin = (atChunk { index := (decoderLane s).l2d.chunkIndex.toNat, offset := 0 } (decodeChunk a s.decoding)).bind
        chunkAnswer := by
  have hexec : exec .l2DecChunk s = execL2DecChunk s := rfl
  rw [execL2DecChunk] at hexec
  refine ⟨_, hexec, ?_⟩
  rw [withAct_some (a := a) (by exact ha)]
  simp only [openDecoder_eq]
  rfl

section
variable {s : State} {a : Act} (ha : s.act = some a) (he : s.lane0.l2e.active = false)
include ha he

/-- L2.DEC_CHUNK completes as the decoding of its chunk does (R854). -/
theorem exec_l2DecChunk_completes {r : Option Chunk} {t : State} {took v : Nat} {bs : List Byte} {l : Lane}
    (h : decodeChunk a s.decoding = .ok r t) (ht : took ≤ s.input.length)
    (hend : chunkAnswer r t = .ok (BitVec.ofNat 64 v) (s.working took bs l)) :
    exec .l2DecChunk s = .next (s.completed took bs v l) := by
  obtain ⟨body, hexec, hbody⟩ := exec_l2DecChunk_rule ha
  rw [hexec]
  refine runCommand_completed (precheck_l2DecChunk ha he) ht ?_
  rw [hbody, h]
  exact hend

/-- The end marker closes the session (R831, R854). -/
theorem exec_l2DecChunk_endMarker {rest : List Byte} (hinput : s.input = 0x00#8 :: rest) :
    exec .l2DecChunk s = .next (s.completed 1 [] 0 (laneInit s.act)) := by
  refine exec_l2DecChunk_completes ha he (decodeChunk_endMarker (s := s.decoding) hinput) ?_ ?_
  · rw [hinput]
    exact Nat.succ_pos _
  · simp [chunkAnswer, answer, State.initLane0, State.decoding, State.begin, State.withLane0, hinput]

/-- A legal chunk is decoded to its bytes (R830, R854). -/
theorem exec_l2DecChunk_chunk {k : CodedChunk} {rest : List Byte} (hl : (decoderLane s).Between) (hk : k.Legal a (decoderLane s))
    (hcap : (decoderLane s).l2d.outTotal.toNat + k.bytes.length ≤ a.outCap.toNat) (hinput : s.input = k.wire ++ rest) :
    exec .l2DecChunk s = .next
      (s.completed k.wire.length k.bytes (k.control.toNat + k.bytes.length * 2 ^ 8) (k.after a (decoderLane s))) := by
  refine exec_l2DecChunk_completes ha he (decodeChunk_wire (s := s.decoding) hk hl hcap hinput) ?_ ?_
  · rw [hinput, List.length_append]
    exact Nat.le_add_right _ _
  · simp [chunkAnswer, answer, State.decoding, State.begin, State.withLane0, hinput, CodedChunk.toChunk]

end

/-- Settles O49: the decoder of a chunk, from the lane the session has. -/
theorem l2DecChunkDecodesAChunk : Obligations.L2DecChunkDecodesAChunk := by
  intro s a ha he l
  exact ⟨fun rest => exec_l2DecChunk_endMarker ha he,
    fun k rest hcells hcur hk hcap => exec_l2DecChunk_chunk ha he ⟨hcells, hcur⟩ hk hcap⟩

end Sys2Proof.Machine
end

section
/-! PROOFS. What the decoding of a chunk does not see: the bytes already staged and the session's registers; and that what it raises are
errors of a stream (R630, R830 to R836, R1003 to R1005). -/

namespace Sys2Proof.Machine

/-! ## Computations that do not see a part of their state -/

/-- The result with its state changed by `g`. -/
def Res.moved {σ α : Type} (g : σ → σ) : Res σ α → Res σ α
  | .ok a s => .ok a (g s)
  | .stop e s => .stop e (g s)

theorem Res.moved_eq_ok {σ α : Type} {g : σ → σ} {r : Res σ α} {a : α} {t : σ} :
    r.moved g = .ok a t ↔ ∃ s, r = .ok a s ∧ g s = t := by cases r <;> simp [moved, eq_comm]

theorem Res.moved_eq_stop {σ α : Type} {g : σ → σ} {r : Res σ α} {e : Stop} {t : σ} :
    r.moved g = .stop e t ↔ ∃ s, r = .stop e s ∧ g s = t := by cases r <;> simp [moved, eq_comm]

/-- An error the computation raises is one of a stream. -/
def Stop.OfStream : Stop → Prop
  | .raise e => e.cause.OfStream
  | _ => True

/-- The computation does not see what `g` changes: from `g s` it does as from `s`; and it raises errors of a stream only. -/
structure Blind {σ α : Type} (g : σ → σ) (f : σ → Res σ α) : Prop where
  same : ∀ s, f (g s) = (f s).moved g
  raises : ∀ s, (f s).Ends (fun _ _ => True) fun e _ => e.OfStream

section
variable {σ α β γ : Type} {g : σ → σ}

theorem Blind.pure {a : α} : Blind g (fun s => .ok a s) := ⟨fun _ => rfl, fun _ => trivial⟩

theorem Blind.raise {c : Cause} (h : c.OfStream) : Blind g (fun s => (.stop (.of c) s : Res σ α)) := ⟨fun _ => rfl, fun _ => h⟩

theorem Blind.bind {f : σ → Res σ α} {k : α → σ → Res σ β} (hf : Blind g f) (hk : ∀ a, Blind g (k a)) :
    Blind g (fun s => (f s).bind k) where
  same := fun s => by
    rw [hf.same]
    cases f s with
    | ok a t => exact (hk a).same t
    | stop e t => rfl
  raises := fun s => (hf.raises s).bind fun a t _ => (hk a).raises t

theorem Blind.ite {p : Prop} [Decidable p] {f f' : σ → Res σ α} (hf : Blind g f) (hf' : Blind g f') :
    Blind g (fun s => if p then f s else f' s) := by
  by_cases hp : p
  · simpa only [if_pos hp] using hf
  · simpa only [if_neg hp] using hf'

/-- What a computation reads of its state is the same where `g` does not change it. -/
theorem Blind.view {view : σ → γ} {f : γ → σ → Res σ α} (h : ∀ x, Blind g (f x)) (hview : ∀ s, f (view (g s)) = f (view s)) :
    Blind g (fun s => f (view s) s) where
  same := fun s => by
    rw [hview]
    exact (h (view s)).same s
  raises := fun s => (h (view s)).raises s

/-- A change to the state beside what `g` changes. -/
theorem Blind.after {f : σ → Res σ α} {q : σ → σ} (hf : Blind g f) (hq : ∀ s, q (g s) = g (q s)) : Blind g (fun s => f (q s)) where
  same := fun s => by
    rw [hq]
    exact hf.same (q s)
  raises := fun s => hf.raises (q s)

end

/-! ## Decoding on a lane, beside another session and behind other output -/

/-- The context with the session's registers `d`, and the output `o` before its own. -/
def DecCtx.beside (d : DecSession) (o : List Byte) (c : DecCtx) : DecCtx :=
  { c with lane := { c.lane with l2d := d }, out := o ++ c.out }

section
variable {d : DecSession} {o : List Byte}

theorem putBytes_beside {bs : List Byte} {c : DecCtx} : putBytes bs (c.beside d o) = (putBytes bs c).beside d o := by
  simp only [putBytes, DecCtx.beside, List.append_assoc]

theorem copyMatch_beside {dist n : Nat} {c : DecCtx} : copyMatch dist n (c.beside d o) = (copyMatch dist n c).beside d o := by
  induction n generalizing c with
  | zero => rfl
  | succ n ih =>
    have hback : (c.beside d o).lane.win = c.lane.win := rfl
    rw [copyMatch, copyMatch, hback, putBytes_beside, ih]

/-! ## Bits (R421 to R424) -/

theorem decNorm_blind : Blind (DecCtx.beside d o) decNorm where
  same := fun c => by
    have hrcd : (c.beside d o).lane.rcd = c.lane.rcd := rfl
    have hsrc : (c.beside d o).src = c.src := rfl
    simp only [decNorm, hrcd, hsrc]
    cases decNormOn c.lane.rcd c.src <;> rfl
  raises := fun c => by
    rw [decNorm]
    split <;> trivial

/-- A step that narrows the range and normalises: a decision of either kind. -/
theorem narrow_blind {α : Type} {b : Lane → α} {n : Lane → Lane} (hb : ∀ l e, b { l with l2d := e } = b l)
    (hn : ∀ l e, n { l with l2d := e } = { n l with l2d := e }) :
    Blind (DecCtx.beside d o) (fun c => (decNorm { c with lane := n c.lane }).bind fun _ c' => .ok (b c.lane) c') :=
  .view (view := fun c => b c.lane) (f := fun x c => (decNorm { c with lane := n c.lane }).bind fun _ c' => .ok x c')
    (fun _ => (decNorm_blind.after (q := fun c => { c with lane := n c.lane }) fun c =>
      congrArg (fun m => ({ lane := m, src := c.src, out := o ++ c.out } : DecCtx)) (hn c.lane d)).bind fun _ => .pure)
    fun c => by rw [show b (c.beside d o).lane = b c.lane from hb c.lane d]

theorem decBit_blind {i : Nat} : Blind (DecCtx.beside d o) (decBit i) :=
  narrow_blind (b := fun l => decChoice (splitPoint l.rcd.range (l.cell i)) l.rcd)
    (n := fun l => { l.setCell i (probUpdate (decChoice (splitPoint l.rcd.range (l.cell i)) l.rcd) (l.cell i)) with
      rcd := decSplit (splitPoint l.rcd.range (l.cell i)) l.rcd })
    (fun _ _ => rfl) fun _ _ => rfl

theorem decDirectBit_blind : Blind (DecCtx.beside d o) decDirectBit :=
  narrow_blind (b := fun l => decide (l.rcd.range.toNat / 2 ≤ l.rcd.code.toNat))
    (n := fun l => { l with rcd := { l.rcd with
      range := BitVec.ofNat 32 (l.rcd.range.toNat / 2)
      code := if decide (l.rcd.range.toNat / 2 ≤ l.rcd.code.toNat) then BitVec.ofNat 32 (l.rcd.code.toNat - l.rcd.range.toNat / 2)
        else l.rcd.code } })
    (fun _ _ => rfl) fun _ _ => rfl

theorem takeByte_blind : Blind (DecCtx.beside d o) takeByte where
  same := fun c => by
    have hsrc : (c.beside d o).src = c.src := rfl
    simp only [takeByte, hsrc]
    cases c.src <;> rfl
  raises := fun c => by
    rw [takeByte]
    split <;> trivial

theorem decInitCode_blind {n : Nat} {code : BitVec 32} : Blind (DecCtx.beside d o) (decInitCode n code) := by
  induction n generalizing code with
  | zero => exact .pure
  | succ n ih => exact takeByte_blind.bind fun _ => ih

theorem decInit_blind : Blind (DecCtx.beside d o) decInit :=
  takeByte_blind.bind fun _ => decInitCode_blind.bind fun _ => Blind.pure.after fun _ => rfl

/-! ## The coders (R520 to R552) -/

theorem decDirectFrom_blind {n r : Nat} : Blind (DecCtx.beside d o) (decDirectFrom n r) := by
  induction n generalizing r with
  | zero => exact .pure
  | succ n ih => exact decDirectBit_blind.bind fun _ => ih

theorem treeDecFrom_blind {base n m : Nat} : Blind (DecCtx.beside d o) (treeDecFrom base n m) := by
  induction n generalizing m with
  | zero => exact .pure
  | succ n ih => exact decBit_blind.bind fun _ => ih

theorem treeDec_blind {base n : Nat} : Blind (DecCtx.beside d o) (treeDec base n) := treeDecFrom_blind.bind fun _ => .pure

theorem rtreeDecFrom_blind {base n k m r : Nat} : Blind (DecCtx.beside d o) (rtreeDecFrom base n k m r) := by
  induction n generalizing k m r with
  | zero => exact .pure
  | succ n ih => exact decBit_blind.bind fun _ => ih

theorem lenDec_blind {base ps : Nat} : Blind (DecCtx.beside d o) (lenDec base ps) :=
  decBit_blind.bind fun _ => .ite
    (decBit_blind.bind fun _ => .ite (treeDec_blind.bind fun _ => .pure) (treeDec_blind.bind fun _ => .pure))
    (treeDec_blind.bind fun _ => .pure)

theorem distDec_blind {len : Nat} : Blind (DecCtx.beside d o) (distDec len) :=
  treeDec_blind.bind fun _ => .ite .pure (.ite (rtreeDecFrom_blind.bind fun _ => .pure)
    (decDirectFrom_blind.bind fun _ => rtreeDecFrom_blind.bind fun _ => .pure))

theorem litDecMatchedFrom_blind {base mb k off m : Nat} : Blind (DecCtx.beside d o) (litDecMatchedFrom base mb k off m) := by
  induction k generalizing off m with
  | zero => exact .pure
  | succ k ih => exact decBit_blind.bind fun _ => ih

theorem litDecMatched_blind {base : Nat} {mb : Byte} : Blind (DecCtx.beside d o) (litDecMatched base mb) :=
  litDecMatchedFrom_blind.bind fun _ => .pure

theorem litDec_blind {base : Nat} : Blind (DecCtx.beside d o) (litDec base) := treeDec_blind.bind fun _ => .pure

/-! ## Symbols (R630, R631) -/

/-- The computation with the state machine's registers changed from what they are. -/
theorem Blind.withLz {α : Type} {f : DecCtx → Res DecCtx α} {z : Coder → Coder} (hf : Blind (DecCtx.beside d o) f) :
    Blind (DecCtx.beside d o) (fun c => f (c.withLz (z c.lane.lz))) := hf.after fun _ => rfl

section
variable {q : SymLimits} (hq : q.tooLong.OfStream)
include hq

theorem decCopy_blind {kind : SymKind} {len : Nat} : Blind (DecCtx.beside d o) (decCopy q kind len) :=
  .view (view := DecCtx.lane)
    (f := fun l c =>
      if l.win.hist < l.lz.dist 0 then .stop (.of .beyondHistory) c
      else if q.exceeded len then .stop (.of q.tooLong) c
      else .ok ({ kind := kind, len := len, x := l.lz.dist 0 } : Symbol) (copyMatch (l.lz.dist 0) len c))
    (fun _ => .ite (.raise ⟨by decide, by decide⟩) (.ite (.raise hq) (Blind.pure.after fun _ => copyMatch_beside))) fun _ => rfl

theorem decLiteral_blind {s : Fin 12} : Blind (DecCtx.beside d o) (decLiteral q s) :=
  .view (view := DecCtx.lane)
    (f := fun l c =>
      if 7 ≤ s.val ∧ l.win.hist < l.lz.dist 0 then .stop (.of .beyondHistory) c
      else if q.exceeded 1 then .stop (.of q.tooLong) c
      else
        (if s.val < 7 then litDec (literalBase l) c else litDecMatched (literalBase l) (l.win.back (l.lz.dist 0)) c).bind fun b c =>
        .ok ({ kind := .lit, len := 1, x := b.toNat } : Symbol) ((putBytes [b] c).withLz { c.lane.lz with state := nextLit s }))
    (fun _ => .ite (.raise ⟨by decide, by decide⟩) (.ite (.raise hq) ((Blind.ite litDec_blind litDecMatched_blind).bind fun b =>
      (Blind.pure.withLz (z := fun z => { z with state := nextLit s })).after fun _ => putBytes_beside))) fun _ => rfl

theorem decMatch_blind {s : Fin 12} {ps : Nat} : Blind (DecCtx.beside d o) (decMatch q s ps) :=
  lenDec_blind.bind fun len => distDec_blind.bind fun d0 =>
    Blind.withLz (z := fun z => { z.pushRep (BitVec.ofNat 32 d0) with state := nextMatch s })
      (.ite (.ite .pure (.raise ⟨by decide, by decide⟩)) (decCopy_blind hq))

theorem decLongrep_blind {kind : SymKind} {r : Nat} {s : Fin 12} {ps : Nat} : Blind (DecCtx.beside d o) (decLongrep q kind r s ps) :=
  Blind.withLz (z := fun z => z.promote r) (lenDec_blind.bind fun _ =>
    Blind.withLz (z := fun z => { z with state := nextLongrep s }) (decCopy_blind hq))

theorem decRep_blind {s : Fin 12} {ps : Nat} : Blind (DecCtx.beside d o) (decRep q s ps) :=
  decBit_blind.bind fun _ => .ite
    (decBit_blind.bind fun _ => .ite
      (decBit_blind.bind fun _ => .ite (decLongrep_blind hq) (decLongrep_blind hq)) (decLongrep_blind hq))
    (decBit_blind.bind fun _ => .ite (decLongrep_blind hq)
      (Blind.withLz (z := fun z => { z with state := nextShortrep s }) (decCopy_blind hq)))

theorem decSymbol_blind : Blind (DecCtx.beside d o) (decSymbol q) :=
  .view (view := DecCtx.lane)
    (f := fun l c => (decBit (isMatchCell l.lz.state l.posState) c).bind fun isMatch c =>
      if isMatch then
        (decBit (isRepCell l.lz.state) c).bind fun isRep c =>
        if isRep then decRep q l.lz.state l.posState c else decMatch q l.lz.state l.posState c
      else decLiteral q l.lz.state c)
    (fun _ => decBit_blind.bind fun _ =>
      .ite (decBit_blind.bind fun _ => .ite (decRep_blind hq) (decMatch_blind hq)) (decLiteral_blind hq)) fun _ => rfl

end

theorem overrun_ofStream : Cause.overrun.OfStream := ⟨by decide, by decide⟩

theorem decExactly_blind {fuel n : Nat} : Blind (DecCtx.beside d o) (decExactly fuel n) := by
  induction fuel generalizing n with
  | zero => exact .pure
  | succ fuel ih => exact .ite .pure ((decSymbol_blind overrun_ofStream).bind fun _ => ih)

/-! ## The data of a chunk (R830, R835, R836) -/

theorem decodePayload_blind {size : Nat} : Blind (DecCtx.beside d o) (decodePayload size) :=
  decInit_blind.bind fun _ => .view (view := fun c : DecCtx => c.lane.rcd.initBad)
    (f := fun (bad : Bool) c => if bad then .stop (.of .badFirstByte) c else
      (decExactly size size c).bind fun _ c =>
      if c.src.isEmpty && c.lane.rcd.code == 0#32 then .ok () c else .stop (.of .uncleanEnd) c)
    (fun _ => .ite (.raise ⟨by decide, by decide⟩) (decExactly_blind.bind fun _ =>
      .view (view := fun c : DecCtx => c.src.isEmpty && c.lane.rcd.code == 0#32)
        (f := fun (clean : Bool) c => if clean then .ok () c else .stop (.of .uncleanEnd) c)
        (fun _ => .ite .pure (.raise ⟨by decide, by decide⟩)) fun _ => rfl)) fun _ => rfl

theorem orExhausted_blind {α : Type} {f : DecCtx → Res DecCtx α} (hf : Blind (DecCtx.beside d o) f) :
    Blind (DecCtx.beside d o) (fun c => orExhausted (f c)) where
  same := fun c => by
    rw [hf.same]
    rcases f c with ⟨a, t⟩ | ⟨_ | _ | _ | _, t⟩ <;> rfl
  raises := fun c => by
    have h := hf.raises c
    rcases hc : f c with ⟨a, t⟩ | ⟨_ | _ | _ | _, t⟩ <;> rw [hc] at h
    · trivial
    · exact (⟨by decide, by decide⟩ : Cause.payloadExhausted.OfStream)
    · trivial
    · trivial
    · exact h

/-- A payload's data, and the payload buffer after it. -/
theorem payload_blind {size : Nat} : Blind (DecCtx.beside d o) fun c =>
    (orExhausted (decodePayload size c)).bind fun _ c => .ok () { c with lane := { c.lane with pb := c.src } } :=
  (orExhausted_blind decodePayload_blind).bind fun _ => Blind.pure.after fun _ => rfl

/-- The data of a chunk, on a lane with other session registers and behind other output (R830). -/
theorem decodeData_beside {k : Chunk} {l : Lane} {out : List Byte} :
    decodeData k { l with l2d := d } (o ++ out) = (decodeData k l out).moved (DecCtx.beside d o) := by
  rw [decodeData, decodeData]
  split
  · exact payload_blind.same { lane := { l with pb := k.data }, src := k.data, out := out }
  · exact congrArg (Res.ok ()) (putBytes_beside (c := { lane := l, src := [], out := out }))

/-- What the data of a chunk raises. -/
theorem decodeData_raises {k : Chunk} {l : Lane} {out : List Byte} :
    (decodeData k l out).Ends (fun _ _ => True) fun e _ => e.OfStream := by
  rw [decodeData]
  split
  · exact (payload_blind (d := l.l2d) (o := [])).raises _
  · trivial

theorem applyResets_beside {a : Act} {k : Chunk} {l : Lane} :
    applyResets a k { l with l2d := d } = { applyResets a k l with l2d := d } := by
  simp only [applyResets]
  cases resetsDict k.ctl <;> cases k.props <;> cases resetsState k.ctl <;> rfl

end

/-! ## The reading of a chunk (R830, R832) -/

/-- The state with lane 0 as `l`, and `o` staged. -/
def State.aside (l : Lane) (o : List Byte) (t : State) : State := { t with lane0 := l, stage := o }

section
variable {l : Lane} {o : List Byte} {cap : Nat} {f : SeqFlags} {ctl : Byte}

theorem inDry_ofStream {t : State} : t.inDry.OfStream := by
  rw [State.inDry]
  split
  · exact (⟨by decide, by decide⟩ : Cause.truncated.OfStream)
  · trivial

theorem inByte_blind : Blind (State.aside l o) inByte where
  same := fun t => by
    have hinp : (t.aside l o).inp = t.inp := rfl
    simp only [inByte, hinp]
    cases t.inp <;> rfl
  raises := fun t => by
    rw [inByte]
    split
    · trivial
    · exact inDry_ofStream

theorem inBytes_blind {n : Nat} : Blind (State.aside l o) (inBytes n) where
  same := fun t => by
    have hinp : (t.aside l o).inp = t.inp := rfl
    simp only [inBytes, hinp]
    split <;> rfl
  raises := fun t => by
    rw [inBytes]
    split
    · trivial
    · exact inDry_ofStream

theorem readData_blind {size count : Nat} {props : Option Byte} : Blind (State.aside l o) (readData cap f ctl size count props) :=
  .ite (.raise ⟨by decide, by decide⟩) (inBytes_blind.bind fun _ => .pure)

theorem readRaw_blind : Blind (State.aside l o) (readRaw cap f ctl) :=
  .ite (.raise ⟨by decide, by decide⟩) (inByte_blind.bind fun _ => inByte_blind.bind fun _ => readData_blind)

theorem readLzma_blind : Blind (State.aside l o) (readLzma cap f ctl) :=
  inByte_blind.bind fun _ => inByte_blind.bind fun _ => inByte_blind.bind fun _ => inByte_blind.bind fun _ =>
    have hdata {f : SeqFlags} {size count : Nat} {props : Option Byte} : Blind (State.aside l o) fun t =>
        if count < 5 then .stop (.of .shortPayload) t else readData cap f ctl size count props t :=
      .ite (.raise ⟨by decide, by decide⟩) readData_blind
    .ite (inByte_blind.bind fun _ => .ite hdata (.raise ⟨by decide, by decide⟩))
      (.ite (.raise ⟨by decide, by decide⟩) hdata)

/-- Reading a chunk does not see lane 0 or STAGE (R830). -/
theorem readChunk_blind : Blind (State.aside l o) (readChunk cap f) :=
  inByte_blind.bind fun _ => .ite .pure
    (.ite (.raise ⟨by decide, by decide⟩) ((Blind.ite readLzma_blind readRaw_blind).bind fun _ => .pure))

end

end Sys2Proof.Machine
end

section
/-! PROOFS. L2.DECODE on one thread where L2.DEC_CHUNK raises or holds: behind legal chunks it meets what follows them as L2.DEC_CHUNK does
in a session (R830, R851, R854, R1008). -/

namespace Sys2Proof.Machine

/-! ## A chunk in a session and in a stream (R830) -/

/-- The lane with its decoder session open (R801). -/
def Lane.opened (l : Lane) : Lane := { l with l2d := { l.l2d with active := true } }

/-- The decoding of a chunk stops in its reading, or in its data (R830). -/
theorem decodeChunk_eq_stop {a : Act} {t u : State} {e : Stop} :
    decodeChunk a t = .stop e u ↔
      readChunk a.outCap.toNat (t.lane0.l2d.flags t.lane0.l2d.outTotal.toNat) t = .stop e u ∨
      ∃ k f c, readChunk a.outCap.toNat (t.lane0.l2d.flags t.lane0.l2d.outTotal.toNat) t = .ok (some (k, f)) u ∧
        decodeData k (applyResets a k u.lane0) u.stage = .stop e c := by
  rw [decodeChunk]
  change (readChunk a.outCap.toNat (t.lane0.l2d.flags t.lane0.l2d.outTotal.toNat) t).bind _ = _ ↔ _
  rcases readChunk a.outCap.toNat (t.lane0.l2d.flags t.lane0.l2d.outTotal.toNat) t with ⟨_ | ⟨k, f⟩, v⟩ | ⟨e', v⟩
  · simp
  · rw [Res.bind_ok]
    constructor
    · intro h
      dsimp only at h
      split at h
      · rename_i e' c hdata
        obtain ⟨rfl, rfl⟩ : e' = e ∧ v = u := by simpa using h
        exact .inr ⟨k, f, c, rfl, hdata⟩
      · exact nomatch h
    · rintro (h | ⟨k', f', c, h, hdata⟩)
      · exact nomatch h
      · cases h
        dsimp only
        rw [hdata]
  · simp

/-- The decoding of a chunk raises errors of a stream only (R1003 to R1005). -/
theorem decodeChunk_raises {a : Act} {t u : State} {e : Stop} (h : decodeChunk a t = .stop e u) : e.OfStream := by
  rcases decodeChunk_eq_stop.mp h with hread | ⟨k, f, c, -, hdata⟩
  · exact ((readChunk_blind (l := t.lane0) (o := [])).raises t).of_stop hread
  · exact decodeData_raises.of_stop hdata

/-- Where the decoding of a chunk stops in an open session that has staged nothing, it stops outside one, behind what is staged. -/
theorem decodeChunk_stop_of_opened {a : Act} {t u : State} {e : Stop} (h : decodeChunk a (t.aside t.lane0.opened []) = .stop e u) :
    ∃ v, decodeChunk a t = .stop e v ∧ v.inp = u.inp := by
  have hsame := (readChunk_blind (l := t.lane0.opened) (o := []) (cap := a.outCap.toNat)
    (f := t.lane0.l2d.flags t.lane0.l2d.outTotal.toNat)).same t
  rcases decodeChunk_eq_stop.mp h with hread | ⟨k, f, c, hread, hdata⟩
  · obtain ⟨v, hv, rfl⟩ := Res.moved_eq_stop.mp (hsame.symm.trans hread)
    exact ⟨v, decodeChunk_eq_stop.mpr (.inl hv), rfl⟩
  · obtain ⟨v, hv, rfl⟩ := Res.moved_eq_ok.mp (hsame.symm.trans hread)
    obtain ⟨rest, -, rfl⟩ := (readChunk_gives.of_ok hv).1
    have hbeside := decodeData_beside (k := k) (l := applyResets a k t.lane0.opened) (d := t.lane0.l2d) (o := t.stage) (out := [])
    rw [← applyResets_beside, List.append_nil] at hbeside
    replace hdata : decodeData k (applyResets a k t.lane0.opened) [] = .stop e c := hdata
    rw [hdata] at hbeside
    exact ⟨_, decodeChunk_eq_stop.mpr (.inr ⟨k, f, _, hv, hbeside⟩), rfl⟩

/-! ## Behind legal chunks (R830, R851) -/

/-- The loop of L2.DECODE goes through a row of legal chunks, a turn each (R851). -/
theorem decodeStream_through {s : State} {a : Act} {ks : List CodedChunk} {tail : List Byte} {read fuel : Nat}
    (hk : CodedChunk.AllLegal a ks s.lane0) (hs : s.lane0.Between)
    (hcap : s.lane0.l2d.outTotal.toNat + (CodedChunk.allBytes ks).length ≤ a.outCap.toNat)
    (hinp : s.inp = CodedChunk.wires ks ++ tail) (hfuel : ks.length < fuel) :
    ∃ f, decodeStream a read fuel s = decodeStream a read (f + 1)
      { s with
        inp := tail, lane0 := CodedChunk.afterAll a ks s.lane0, stage := s.stage ++ CodedChunk.allBytes ks } := by
  obtain ⟨g, rfl⟩ : ∃ g, fuel = g + 1 := ⟨fuel - 1, by omega⟩
  induction ks generalizing s g with
  | nil =>
    refine ⟨g, ?_⟩
    rw [CodedChunk.wires_nil, List.nil_append] at hinp
    rw [CodedChunk.allBytes_nil, List.append_nil, ← hinp]
    rfl
  | cons k ks ih =>
    obtain ⟨hk, hks⟩ := hk
    rw [CodedChunk.allBytes_cons, List.length_append] at hcap
    rw [CodedChunk.wires_cons, List.append_assoc] at hinp
    rw [List.length_cons] at hfuel
    obtain ⟨g, rfl⟩ : ∃ h, g = h + 1 := ⟨g - 1, by omega⟩
    obtain ⟨f, hnext⟩ := ih (s := { s with
      inp := CodedChunk.wires ks ++ tail, lane0 := k.after a s.lane0, stage := s.stage ++ k.bytes }) hks
      (hk.dataOk.after_between hs) (by rw [CodedChunk.outTotal_after (cap := a.outCap) (by omega)]; omega) rfl g (by omega)
    refine ⟨f, ?_⟩
    rw [decodeStream, decodeChunk_wire hk hs (by omega) hinp]
    rw [List.append_assoc] at hnext
    exact hnext

/-- Coding symbols does not see a session's registers. -/
theorem codedAll_opened {ys : List Sym} {l : Lane} : codedAll ys l.opened = (codedAll ys l).opened := by
  induction ys generalizing l with
  | nil => rfl
  | cons y ys ih =>
    have hcoded : y.coded l.opened = (y.coded l).opened := by
      have hds : y.decisions l.opened = y.decisions l := rfl
      simp only [Sym.coded, hds]
      rw [codeDecisions_congr (m := l.opened) (l := l) rfl rfl, codeDecisions_frame (l := l)]
      rfl
    rw [codedAll_cons, hcoded, ih, codedAll_cons]

theorem CodedChunk.after_opened {k : CodedChunk} {a : Act} {l : Lane} : k.after a l.opened = (k.after a l).opened := by
  cases k with
  | raw reset x => rfl
  | lzma level pr ys x payload =>
    have henc : (head level pr x payload).encoder a x l.opened = ((head level pr x payload).encoder a x l).opened := rfl
    simp only [CodedChunk.after, henc, codedAll_opened]
    rfl

/-- Chunks in a row leave an open session open (R801). -/
theorem CodedChunk.afterAll_opened {a : Act} {ks : List CodedChunk} {l : Lane} :
    CodedChunk.afterAll a ks l.opened = (CodedChunk.afterAll a ks l).opened := by
  induction ks generalizing l with
  | nil => rfl
  | cons k ks ih =>
    rw [CodedChunk.afterAll_cons, CodedChunk.afterAll_cons, CodedChunk.after_opened, ih]

/-- Decoding chunks leaves the encoder's session (R130). -/
theorem CodedChunk.afterAll_l2e {a : Act} {ks : List CodedChunk} {l : Lane} : (CodedChunk.afterAll a ks l).l2e = l.l2e := by
  induction ks generalizing l with
  | nil => rfl
  | cons k ks ih =>
    rw [CodedChunk.afterAll_cons, ih]
    cases k <;> rfl

/-- A stop that is given the chunk it is attributed to, where it is an error (R1008). -/
def Stop.placedAt (p : ChunkPlace) : Stop → Stop
  | .raise e => .raise { e with place := some p }
  | e => e

theorem atChunk_stop {σ α : Type} {p : ChunkPlace} {e : Stop} {s : σ} : atChunk p (.stop e s : Res σ α) = .stop (e.placedAt p) s := by
  cases e <;> rfl

section
variable {s : State} {a : Act} {ks : List CodedChunk} {tail : List Byte}

/-- The state in which L2.DEC_CHUNK, in a session, meets what follows the chunks `ks`. -/
def State.behind (s : State) (a : Act) (ks : List CodedChunk) (tail : List Byte) : State :=
  { s with inp := tail, holding := none, lane0 := CodedChunk.afterAll a ks (laneInit s.act).opened }

/-- The state in which L2.DECODE meets what follows the chunks `ks`. -/
def State.streaming (s : State) (a : Act) (ks : List CodedChunk) (tail : List Byte) : State :=
  { s.begin.initLane0 with
    inp := tail, lane0 := CodedChunk.afterAll a ks (laneInit s.act), stage := CodedChunk.allBytes ks }

theorem behind_lane0 : (s.behind a ks tail).lane0 = (s.streaming a ks tail).lane0.opened := CodedChunk.afterAll_opened

theorem behind_decoderLane : decoderLane (s.behind a ks tail) = (s.streaming a ks tail).lane0.opened := by
  rw [decoderLane, behind_lane0]
  rfl

theorem behind_decoding :
    (s.behind a ks tail).decoding = (s.streaming a ks tail).aside (s.streaming a ks tail).lane0.opened [] := by
  rw [State.decoding, behind_decoderLane]
  rfl

end

/-! ## L2.DEC_CHUNK, and L2.DECODE on one thread (R851, R854, R1008) -/

/-- How L2.DEC_CHUNK ends: without an error, or as the decoding of its chunk stops (R854). -/
theorem exec_l2DecChunk_ends {s t : State} {a : Act} (ha : s.act = some a) (he : s.lane0.l2e.active = false)
    (h : exec .l2DecChunk s = .next t) :
    (t.err = s.err ∧ t.holding = none) ∨
    (∃ e u, decodeChunk a s.decoding = .stop (.raise e) u ∧
      t = takeError (encode .l2DecChunk) (s.input.length - u.inp.length)
        { e with place := some { index := (decoderLane s).l2d.chunkIndex.toNat, offset := 0 } } u) ∨
    (t = s.held ∧ ∃ u, decodeChunk a s.decoding = .stop .hold u) := by
  obtain ⟨body, hexec, hbody⟩ := exec_l2DecChunk_rule ha
  have hlane := decodeChunk_decodesLane (a := a) (t := s.decoding)
  rw [hexec, runCommand, precheck_l2DecChunk ha he, hbody] at h
  cases hdec : decodeChunk a s.decoding with
  | ok r u =>
    have hwork := (hlane.of_ok hdec).1
    have herr : u.err = s.err := by rw [hwork.eq]; rfl
    have hhold : u.holding = none := by rw [hwork.eq]; rfl
    rw [hdec] at h
    cases r <;> cases h <;> exact .inl ⟨herr, hhold⟩
  | stop e u =>
    rw [hdec, atChunk_stop, Res.bind_stop] at h
    have hat : e.AtIn s.decoding := (hlane.of_stop hdec).2
    cases e with
    | dry => exact hat.elim
    | hold =>
      cases h
      exact .inr (.inr ⟨rfl, u, rfl⟩)
    | noProgress => exact nomatch h
    | raise e =>
      cases h
      exact .inr (.inl ⟨e, u, rfl, rfl⟩)

section
variable {s : State} {a : Act} {ks : List CodedChunk} {tail : List Byte} (hs : s.unitsFree) (ha : s.act = some a)
  (hthreads : a.threadCount = 1#32) (hk : CodedChunk.AllLegal a ks (laneInit s.act))
  (hcap : (CodedChunk.allBytes ks).length ≤ a.outCap.toNat) (hinput : s.input = CodedChunk.wires ks ++ tail)
include ha hthreads hk hcap hinput

/-- Behind the chunks L2.DECODE stops as L2.DEC_CHUNK does, with the chunk's own place (R851, R1008). -/
theorem exec_l2Decode_stops {e : Stop} {u : State} (h : decodeChunk a (s.behind a ks tail).decoding = .stop e u) :
    ∃ (body : Body) (v : State), exec .l2Decode s = runCommand .l2Decode body s ∧
      body s.begin = .stop (e.placedAt ⟨(decoderLane (s.behind a ks tail)).l2d.chunkIndex.toNat, (CodedChunk.wires ks).length⟩) v ∧
      s.begin.LaneWork v ∧ v.inp = u.inp := by
  rw [behind_decoding] at h
  obtain ⟨v, hdec, hinp⟩ := decodeChunk_stop_of_opened h
  have hwork : s.begin.LaneWork (s.streaming a ks tail) := ⟨rfl, by
    show tail <:+ s.input
    rw [hinput]
    exact List.suffix_append _ _⟩
  refine ⟨_, v, rfl, ?_, hwork.trans (decodeChunk_decodesLane.of_stop hdec).1, hinp⟩
  have hlane : s.begin.initLane0.lane0 = laneInit (some a) := by rw [State.initLane0_lane0, State.begin_act, ha]
  obtain ⟨f, hthrough⟩ := decodeStream_through (s := s.begin.initLane0) (a := a) (ks := ks) (tail := tail)
    (read := s.begin.inp.length) (fuel := s.begin.inp.length + 1) hk (hlane ▸ laneInit_between)
    (by rw [hlane]; simpa [laneInit, DecSession.fresh] using hcap) hinput (by
      have := CodedChunk.length_le_wires (ks := ks)
      rw [State.begin_inp, hinput, List.length_append]
      omega)
  have hoffset : s.begin.inp.length - tail.length = (CodedChunk.wires ks).length := by
    rw [State.begin_inp, hinput, List.length_append, Nat.add_sub_cancel]
  have hloop : decodeStream a s.begin.inp.length (f + 1) (s.streaming a ks tail) = .stop (e.placedAt
      ⟨(decoderLane (s.behind a ks tail)).l2d.chunkIndex.toNat, (CodedChunk.wires ks).length⟩) v := by
    rw [decodeStream, hdec, atChunk_stop, Res.bind_stop, behind_decoderLane, ← hoffset]
    rfl
  rw [l2DecodeBody, withAct_some (s := s.begin) ha, if_pos hthreads]
  exact congrArg (fun r => Res.bind r _) (hthrough.trans hloop)

include hs

/-- Where L2.DEC_CHUNK raises, L2.DECODE raises the same at the chunk's place (R1008). -/
theorem exec_l2Decode_raises {e : Raised} {u : State} {took : Nat}
    (h : decodeChunk a (s.behind a ks tail).decoding = .stop (.raise e) u) (hin : u.inp = tail.drop took) (htook : took ≤ tail.length) :
    exec .l2Decode s = .next (s.failedWith ((CodedChunk.wires ks).length + took) e.errCode.toNat (CodedChunk.wires ks).length
      (min (decoderLane (s.behind a ks tail)).l2d.chunkIndex.toNat (2 ^ 32 - 1))) := by
  obtain ⟨body, v, hexec, hbody, hwork, hv⟩ := exec_l2Decode_stops ha hthreads hk hcap hinput h
  obtain ⟨hillegal, hconfig⟩ : e.cause.OfStream := decodeChunk_raises h
  have hinp : v.inp = s.input.drop ((CodedChunk.wires ks).length + took) := by
    rw [hv, hin, hinput, ← List.drop_drop, List.drop_left]
  rw [hexec, runCommand_failedWith (precheck_unitsFree hs rfl) hbody hillegal (took := (CodedChunk.wires ks).length + took)
    (by rw [← hinp, hwork.eq]) (by rw [hwork.eq]; rfl) (by rw [hinput, List.length_append]; omega)]
  refine congrArg _ (failedWith_congr ?_ ?_ ?_)
  · rfl
  · rw [BitVec.ofNat_toNat, BitVec.setWidth_eq]
    cases hcls : e.cause.cls with
    | illegal => exact absurd hcls hillegal
    | config => exact absurd hcls hconfig
    | corrupt | reference | capacity => simp only [Raised.errInfo, hcls]
  · rw [BitVec.ofNat_toNat, BitVec.setWidth_eq]
    rfl

end

/-- Settles O44: a row of chunks is decoded on any number of threads, and what follows it is met as L2.DEC_CHUNK meets it. -/
theorem l2DecodeDecodesChunks : Obligations.L2DecodeDecodesChunks := by
  intro s a ks hs ha hk bytes wires hcap
  refine ⟨fun rest hthreads hinput => exec_l2Decode_wires hs ha hthreads hk hcap hinput, ?_⟩
  intro tail hthreads herr hinput l v
  have hv : v = s.behind a ks tail := rfl
  have hl2e : v.lane0.l2e.active = false := by
    rw [hv, behind_lane0]
    show (CodedChunk.afterAll a ks (laneInit s.act)).l2e.active = false
    rw [CodedChunk.afterAll_l2e, ha]
    rfl
  have hends {t : State} (h : exec .l2DecChunk v = .next t) := exec_l2DecChunk_ends (s := v) ha hl2e h
  refine ⟨fun took code unit htook h => ?_, fun h => ?_⟩
  · rcases hends h with ⟨hok, -⟩ | ⟨e, u, hdec, ht⟩ | ⟨ht, -⟩
    · exact absurd (hok.trans herr) nofun
    · have hin : u.inp = tail.drop took := by
        have := congrArg State.inp ht
        rw [takeError_inp] at this
        exact this.symm
      rw [exec_l2Decode_raises hs ha hthreads hk hcap hinput hdec hin htook]
      refine congrArg _ (failedWith_congr ?_ rfl ?_)
      · have := congrArg State.errCode ht
        rw [takeError_errCode] at this
        rw [BitVec.ofNat_toNat, BitVec.setWidth_eq]
        exact this.symm
      · have := congrArg State.errUnit ht
        rw [takeError_errUnit] at this
        exact this.symm
    · have : true = v.err := congrArg State.err ht
      exact absurd (this.trans herr) nofun
  · rcases hends h with ⟨-, hok⟩ | ⟨e, u, hdec, ht⟩ | ⟨-, u, hdec⟩
    · exact nomatch hok
    · have : v.err = true := (congrArg State.err ht).trans takeError_err
      exact absurd (herr.symm.trans this) nofun
    · obtain ⟨body, w, hexec, hbody, -, -⟩ := exec_l2Decode_stops ha hthreads hk hcap hinput hdec
      rw [hexec]
      exact runCommand_held (precheck_unitsFree hs rfl) hbody

end Sys2Proof.Machine
end

section
/-! PROOFS. The range encoder's commands: RCE.RESET, RCE.BIT, RCE.DIRECT, RCE.FLUSH and RCE.PENDING, and the probability update (R401 to R408,
R410 to R415). -/

namespace Sys2Proof.Machine

/-! ## The probability update (R403) -/

/-- The update's result fits a cell, so that nothing of it is cut off (R403). -/
theorem probUpdate_toNat {b : Bool} {p : BitVec 11} (h : 1 ≤ p.toNat) :
    (probUpdate b p).toNat = if b then p.toNat - p.toNat / 32 else p.toNat + (2048 - p.toNat) / 32 := by
  have hp := p.isLt
  cases b <;> simp only [probUpdate, Bool.false_eq_true, if_false, if_true, BitVec.toNat_ofNat] <;> omega

/-- Settles O22: the bounds are those of the update's two formulas. -/
theorem probabilityUpdateBounds : Obligations.ProbabilityUpdateBounds := by
  intro p h
  refine ⟨probUpdate_toNat h, probUpdate_toNat h, fun b => probUpdate_pos h, fun hlo hhi b => ?_, by decide, by decide⟩
  rw [probUpdate_toNat h]
  cases b <;> simp only [Bool.false_eq_true, if_false, if_true] <;> omega

/-! ## Commands that need an encoder which is not flushed (R412 to R415) -/

section
variable {i : Instr} {body : Body} {s : State} {r : Res State (BitVec 64)} (hp : precheck i s = none)
  (hb : body s.begin = require (!s.lane0.rce.flushed) .coderCondition s.begin r)
include hp hb

theorem runCommand_unflushed {v : Nat} {bs : List Byte} {l : Lane} (hflushed : s.lane0.rce.flushed = false)
    (hr : r = .ok (BitVec.ofNat 64 v) (s.working 0 bs l)) : runCommand i body s = .next (s.completed 0 bs v l) := by
  refine runCommand_completed hp (Nat.zero_le _) ?_
  rw [hb, hflushed, Bool.not_false, require_true, hr]

theorem runCommand_flushed (hflushed : s.lane0.rce.flushed = true) : runCommand i body s = .next (s.refusedBy i 0x06) := by
  refine runCommand_refusedBy (c := .coderCondition) rfl (.inr ⟨hp, ?_⟩)
  rw [hb, hflushed, Bool.not_true, require_false]

end

/-! ## RCE.BIT (R412) -/

/-- Settles O23: the split point lies inside the range, so the decision takes its part of the interval. -/
theorem rceBitTakesASubInterval : Obligations.RceBitTakesASubInterval := by
  intro s pi b hs hrange e p bound hok hpos
  rw [show exec (.rceBit pi b) s = execRceBit pi b s from rfl, execRceBit]
  have hpre : precheck (.rceBit pi b) s = none := precheck_unitsFree hs (operandsOk_iff.mpr hrange)
  obtain ⟨hb, hlt⟩ := splitPoint_bounds (p := s.lane0.cell pi.toNat) hok.1 hpos
  have hcell : probUpdate b (s.lane0.cell pi.toNat) = BitVec.ofNat 11 (if b then p - p / 2 ^ 5 else p + (2048 - p) / 2 ^ 5) := by
    rw [probUpdate]
    cases b <;> rfl
  refine ⟨fun hflushed => ⟨encNorm (encSplit bound b e), encSplit_takes hok (Nat.le_trans (by decide) hb) hlt, ?_⟩,
    fun hflushed => runCommand_flushed hpre rfl hflushed⟩
  rw [← hcell]
  exact runCommand_unflushed hpre rfl hflushed rfl

/-! ## RCE.DIRECT (R414) -/

/-- What has taken a sub-interval and normalised is sound (R401). -/
theorem RangeEnc.Takes.ok {e e' : RangeEnc} {add r : Nat} (h : e.Takes e' add r) : e'.Ok := by
  obtain ⟨_, -, -, -, -, -, -, hok⟩ := h
  exact hok

/-- The direct bits one by one, the encoder sound between them (R407). -/
theorem encDirectBits_coded {v n : Nat} {e : RangeEnc} (h : e.Ok) : DirectCoded v n e (encDirectBits v n e) := by
  induction n generalizing e with
  | zero => rfl
  | succ n ih =>
    have htakes := encDirectBit_takes (b := v.testBit n) h
    exact ⟨_, htakes, ih htakes.ok⟩

/-- Settles O24: the encoder codes the bits one by one. -/
theorem rceDirectHalvesTheInterval : Obligations.RceDirectHalvesTheInterval := by
  intro s v n hs hrange hok
  rw [show exec (.rceDirect v n) s = execRceDirect v n s from rfl, execRceDirect]
  have hpre : precheck (.rceDirect v n) s = none := precheck_unitsFree hs (operandsOk_iff.mpr hrange)
  exact ⟨fun hflushed => ⟨_, encDirectBits_coded hok, runCommand_unflushed hpre rfl hflushed rfl⟩, runCommand_flushed hpre rfl⟩

/-! ## RCE.RESET, RCE.PENDING and RCE.FLUSH (R410, R413, R415) -/

theorem exec_rceReset {s : State} (hs : s.unitsFree) :
    exec .rceReset s = .next (s.completed 0 [] 0 { s.lane0 with rce := RangeEnc.fresh }) := by
  rw [show exec .rceReset s = execRceReset s from rfl, execRceReset]
  exact runCommand_completed (precheck_unitsFree hs rfl) (Nat.zero_le _) rfl

theorem exec_rcePending {s : State} (hs : s.ready) :
    (s.lane0.rce.flushed = false →
      exec .rcePending s = .next (s.completed 0 [] (pendingSize s.lane0.rce) s.lane0)) ∧
    (s.lane0.rce.flushed = true → exec .rcePending s = .next (s.refusedBy .rcePending 0x06)) := by
  rw [show exec .rcePending s = execRcePending s from rfl, execRcePending]
  have hpre : precheck .rcePending s = none := precheck_reader hs rfl rfl
  exact ⟨fun hflushed => runCommand_unflushed hpre rfl hflushed rfl, runCommand_flushed hpre rfl⟩

theorem exec_rceFlush {s : State} (hs : s.unitsFree) :
    (s.lane0.rce.flushed = false →
      exec .rceFlush s = .next (s.completed 0 (encFlush s.lane0.rce).cbuf (encFlush s.lane0.rce).cbuf.length
        { s.lane0 with rce := { encFlush s.lane0.rce with cbuf := [], flushed := true } })) ∧
    (s.lane0.rce.flushed = true → exec .rceFlush s = .next (s.refusedBy .rceFlush 0x06)) := by
  rw [show exec .rceFlush s = execRceFlush s from rfl, execRceFlush]
  have hpre : precheck .rceFlush s = none := precheck_unitsFree hs rfl
  exact ⟨fun hflushed => runCommand_unflushed hpre rfl hflushed rfl, runCommand_flushed hpre rfl⟩

/-- Settles O25: the flush shifts out the encoder's value, and each command says what it leaves. -/
theorem rceResetPendingFlush : Obligations.RceResetPendingFlush := by
  refine ⟨fun s hs => exec_rceReset hs, fun s hs => (exec_rcePending hs).1, fun s hs => (exec_rcePending hs).2, ?_⟩
  intro s hs e hok
  obtain ⟨hvalue, hlen, hrange, -, hlow, hcache, hsize, hmore⟩ := encFlush_spec (e := s.lane0.rce) hok
  obtain ⟨hflush, hrefused⟩ := exec_rceFlush hs
  refine ⟨fun hflushed => ⟨(encFlush s.lane0.rce).cbuf, hlen, hvalue, hmore, ?_⟩, hrefused⟩
  rw [hflush hflushed]
  simp only [hrange, hlow, hcache, hsize]
  rfl

end Sys2Proof.Machine
end

section
/-! PROOFS. The range coder from end to end: decisions coded from a fresh encoder and flushed are read back (R400, R408, R420, R424, R425). -/

namespace Sys2Proof.Machine

/-- Each decision is read back as its bit (R422, R423). -/
theorem Decision.reads_bit {d : Decision} : Reads [d] d.read d.bit := by
  cases d with
  | cell i b => exact reads_cell
  | direct b => exact reads_direct

/-- Decisions one after another are read back as their bits. -/
theorem reads_decisions {ds : List Decision} : Reads ds (readDecisions ds) (ds.map Decision.bit) := by
  induction ds with
  | nil => exact Reads.pure
  | cons d ds ih => exact d.reads_bit.bind (ih.map (g := fun bs => d.bit :: bs))

/-- Settles O30: the flush's bytes end at the encoder, so the decoder that reads the decisions back has taken them all. -/
theorem rangeCoderRoundTrip : Obligations.RangeCoderRoundTrip := by
  intro l m ds out hfresh hcells hprob e payload
  have hok : l.EncOk := ⟨hfresh ▸ rangeEnc_fresh_ok, hcells⟩
  have he : e.EncOk := codeDecisions_encOk hok
  have hends : e.rce.EndsAt payload := encFlush_endsAt he.1
  have hreach := hends.reaches he.1
  obtain ⟨code, hinit, hstart⟩ := decInit_inStep (rest := []) (c := { lane := m, src := payload, out := out }) hok hfresh
    (reaches_of_codeDecisions hok hreach) hprob (List.append_nil _).symm
  obtain ⟨p, range, code', src, hread, hstep⟩ := reads_decisions payload [] l _ hstart hreach
  obtain ⟨hcode, hsrc⟩ := hstep.at_end hends
  have hp : p = e.prob := hstep.prob
  have hrange : range = e.rce.range := hstep.follows.1
  have hcode : code' = 0#32 := hcode
  refine ⟨_, by rw [hinit, Res.bind_ok]; exact hread, hsrc, rfl, ?_⟩
  rw [hp, hrange, hcode]
  rfl

end Sys2Proof.Machine
end

section
/-! PROOFS. LZD.SYMBOL and LZD.RUN on symbols that were coded: from where the encoder stood to where it stands after them (R601, R602, R630,
R632, R633, R640). -/

namespace Sys2Proof.Machine

section
variable {s : State} {l : Lane} {payload src rest : List Byte}

/-- Lane 0, with IN as its source, tracks an encoder that it mirrors (R630). -/
theorem State.tracks_of_mirrors (h : Mirrors s.lane0 l) (hok : l.EncOk) (hf : s.lane0.rcd.Follows l.rce payload src)
    (hinput : s.input = src ++ rest) : Tracks payload rest l s.begin.decCtx := by
  obtain ⟨hprob, hlz, hwin, -⟩ := h
  have hsrc := hf.2.1
  subst hsrc
  exact ⟨⟨hok, hprob, hf, hinput⟩, hlz, hwin⟩

/-- The checks of the LZD commands pass on a decoder that mirrors an encoder (R632, R633). -/
theorem decoderReady_of_mirrors {k : Res State (BitVec 64)} (hinit : s.lane0.rcd.inited = true) (h : Mirrors s.lane0 l) :
    decoderReady s.begin k = k := by
  obtain ⟨-, -, -, hend⟩ := h
  exact decoderReady_passes hinit hend

/-- A command that runs a decoding computation on lane 0, where the computation moves lane 0 from the encoder lane `l` to `e`: it takes the
bytes of the payload that the encoder shifted out between the two. -/
theorem runCommand_onIn_moves {α : Type} {i : Instr} {body : Body} {k : α → Body} {f : DecCtx → Res DecCtx α} {a : α} {e : Lane}
    {code : BitVec 32} {src' bs : List Byte} {v : Nat} (hp : precheck i s = none) (hb : body s.begin = (onIn f s.begin).bind k)
    (hk : ∀ u, k a u = answer v u) (hfollows : s.lane0.rcd.Follows l.rce payload src) (hinput : s.input = src ++ rest)
    (hle : l.rce.digits.length ≤ e.rce.digits.length)
    (h : f s.begin.decCtx = .ok a (s.begin.decCtx.movedTo e code src' bs) ∧
      Tracks payload rest e (s.begin.decCtx.movedTo e code src' bs)) :
    ∃ d' left, d'.Follows e.rce payload left ∧ d'.inited = s.lane0.rcd.inited ∧
      runCommand i body s = .next (s.completed (src.length - left.length) bs v
        { s.lane0 with prob := e.prob, lz := e.lz, win := e.win.behind, rcd := d' }) := by
  obtain ⟨hf, htracks⟩ := h
  obtain ⟨-, hsrc, -, -⟩ := hfollows
  have hsuffix : payload.drop (e.rce.digits.length + 4) <:+ src := by
    rw [hsrc]
    exact List.drop_suffix_drop_left _ (by omega)
  have htook : src.length - (payload.drop (e.rce.digits.length + 4)).length ≤ src.length := Nat.sub_le _ _
  have hleft : src' = s.input.drop (src.length - (payload.drop (e.rce.digits.length + 4)).length) := by
    rw [show src' = _ from htracks.src, hinput, List.drop_append_of_le_length htook, ← eq_drop_of_suffix hsuffix]
  refine ⟨_, _, htracks.follows, rfl, runCommand_completed hp ?_ ?_⟩
  · rw [hinput, List.length_append]
    exact Nat.le_trans htook (Nat.le_add_right _ _)
  · rw [hb, onIn_ok hf, Res.bind_ok, hk, answer, hleft]
    rfl

end

/-! ## LZD.SYMBOL (R632) -/

/-- RESULT of the symbol that `DecSymbol` answers (R632). -/
theorem Sym.symbolWord_answer {y : Sym} {l : Lane} (h : y.Codable l) : symbolWord (y.answer l) = y.word l := by
  cases y with
  | rep r n =>
    obtain ⟨hr, -⟩ := h
    match r, hr with
    | 0, _ | 1, _ | 2, _ | 3, _ => rfl
  | eos =>
    show 7 + 0 * 2 ^ 16 + 0xFFFFFFFF * 2 ^ 32 = 7 + 0xFFFFFFFF * 2 ^ 32
    decide
  | lit | mtch | shortrep => rfl

theorem Sym.coded_digits_le {y : Sym} {l : Lane} (h : l.EncOk) : l.rce.digits.length ≤ (y.coded l).rce.digits.length := by
  rw [Sym.coded_rce]
  exact codeDecisions_digits_le h

/-- The limit of LZD.SYMBOL lets a symbol pass that is no longer than its operand says (R632). -/
theorem symbolLimits_admit {n : Nat} {y : Sym} (h : n = 0 ∨ y.len ≤ n) : (symbolLimits n).Admit y := by
  refine ⟨?_, fun _ => rfl⟩
  rw [SymLimits.exceeded_eq, symbolLimits]
  by_cases hn : n = 0
  · rw [if_pos hn]
    rfl
  · rw [if_neg hn]
    exact decide_eq_false (Nat.not_lt.mpr (h.resolve_left hn))

/-- Settles O35: the decoder tracks the encoder through the symbol. -/
theorem lzdSymbolDecodesWhatWasCoded : Obligations.LzdSymbolDecodesWhatWasCoded := by
  intro s n l y payload src rest hs hinit hrce hcells hcod hn hmir hf hinput hp
  have hok : l.EncOk := ⟨hrce, hcells⟩
  obtain ⟨code, src', hdec⟩ := (State.tracks_of_mirrors hmir hok hf hinput).symbol (cur_le_of_mirrors hmir) hcod
    (symbolLimits_admit hn) hp
  have hanswer (u : State) : answer (symbolWord (y.answer l)) u = answer (y.word l) u := by rw [Sym.symbolWord_answer hcod]
  rw [show exec (.lzdSymbol n) s = execLzdSymbol n s from rfl, execLzdSymbol, ← hinit]
  exact runCommand_onIn_moves (k := fun x u => answer (symbolWord x) u) (e := y.coded l) (precheck_unitsFree hs rfl)
    (decoderReady_of_mirrors hinit hmir) hanswer hf hinput (Sym.coded_digits_le hok) hdec

/-! ## LZD.RUN (R633) -/

/-- The end marker covers no bytes (R640). -/
theorem Sym.coded_eos_win {l : Lane} : (Sym.eos.coded l).win = l.win := by
  rw [Sym.coded_win]
  rfl

section
variable {s : State} {n : BitVec 48} {l e : Lane} {ys : List Sym} {payload src rest : List Byte} (hs : s.unitsFree)
  (hinit : s.lane0.rcd.inited = true) (hok : l.EncOk) (hcod : CodableAll ys l) (hmir : Mirrors s.lane0 l)
  (hf : s.lane0.rcd.Follows l.rce payload src) (hinput : s.input = src ++ rest) (hp : e.rce.Reaches payload)
include hs hinit hok hcod hmir hf hinput hp

/-- A run with a length decodes exactly the symbols. -/
theorem exec_lzdRun_exactly (he : e = codedAll ys l) (hzero : n ≠ 0#48) (hn : n.toNat = Sym.total ys) :
    ∃ d' left, d'.Follows e.rce payload left ∧ d'.inited = s.lane0.rcd.inited ∧
      exec (.lzdRun n) s = .next (s.completed (src.length - left.length) ((l.win.bytes.drop l.win.cur).take (Sym.total ys))
        (Sym.total ys) { s.lane0 with prob := e.prob, lz := e.lz, win := e.win.behind, rcd := d' }) := by
  subst he
  rw [show exec (.lzdRun n) s = execLzdRun n s from rfl, execLzdRun]
  obtain ⟨code, src', hdec⟩ := (State.tracks_of_mirrors hmir hok hf hinput).exactly (cur_le_of_mirrors hmir) hcod (Nat.le_refl _) hp
  refine runCommand_onIn_moves (f := decExactly (Sym.total ys) (Sym.total ys)) (k := fun _ u => answer (Sym.total ys) u)
    (precheck_unitsFree hs rfl) ?_ (fun _ => rfl) hf hinput (codedAll_digits_le hok) hdec
  rw [decoderReady_of_mirrors hinit hmir, if_neg hzero, hn]

/-- A run without one decodes the symbols and the end marker after them. -/
theorem exec_lzdRun_untilMarker (he : e = Sym.eos.coded (codedAll ys l)) :
    ∃ d' left, d'.Follows e.rce payload left ∧ d'.inited = s.lane0.rcd.inited ∧
      exec (.lzdRun 0#48) s = .next (s.completed (src.length - left.length) ((l.win.bytes.drop l.win.cur).take (Sym.total ys))
        (Sym.total ys) { s.lane0 with prob := e.prob, lz := e.lz, win := e.win.behind, rcd := d' }) := by
  have hall := codedAll_encOk (ys := ys) hok
  have htracks := State.tracks_of_mirrors hmir hok hf hinput
  have hle : l.rce.digits.length ≤ e.rce.digits.length :=
    Nat.le_trans (codedAll_digits_le hok) (he ▸ Sym.coded_digits_le hall)
  obtain ⟨code, src', hdec⟩ := htracks.markerLoop (q := fun _ => symbolLimits 0) (produced := 0) (cur_le_of_mirrors hmir) hcod
    (htracks.turns (reaches_of_coded hall (he ▸ hp))) (fun _ _ _ => symbolLimits_admit (.inl rfl)) (he ▸ hp)
  rw [← he, Nat.zero_add] at hdec
  rw [show exec (.lzdRun 0#48) s = execLzdRun 0#48 s from rfl, execLzdRun]
  refine runCommand_onIn_moves (f := decUntilMarker fun _ => symbolLimits 0) (k := fun x u => answer x u)
    (precheck_unitsFree hs rfl) ?_ (fun _ => rfl) hf hinput hle hdec
  rw [decoderReady_of_mirrors hinit hmir, if_pos rfl]

end

/-- Settles O36: the decoder tracks the encoder through the symbols, and through the marker where the run has no length. -/
theorem lzdRunDecodesWhatWasCoded : Obligations.LzdRunDecodesWhatWasCoded := by
  intro s n l ys payload src rest hs hinit hrce hcells hcod hmir hf hinput e hp hn
  have hwin : e.win = { l.win with cur := l.win.cur + Sym.total ys } := by
    rw [← codedAll_win]
    simp only [e]
    split
    · exact Sym.coded_eos_win
    · rfl
  have hbehind : e.win.behind = {
      bytes := l.win.bytes.take (l.win.cur + Sym.total ys)
      cur := l.win.cur + Sym.total ys
      dictSize := l.win.dictSize } := congrArg Window.behind hwin
  rw [← hbehind, ← hinit]
  by_cases hzero : n = 0#48
  · subst hzero
    exact exec_lzdRun_untilMarker hs hinit ⟨hrce, hcells⟩ hcod hmir hf hinput hp (if_pos rfl)
  · exact exec_lzdRun_exactly hs hinit ⟨hrce, hcells⟩ hcod hmir hf hinput hp (if_neg hzero) hzero (hn.resolve_left hzero)

end Sys2Proof.Machine
end

section
/-! PROOFS. The distance slots (R540, R545). -/

namespace Sys2Proof.Machine

/-- Settles O32: above 3 the slot is the distance's top two bits and their place, and `slotBase` is those two bits followed by zeros;
`slotOf_spec` says so in the words of `slotBase` and `footerBits`. -/
theorem distanceSlotsCoverTheirRange : Obligations.DistanceSlotsCoverTheirRange := by
  intro d0 h s
  obtain ⟨h64, hsmall, hrange⟩ := slotOf_spec h
  rw [slotBase, footerBits] at hrange
  exact ⟨h64, hsmall, hrange⟩

end Sys2Proof.Machine
end

section
/-! PROOFS. What LZD.SYMBOL does whatever its input (R630 to R632, R702): a symbol that completes puts a literal's byte, a copy of the
history, or nothing. -/

namespace Sys2Proof.Machine

/-! ## What trees and the length coder read (R520, R530) -/

theorem Res.ends_trivial {σ α : Type} {r : Res σ α} : r.Ends (fun _ _ => True) fun _ _ => True := by
  cases r <;> trivial

theorem Res.Ends.and {σ α : Type} {r : Res σ α} {Q Q' : α → σ → Prop} {E E' : Stop → σ → Prop} (h : r.Ends Q E)
    (h' : r.Ends Q' E') : r.Ends (fun a s => Q a s ∧ Q' a s) fun e s => E e s ∧ E' e s := by
  cases r <;> exact ⟨h, h'⟩

/-- A forward tree of `n` bits from node `m` ends at a node of its last row (R520). -/
theorem treeDecFrom_lt {base k n m : Nat} {c : DecCtx} (hk : (m + 1) * 2 ^ n ≤ 2 * k) :
    (treeDecFrom base n m c).Ends (fun v _ => v < 2 * k) fun _ _ => True := by
  induction n generalizing m c with
  | zero => exact show m < 2 * k by omega
  | succ n ih => exact Res.ends_trivial.bind fun b c' _ => ih (node_below b hk).2

theorem treeDec_lt {base n : Nat} {c : DecCtx} : (treeDec base n c).Ends (fun v _ => v < 2 ^ n) fun _ _ => True :=
  (treeDecFrom_lt (k := 2 ^ n) (Nat.le_refl _)).bind fun m c' hm => show m - 2 ^ n < 2 ^ n by
    have := Nat.two_pow_pos n
    omega

/-- A length is 2 to 273 (R530). -/
theorem lenDec_range {base ps : Nat} {c : DecCtx} :
    (lenDec base ps c).Ends (fun len _ => 2 ≤ len ∧ len ≤ 273) fun _ _ => True := by
  have htree {base n k : Nat} {c : DecCtx} (h2 : 2 ≤ k) (hk : k + 2 ^ n ≤ 274) :
      ((treeDec base n c).bind fun v c => .ok (k + v) c).Ends (fun len _ => 2 ≤ len ∧ len ≤ 273) fun _ _ => True :=
    treeDec_lt.bind fun v c' hv => show 2 ≤ k + v ∧ k + v ≤ 273 by omega
  refine Res.ends_trivial.bind fun choice c _ => ?_
  split
  · refine Res.ends_trivial.bind fun choice2 c _ => ?_
    split
    · exact htree (by decide) (by decide)
    · exact htree (by decide) (by decide)
  · exact htree (by decide) (by decide)

/-! ## The copy of a match (R630, R702) -/

theorem Window.append_byteAt {w : Window} {bs : List Byte} {p : Nat} (h : p < w.endPos) : (w.append bs).byteAt p = w.byteAt p :=
  Window.feed_byteAt h

theorem Window.append_byteAt_endPos {w : Window} {b : Byte} {bs : List Byte} : (w.append (b :: bs)).byteAt w.endPos = b := by
  simp [Window.byteAt, Window.endPos, List.getD_eq_getElem?_getD]

/-- Where nothing is looked ahead at, what is copied repeats the history at the distance: each byte that the copy reads was there before,
or was copied before it. -/
theorem copyMatch_repeats {d n : Nat} {c : DecCtx} (h1 : 1 ≤ d) (hd : d ≤ c.lane.win.cur) (hend : c.lane.win.endPos = c.lane.win.cur) :
    ∃ bs, bs.length = n ∧ copyMatch d n c = putBytes bs c ∧ (c.lane.win.append bs).Repeats c.lane.win.cur d n := by
  induction n generalizing c with
  | zero => exact ⟨[], rfl, putBytes_nil.symm, repeats_zero⟩
  | succ n ih =>
    obtain ⟨bs, hlen, hcopy, hrep⟩ := ih (c := putBytes [c.lane.win.back d] c) (Nat.le_add_right_of_le hd)
      (by rw [putBytes, Window.append_endPos, hend]; rfl)
    refine ⟨c.lane.win.back d :: bs, by rw [List.length_cons, hlen], ?_, fun k hk => ?_⟩
    · rw [copyMatch, hcopy, putBytes_putBytes]
      rfl
    · cases k with
      | zero =>
        have hbefore : c.lane.win.cur - d < c.lane.win.endPos := by omega
        rw [Nat.add_zero, Window.append_byteAt hbefore, ← hend, Window.append_byteAt_endPos, Window.back, hend]
      | succ k =>
        have happend : (putBytes [c.lane.win.back d] c).lane.win.append bs = c.lane.win.append (c.lane.win.back d :: bs) :=
          congrArg (·.lane.win) putBytes_putBytes
        have hcur : c.lane.win.cur + (k + 1) = (putBytes [c.lane.win.back d] c).lane.win.cur + k := by
          rw [Nat.add_comm k 1, ← Nat.add_assoc]
          rfl
        rw [← happend, hcur]
        exact hrep k (by omega)

/-! ## The symbol (R630, R631) -/

/-- The symbol `y`, which takes the context from `c` to `c'`, put the bytes `bs` to the window and to STAGE alike: within the limit, a byte
for a literal, none for the end marker, and for every other kind a copy of the history at its distance (R630, R702). -/
structure Symbol.Puts (q : SymLimits) (y : Symbol) (c c' : DecCtx) (bs : List Byte) : Prop where
  win : c'.lane.win = c.lane.win.append bs
  out : c'.out = c.out ++ bs
  length : bs.length = y.len
  le : y.len ≤ 273
  limit : q.exceeded y.len = false
  lit : y.kind = .lit → ∃ b, bs = [b] ∧ y.x = b.toNat
  eos : y.kind = .eos → y.len = 0
  copy : y.kind ≠ .lit → y.kind ≠ .eos →
    1 ≤ y.x ∧ y.x ≤ c.lane.win.hist ∧ 1 ≤ y.len ∧ c'.lane.win.Repeats c.lane.win.cur y.x y.len

/-- The computation from `c`, which has no lookahead, completes with a symbol that puts its bytes. -/
def PutsSymbol (q : SymLimits) (c : DecCtx) (r : Res DecCtx Symbol) : Prop :=
  c.lane.win.endPos = c.lane.win.cur → r.Ends (fun y c' => ∃ bs, y.Puts q c c' bs) fun _ _ => True

section
variable {q : SymLimits} {c : DecCtx}

theorem PutsSymbol.stop {e : Stop} : PutsSymbol q c (.stop e c) := fun _ => trivial

/-- The end marker puts nothing, whatever the limit (R640). -/
theorem PutsSymbol.marker : PutsSymbol q c (.ok { kind := .eos, len := 0, x := 0 } c) := fun _ => by
  have hlimit : q.exceeded 0 = false := by
    rw [SymLimits.exceeded]
    split <;> rfl
  have hnil : c = putBytes [] c := putBytes_nil.symm
  exact ⟨[], congrArg (·.lane.win) hnil, congrArg DecCtx.out hnil, rfl, Nat.zero_le _, hlimit, nofun, fun _ => rfl,
    fun _ h => absurd rfl h⟩

/-- The registers of the state machine are no part of what a symbol puts. -/
theorem PutsSymbol.withLz {z : Coder} {r : Res DecCtx Symbol} (h : PutsSymbol q (c.withLz z) r) : PutsSymbol q c r := fun hend =>
  (h hend).mono (fun _ _ ⟨bs, hp⟩ => ⟨bs, hp.win, hp.out, hp.length, hp.le, hp.limit, hp.lit, hp.eos, hp.copy⟩) fun _ _ h => h

/-- Reading bits leaves the window and STAGE, so what the symbol puts after it is put from `c`. -/
theorem PutsSymbol.bind {α : Type} {n : Nat} {P : α → Prop} {r : Res DecCtx α} {f : α → DecCtx → Res DecCtx Symbol}
    (hr : ReadsBits n c r) (hP : r.Ends (fun a _ => P a) fun _ _ => True) (hf : ∀ a c', P a → PutsSymbol q c' (f a c')) :
    PutsSymbol q c (r.bind f) := fun hend =>
  ((hr.and hP).mono (fun _ _ h => h) fun _ _ _ => trivial).bind fun a c' ⟨hstep, ha⟩ => by
    have hwin : c'.lane.win = c.lane.win := by rw [hstep.eq]
    have hout : c'.out = c.out := by rw [hstep.eq]
    refine (hf a c' ha (by rw [hwin, hend])).mono (fun y c'' ⟨bs, hp⟩ => ⟨bs, ?_⟩) fun _ _ h => h
    exact ⟨hwin ▸ hp.win, hout ▸ hp.out, hp.length, hp.le, hp.limit, hp.lit, hp.eos, hwin ▸ hp.copy⟩

theorem PutsSymbol.cell {i : Nat} {f : Bool → DecCtx → Res DecCtx Symbol} (hf : ∀ b c', PutsSymbol q c' (f b c')) :
    PutsSymbol q c ((decBit i c).bind f) :=
  .bind (decBit_readsBits (Nat.lt_succ_self i)) Res.ends_trivial fun b c' _ => hf b c'

/-- A literal within the limit puts its byte. -/
theorem decLiteral_puts {s : Fin 12} : PutsSymbol q c (decLiteral q s c) := by
  rw [decLiteral]
  split
  · exact .stop
  · split
    · exact .stop
    · rename_i hlimit
      refine .bind (n := literalBase c.lane + 0x300) ?_ Res.ends_trivial fun b c' _ _ => ⟨[b], ?_⟩
      · split
        · exact litDec_readsBits (Nat.le_refl _)
        · exact litDecMatched_readsBits (Nat.le_refl _)
      · exact ⟨rfl, rfl, rfl, Nat.le_add_left 1 272, Bool.eq_false_iff.mpr hlimit, fun _ => ⟨b, rfl, rfl⟩, nofun,
          fun h => absurd rfl h⟩

/-- Past its checks, a copy is of the history and within the limit (R631 c and d). -/
theorem decCopy_puts {kind : SymKind} {len : Nat} (hlit : kind ≠ .lit) (heos : kind ≠ .eos) (hlen : 1 ≤ len ∧ len ≤ 273) :
    PutsSymbol q c (decCopy q kind len c) := by
  intro hend
  rw [decCopy]
  split
  · trivial
  · rename_i hhist
    have hhist := Nat.le_of_not_lt hhist
    split
    · trivial
    · rename_i hlimit
      have hpos : 1 ≤ c.lane.lz.dist 0 := Nat.le_add_left _ _
      obtain ⟨bs, hbs, hcopy, hrep⟩ := copyMatch_repeats (n := len) hpos (Nat.le_trans hhist (Nat.min_le_left _ _)) hend
      rw [hcopy]
      exact ⟨bs, rfl, rfl, hbs, hlen.2, Bool.eq_false_iff.mpr hlimit, fun h => absurd h hlit, fun h => absurd h heos,
        fun _ _ => ⟨hpos, hhist, hlen.1, hrep⟩⟩

theorem PutsSymbol.length {base ps : Nat} {f : Nat → DecCtx → Res DecCtx Symbol} (hps : ps < 128)
    (hf : ∀ len c', 1 ≤ len ∧ len ≤ 273 → PutsSymbol q c' (f len c')) : PutsSymbol q c ((lenDec base ps c).bind f) :=
  .bind (lenDec_readsBits (Nat.le_refl _) hps) lenDec_range fun len c' ⟨h2, h273⟩ => hf len c' ⟨by omega, h273⟩

theorem decMatch_puts {s : Fin 12} {ps : Nat} (hps : ps < 128) : PutsSymbol q c (decMatch q s ps c) := by
  refine .length hps fun len c hlen => .bind (distDec_readsBits (Nat.le_refl _)) Res.ends_trivial fun d0 c _ =>
    .withLz (z := { c.lane.lz.pushRep (BitVec.ofNat 32 d0) with state := nextMatch s }) ?_
  split
  · split
    · exact .marker
    · exact .stop
  · exact decCopy_puts nofun nofun hlen

theorem decLongrep_puts {kind : SymKind} {r : Nat} {s : Fin 12} {ps : Nat} (hlit : kind ≠ .lit) (heos : kind ≠ .eos) (hps : ps < 128) :
    PutsSymbol q c (decLongrep q kind r s ps c) :=
  .withLz (.length hps fun _ _ hlen => .withLz (decCopy_puts hlit heos hlen))

theorem decRep_puts {s : Fin 12} {ps : Nat} (hps : ps < 128) : PutsSymbol q c (decRep q s ps c) := by
  refine .cell fun b0 c => ?_
  split
  · refine .cell fun b1 c => ?_
    split
    · refine .cell fun b2 c => ?_
      split
      · exact decLongrep_puts nofun nofun hps
      · exact decLongrep_puts nofun nofun hps
    · exact decLongrep_puts nofun nofun hps
  · refine .cell fun long c => ?_
    split
    · exact decLongrep_puts nofun nofun hps
    · exact .withLz (decCopy_puts nofun nofun (by decide))

/-- `DecSymbol`, on any bytes (R630). -/
theorem decSymbol_puts : PutsSymbol q c (decSymbol q c) := by
  refine .cell fun isMatch c' => ?_
  split
  · refine .cell fun isRep c' => ?_
    split
    · exact decRep_puts posState_lt
    · exact decMatch_puts posState_lt
  · exact decLiteral_puts

end

/-! ## LZD.SYMBOL that completes (R632) -/

/-- A command that has left no error and does not hold has run its rule to the end. -/
theorem runCommand_eq_completed {i : Instr} {body : Body} {s t : State} (h : runCommand i body s = .next t) (herr : t.err = false)
    (hhold : t.holding = none) : ∃ v u, body s.begin = .ok v u ∧ t = complete (s.input.length - u.inp.length) v u := by
  have raised {c : Word} {n : Nat} {e : Raised} {u : State} (ht : t = takeError c n e u) : False := by
    rw [ht, takeError_err] at herr
    exact nomatch herr
  rcases runCommand_cases h with ⟨c, -, ht⟩ | ⟨-, hf⟩
  · exact (raised ht).elim
  · rcases finish_cases hf with hok | ⟨e, u, -, ht⟩ | ⟨ht, -⟩
    · exact hok
    · exact (raised ht).elim
    · rw [ht] at hhold
      exact nomatch hhold

theorem require_eq_ok {σ α : Type} {b : Bool} {e : Cause} {s t : σ} {k : Res σ α} {a : α} (h : require b e s k = .ok a t) :
    b = true ∧ k = .ok a t := by
  cases b with
  | false => exact nomatch h
  | true => exact ⟨rfl, h⟩

theorem decoderReady_eq_ok {t u : State} {k : Res State (BitVec 64)} {v : BitVec 64} (h : decoderReady t k = .ok v u) :
    t.lane0.win.endPos = t.lane0.win.cur ∧ k = .ok v u :=
  (require_eq_ok (require_eq_ok h).2).imp_left of_decide_eq_true

theorem onIn_eq_ok {α : Type} {f : DecCtx → Res DecCtx α} {t u : State} {a : α} (h : onIn f t = .ok a u) :
    ∃ c, f t.decCtx = .ok a c ∧ u = t.withCtx c := by
  rw [onIn] at h
  split at h
  · rename_i c hf
    cases h
    exact ⟨c, hf, rfl⟩
  · exact nomatch h
  · exact nomatch h

/-- LZD.SYMBOL that completes has decoded a symbol: its bytes are on OUT, its word in RESULT (R632). -/
theorem exec_lzdSymbol_eq_completed {s t : State} {n : BitVec 48} (h : exec (.lzdSymbol n) s = .next t) (herr : t.err = false)
    (hhold : t.holding = none) : ∃ y c bs, y.Puts (symbolLimits n.toNat) s.begin.decCtx c bs ∧ t.lane0 = c.lane ∧
      t.out = s.out ++ bs ∧ t.result = BitVec.ofNat 64 (symbolWord y) := by
  rw [show exec (.lzdSymbol n) s = execLzdSymbol n s from rfl, execLzdSymbol] at h
  obtain ⟨v, u, hbody, rfl⟩ := runCommand_eq_completed h herr hhold
  obtain ⟨hend, hrule⟩ := decoderReady_eq_ok hbody
  obtain ⟨y, w, hdec, hanswer⟩ := Res.bind_eq_ok hrule
  obtain ⟨c, hsym, rfl⟩ := onIn_eq_ok hdec
  obtain ⟨bs, hputs⟩ := (decSymbol_puts hend).of_ok hsym
  cases hanswer
  exact ⟨y, c, bs, hputs, rfl, congrArg (s.out ++ ·) hputs.out, rfl⟩

theorem SymKind.code_le {k : SymKind} : k.code ≤ 7 := by cases k <;> decide

theorem SymKind.code_eq_lit {k : SymKind} : k.code = 0 ↔ k = .lit := by cases k <;> decide

theorem SymKind.code_eq_eos {k : SymKind} : k.code = 7 ↔ k = .eos := by cases k <;> decide

/-- The third part of a symbol's word: the end marker's is its coded distance (R632). -/
def Symbol.shownX (y : Symbol) : Nat := if y.kind = .eos then markerDist else y.x

theorem Symbol.shownX_of_ne {y : Symbol} (h : y.kind ≠ .eos) : y.shownX = y.x := if_neg h

theorem Symbol.Puts.shownX_lt {q : SymLimits} {y : Symbol} {c c' : DecCtx} {bs : List Byte} (h : y.Puts q c c' bs) :
    y.shownX < 2 ^ 32 := by
  by_cases heos : y.kind = .eos
  · rw [shownX, if_pos heos, markerDist]
    decide
  · rw [shownX_of_ne heos]
    by_cases hlit : y.kind = .lit
    · obtain ⟨b, -, hx⟩ := h.lit hlit
      have := b.isLt
      omega
    · obtain ⟨-, hhist, -⟩ := h.copy hlit heos
      exact Nat.lt_of_le_of_lt (Nat.le_trans hhist (Nat.min_le_right _ _)) c.lane.win.dictSize.isLt

theorem symbolLimits_exceeded {n len : Nat} : (symbolLimits n).exceeded len = false ↔ n = 0 ∨ len ≤ n := by
  rw [SymLimits.exceeded_eq, symbolLimits]
  by_cases h : n = 0 <;> simp [h]

/-- Settles O37: the symbol's word shows what it put, and a copy it puts is of the history. -/
theorem lzdSymbolStaysInsideTheHistory : Obligations.LzdSymbolStaysInsideTheHistory := by
  intro s t n _ hexec herr hhold
  obtain ⟨y, c, bs, h, hlane, hout, hresult⟩ := exec_lzdSymbol_eq_completed hexec herr hhold
  have hcode := y.kind.code_le
  have hx := h.shownX_lt
  have hle := h.le
  refine ⟨y.kind.code, y.len, y.shownX, bs, ?_, hcode, hle, hx, h.length, ?_, ?_, hout, symbolLimits_exceeded.mp h.limit, fun h0 => ?_,
    fun h7 => h.eos (SymKind.code_eq_eos.mp h7), fun h1 h6 => ?_⟩
  · rw [hresult, show symbolWord y = y.kind.code + y.len * 2 ^ 16 + y.shownX * 2 ^ 32 from rfl, BitVec.toNat_ofNat]
    exact Nat.mod_eq_of_lt (by omega)
  · rw [hlane, h.win]
    rfl
  · rw [hlane, h.win, ← h.length]
    rfl
  · have hlit := SymKind.code_eq_lit.mp h0
    obtain ⟨b, rfl, hb⟩ := h.lit hlit
    rw [Symbol.shownX_of_ne (by rw [hlit]; nofun), hb]
    rfl
  · have hlit : y.kind ≠ .lit := fun hk => by rw [SymKind.code_eq_lit.mpr hk] at h1; omega
    have heos : y.kind ≠ .eos := fun hk => by rw [SymKind.code_eq_eos.mpr hk] at h6; omega
    rw [Symbol.shownX_of_ne heos, hlane]
    exact h.copy hlit heos

end Sys2Proof.Machine
end

section
/-! PROOFS. What the LZE commands refuse (R620 to R625). -/

namespace Sys2Proof.Machine

/-- The outcome `o` of the LZE command `i`, which codes `y`: refused after a flush, and where lane 0 cannot code `y` (R620
items 3 and 4). -/
def RefusesToCode (i : Instr) (y : Sym) (s : State) (o : Host.Outcome State Fault Refusal) : Prop :=
  (s.lane0.rce.flushed = true → o = .next (s.refusedBy i 0x06)) ∧
  (s.lane0.rce.flushed = false → ¬ y.Codable s.lane0 → o = .next (s.refusedBy i 0x05))

/-- An LZE command whose data precondition implies that its symbol can be coded. -/
theorem encodeOne_refuses {i : Instr} {y : Sym} {s : State} {pre : State → Bool} {f : Lane → Lane} (hs : s.unitsFree)
    (hi : InRange i s) (hpre : pre s.begin = true → y.Codable s.lane0) :
    RefusesToCode i y s (runCommand i (fun t => encodeOne (pre t) f t) s) := by
  have hcheck := precheck_unitsFree hs (operandsOk_iff.mpr hi)
  refine ⟨fun hflushed => runCommand_flushed hcheck rfl hflushed, fun hflushed hcod => ?_⟩
  refine runCommand_refusedBy (c := .precondition) rfl (.inr ⟨hcheck, ?_⟩)
  rw [encodeOne, show s.begin.lane0.rce.flushed = false from hflushed, Bool.not_false, require_true,
    Bool.eq_false_iff.mpr (mt hpre hcod), require_false]

section
variable {s : State} (hs : s.unitsFree)
include hs

theorem lzeLit_refuses : RefusesToCode .lzeLit .lit s (exec .lzeLit s) := by
  rw [show exec .lzeLit s = execLzeLit s from rfl, execLzeLit]
  exact encodeOne_refuses hs trivial fun h => (of_decide_eq_true h :)

theorem lzeMatch_refuses {d : BitVec 32} {n : BitVec 9} (hi : InRange (.lzeMatch d n) s) :
    RefusesToCode (.lzeMatch d n) (.mtch d.toNat n.toNat) s (exec (.lzeMatch d n) s) := by
  obtain ⟨h1, h2, h273⟩ := hi
  rw [show exec (.lzeMatch d n) s = execLzeMatch d n s from rfl, execLzeMatch]
  exact encodeOne_refuses hs ⟨h1, h2, h273⟩ fun h => ⟨h1, h2, h273, repeatsAt_iff.mp h⟩

theorem lzeRep_refuses {r : BitVec 2} {n : BitVec 9} (hi : InRange (.lzeRep r n) s) :
    RefusesToCode (.lzeRep r n) (.rep r.toNat n.toNat) s (exec (.lzeRep r n) s) := by
  obtain ⟨h2, h273⟩ := hi
  rw [show exec (.lzeRep r n) s = execLzeRep r n s from rfl, execLzeRep]
  exact encodeOne_refuses hs ⟨h2, h273⟩ fun h => ⟨Nat.le_of_lt_succ r.isLt, h2, h273, repeatsAt_iff.mp h⟩

theorem lzeShortrep_refuses : RefusesToCode .lzeShortrep .shortrep s (exec .lzeShortrep s) := by
  rw [show exec .lzeShortrep s = execLzeShortrep s from rfl, execLzeShortrep]
  refine encodeOne_refuses hs trivial fun h => ?_
  obtain ⟨hhist, hend, hrep⟩ := repeatsAt_iff.mp h
  exact ⟨hhist, hend, repeats_one.mp hrep⟩

theorem lzeEos_refuses : RefusesToCode .lzeEos .eos s (exec .lzeEos s) := by
  rw [show exec .lzeEos s = execLzeEos s from rfl, execLzeEos]
  exact encodeOne_refuses (pre := fun _ => true) hs trivial fun _ => trivial

end

/-- Settles O34: each command's data precondition is that its symbol can be coded, and the flush is checked before it. -/
theorem lzeCommandsRefuseBadSymbols : Obligations.LzeCommandsRefuseBadSymbols := by
  intro s hs
  refine ⟨fun h => ⟨?_, fun d n hi => ?_, fun r n hi => ?_, ?_, ?_⟩, fun h => ⟨?_, fun d n hi => ?_, fun r n hi => ?_, ?_⟩⟩
  · exact (lzeLit_refuses hs).1 h
  · exact (lzeMatch_refuses hs hi).1 h
  · exact (lzeRep_refuses hs hi).1 h
  · exact (lzeShortrep_refuses hs).1 h
  · exact (lzeEos_refuses hs).1 h
  · exact (lzeLit_refuses hs).2 h
  · exact (lzeMatch_refuses hs hi).2 h
  · exact (lzeRep_refuses hs hi).2 h
  · exact (lzeShortrep_refuses hs).2 h

end Sys2Proof.Machine
end

section
/-! PROOFS. What the selected finder answers, and how it files: candidates rise strictly in length between 2 and what may be used, and a
position given to it is filed in the three tables and the chain (R710 to R714, R731, R757, R760). -/

namespace Sys2Proof.Machine

/-! ## Lengths of candidates (R713, R760 a) -/

/-- The candidates rise strictly in length, from 2 or more to `hi` at most. -/
structure RisesTo (hi : Nat) (list : List (Nat × Nat)) : Prop where
  pairwise : list.Pairwise fun x y => x.1 < y.1
  range : ∀ c ∈ list, 2 ≤ c.1 ∧ c.1 ≤ hi

theorem RisesTo.nil {hi : Nat} : RisesTo hi [] := ⟨.nil, fun _ h => nomatch h⟩

theorem RisesTo.mono {hi hi' : Nat} {list : List (Nat × Nat)} (h : RisesTo hi list) (hle : hi ≤ hi') : RisesTo hi' list :=
  ⟨h.pairwise, fun c hc => (h.range c hc).imp_right (Nat.le_trans · hle)⟩

/-- A longer candidate is added. -/
theorem RisesTo.concat {hi len d : Nat} {list : List (Nat × Nat)} (h : RisesTo hi list) (h2 : 2 ≤ len) (hlt : hi < len) :
    RisesTo len (list ++ [(len, d)]) where
  pairwise := List.pairwise_append.mpr ⟨h.pairwise, List.pairwise_singleton _ _, fun x hx y hy => by
    rw [List.mem_singleton.mp hy]
    exact Nat.lt_of_le_of_lt (h.range x hx).2 hlt⟩
  range := fun c hc => by
    rcases List.mem_append.mp hc with hc | hc
    · exact (h.mono (Nat.le_of_lt hlt)).range c hc
    · rw [List.mem_singleton.mp hc]
      exact ⟨h2, Nat.le_refl _⟩

theorem le_extendMatch {w : Window} {p d n len : Nat} : len ≤ extendMatch w p d n len := by
  induction n generalizing len with
  | zero => exact Nat.le_refl _
  | succ n ih =>
    rw [extendMatch]
    split
    · exact Nat.le_trans (Nat.le_succ len) ih
    · exact Nat.le_refl _

/-- A match is extended from the length it has to the length it may have. -/
theorem matchLength_between {w : Window} {p d len m : Nat} (h : len ≤ m) :
    len ≤ matchLength w p d len m ∧ matchLength w p d len m ≤ m := by
  have := extendMatch_le (w := w) (p := p) (d := d) (n := m - len) (len := len)
  exact ⟨le_extendMatch, by rw [matchLength]; omega⟩

/-- The 2- and 3-byte tables give a candidate each at most, the one of 2 bytes first. -/
theorem shortCandidates_eq_append {w : Window} {p : Nat} {q2 q3 : Option Nat} :
    ∃ two three, shortCandidates w p q2 q3 = two ++ three ∧ (two = [] ∨ ∃ d, two = [(2, d)]) ∧
      (three = [] ∨ ∃ d, three = [(3, d)]) := by
  refine ⟨_, _, rfl, ?_, ?_⟩
  · split
    · exact .inr ⟨_, rfl⟩
    · exact .inl rfl
  · split
    · exact .inl rfl
    · split
      · exact .inl rfl
      · split
        · exact .inr ⟨_, rfl⟩
        · exact .inl rfl

/-- The last of the short candidates is longer than those before it. -/
theorem shortCandidates_rises {w : Window} {p len d : Nat} {q2 q3 : Option Nat}
    (h : (shortCandidates w p q2 q3).getLast? = some (len, d)) :
    2 ≤ len ∧ len ≤ 3 ∧ RisesTo (len - 1) (shortCandidates w p q2 q3).dropLast := by
  obtain ⟨two, three, heq, htwo, hthree⟩ := shortCandidates_eq_append (w := w) (p := p) (q2 := q2) (q3 := q3)
  rw [heq] at h ⊢
  rcases htwo with rfl | ⟨d2, rfl⟩ <;> rcases hthree with rfl | ⟨d3, rfl⟩
  · exact nomatch h
  · cases h
    exact ⟨by decide, by decide, .nil⟩
  · cases h
    exact ⟨by decide, by decide, .nil⟩
  · cases h
    exact ⟨by decide, by decide, List.pairwise_singleton _ _, fun c hc => by
      rw [List.mem_singleton.mp hc]
      exact ⟨Nat.le_refl 2, Nat.le_refl 2⟩⟩

/-- The chain walk adds only candidates longer than the best so far (R713). -/
theorem walkChain_rises {w : Window} {chain : Memory (Option Nat)} {p mll nl depth best : Nat} {q : Option Nat}
    {found : List (Nat × Nat)} (h : RisesTo best found) (h1 : 1 ≤ best) (hbest : best ≤ mll) :
    RisesTo mll (walkChain w chain p mll nl depth q best found) := by
  induction depth generalizing q best found with
  | zero => exact h.mono hbest
  | succ depth ih =>
    cases q with
    | none => exact h.mono hbest
    | some q =>
      simp only [walkChain]
      split
      · exact h.mono hbest
      · split
        · have hlen := (matchLength_between (w := w) (p := p) (d := p - q) (Nat.le_trans h1 hbest)).2
          split
          · rename_i hlonger
            have hadd := h.concat (d := p - q) (by omega) hlonger
            split
            · exact hadd.mono hlen
            · exact ih hadd (by omega) hlen
          · exact ih h h1 hbest
        · exact ih h h1 hbest

theorem searchAt_rises {a : Act} {w : Window} {m : MatchFinder} {h : Hashes} {p rem : Nat} (hrem : 4 ≤ rem) :
    RisesTo (min 273 rem) (searchAt a w m h p rem) := by
  simp only [searchAt]
  split
  · exact walkChain_rises .nil (by decide) (by omega)
  · rename_i len d hlast
    obtain ⟨h2, h3, hbefore⟩ := shortCandidates_rises hlast
    obtain ⟨hge, hle⟩ := matchLength_between (w := w) (p := p) (d := d) (len := len) (m := min 273 rem) (by omega)
    have hfound := hbefore.concat (d := d) (len := matchLength w p d len (min 273 rem)) (by omega) (by omega)
    split
    · exact hfound.mono hle
    · exact walkChain_rises (hfound.mono (Nat.le_max_left _ _)) (by omega) (by omega)

theorem hashChainFind_rises {a : Act} {w : Window} {m : MatchFinder} {p rem : Nat} :
    RisesTo (min 273 rem) (hashChainFind a w m p rem).1 := by
  rw [hashChainFind]
  split
  · exact .nil
  · exact searchAt_rises (by omega)

theorem keepCandidates_rises {w : Window} {p rem best : Nat} {list : List (Nat × Nat)} :
    RisesTo (min 273 rem) (keepCandidates w p rem best list) where
  pairwise := keepCandidates_pairwise
  range := fun _ hc => by
    obtain ⟨h2, hle, -⟩ := of_decide_eq_true (keepCandidates_mem hc).2
    exact ⟨h2, hle⟩

/-- Whatever the finder, its candidates rise in length (R760 a and b). -/
theorem find_rises {b : Build} {a : Act} {w : Window} {m : MatchFinder} {p rem : Nat} : RisesTo (min 273 rem) (find b a w m p rem).1 := by
  rw [find]
  split
  · rw [binaryTreeFind]
    split
    · exact hashChainFind_rises
    · rw [substituteFind]
      simp only
      split
      · exact keepCandidates_rises
      · exact .nil
  · exact hashChainFind_rises

/-! ## The hash-chain finder (R108, R760) -/

theorem find_eq_hashChainFind {b : Build} {a : Act} {w : Window} {m : MatchFinder} {p rem : Nat} (h : a.mf = false ∨ b.finder = none) :
    find b a w m p rem = hashChainFind a w m p rem := by
  rcases h with h | h
  · rw [find, h, if_neg Bool.false_ne_true]
  · exact find_default h

/-- It has no memory of its own, and answers nothing short of four bytes (R713). -/
theorem hashChainFind_own {a : Act} {w : Window} {m : MatchFinder} {p rem : Nat} :
    (hashChainFind a w m p rem).2.own = m.own ∧ (rem < 4 → (hashChainFind a w m p rem).1 = []) := by
  rw [hashChainFind]
  split
  · exact ⟨rfl, fun _ => rfl⟩
  · rename_i h
    exact ⟨rfl, fun h' => absurd h' h⟩

/-- An empty finder answers nothing (R754, R760 c). -/
theorem find_mfReset {b : Build} {a : Act} {w w' : Window} {p rem : Nat} : (find b a w (mfReset w') p rem).1 = [] := by
  have hwalk {chain : Memory (Option Nat)} {mll nl depth : Nat} : walkChain w chain p mll nl depth none 3 [] = [] := by
    cases depth <;> rfl
  have hhash : (hashChainFind a w (mfReset w') p rem).1 = [] := by
    rw [hashChainFind]
    split
    · rfl
    · exact hwalk
  rw [find]
  split
  · rw [binaryTreeFind]
    split
    · exact hhash
    · exact substituteFind_first rfl
  · exact hhash

theorem searchAndCache_mfReset {b : Build} {a : Act} {w w' : Window} {p rem : Nat} :
    (searchAndCache b a w (mfReset w') p rem).1 = [] ∧ (searchAndCache b a w (mfReset w') p rem).2.cache = some (p, []) :=
  ⟨find_mfReset, congrArg (fun list => some (p, list)) find_mfReset⟩

/-! ## The last position filed under a hash (R712, R714) -/

section
variable {w : Window} {f : Hashes → Nat} {h lo mid hi p : Nat}

theorem lastFiled_empty (hle : hi ≤ lo) : lastFiled w f h lo hi = none := by
  rw [lastFiled, Nat.sub_eq_zero_of_le hle]
  rfl

theorem lastFiled_one : lastFiled w f h p (p + 1) = if p + 4 ≤ w.endPos ∧ f (hashesAt w p) = h then some p else none := by
  rw [lastFiled, Nat.add_sub_cancel_left, List.range'_one, List.reverse_singleton, List.find?_singleton]
  simp only [Bool.and_eq_true, decide_eq_true_eq, beq_iff_eq]

/-- A position of the later part comes before one of the earlier part. -/
theorem lastFiled_split (h1 : lo ≤ mid) (h2 : mid ≤ hi) :
    lastFiled w f h lo hi = (lastFiled w f h mid hi).or (lastFiled w f h lo mid) := by
  have hrange : List.range' lo (hi - lo) = List.range' lo (mid - lo) ++ List.range' mid (hi - mid) := by
    have := List.range'_append_1 (s := lo) (m := mid - lo) (n := hi - mid)
    rw [show lo + (mid - lo) = mid by omega, show mid - lo + (hi - mid) = hi - lo by omega] at this
    exact this.symm
  rw [lastFiled, hrange, List.reverse_append, List.find?_append]
  rfl

theorem lastFiled_eq_some {q : Nat} (hq : lastFiled w f h lo hi = some q) : lo ≤ q ∧ q < hi ∧ f (hashesAt w q) = h := by
  have hmem := List.mem_range'_1.mp (List.mem_reverse.mp (List.mem_of_find?_eq_some hq))
  have hprop := List.find?_some hq
  simp only [Bool.and_eq_true, beq_iff_eq] at hprop
  exact ⟨hmem.1, by omega, hprop.2⟩

/-- A position that is filed stands under its hash, or a later one of the same hash does. -/
theorem exists_lastFiled (h1 : lo ≤ p) (h2 : p < hi) (hend : p + 4 ≤ w.endPos) :
    ∃ q, p ≤ q ∧ q < hi ∧ lastFiled w f (f (hashesAt w p)) lo hi = some q ∧ f (hashesAt w q) = f (hashesAt w p) := by
  rw [lastFiled_split (Nat.le_succ_of_le h1) h2, lastFiled_split (mid := p) h1 (Nat.le_succ p), lastFiled_one, if_pos ⟨hend, rfl⟩]
  cases hlast : lastFiled w f (f (hashesAt w p)) (p + 1) hi with
  | none => exact ⟨p, Nat.le_refl p, h2, rfl, rfl⟩
  | some q =>
    obtain ⟨hpq, hq, hhash⟩ := lastFiled_eq_some hlast
    exact ⟨q, Nat.le_of_succ_le hpq, hq, rfl, hhash⟩

end

/-! ## Filing (R712, R714) -/

theorem MatchFinder.Filed.refl {w : Window} {m : MatchFinder} {p : Nat} : MatchFinder.Filed w m m p p := by
  have hnone {f : Hashes → Nat} {h : Nat} : lastFiled w f h p p = none := lastFiled_empty (Nat.le_refl p)
  refine ⟨fun h => ?_, fun h => ?_, fun h => ?_, fun x => ?_⟩
  · rw [hnone, Option.none_or]
  · rw [hnone, Option.none_or]
  · rw [hnone, Option.none_or]
  · rw [if_neg (by omega)]

/-- Positions filed one after another. -/
theorem MatchFinder.Filed.trans {w : Window} {m m' m'' : MatchFinder} {lo mid hi : Nat} (h : MatchFinder.Filed w m m' lo mid)
    (h' : MatchFinder.Filed w m' m'' mid hi) (h1 : lo ≤ mid) (h2 : mid ≤ hi) : MatchFinder.Filed w m m'' lo hi := by
  obtain ⟨f2, f3, f4, fc⟩ := h
  obtain ⟨g2, g3, g4, gc⟩ := h'
  refine ⟨fun i => ?_, fun i => ?_, fun i => ?_, fun x => ?_⟩
  · rw [g2, f2, lastFiled_split h1 h2, Option.or_assoc]
  · rw [g3, f3, lastFiled_split h1 h2, Option.or_assoc]
  · rw [g4, f4, lastFiled_split h1 h2, Option.or_assoc]
  · rw [gc, fc, f4]
    by_cases hlater : mid ≤ x ∧ x < hi ∧ x + 4 ≤ w.endPos
    · obtain ⟨hx1, hx2, hend⟩ := hlater
      rw [if_pos ⟨hx1, hx2, hend⟩, if_pos ⟨Nat.le_trans h1 hx1, hx2, hend⟩, lastFiled_split h1 hx1, Option.or_assoc]
    · rw [if_neg hlater]
      by_cases hearlier : lo ≤ x ∧ x < mid ∧ x + 4 ≤ w.endPos
      · obtain ⟨hx1, hx2, hend⟩ := hearlier
        rw [if_pos ⟨hx1, hx2, hend⟩, if_pos ⟨hx1, Nat.lt_of_lt_of_le hx2 h2, hend⟩]
      · rw [if_neg hearlier, if_neg (by omega)]

/-- `Insert` files one position (R712). -/
theorem insertAt_filed {w : Window} {m : MatchFinder} {p : Nat} (hm : m.Ok) (hend : p + 4 ≤ w.endPos) :
    MatchFinder.Filed w m (insertAt m (hashesAt w p) p) p (p + 1) := by
  obtain ⟨o2, o3, o4, oc⟩ := hm
  have htable {t : Memory (Option Nat)} {f : Hashes → Nat} (ht : Memory.wf none t = true) (i : Nat) :
      entry (setEntry t (f (hashesAt w p)) (some p)) i = (lastFiled w f i p (p + 1)).or (entry t i) := by
    rw [entry_setEntry ht, lastFiled_one]
    by_cases hi : i = f (hashesAt w p)
    · rw [if_pos hi, if_pos ⟨hend, hi.symm⟩, Option.some_or]
    · rw [if_neg hi, if_neg fun h => hi h.2.symm, Option.none_or]
  refine ⟨htable o2, htable o3, htable o4, fun x => ?_⟩
  rw [insertAt, entry_setEntry oc]
  by_cases hx : x = p
  · subst hx
    rw [if_pos rfl, if_pos ⟨Nat.le_refl x, Nat.lt_succ_self x, hend⟩, lastFiled_empty (Nat.le_refl x), Option.none_or]
  · rw [if_neg hx, if_neg (by omega)]

theorem filed_of_short {w : Window} {m : MatchFinder} {p : Nat} (hend : ¬ p + 4 ≤ w.endPos) : MatchFinder.Filed w m m p (p + 1) := by
  have hnone {f : Hashes → Nat} {i : Nat} : lastFiled w f i p (p + 1) = none := by rw [lastFiled_one, if_neg fun h => hend h.1]
  refine ⟨fun i => ?_, fun i => ?_, fun i => ?_, fun x => ?_⟩
  · rw [hnone, Option.none_or]
  · rw [hnone, Option.none_or]
  · rw [hnone, Option.none_or]
  · refine (if_neg fun ⟨h1, h2, h3⟩ => hend ?_).symm
    obtain rfl : x = p := by omega
    exact h3

/-- A finder that is given a position files it, where four bytes are there before the window's end. -/
theorem FiledAt.filed {w : Window} {m m' : MatchFinder} {p : Nat} (h : FiledAt w m m' p (w.endPos - p)) (hm : m.Ok) :
    MatchFinder.Filed w m m' p (p + 1) := by
  have hskip : MatchFinder.Filed w m (skipAt w m p (w.endPos - p)) p (p + 1) := by
    rw [skipAt]
    split
    · exact insertAt_filed hm (by omega)
    · exact filed_of_short (by omega)
  rw [h.eq]
  exact hskip

/-- The entries of the one position that is filed. -/
theorem MatchFinder.Filed.entries {w : Window} {m m' : MatchFinder} {p : Nat} (h : MatchFinder.Filed w m m' p (p + 1))
    (hend : p + 4 ≤ w.endPos) :
    entry m'.chain p = entry m.t4 (hashesAt w p).h4 ∧ entry m'.t4 (hashesAt w p).h4 = some p ∧
      entry m'.t2 (hashesAt w p).h2 = some p ∧ entry m'.t3 (hashesAt w p).h3 = some p := by
  obtain ⟨f2, f3, f4, fc⟩ := h
  have hone (f : Hashes → Nat) : lastFiled w f (f (hashesAt w p)) p (p + 1) = some p := by rw [lastFiled_one, if_pos ⟨hend, rfl⟩]
  refine ⟨?_, ?_, ?_, ?_⟩
  · rw [fc, if_pos ⟨Nat.le_refl p, Nat.lt_succ_self p, hend⟩, lastFiled_empty (Nat.le_refl p), Option.none_or]
  · rw [f4, hone, Option.some_or]
  · rw [f2, hone, Option.some_or]
  · rw [f3, hone, Option.some_or]

/-! ## Positions passed one after another (R731, R757) -/

section
variable {b : Build} {a : Act} {w : Window} {stop n : Nat} {m : MatchFinder}

/-- Passing positions up to `stop` moves the finder past them, and keeps it sound and what it has cached. -/
theorem skipMany_sound (hok : m.Ok) (hs : m.Sound w m.next) (hstop : stop ≤ w.endPos) (hn : m.next + n ≤ stop) :
    (skipMany b a w stop n m).next = m.next + n ∧ (skipMany b a w stop n m).cache = m.cache ∧ (skipMany b a w stop n m).Ok ∧
      (skipMany b a w stop n m).Sound w (m.next + n) := by
  induction n generalizing m with
  | zero => exact ⟨rfl, rfl, hok, hs⟩
  | succ n ih =>
    have hf := filedAt_skip (b := b) (a := a) (w := w) (m := m) (p := m.next) (rem := stop - m.next)
    obtain ⟨h1, h2, h3, h4⟩ := ih (m := { skip b a w m m.next (stop - m.next) with next := m.next + 1 }) (hf.ok hok)
      (hf.sound hok hs (by omega)) (by show m.next + 1 + n ≤ stop; omega)
    rw [show m.next + (n + 1) = m.next + 1 + n by omega]
    exact ⟨h1, h2.trans hf.cache, h3, h4⟩

/-- They are filed, each where four bytes are there before the window's end (R714, R757). -/
theorem skipMany_filed (hok : m.Ok) : MatchFinder.Filed w m (skipMany b a w w.endPos n m) m.next (m.next + n) := by
  induction n generalizing m with
  | zero => exact .refl
  | succ n ih =>
    have hf := filedAt_skip (b := b) (a := a) (w := w) (m := m) (p := m.next) (rem := w.endPos - m.next)
    have hrest := ih (m := { skip b a w m m.next (w.endPos - m.next) with next := m.next + 1 }) (hf.ok hok)
    rw [show m.next + (n + 1) = m.next + 1 + n by omega]
    exact MatchFinder.Filed.trans (m' := { skip b a w m m.next (w.endPos - m.next) with next := m.next + 1 }) (hf.filed hok) hrest
      (Nat.le_succ _) (Nat.le_add_right _ _)

end

end Sys2Proof.Machine
end

section
/-! PROOFS. The match finder's commands: MF.RESET, MF.FIND, MF.CAND and MF.SKIP (R712 to R715, R754 to R757, R760). -/

namespace Sys2Proof.Machine

/-! ## The rules of the commands -/

theorem exec_mfReset {s : State} (hs : s.unitsFree) :
    exec .mfReset s = .next (s.completed 0 [] 0 { s.lane0 with mf := mfReset s.lane0.win }) := by
  rw [show exec .mfReset s = execMfReset s from rfl, execMfReset]
  exact runCommand_completed (precheck_unitsFree hs rfl) (Nat.zero_le _) rfl

/-- MF.FIND searches at `MF.next` where a byte is there, and is refused where none is (R755). -/
theorem exec_mfFind {s : State} {a : Act} (hs : s.unitsFree) (ha : s.act = some a) :
    let l := s.lane0
    let r := searchAndCache s.build a l.win l.mf l.mf.next (l.win.endPos - l.mf.next)
    (l.mf.next < l.win.endPos → exec .mfFind s = .next (s.completed 0 [] r.1.length { l with mf := r.2 })) ∧
    (¬ l.mf.next < l.win.endPos → exec .mfFind s = .next (s.refusedBy .mfFind 0x05)) := by
  intro l r
  rw [show exec .mfFind s = execMfFind s from rfl, execMfFind]
  refine runCommand_checked (precheck_unitsFree hs rfl) ?_
  rw [withAct_some (s := s.begin) ha]
  rfl

/-- MF.SKIP passes positions of the window, and is refused where it would go beyond its end (R757). -/
theorem exec_mfSkip {s : State} {a : Act} {n : BitVec 48} (hs : s.unitsFree) (ha : s.act = some a) :
    let l := s.lane0
    (l.mf.next + n.toNat ≤ l.win.endPos → exec (.mfSkip n) s = .next (s.completed 0 [] 0 { l with
      mf := { skipMany s.build a l.win l.win.endPos n.toNat l.mf with cache := none } })) ∧
    (¬ l.mf.next + n.toNat ≤ l.win.endPos → exec (.mfSkip n) s = .next (s.refusedBy (.mfSkip n) 0x05)) := by
  intro l
  rw [show exec (.mfSkip n) s = execMfSkip n s from rfl, execMfSkip]
  refine runCommand_checked (precheck_unitsFree hs rfl) ?_
  rw [withAct_some (s := s.begin) ha]
  rfl

theorem MatchFinder.candidates_eq {m : MatchFinder} : m.candidates = (m.cache.map Prod.snd).getD [] := by
  rw [MatchFinder.candidates]
  cases m.cache <;> rfl

/-- MF.CAND reads the cached list (R756). -/
theorem exec_mfCand {s : State} {i : BitVec 16} (hs : s.ready) :
    (∀ c, s.lane0.mf.candidates[i.toNat]? = some c →
      exec (.mfCand i) s = .next (s.completed 0 [] (c.1 * 2 ^ 32 + c.2) s.lane0)) ∧
    (s.lane0.mf.candidates[i.toNat]? = none → exec (.mfCand i) s = .next (s.refusedBy (.mfCand i) 0x03)) := by
  have hpre : precheck (.mfCand i) s = none := precheck_reader hs rfl rfl
  rw [show exec (.mfCand i) s = execMfCand i s from rfl, execMfCand]
  refine ⟨fun c hc => runCommand_completed hpre (Nat.zero_le _) ?_,
    fun hnone => runCommand_refusedBy (c := .operandRange) rfl (.inr ⟨hpre, ?_⟩)⟩
  · rw [show s.begin.lane0.mf.candidates[i.toNat]? = some c from hc]
    rfl
  · rw [show s.begin.lane0.mf.candidates[i.toNat]? = none from hnone]

/-! ## What they keep -/

/-- Settles O40: the search is the selected finder's, which files the position and answers true matches that rise in length. -/
theorem mfFindKeepsTheFinderContract : Obligations.MfFindKeepsTheFinderContract := by
  intro s a hs ha w m p rem hsound hok
  obtain ⟨hfound, hrefused⟩ := exec_mfFind hs ha
  refine ⟨fun h => hrefused (Nat.not_lt.mpr h), fun hlt => ?_⟩
  have hf : FiledAt w m (find s.build a w m p rem).2 p rem := filedAt_find
  have hfiled := hf.filed hok
  have hrises := find_rises (b := s.build) (a := a) (w := w) (m := m) (p := p) (rem := rem)
  refine ⟨_, _, hfound hlt, rfl, rfl, hf.sound hok hsound (by omega), hf.ok hok, hrises.pairwise, fun c hc => ?_, fun hhash => ?_,
    fun hshort => ?_, hfiled, fun h4 => hfiled.entries (by omega)⟩
  · obtain ⟨h1, hd, hrep⟩ := find_isMatch hok hsound c hc
    obtain ⟨h2, hle⟩ := hrises.range c hc
    exact ⟨h2, hle, h1, hd, hrep⟩
  · show (find s.build a w m p rem).2.own = m.own ∧ (rem < 4 → (find s.build a w m p rem).1 = [])
    rw [find_eq_hashChainFind hhash]
    exact hashChainFind_own
  · have hskip : skipAt w m p rem = m := by rw [skipAt, if_neg (Nat.not_le.mpr hshort)]
    have heq := hf.eq
    rw [hskip] at heq
    exact congrArg (fun m' : MatchFinder => { m' with next := p + 1, cache := some (p, (find s.build a w m p rem).1) }) heq

/-- After MF.RESET the first MF.FIND answers nothing (R754, R760 c). -/
theorem exec_mfFind_afterReset {s : State} (hs : s.unitsFree) (hlt : s.lane0.win.cur < s.lane0.win.endPos) :
    ∃ t l, exec .mfReset s = .next t ∧ exec .mfFind t = .next (t.completed 0 [] 0 l) ∧ l.mf.cache = some (s.lane0.win.cur, []) := by
  obtain ⟨a, ha⟩ := Option.isSome_iff_exists.mp hs.1
  have hfind := (exec_mfFind (s := s.completed 0 [] 0 { s.lane0 with mf := mfReset s.lane0.win }) hs ha).1 hlt
  obtain ⟨hlist, hcache⟩ := searchAndCache_mfReset (b := s.build) (a := a) (w := s.lane0.win) (w' := s.lane0.win)
    (p := s.lane0.win.cur) (rem := s.lane0.win.endPos - s.lane0.win.cur)
  exact ⟨_, _, exec_mfReset hs, hfind.trans (by rw [← List.length_nil, ← hlist]; rfl), hcache⟩

/-- Settles O41: each command's rule; the positions that MF.SKIP passes are filed one after another. -/
theorem mfResetCandSkip : Obligations.MfResetCandSkip := by
  refine ⟨fun s hs => exec_mfReset hs, fun s hs hlt => exec_mfFind_afterReset hs hlt, fun s i hs => ?_, fun s n hs => ?_⟩
  · obtain ⟨hsome, hnone⟩ := exec_mfCand (i := i) hs
    rw [MatchFinder.candidates_eq] at hsome hnone
    refine ⟨fun len d hc => ?_, fun hle => hnone (List.getElem?_eq_none hle)⟩
    rw [Nat.shiftLeft_eq]
    exact hsome (len, d) hc
  · obtain ⟨a, ha⟩ := Option.isSome_iff_exists.mp hs.1
    obtain ⟨hskip, hrefused⟩ := exec_mfSkip (n := n) hs ha
    refine ⟨fun hlt => hrefused (Nat.not_le.mpr hlt), fun hle hsound hok => ⟨_, hskip hle, ?_⟩⟩
    obtain ⟨hnext, -, hok', hsound'⟩ := skipMany_sound (b := s.build) (a := a) hok hsound (Nat.le_refl _) hle
    have hfiled : MatchFinder.Filed s.lane0.win s.lane0.mf (skipMany s.build a s.lane0.win s.lane0.win.endPos n.toNat s.lane0.mf)
      s.lane0.mf.next (s.lane0.mf.next + n.toNat) := skipMany_filed hok
    refine ⟨hnext, rfl, hnext ▸ hsound', hok', fun hn => by rw [hn]; rfl, hfiled, fun p hp1 hp2 hend => ?_⟩
    obtain ⟨q, hpq, hq, hlast, hhash⟩ := exists_lastFiled (f := Hashes.h4) hp1 hp2 hend
    obtain ⟨-, -, ht4, -⟩ := hfiled
    refine ⟨q, hpq, hq, (ht4 _).trans ?_, hhash⟩
    rw [hlast, Option.some_or]

end Sys2Proof.Machine
end

section
/-! PROOFS. The finder inside a segment: whatever the parser, it stays sound and inside the segment, so that it stands at the segment's end
when the segment is coded (R730 to R733, R761, R810, R852). -/

namespace Sys2Proof.Machine

/-! ## A finder that searches ahead (R733, R761) -/

/-- The finder is sound, and the position whose candidates it caches has been searched: what `Lane.FinderOk` says of any lane. -/
structure MatchFinder.Tidy (w : Window) (m : MatchFinder) : Prop where
  sound : m.Sound w m.next
  cached : ∀ q list, m.cache = some (q, list) → q < m.next

/-- A search leaves the finder sound one position on, its candidates cached (R733, R755). -/
theorem searchAndCache_tidy {b : Build} {a : Act} {w : Window} {m : MatchFinder} {p rem : Nat} (hok : m.Ok) (hs : m.Sound w p)
    (hrem : p + rem ≤ w.endPos) : (searchAndCache b a w m p rem).2.Ok ∧ (searchAndCache b a w m p rem).2.Tidy w := by
  have hf := filedAt_find (b := b) (a := a) (w := w) (m := m) (p := p) (rem := rem)
  refine ⟨hf.ok hok, hf.sound hok hs hrem, fun q list hq => ?_⟩
  obtain ⟨rfl, -⟩ := Prod.mk.inj (Option.some.inj hq)
  exact Nat.lt_succ_self _

/-- The finder is sound and not beyond the segment's end. -/
structure FinderAhead (w : Window) (segEnd : Nat) (m : MatchFinder) : Prop where
  ok : m.Ok
  tidy : m.Tidy w
  next_le_end : m.next ≤ segEnd

theorem FinderReady.ahead {w : Window} {segEnd cur : Nat} {m : MatchFinder} (h : FinderReady w segEnd cur m) : FinderAhead w segEnd m :=
  ⟨h.ok, ⟨h.sound, fun q list hq => (h.cached q list hq).1⟩, h.next_le_end⟩

/-- What a substitute remembers is no part of it. -/
theorem FinderAhead.withOwn {w : Window} {segEnd : Nat} {m : MatchFinder} {o : Substitutes} (h : FinderAhead w segEnd m) :
    FinderAhead w segEnd { m with own := o } := ⟨h.ok, ⟨h.tidy.sound, h.tidy.cached⟩, h.next_le_end⟩

theorem FinderAhead.search {b : Build} {a : Act} {w : Window} {segEnd p : Nat} {m : MatchFinder} (h : FinderAhead w segEnd m)
    (hend : segEnd ≤ w.endPos) (hnext : m.next ≤ p) (hlt : p < segEnd) :
    FinderAhead w segEnd (searchAndCache b a w m p (segEnd - p)).2 := by
  obtain ⟨hok, htidy⟩ := searchAndCache_tidy (b := b) (a := a) (rem := segEnd - p) h.ok (h.tidy.sound.mono hnext) (by omega)
  exact ⟨hok, htidy, hlt⟩

theorem FinderAhead.skipMany {b : Build} {a : Act} {w : Window} {segEnd n : Nat} {m : MatchFinder} (h : FinderAhead w segEnd m)
    (hend : segEnd ≤ w.endPos) (hn : m.next + n ≤ segEnd) : FinderAhead w segEnd (skipMany b a w segEnd n m) := by
  obtain ⟨hnext, hcache, hok, hsound⟩ := skipMany_sound (b := b) (a := a) h.ok h.tidy.sound hend hn
  refine ⟨hok, ⟨hnext ▸ hsound, fun q list hq => ?_⟩, hnext ▸ hn⟩
  have := h.tidy.cached q list (hcache ▸ hq)
  omega

/-- One more position of the segment is searched, the first not yet given to the finder (R733, R761). -/
theorem searchAhead_ahead {b : Build} {a : Act} {segEnd : Nat} {l : Lane} (h : FinderAhead l.win segEnd l.mf)
    (hend : segEnd ≤ l.win.endPos) (hlt : max l.mf.next l.win.cur < segEnd) :
    FinderAhead (searchAhead b a segEnd l).win segEnd (searchAhead b a segEnd l).mf :=
  (h.search hend (Nat.le_max_left _ _) hlt).withOwn

/-- A substitute parser has positions of the segment searched, each the first not yet given to the finder (R761). -/
theorem askParser_ahead {which : Nat} {b : Build} {a : Act} {most segEnd turns : Nat} {l : Lane}
    (h : FinderAhead l.win segEnd l.mf) (hend : segEnd ≤ l.win.endPos) :
    FinderAhead l.win segEnd (askParser which b a most segEnd turns l).2.mf := by
  induction turns generalizing l with
  | zero => exact h
  | succ turns ih =>
    simp only [askParser]
    generalize Config.optParser which a.niceLen.toNat a.depth.toNat l most segEnd = r
    split
    · exact h.withOwn
    · split
      · rename_i hlt
        exact ih (l := searchAhead b a segEnd { l with mf := { l.mf with own := { l.mf.own with parser := r.2 } } })
          (searchAhead_ahead h.withOwn hend hlt) hend
      · exact h.withOwn

/-! ## The finder between symbols (R730, R731) -/

/-- The finder stands inside the segment at coding position `cur`; where the parser is GREEDY_LAZY, ready there. -/
structure FinderInSegment (b : Build) (a : Act) (w : Window) (segEnd cur : Nat) (m : MatchFinder) : Prop where
  ahead : FinderAhead w segEnd m
  lazy : LazyParser b a → FinderReady w segEnd cur m

theorem FinderInSegment.moveOn {b : Build} {a : Act} {w : Window} {segEnd cur cur' : Nat} {m : MatchFinder}
    (h : FinderInSegment b a w segEnd cur m) (hle : cur ≤ cur') : FinderInSegment b a w segEnd cur' m := by
  refine ⟨h.ahead, fun hz => ?_⟩
  rcases Nat.lt_or_eq_of_le hle with hlt | rfl
  · exact (h.lazy hz).moveOn hlt
  · exact h.lazy hz

/-- The window's coding position is no part of what the finder sees. -/
theorem FinderInSegment.withCur {b : Build} {a : Act} {w : Window} {segEnd cur c : Nat} {m : MatchFinder}
    (h : FinderInSegment b a w segEnd cur m) : FinderInSegment b a { w with cur := c } segEnd cur m :=
  ⟨⟨h.ahead.ok, ⟨h.ahead.tidy.sound, h.ahead.tidy.cached⟩, h.ahead.next_le_end⟩, fun hz => (h.lazy hz).withCur⟩

/-- `Advance` (R731). -/
theorem FinderInSegment.skipMany {b : Build} {a : Act} {w : Window} {segEnd cur : Nat} {m : MatchFinder}
    (h : FinderInSegment b a w segEnd cur m) (hend : segEnd ≤ w.endPos) (hcur : cur ≤ segEnd) :
    FinderInSegment b a w segEnd cur (skipMany b a w segEnd (cur - m.next) m) := by
  have hnext := h.ahead.next_le_end
  exact ⟨h.ahead.skipMany hend (by omega), fun hz => (h.lazy hz).skipMany hend hcur (Nat.le_refl _)⟩

/-- GREEDY_LAZY searches the coding position and the next one at most, whatever it chooses (R730). -/
theorem greedyLazy_finderReady {b : Build} {a : Act} {most segEnd : Nat} {l : Lane} (h : FinderReady l.win segEnd l.win.cur l.mf)
    (hlt : l.win.cur < segEnd) (hend : segEnd ≤ l.win.endPos) :
    FinderReady l.win segEnd (l.win.cur + 1) (greedyLazy b a most segEnd l).2.mf := by
  obtain ⟨-, m1, hl1, hf1⟩ := h.cands (b := b) (a := a) hend hlt
  have hon := hf1.moveOn (Nat.lt_succ_self l.win.cur)
  simp only [greedyLazy]
  generalize cands b a segEnd l.win.cur l = r at *
  obtain ⟨list, l1⟩ := r
  obtain rfl : l1 = { l with mf := m1 } := hl1
  split
  · exact hon
  · split
    · exact hon
    · split
      · exact hon
      · split
        · rename_i hlazy
          obtain ⟨-, m2, hl2, hf2⟩ := FinderReady.cands (b := b) (a := a) (l := { l with mf := m1 }) hon hend hlazy.2
          rw [show m2 = (cands b a segEnd (l.win.cur + 1) { l with mf := m1 }).2.mf by rw [hl2]] at hf2
          split <;> exact hf2
        · exact hon

theorem choose_eq_greedyLazy {b : Build} {a : Act} {most segEnd : Nat} {l : Lane} (h : LazyParser b a) :
    choose b a most segEnd l = greedyLazy b a most segEnd l := by
  rcases h with h | h
  · rw [choose, h, if_neg Bool.false_ne_true]
  · exact choose_default h

theorem choose_eq_askParser {b : Build} {a : Act} {most segEnd : Nat} {l : Lane} (h : ¬ LazyParser b a) :
    ∃ which, choose b a most segEnd l = askParser which b a most segEnd (segEnd - l.win.cur + 1) l := by
  obtain ⟨hmode, hparser⟩ := not_or.mp h
  obtain ⟨which, hwhich⟩ := Option.ne_none_iff_exists'.mp hparser
  exact ⟨which, by rw [choose, if_pos (by simpa using hmode), optimalParser, hwhich]⟩

theorem choose_finder {b : Build} {a : Act} {most segEnd : Nat} {l : Lane} (h : FinderInSegment b a l.win segEnd l.win.cur l.mf)
    (hlt : l.win.cur < segEnd) (hend : segEnd ≤ l.win.endPos) :
    FinderInSegment b a l.win segEnd (l.win.cur + 1) (choose b a most segEnd l).2.mf := by
  by_cases hz : LazyParser b a
  · rw [choose_eq_greedyLazy hz]
    have hready := greedyLazy_finderReady (b := b) (a := a) (most := most) (h.lazy hz) hlt hend
    exact ⟨hready.ahead, fun _ => hready⟩
  · obtain ⟨which, hwhich⟩ := choose_eq_askParser (most := most) (segEnd := segEnd) (l := l) hz
    rw [hwhich]
    exact ⟨askParser_ahead h.ahead hend, fun hz' => absurd hz' hz⟩

/-! ## The lane of a segment (R810, R811) -/

/-- The lane codes a segment of its window, its finder inside it. -/
structure Lane.InSegment (b : Build) (a : Act) (segEnd : Nat) (l : Lane) : Prop where
  cur_le : l.win.cur ≤ segEnd
  end_le : segEnd ≤ l.win.endPos
  finder : FinderInSegment b a l.win segEnd l.win.cur l.mf

theorem Lane.InSegment.congr {b : Build} {a : Act} {segEnd : Nat} {l l' : Lane} (h : l.InSegment b a segEnd) (hwin : l'.win = l.win)
    (hmf : l'.mf = l.mf) : l'.InSegment b a segEnd := by
  obtain ⟨h1, h2, h3⟩ := h
  rw [← hwin] at h1 h2 h3
  exact ⟨h1, h2, hmf ▸ h3⟩

section
variable {b : Build} {a : Act} {segEnd : Nat} {l : Lane}

theorem codeSymbol_inSegment {most : Nat} (h : l.InSegment b a segEnd) (h1 : 1 ≤ most) (hmost : l.win.cur + most ≤ segEnd) :
    (codeSymbol b a most segEnd l).2.InSegment b a segEnd := by
  obtain ⟨m, hl, hformed, -, -⟩ := choose_chosen (b := b) (a := a) (most := most) (segEnd := segEnd) (l := l)
  have hf := choose_finder (most := most) h.finder (by omega) h.end_le
  generalize hr : choose b a most segEnd l = r at *
  obtain ⟨c, l1⟩ := r
  obtain rfl : l1 = { l with mf := m } := hl
  obtain ⟨hpos, hlen⟩ : 1 ≤ c.sym.len ∧ c.sym.len ≤ most := Choice.sym_len ▸ hformed.len h1
  have heq : (codeSymbol b a most segEnd l).2 = advance b a segEnd { c.sym.coded l with mf := m } := by
    simp only [codeSymbol, hr, hformed.encSym_eq, Sym.coded_withMf]
  rw [heq]
  have hcur : l.win.cur + c.sym.len ≤ segEnd := by omega
  exact ⟨hcur, h.end_le, ((hf.moveOn (Nat.add_le_add_left hpos _)).withCur (c := l.win.cur + c.sym.len)).skipMany h.end_le hcur⟩

theorem codeChunk_inSegment {fuel cu : Nat} (h : l.InSegment b a segEnd) : (codeChunk b a segEnd fuel cu l).2.InSegment b a segEnd := by
  induction fuel generalizing cu l with
  | zero => exact h
  | succ fuel ih =>
    simp only [codeChunk]
    split
    · rename_i hgo
      obtain ⟨hlt, hu, -⟩ := hgo
      exact ih (codeSymbol_inSegment h (by rw [Config.matchLenMax]; omega) (by omega))
    · exact h

theorem emitChunk_inSegment {start cu : Nat} (h : l.InSegment b a segEnd) : (emitChunk start cu l).2.InSegment b a segEnd := by
  simp only [emitChunk]
  split <;> exact h.congr rfl rfl

theorem encodeChunk_inSegment (h : l.InSegment b a segEnd) : (encodeChunk b a segEnd l).2.InSegment b a segEnd :=
  emitChunk_inSegment ((codeChunk_inSegment (h.congr (l' := { l with rce := RangeEnc.fresh }) rfl rfl)).congr rfl rfl)

theorem encodeSegmentLoop_inSegment {fuel : Nat} (h : l.InSegment b a segEnd) :
    (encodeSegmentLoop b a segEnd fuel l).2.InSegment b a segEnd := by
  induction fuel generalizing l with
  | zero => exact h
  | succ fuel ih =>
    simp only [encodeSegmentLoop]
    split
    · exact ih (encodeChunk_inSegment h)
    · exact h

end

end Sys2Proof.Machine
end

section
/-! PROOFS. What every command's rule leaves of the finder: it is the same, or searches and skips where it stands, or is emptied; bytes come to
the end of the window alone; and an encoder session's finder ends a segment at its end (R712 to R714, R731, R733, R750 to R757, R802, R852,
R854). -/

namespace Sys2Proof.Machine

/-! ## A lane whose finder is sound -/

theorem Lane.finderOk_iff {l : Lane} : l.FinderOk ↔
    l.mf.Tidy l.win ∧ (l.l2e.active = true → l.mf.next ≤ l.win.cur) ∧ (l.l2d.active = true → l.mf = MatchFinder.fresh) :=
  ⟨fun ⟨h1, h2, h3, h4⟩ => ⟨⟨h1, h2⟩, h3, h4⟩, fun ⟨⟨h1, h2⟩, h3, h4⟩ => ⟨h1, h2, h3, h4⟩⟩

theorem fresh_tidy {w : Window} : MatchFinder.fresh.Tidy w := ⟨sound_of_empty, fun _ _ h => nomatch h⟩

theorem mfReset_tidy {w w' : Window} : (mfReset w').Tidy w := ⟨sound_of_empty, fun _ _ h => nomatch h⟩

/-- An empty finder is sound, session or no session (R1102). -/
theorem finderOk_of_fresh {l : Lane} (h : l.mf = MatchFinder.fresh) : l.FinderOk := by
  rw [Lane.finderOk_iff, h]
  exact ⟨fresh_tidy, fun _ => Nat.zero_le _, fun _ => rfl⟩

theorem laneInit_mf {a : Option Act} : (laneInit a).mf = MatchFinder.fresh := by cases a <;> rfl

/-- Where no session is open nothing more is asked of the finder. -/
theorem finderOk_of_free {l : Lane} (hfree : l.Free) (h : l.mf.Tidy l.win) : l.FinderOk :=
  Lane.finderOk_iff.mpr ⟨h, fun hopen => absurd (.inl hopen) hfree.not_open, fun hopen => absurd (.inr hopen) hfree.not_open⟩

/-- Bytes put or fed at the window's end leave the finder sound (R630, R751, R752). -/
theorem MatchFinder.Tidy.feed {w : Window} {m : MatchFinder} {bs : List Byte} (h : m.Tidy w) : m.Tidy (w.feed bs) :=
  ⟨h.sound.feed, h.cached⟩

/-- The window's coding position is no part of it. -/
theorem MatchFinder.Tidy.withCur {w : Window} {m : MatchFinder} {c : Nat} (h : m.Tidy w) : m.Tidy { w with cur := c } :=
  ⟨h.sound, h.cached⟩

/-- A sound lane's finder stays sound from `l` to `l'`. -/
def Lane.KeepsFinder (l l' : Lane) : Prop := l.Sound → l.FinderOk → l'.FinderOk

theorem keepsFinder_of_fresh {l l' : Lane} (h : l'.mf = MatchFinder.fresh) : l.KeepsFinder l' := fun _ _ => finderOk_of_fresh h

theorem laneInit_keepsFinder {l : Lane} {a : Option Act} : l.KeepsFinder (laneInit a) := keepsFinder_of_fresh laneInit_mf

theorem keepsFinder_of_eq {l l' : Lane} (h : l' = l) : l.KeepsFinder l' := fun _ hf => h ▸ hf

/-- Neither the window nor the finder nor a session changes. -/
theorem keepsFinder_of_same {l l' : Lane} (hwin : l'.win = l.win) (hmf : l'.mf = l.mf) (hl2e : l'.l2e = l.l2e) (hl2d : l'.l2d = l.l2d) :
    l.KeepsFinder l' := fun _ h => by
  rw [Lane.finderOk_iff] at h ⊢
  rw [hwin, hmf, hl2e, hl2d]
  exact h

/-- The window and the finder change where no session is open. -/
theorem Lane.withWindow_keepsFinder {l : Lane} {w : Window} {m : MatchFinder} (hfree : l.Free)
    (h : l.mf.Ok → l.mf.Tidy l.win → m.Tidy w) : l.KeepsFinder { l with win := w, mf := m } := fun hl hf =>
  finderOk_of_free hfree (h hl.mf (Lane.finderOk_iff.mp hf).1)

/-- A symbol is coded where no session is open (R611). -/
theorem Sym.coded_keepsFinder {y : Sym} {l : Lane} (hfree : l.Free) : l.KeepsFinder (y.coded l) := fun _ h => by
  have htidy := (Lane.finderOk_iff.mp h).1.withCur (c := l.win.cur + y.len)
  rw [Sym.coded_frame]
  exact finderOk_of_free hfree htidy

/-! ## What decoding puts (R630) -/

/-- Where the computation from `c`, which has no lookahead, completes, the window has grown by what was put. -/
def PutsBytes {α : Type} (c : DecCtx) (r : Res DecCtx α) : Prop :=
  c.lane.win.endPos = c.lane.win.cur → r.Ends (fun _ c' => ∃ bs, c'.lane.win = c.lane.win.append bs) fun _ _ => True

theorem PutsBytes.pure {α : Type} {c : DecCtx} {a : α} : PutsBytes c (.ok a c) := fun _ =>
  ⟨[], congrArg (·.lane.win) (putBytes_nil (c := c)).symm⟩

theorem PutsBytes.bind {α β : Type} {c : DecCtx} {r : Res DecCtx α} {f : α → DecCtx → Res DecCtx β} (h : PutsBytes c r)
    (hf : ∀ a c', PutsBytes c' (f a c')) : PutsBytes c (r.bind f) := fun hend =>
  (h hend).bind fun a c' ⟨bs, hbs⟩ => by
    have hend' : c'.lane.win.endPos = c'.lane.win.cur := by rw [hbs, Window.append_endPos, hend]; rfl
    refine (hf a c' hend').mono (fun _ c'' ⟨bs', hbs'⟩ => ⟨bs ++ bs', ?_⟩) fun _ _ h => h
    rw [hbs', hbs]
    exact congrArg (·.lane.win) (putBytes_putBytes (a := bs) (b := bs') (c := c))

theorem decSymbol_putsBytes {q : SymLimits} {c : DecCtx} : PutsBytes c (decSymbol q c) := fun hend =>
  (decSymbol_puts hend).mono (fun _ _ ⟨bs, h⟩ => ⟨bs, h.win⟩) fun _ _ h => h

theorem decExactly_putsBytes {fuel n : Nat} {c : DecCtx} : PutsBytes c (decExactly fuel n c) := by
  induction fuel generalizing n c with
  | zero => exact .pure
  | succ fuel ih =>
    rw [decExactly]
    split
    · exact .pure
    · exact decSymbol_putsBytes.bind fun _ _ => ih

theorem decMarkerLoop_putsBytes {q : Nat → SymLimits} {fuel n : Nat} {c : DecCtx} : PutsBytes c (decMarkerLoop q fuel n c) := by
  induction fuel generalizing n c with
  | zero => exact fun _ => trivial
  | succ fuel ih =>
    refine decSymbol_putsBytes.bind fun y c => ?_
    split
    · exact .pure
    · exact ih

/-- Decoding that adds to the window leaves the finder sound where no session is open (R630). -/
theorem Lane.DecodesTo.keepsFinder {l l' : Lane} {bs : List Byte} (h : l.DecodesTo l') (hfree : l.Free) (hwin : l'.win = l.win.append bs) :
    l.KeepsFinder l' := fun _ hf => by
  have hl2e : l'.l2e = l.l2e := by rw [h.eq]
  have hmf : l'.mf = l.mf := by rw [h.eq]
  refine finderOk_of_free ⟨hl2e ▸ hfree.1, h.active.trans hfree.2⟩ ?_
  rw [hmf, hwin]
  exact (Lane.finderOk_iff.mp hf).1.feed.withCur

/-! ## Rules that keep the finder -/

/-- Where the computation from `t` completes, lane 0's finder has stayed sound. -/
abbrev FinderKept {α : Type} (t : State) (r : Res State α) : Prop := r.Ends (fun _ u => t.lane0.KeepsFinder u.lane0) fun _ _ => True

/-- A rule that changes lane 0 beside its window, its finder and its sessions. -/
theorem FinderKept.lane {t u : State} {v : BitVec 64} (hwin : u.lane0.win = t.lane0.win) (hmf : u.lane0.mf = t.lane0.mf)
    (hl2e : u.lane0.l2e = t.lane0.l2e) (hl2d : u.lane0.l2d = t.lane0.l2d) : FinderKept t (.ok v u) :=
  keepsFinder_of_same hwin hmf hl2e hl2d

theorem FinderKept.answer {t : State} {v : Nat} : FinderKept t (answer v t) := .lane rfl rfl rfl rfl

theorem FinderKept.require {t : State} {b : Bool} {c : Cause} {r : Res State (BitVec 64)} (h : b = true → FinderKept t r) :
    FinderKept t (require b c t r) := by
  cases b with
  | false => exact trivial
  | true => exact h rfl

theorem FinderKept.withAct {t : State} {k : Act → Res State (BitVec 64)} (h : ∀ a, t.act = some a → FinderKept t (k a)) :
    FinderKept t (withAct t k) := by
  rw [Machine.withAct]
  cases ha : t.act with
  | none => exact trivial
  | some a => exact h a ha

/-- A computation that reads bits on lane 0. -/
theorem FinderKept.readsBits {α : Type} {t : State} {f : DecCtx → Res DecCtx α} {v : α → BitVec 64} {n : Nat}
    (h : ∀ c, ReadsBits n c (f c)) : FinderKept t ((onIn f t).bind fun a u => .ok (v a) u) := by
  refine ((onIn_ends (h { lane := t.lane0, src := t.inp, out := t.stage })).mono (fun _ _ h => h) fun _ _ _ => trivial).bind
    fun _ _ ⟨c, hc, hu⟩ => ?_
  rw [hu]
  have hlane : c.lane = { t.lane0 with prob := c.lane.prob, rcd := c.lane.rcd } := congrArg DecCtx.lane hc.eq
  refine keepsFinder_of_same ?_ ?_ ?_ ?_ <;>
  · show _ = _
    rw [hlane]

/-- A computation that decodes symbols on lane 0. -/
theorem FinderKept.decodes {α : Type} {t : State} {f : DecCtx → Res DecCtx α} {v : α → BitVec 64} (hfree : t.lane0.Free)
    (hend : t.lane0.win.endPos = t.lane0.win.cur) (h : ∀ c, Decodes c (f c)) (hputs : ∀ c, PutsBytes c (f c)) :
    FinderKept t ((onIn f t).bind fun a u => .ok (v a) u) := by
  have hstep := h { lane := t.lane0, src := t.inp, out := t.stage }
  have hgrows := hputs { lane := t.lane0, src := t.inp, out := t.stage } hend
  have hboth := (hstep.and hgrows).mono (fun _ _ h => h) fun _ _ h => h.1
  refine ((onIn_ends hboth).mono (fun _ _ h => h) fun _ _ _ => trivial).bind fun _ _ ⟨c, ⟨hc, bs, hbs⟩, hu⟩ => ?_
  rw [hu]
  exact hc.lane.keepsFinder hfree hbs

/-- An LZE command codes its symbol where no session is open (R620). -/
theorem FinderKept.encodeOne {t : State} {pre : Bool} {f : Lane → Lane} {y : Sym} (hfree : t.lane0.Free)
    (hf : f t.lane0 = y.coded t.lane0) : FinderKept t (encodeOne pre f t) :=
  .require fun _ => .require fun _ => by
    rw [hf]
    exact Sym.coded_keepsFinder hfree

theorem FinderKept.decoderReady {t : State} {r : Res State (BitVec 64)} (h : t.lane0.win.endPos = t.lane0.win.cur → FinderKept t r) :
    FinderKept t (decoderReady t r) := .require fun _ => .require fun hend => h (of_decide_eq_true hend)

/-! ## Sessions (R802, R852, R854) -/

/-- A session's finder at the start of a segment: sound, and not ahead of the parser (R852). -/
theorem encoderLane_finder {t : State} (hl : t.lane0.Sound) (h : t.lane0.FinderOk) :
    (encoderLane t).mf.Ok ∧ (encoderLane t).mf.Tidy (encoderLane t).win ∧ (encoderLane t).mf.next ≤ (encoderLane t).win.cur ∧
      (encoderLane t).win.cur ≤ (encoderLane t).win.endPos := by
  rw [encoderLane]
  split
  · rename_i hactive
    obtain ⟨htidy, hnext, -⟩ := Lane.finderOk_iff.mp h
    exact ⟨hl.mf, htidy, hnext hactive, hl.cur_le⟩
  · have hcur : (laneInit t.act).win.cur ≤ (laneInit t.act).win.endPos := by cases t.act <;> exact Nat.zero_le _
    simp only [laneInit_mf]
    exact ⟨by decide, fresh_tidy, Nat.zero_le _, hcur⟩

/-- A finder that is not ahead of the parser stands ready for any segment (R730, R733). -/
theorem finderInSegment_of_le {b : Build} {a : Act} {w : Window} {segEnd cur : Nat} {m : MatchFinder} (hok : m.Ok) (h : m.Tidy w)
    (hnext : m.next ≤ cur) (hcur : cur ≤ segEnd) : FinderInSegment b a w segEnd cur m := by
  have hready : FinderReady w segEnd cur m := by
    refine ⟨hok, h.sound, Nat.le_succ_of_le hnext, Nat.le_trans hnext hcur, fun q list hq => ?_, fun hlt => ?_⟩
    · have hlt := h.cached q list hq
      exact ⟨hlt, fun hle => by omega⟩
    · omega
  exact ⟨hready.ahead, fun _ => hready⟩

/-- A session's segment ends with the finder at its end (R730, R731, R852). -/
theorem segment_finderOk {b : Build} {a : Act} {e : Lane} {x : List Byte} (hok : e.mf.Ok) (htidy : e.mf.Tidy e.win)
    (hnext : e.mf.next ≤ e.win.cur) (hcur : e.win.cur ≤ e.win.endPos) (hl2d : e.l2d.active = false) :
    (encodeSegment b a (e.win.feed x).endPos (e.fed x)).2.segmentDone.FinderOk := by
  have hfed : e.win.cur ≤ (e.win.feed x).endPos := by
    rw [Window.feed_endPos]
    omega
  have hseg : (encodeSegment b a (e.win.feed x).endPos (e.fed x)).2.InSegment b a (e.win.feed x).endPos :=
    encodeSegmentLoop_inSegment ⟨hfed, Nat.le_refl _, finderInSegment_of_le hok htidy.feed hnext hfed⟩
  obtain ⟨hlane, hdone⟩ := encodeSegment_encodesTo (b := b) (a := a) (e := e.fed x) (segEnd := (e.win.feed x).endPos) hfed
    (Nat.le_refl _)
  generalize (encodeSegment b a (e.win.feed x).endPos (e.fed x)).2 = m at *
  have hdec : m.l2d.active = false := by
    rw [hlane.eq]
    exact hl2d
  refine Lane.finderOk_iff.mpr ⟨hseg.finder.ahead.tidy, fun _ => ?_, fun hopen => ?_⟩
  · show m.mf.next ≤ m.win.cur
    rw [hdone]
    exact hseg.finder.ahead.next_le_end
  · rw [show m.segmentDone.l2d = m.l2d from rfl, hdec] at hopen
    exact nomatch hopen

/-- The finder of a decoder session is empty, and decoding leaves it so (R854). -/
theorem decoderLane_mf {t : State} (h : t.lane0.FinderOk) : (decoderLane t).mf = MatchFinder.fresh := by
  rw [decoderLane]
  split
  · rename_i hactive
    exact (Lane.finderOk_iff.mp h).2.2 hactive
  · exact laneInit_mf

end Sys2Proof.Machine
end

section
/-! PROOFS. The match finder stays sound: it is at reset, and every step of the block, the host and the reset input keeps it so (R712 to R714,
R731, R733). -/

namespace Sys2Proof.Machine

/-- The outcome `o` is that of `i` at `s`: after the checks of R1020, a rule that keeps the finder sound where it completes. -/
def RunsKeepingFinder (i : Instr) (s : State) (o : Host.Outcome State Fault Refusal) : Prop :=
  ∃ body, o = runCommand i body s ∧ ∀ t, precheck i t = none → FinderKept t (body t)

theorem RunsKeepingFinder.of {i : Instr} {body : Body} {s : State} (h : ∀ t, precheck i t = none → FinderKept t (body t)) :
    RunsKeepingFinder i s (runCommand i body s) := ⟨body, rfl, h⟩

/-! ## The range coder's, the store's and the state machine's commands -/

theorem rceReset_keepsFinder {s : State} : RunsKeepingFinder .rceReset s (execRceReset s) := .of fun _ _ => .lane rfl rfl rfl rfl

theorem rceBit_keepsFinder {s : State} {pi : BitVec 24} {b : Bool} : RunsKeepingFinder (.rceBit pi b) s (execRceBit pi b s) :=
  .of fun _ _ => .require fun _ => .lane rfl rfl rfl rfl

theorem rceDirect_keepsFinder {s : State} {v : BitVec 32} {n : BitVec 6} :
    RunsKeepingFinder (.rceDirect v n) s (execRceDirect v n s) := .of fun _ _ => .require fun _ => .lane rfl rfl rfl rfl

theorem rceFlush_keepsFinder {s : State} : RunsKeepingFinder .rceFlush s (execRceFlush s) := .of fun t _ => by
  simp only
  generalize encFlush t.lane0.rce = e
  exact .require fun _ => .lane rfl rfl rfl rfl

theorem rcePending_keepsFinder {s : State} : RunsKeepingFinder .rcePending s (execRcePending s) :=
  .of fun _ _ => .require fun _ => .answer

theorem rcdInit_keepsFinder {s : State} : RunsKeepingFinder .rcdInit s (execRcdInit s) :=
  .of fun _ _ => FinderKept.readsBits (n := 0) (v := fun _ => 0#64) fun _ => decInit_readsBits

theorem rcdBit_keepsFinder {s : State} {pi : BitVec 24} : RunsKeepingFinder (.rcdBit pi) s (execRcdBit pi s) :=
  .of fun _ _ => .require fun _ => FinderKept.readsBits (v := fun b : Bool => BitVec.ofNat 64 b.toNat) fun _ =>
    decBit_readsBits (Nat.lt_succ_self _)

theorem rcdDirect_keepsFinder {s : State} {n : BitVec 6} : RunsKeepingFinder (.rcdDirect n) s (execRcdDirect n s) :=
  .of fun _ _ => .require fun _ => FinderKept.readsBits (n := 0) (v := BitVec.ofNat 64) fun _ => decDirectFrom_readsBits

theorem rcdIsFinished_keepsFinder {s : State} : RunsKeepingFinder .rcdIsFinished s (execRcdIsFinished s) :=
  .of fun _ _ => .require fun _ => .answer

theorem probReset_keepsFinder {s : State} : RunsKeepingFinder .probReset s (execProbReset s) := .of fun _ _ => .lane rfl rfl rfl rfl

theorem probRead_keepsFinder {s : State} {pi : BitVec 24} : RunsKeepingFinder (.probRead pi) s (execProbRead pi s) :=
  .of fun _ _ => .answer

theorem probWrite_keepsFinder {s : State} {pi : BitVec 24} {v : BitVec 12} :
    RunsKeepingFinder (.probWrite pi v) s (execProbWrite pi v s) := .of fun _ _ => .lane rfl rfl rfl rfl

theorem lzSetProps_keepsFinder {s : State} {x : BitVec 8} : RunsKeepingFinder (.lzSetProps x) s (execLzSetProps x s) :=
  .of fun _ _ => .lane rfl rfl rfl rfl

theorem lzResetState_keepsFinder {s : State} : RunsKeepingFinder .lzResetState s (execLzResetState s) :=
  .of fun _ _ => .lane rfl rfl rfl rfl

theorem lzReadState_keepsFinder {s : State} : RunsKeepingFinder .lzReadState s (execLzReadState s) := .of fun _ _ => .answer

theorem lzReadRep_keepsFinder {s : State} {i : BitVec 16} : RunsKeepingFinder (.lzReadRep i) s (execLzReadRep i s) :=
  .of fun _ _ => .answer

/-! ## The symbol commands (R620 to R633) -/

theorem lzeLit_keepsFinder {s : State} : RunsKeepingFinder .lzeLit s (execLzeLit s) :=
  .of fun _ h => .encodeOne (free_of_lock h rfl) encLit_eq

theorem lzeMatch_keepsFinder {s : State} {d : BitVec 32} {l : BitVec 9} : RunsKeepingFinder (.lzeMatch d l) s (execLzeMatch d l s) :=
  .of fun _ h => by
    obtain ⟨-, h2, -⟩ := (precheck_none h).2.1
    exact .encodeOne (free_of_lock h rfl) (encMatch_eq h2)

theorem lzeRep_keepsFinder {s : State} {r : BitVec 2} {l : BitVec 9} : RunsKeepingFinder (.lzeRep r l) s (execLzeRep r l s) :=
  .of fun _ h => by
    obtain ⟨h2, -⟩ := (precheck_none h).2.1
    exact .encodeOne (free_of_lock h rfl) (encRep_eq (Nat.le_of_lt_succ r.isLt) h2)

theorem lzeShortrep_keepsFinder {s : State} : RunsKeepingFinder .lzeShortrep s (execLzeShortrep s) :=
  .of fun _ h => .encodeOne (free_of_lock h rfl) encShortrep_eq

theorem lzeEos_keepsFinder {s : State} : RunsKeepingFinder .lzeEos s (execLzeEos s) :=
  .of fun _ h => .encodeOne (free_of_lock h rfl) encEos_eq

theorem lzdSymbol_keepsFinder {s : State} {n : BitVec 48} : RunsKeepingFinder (.lzdSymbol n) s (execLzdSymbol n s) :=
  .of fun _ h => .decoderReady fun hend =>
    FinderKept.decodes (v := fun y => BitVec.ofNat 64 (symbolWord y)) (free_of_lock h rfl) hend
      (fun _ => decSymbol_decodes symbolLimits_inStream) fun _ => decSymbol_putsBytes

theorem lzdRun_keepsFinder {s : State} {n : BitVec 48} : RunsKeepingFinder (.lzdRun n) s (execLzdRun n s) :=
  .of fun _ h => .decoderReady fun hend => by
    have hfree := free_of_lock h rfl
    split
    · exact FinderKept.decodes (v := BitVec.ofNat 64) hfree hend (fun _ => decUntilMarker_decodes fun _ => symbolLimits_inStream)
        fun _ => decMarkerLoop_putsBytes
    · exact FinderKept.decodes (v := fun _ => BitVec.ofNat 64 n.toNat) hfree hend (fun _ => decExactly_decodes)
        fun _ => decExactly_putsBytes

/-! ## The window's and the finder's commands (R750 to R757) -/

theorem winReset_keepsFinder {s : State} : RunsKeepingFinder .winReset s (execWinReset s) :=
  .of fun _ h => .withAct fun _ _ => Lane.withWindow_keepsFinder (free_of_lock h rfl) fun _ _ => mfReset_tidy

theorem winFeed_keepsFinder {s : State} {n : BitVec 48} : RunsKeepingFinder (.winFeed n) s (execWinFeed n s) := .of fun t h => by
  refine (inUpTo_gives.mono (fun _ _ h => h.1) fun _ _ _ => trivial).bind fun bs u hu => ?_
  obtain ⟨rest, -, rfl⟩ := hu
  exact Lane.withWindow_keepsFinder (free_of_lock h rfl) fun _ htidy => htidy.feed

theorem winPut_keepsFinder {s : State} {x : BitVec 8} : RunsKeepingFinder (.winPut x) s (execWinPut x s) :=
  .of fun _ h => .require fun _ => Lane.withWindow_keepsFinder (free_of_lock h rfl) fun _ htidy => htidy.feed.withCur

theorem winGet_keepsFinder {s : State} {d : BitVec 32} : RunsKeepingFinder (.winGet d) s (execWinGet d s) := .of fun t _ => by
  simp only
  split <;> exact .require fun _ => .answer

theorem mfReset_keepsFinder {s : State} : RunsKeepingFinder .mfReset s (execMfReset s) :=
  .of fun _ h => Lane.withWindow_keepsFinder (free_of_lock h rfl) fun _ _ => mfReset_tidy

theorem mfFind_keepsFinder {s : State} : RunsKeepingFinder .mfFind s (execMfFind s) :=
  .of fun _ h => .withAct fun _ _ => .require fun hlt => Lane.withWindow_keepsFinder (free_of_lock h rfl) fun hok htidy => by
    have hlt := of_decide_eq_true hlt
    exact (searchAndCache_tidy hok htidy.sound (by omega)).2

theorem mfCand_keepsFinder {s : State} {i : BitVec 16} : RunsKeepingFinder (.mfCand i) s (execMfCand i s) := .of fun t _ => by
  split
  · exact .answer
  · trivial

theorem mfSkip_keepsFinder {s : State} {n : BitVec 48} : RunsKeepingFinder (.mfSkip n) s (execMfSkip n s) :=
  .of fun t h => .withAct fun a _ => .require fun hn => Lane.withWindow_keepsFinder (free_of_lock h rfl) fun hok htidy => by
    obtain ⟨hnext, -, -, hsound⟩ := skipMany_sound (b := t.build) (a := a) hok htidy.sound (Nat.le_refl _) (of_decide_eq_true hn)
    exact ⟨hnext ▸ hsound, fun _ _ h => nomatch h⟩

/-! ## The stream commands (R650 to R661, R850 to R854) -/

theorem lzmaEncode_keepsFinder {s : State} : RunsKeepingFinder .lzmaEncode s (execLzmaEncode s) :=
  .of fun _ _ => .withAct fun _ _ => Res.ends_trivial.bind fun _ _ _ => laneInit_keepsFinder

theorem lzmaDecode_keepsFinder {s : State} {n : BitVec 48} : RunsKeepingFinder (.lzmaDecode n) s (execLzmaDecode n s) :=
  .of fun _ _ => .withAct fun _ _ => Res.ends_trivial.bind fun _ _ _ => laneInit_keepsFinder

theorem l2Encode_keepsFinder {s : State} : RunsKeepingFinder .l2Encode s (execL2Encode s) :=
  .of fun _ _ => .withAct fun _ _ => .require fun _ => Res.ends_trivial.bind fun _ _ _ => laneInit_keepsFinder

theorem l2Decode_keepsFinder {s : State} : RunsKeepingFinder .l2Decode s (execL2Decode s) :=
  .of fun _ _ => .withAct fun _ _ => Res.ends_trivial.bind fun _ _ _ => laneInit_keepsFinder

theorem l2EncSegment_keepsFinder {s : State} {n : BitVec 48} : RunsKeepingFinder (.l2EncSegment n) s (execL2EncSegment n s) :=
  .of fun t h => .withAct fun a _ => .require fun _ => by
    have hl2d : t.lane0.l2d.active = false := by simpa [lockOk, lockOf] using (precheck_none h).2.2
    rw [openEncoder_eq]
    refine (inUpTo_gives.mono (fun _ _ h => h.1) fun _ _ _ => trivial).bind fun x u hu => ?_
    obtain ⟨rest, -, rfl⟩ := hu
    intro hl hf
    obtain ⟨hok, htidy, hnext, hcur⟩ := encoderLane_finder hl hf
    exact segment_finderOk (b := t.build) (a := a) (e := encoderLane t) (x := x) hok htidy hnext hcur (encoderLane_l2d hl2d)

theorem l2EncEnd_keepsFinder {s : State} : RunsKeepingFinder .l2EncEnd s (execL2EncEnd s) := .of fun t _ => by
  simp only
  split
  · exact laneInit_keepsFinder
  · exact .lane rfl rfl rfl rfl

theorem l2DecChunk_keepsFinder {s : State} : RunsKeepingFinder .l2DecChunk s (execL2DecChunk s) :=
  .of fun t _ => .withAct fun a _ => by
    simp only [openDecoder_eq]
    refine ((atChunk_decodesLane decodeChunk_decodesLane).mono (fun _ _ h => h) fun _ _ _ => trivial).bind fun r u ⟨_, hlane⟩ => ?_
    cases r with
    | none => exact laneInit_keepsFinder
    | some k =>
      intro _ hf
      refine finderOk_of_fresh (Eq.trans ?_ (decoderLane_mf hf))
      show u.lane0.mf = (decoderLane t).mf
      rw [hlane.eq]
      rfl

/-! ## Every command -/

/-- Every command but SYS's runs a rule that keeps the finder sound. -/
theorem exec_runsKeepingFinder {i : Instr} {s : State} (hi : isSys i = false) : RunsKeepingFinder i s (exec i s) := by
  cases i with
  | sysNop | sysSoftReset | sysClearErr | sysConfigure => exact nomatch hi
  | rceReset => exact rceReset_keepsFinder
  | rceBit => exact rceBit_keepsFinder
  | rceDirect => exact rceDirect_keepsFinder
  | rceFlush => exact rceFlush_keepsFinder
  | rcePending => exact rcePending_keepsFinder
  | rcdInit => exact rcdInit_keepsFinder
  | rcdBit => exact rcdBit_keepsFinder
  | rcdDirect => exact rcdDirect_keepsFinder
  | rcdIsFinished => exact rcdIsFinished_keepsFinder
  | probReset => exact probReset_keepsFinder
  | probRead => exact probRead_keepsFinder
  | probWrite => exact probWrite_keepsFinder
  | lzSetProps => exact lzSetProps_keepsFinder
  | lzResetState => exact lzResetState_keepsFinder
  | lzReadState => exact lzReadState_keepsFinder
  | lzReadRep => exact lzReadRep_keepsFinder
  | lzeLit => exact lzeLit_keepsFinder
  | lzeMatch => exact lzeMatch_keepsFinder
  | lzeRep => exact lzeRep_keepsFinder
  | lzeShortrep => exact lzeShortrep_keepsFinder
  | lzeEos => exact lzeEos_keepsFinder
  | lzdSymbol => exact lzdSymbol_keepsFinder
  | lzdRun => exact lzdRun_keepsFinder
  | winReset => exact winReset_keepsFinder
  | winFeed => exact winFeed_keepsFinder
  | winPut => exact winPut_keepsFinder
  | winGet => exact winGet_keepsFinder
  | mfReset => exact mfReset_keepsFinder
  | mfFind => exact mfFind_keepsFinder
  | mfCand => exact mfCand_keepsFinder
  | mfSkip => exact mfSkip_keepsFinder
  | l2Encode => exact l2Encode_keepsFinder
  | l2Decode => exact l2Decode_keepsFinder
  | l2EncSegment => exact l2EncSegment_keepsFinder
  | l2EncEnd => exact l2EncEnd_keepsFinder
  | l2DecChunk => exact l2DecChunk_keepsFinder
  | lzmaEncode => exact lzmaEncode_keepsFinder
  | lzmaDecode => exact lzmaDecode_keepsFinder

/-- A SYS command leaves lane 0 or initialises it (R1040 to R1043). -/
theorem exec_sys_keepsFinder {i : Instr} {s t : State} (hi : isSys i = true) (h : exec i s = .next t) :
    s.lane0.KeepsFinder t.lane0 := by
  cases i with
  | sysNop =>
    rw [exec_sysNop_eq] at h
    cases h
    exact keepsFinder_of_eq rfl
  | sysSoftReset =>
    rw [exec_sysSoftReset_eq] at h
    cases h
    exact keepsFinder_of_fresh rfl
  | sysClearErr =>
    rw [exec_sysClearErr_eq] at h
    cases h
    exact keepsFinder_of_eq rfl
  | sysConfigure =>
    cases hc : configFault s.laneCount s.cfg.toAct with
    | none =>
      rw [exec_sysConfigure_ok hc] at h
      cases h
      exact laneInit_keepsFinder
    | some c =>
      rw [exec_sysConfigure_fails hc] at h
      cases h
      have hcls : c.cls ≠ .illegal := by
        rw [configFault_cls hc]
        decide
      rw [takeError_lane0_legal hcls]
      exact laneInit_keepsFinder
  | _ => exact nomatch hi

/-- A command that runs keeps the finder sound, however it ends (R331, R1010, R231). -/
theorem exec_keepsFinder {i : Instr} {s t : State} (hrun : s.err = false ∨ runsUnderError i = true) (h : exec i s = .next t) :
    s.lane0.KeepsFinder t.lane0 := by
  cases hi : isSys i with
  | true => exact exec_sys_keepsFinder hi h
  | false =>
    have herr : s.err = false := hrun.elim id fun hr => absurd (isSys_of_runsUnderError hr) (by rw [hi]; decide)
    rcases exec_next hi h with ⟨ht, -, -⟩ | ⟨e, he, ht⟩ | ⟨e, u, he, -, -, ht⟩ | ⟨v, u, -, hu, ht⟩
    · rw [ht]
      exact keepsFinder_of_eq rfl
    · rw [ht, takeError_lane0_illegal he]
      exact keepsFinder_of_eq rfl
    · rw [ht, takeError_lane0_legal he]
      exact laneInit_keepsFinder
    · have hquiet : t.err = false ∧ t.holding = none := by
        rw [ht]
        rw [complete_err, complete_holding, hu.work.eq]
        exact ⟨herr, rfl⟩
      obtain ⟨body, hexec, hkept⟩ := exec_runsKeepingFinder (s := s) hi
      rw [hexec] at h
      rcases runCommand_cases h with ⟨c, -, hraised⟩ | ⟨hp, -⟩
      · rw [hraised, takeError_err] at hquiet
        exact nomatch hquiet.1
      · obtain ⟨v', u', hbody, hcompleted⟩ := runCommand_eq_completed h hquiet.1 hquiet.2
        rw [hcompleted, complete_lane0]
        exact (hkept s.begin (precheck_begin.trans hp)).of_ok hbody

/-- The block's move (R330, R1020). -/
theorem blockStep_keepsFinder {s t : State} (h : blockStep s = .next t) : s.lane0.KeepsFinder t.lane0 := by
  rw [blockStep] at h
  split at h
  · cases h
    exact keepsFinder_of_eq rfl
  · rw [runWord] at h
    split at h
    · split at h
      · cases h
        exact keepsFinder_of_eq rfl
      · rename_i he
        refine exec_keepsFinder ?_ h
        cases hs : s.err with
        | false => exact .inl rfl
        | true => exact .inr (by simpa [hs] using he)
    · split at h
      · cases h
        exact keepsFinder_of_eq rfl
      · rename_i e _ _
        cases h
        exact keepsFinder_of_eq (takeError_lane0_illegal (s := s.begin) (by cases e <;> rfl))

theorem State.HostSide.keepsFinder {s t : State} (h : s.HostSide t) : s.lane0.KeepsFinder t.lane0 := by
  obtain ⟨heq, -⟩ := h
  exact keepsFinder_of_eq (by rw [heq])

theorem step_keepsFinder {s t : State} (h : step s = .next t) : s.lane0.KeepsFinder t.lane0 := by
  rw [step, moveNext] at h
  split at h
  · exact blockStep_keepsFinder h
  · exact (blockStep_keepsFinder h :)
  · exact (hostAct_hostSide h).keepsFinder
  · cases h
    exact keepsFinder_of_fresh rfl

/-- Settles O59: the finder is empty at reset, and a command leaves it as it is, searches or skips where it stands, or empties it. -/
theorem stepKeepsTheFinderSound : Obligations.StepKeepsTheFinderSound :=
  ⟨fun _ _ => finderOk_of_fresh rfl, fun _ _ hinv hfinder h => step_keepsFinder h (State.inv_iff.mp hinv).1.lane hfinder⟩

end Sys2Proof.Machine
end
